-- ==== Sys2Proof/Word.lean ====
section
/-! DEFINITION. The words of the part: bytes, nibbles, 16-bit quantities, and the index types of its tables. -/

namespace Sys2Proof

/-- A byte of the window, of a frame or of a block (00 section 0.5). -/
abbrev Byte := BitVec 8

/-- A nibble of a frame header (Table 1.2). -/
abbrev Nibble := BitVec 4

/-- A 16-bit quantity, read through the window low byte first (00 section 0.5). -/
abbrev Half := BitVec 16

/-- A block of the Block Pool, 0 to 63 (05 section 5.1). -/
abbrev BlockId := Fin 64

/-- A request slot, 0 to 31 (04 section 4.1). -/
abbrev SlotId := Fin 32

/-- A tag, which is an Exchange Table index, 0 to 15 (03). -/
abbrev Tag := Fin 16

/-- A station record: value `n` is the record of address `n + 1`, so 0 to 13 stand for 1 to 14 (R119). -/
abbrev StationId := Fin 14

/-- The trunk address of a station record. -/
def StationId.address (i : StationId) : Nat := i.val + 1

/-- The low byte of a 16-bit quantity. -/
def Half.low (h : Half) : Byte := h.setWidth 8

/-- The high byte of a 16-bit quantity. -/
def Half.high (h : Half) : Byte := (h >>> 8).setWidth 8

/-- A 16-bit quantity from its two bytes. -/
def Half.ofBytes (high low : Byte) : Half := high ++ low

end Sys2Proof
end

