-- ==== Sys2Proof/Config.lean ====
section
/-! DEFINITION. What the spec leaves open: free values with no body. Configuration items that software writes are
registers and stand in State. -/

namespace Sys2Proof

/-- FREE VALUE (log 11). What a byte of block memory that nothing has written since the last reset reads as, from the
number of resets taken and the address: "The data of every block is undefined after either reset" (R104). -/
opaque Config.undefinedData : Nat → Nat → BitVec 8

/-- FREE VALUE (log 7). Of two deliveries that the spec puts in no order, whether the second named goes first; applied to the count
`choices` of State, which the step advances. -/
opaque Config.secondFirst : Nat → Bool

end Sys2Proof
end

