-- ==== Sys2Proof/Syntax.lean ====
section
/-! DEFINITION. The commands of the block: one constructor for each row of spec/opcode_table.json. -/

namespace Sys2Proof

/-- How a contention is lost (R26): dominant read in a released rank bit, or recessive read in a driven bit. -/
inductive LossCause where
  | releasedBitDominant
  | readBackFault
deriving DecidableEq, Repr

/-- An access to BLOCK DATA (R109). -/
inductive BlockAccess where
  | read
  | write (value : Byte)
deriving DecidableEq, Repr

/-- The orders a tick leaves open (log 7): whether the Report Queue takes it before the Exchange Table (R42), and
whether the Exchange Table settles its rests before its deadlines (R59, R69). -/
structure TickOrder where
  reportsFirst : Bool
  restsFirst : Bool
deriving DecidableEq, Repr

/-- The commands. A COMMAND write takes its arguments from ARG0 and ARG1, which stand in State. -/
inductive Instr where
  /-- HARDWARE_RESET (R168). -/
  | hardwareReset
  /-- SOFT_RESET (R166): COMMAND written 0x0C. -/
  | softReset
  /-- SOFT_RESET_COMPLETE (R150). -/
  | softResetComplete
  /-- START (R95): COMMAND written 0x01. -/
  | start
  /-- CONTINUE (R96): COMMAND written 0x02. -/
  | continueChain
  /-- HALT (R97): COMMAND written 0x03. -/
  | halt
  /-- WITHDRAW (R66): COMMAND written 0x04. -/
  | withdraw
  /-- POP (R137): COMMAND written 0x05. -/
  | pop
  /-- TAKE_BLOCK (R106): COMMAND written 0x06. -/
  | takeBlock
  /-- FREE_CHAIN (R107): COMMAND written 0x07. -/
  | freeChain
  /-- FENCE (R123): COMMAND written 0x08. -/
  | fenceStation
  /-- ADMIT (R124): COMMAND written 0x09. -/
  | admitStation
  /-- TRUNK_RESET (R38): COMMAND written 0x0A. -/
  | trunkReset
  /-- CLEAR_COUNTERS (R164): COMMAND written 0x0B. -/
  | clearCounters
  /-- UNKNOWN (R161): COMMAND written with a code that is not in Table 8.4. -/
  | unknown (code : Byte)
  /-- COMMAND_OVERRUN (R162): COMMAND written while the port is busy. -/
  | commandOverrun (code : Byte)
  /-- WINDOW_WRITE (R152). -/
  | windowWrite (address : BitVec 5) (value : Byte)
  /-- SLOT_SELECT_WRITE (R156). -/
  | slotSelectWrite (value : Byte)
  /-- SLOT_FIELD_INDEX_WRITE (R156). -/
  | slotFieldIndexWrite (value : Byte)
  /-- SLOT_FIELD_DATA_WRITE (R74). -/
  | slotFieldDataWrite (value : Byte)
  /-- SLOT_FIELD_DATA_READ (R156). -/
  | slotFieldDataRead
  /-- REPORT_FIELD_INDEX_WRITE (R133). -/
  | reportFieldIndexWrite (value : Byte)
  /-- STATION_SELECT_WRITE (R157). -/
  | stationSelectWrite (value : Byte)
  /-- STATION_FIELD_INDEX_WRITE (R157). -/
  | stationFieldIndexWrite (value : Byte)
  /-- BLOCK_SELECT_WRITE (R108). -/
  | blockSelectWrite (value : Byte)
  /-- BLOCK_OFFSET_WRITE (R108). -/
  | blockOffsetWrite (value : Byte)
  /-- BLOCK_DATA_ACCESS (R109). -/
  | blockDataAccess (access : BlockAccess)
  /-- BLOCK_LINK_WRITE (R110). -/
  | blockLinkWrite (value : Byte)
  /-- CONFIG_INDEX_WRITE (R158). -/
  | configIndexWrite (value : Byte)
  /-- CONFIG_DATA_WRITE (R158). -/
  | configDataWrite (value : Byte)
  /-- TRUNK_DIVIDER_LOW_WRITE (R159). -/
  | trunkDividerLowWrite (value : Byte)
  /-- TRUNK_DIVIDER_HIGH_WRITE (R159). -/
  | trunkDividerHighWrite (value : Byte)
  /-- TRUNK_ENABLE_WRITE (R22). -/
  | trunkEnableWrite (value : Byte)
  /-- EVENTS_WRITE (R146). -/
  | eventsWrite (value : Byte)
  /-- EVENT_MASK_WRITE (R147). -/
  | eventMaskWrite (value : Byte)
  /-- COUNTER_INDEX_WRITE (R175). -/
  | counterIndexWrite (value : Byte)
  /-- COUNTER_DATA_READ (R175). -/
  | counterDataRead
  /-- TICK (R42). -/
  | tick (order : TickOrder)
  /-- DEADLINE_EXPIRY (R59). -/
  | deadlineExpiry (tag : Tag)
  /-- REST_END (R69). -/
  | restEnd (tag : Tag)
  /-- COALESCING_TIMER_EXPIRY (R144). -/
  | coalescingTimerExpiry
  /-- LINE_IDLE (R23). -/
  | lineIdle
  /-- FAULT_CLEAR (R41). -/
  | faultClear
  /-- STUCK_LINE (R40). -/
  | stuckLine
  /-- CONTENTION_WON (R26). -/
  | contentionWon
  /-- CONTENTION_LOST (R26). -/
  | contentionLost (cause : LossCause)
  /-- REQUEST_SENT (R28). -/
  | requestSent
  /-- NOTICE_SENT (R88). -/
  | noticeSent
  /-- COLLISION (R29). -/
  | collision
  /-- ANSWER_TIMER_EXPIRY (R30); `stationFirst` is whether the Station Table takes the expiry before the Exchange
  Table (log 7). -/
  | answerTimerExpiry (stationFirst : Bool)
  /-- HEADER (R34). -/
  | header
  /-- PAYLOAD_BYTE (R48). -/
  | payloadByte
  /-- FRAME_END (R35). -/
  | frameEnd
  /-- GAP_TIMER_EXPIRY (R33). -/
  | gapTimerExpiry
  /-- MALFORMED_RUN_END (R32). -/
  | malformedRunEnd
  /-- REPLY_WINDOW (R37). -/
  | replyWindow
  /-- REPLY_SENT (R37). -/
  | replySent
  /-- REPLY_COLLISION (R37). -/
  | replyCollision
  /-- MARK_END (R39). -/
  | markEnd
  /-- TRUNK_RESET_COMPLETE (R39). -/
  | trunkResetComplete
  /-- CLAIM_BIT (R24). -/
  | claimBit
  /-- FOREIGN_CLAIM_BIT (R24). -/
  | foreignClaimBit
  /-- START_BIT (R30, R23). -/
  | startBit
  /-- CHARACTER_RECEIVED (R32): the byte, and whether its stop bit is recessive. -/
  | characterReceived (value : Byte) (stopRecessive : Bool)
  /-- NRESET_ASSERTED (R151). -/
  | nresetAsserted
deriving DecidableEq, Repr

end Sys2Proof
end

