-- ==== Sys2Proof/WellFormed.lean ====
section
/-! DEFINITION. Which commands are spelled by the row they name. A command that is not well formed spells another row's
command through this one; it still has the effect the spec gives that write (log 19). -/

namespace Sys2Proof

/-- A code of Table 8.4. -/
def commandCodeKnown (code : Byte) : Bool := 1 ≤ code.toNat && code.toNat ≤ 12

/-- The locations that have no row of their own in spec/opcode_table.json: ARG0 and ARG1, which are stored; the
read-only ones of R152; and the unassigned ones (R151). -/
def addressPlain (a : BitVec 5) : Bool :=
  [0x00, 0x01, 0x05, 0x06, 0x07, 0x08, 0x0C, 0x0E, 0x11, 0x16, 0x1A, 0x1B, 0x1C, 0x1D, 0x1E, 0x1F].contains a.toNat

/-- The check. UNKNOWN's code is outside Table 8.4 (R161); WINDOW_WRITE's location has "no behaviour of its own". Every
other operand is in range by its type or is any byte, which the row's rule accepts or refuses. -/
def Instr.wellFormed : Instr → Bool
  | .unknown code => !commandCodeKnown code
  | .windowWrite a _ => addressPlain a
  | .hardwareReset | .softReset | .softResetComplete | .start | .continueChain | .halt | .withdraw | .pop
  | .takeBlock | .freeChain | .fenceStation | .admitStation | .trunkReset | .clearCounters | .commandOverrun _
  | .slotSelectWrite _ | .slotFieldIndexWrite _ | .slotFieldDataWrite _ | .slotFieldDataRead
  | .reportFieldIndexWrite _ | .stationSelectWrite _ | .stationFieldIndexWrite _ | .blockSelectWrite _
  | .blockOffsetWrite _ | .blockDataAccess _ | .blockLinkWrite _ | .configIndexWrite _ | .configDataWrite _
  | .trunkDividerLowWrite _ | .trunkDividerHighWrite _ | .trunkEnableWrite _ | .eventsWrite _
  | .eventMaskWrite _ | .counterIndexWrite _ | .counterDataRead | .tick _ | .deadlineExpiry _ | .restEnd _
  | .coalescingTimerExpiry | .lineIdle | .faultClear | .stuckLine | .contentionWon | .contentionLost _
  | .requestSent | .noticeSent | .collision | .answerTimerExpiry _ | .header | .payloadByte | .frameEnd
  | .gapTimerExpiry | .malformedRunEnd | .replyWindow | .replySent | .replyCollision | .markEnd
  | .trunkResetComplete | .claimBit | .foreignClaimBit | .startBit | .characterReceived _ _
  | .nresetAsserted => true

end Sys2Proof
end

