-- ==== Sys2Proof/Machine/State.lean ====
section
/-! DEFINITION. The state of the block: every register, table, list, timer and pin the spec names (INVENTORY.md, State), the
reasons a step can stop, and the state after hardware reset. -/

namespace Sys2Proof.Machine

open Sys2Proof

/-! ## Names of values -/

/-- Outcome codes (Table 3.5). -/
inductive OutcomeCode where
  | ok | refused | expired | withdrawn | noAnswer | damaged | line | overrun | protocol | fenced | badSlot | trunkReset
deriving DecidableEq, Repr

/-- Result codes (Table 8.5). -/
inductive CmdResult where
  | ok | ignored | busy | range | empty | later | noExchange | notProcessor | chainTooLong | unknown | refused
deriving DecidableEq, Repr

/-- Window fault causes (Table 8.2). -/
inductive WindowFault where
  | none | slotActive | readOnly | notProcessor | range | locked | busy | index
deriving DecidableEq, Repr

/-- ClaimPolicy (R7). -/
inductive ClaimPolicy where
  | lead | yield | alternate
deriving DecidableEq, Repr

/-- The ops that make an exchange (Table 4.1). -/
inductive SlotOp where
  | fetch | store | swap | probe
deriving DecidableEq, Repr

/-- The twelve counters, in the order of Table 9.1. -/
inductive Counter where
  | framesSent | framesReceived | damaged | truncated | malformed | collisions | arbitrationLosses | answerTimeouts
  | busyBacks | strayFrames | expiries | trunkFaults
deriving DecidableEq, Repr

/-- The frame kinds of stations (Table 1.3). -/
inductive StationKind where
  | answer | defer | refuse | recall | attention
deriving DecidableEq, Repr

/-- The replies of the 2614 (R9). -/
inductive ReplyKind where
  | taken | busyback | disown
deriving DecidableEq, Repr

/-- The class of a reception (R35). -/
inductive FrameClass where
  | good | damaged | truncated | malformed
deriving DecidableEq, Repr

/-! ## Configuration items (Table 8.3) -/

/-- The eleven configuration items. -/
structure Settings where
  trunkDivider : Half
  trunkEnable : Bool
  claimPolicy : ClaimPolicy
  answerTime : Nat
  gapTime : Nat
  defaultPatience : Nat
  restTime : Nat
  fenceLimit : Nat
  freeFloor : Nat
  reportThreshold : Nat
  coalesceTime : Nat
deriving DecidableEq, Repr

/-! ## Processor Port -/

/-- The command port (R161), FAULT CAUSE (R153) and the divider staging byte (R159). -/
structure Port where
  command : Byte
  arg0 : Byte
  arg1 : Byte
  busy : Bool
  result : CmdResult
  resultData : Byte
  faultCause : WindowFault
  staging : Byte
  /-- TRUNK RESET is in progress and the controller has entered Idle since its mark (R39, log 6). -/
  completionDue : Bool
deriving DecidableEq, Repr

/-- The selectors and indices of Table 8.1, the window pointer among them (R108). -/
structure Selectors where
  slotSelect : SlotId
  slotIndex : Fin 16
  reportIndex : Fin 17
  stationSelect : StationId
  stationIndex : Fin 11
  blockSelect : BlockId
  blockOffset : Fin 64
  configIndex : Fin 12
  counterIndex : Fin 12
deriving DecidableEq, Repr

/-! ## Slot Store -/

/-- Slot states (Figure 4.1). -/
inductive SlotState where
  | openSlot | active | closed
deriving DecidableEq, Repr

/-- A request slot (Table 4.1). `flags` holds bits 0 to 4 of Table 4.2. -/
structure Slot where
  op : Byte
  station : Byte
  flags : BitVec 5
  link : SlotId
  outFirst : BlockId
  outLength : Half
  inLimit : Half
  retryLimit : Fin 8
  patience : Byte
  noticeCode : Nibble
  state : SlotState
  lastOutcome : OutcomeCode
  lastTag : Option Tag
  attempts : Nat
deriving DecidableEq, Repr

namespace Slot

/-- End (Table 4.2, bit 0). -/
def isEnd (sl : Slot) : Bool := sl.flags.getLsbD 0
/-- Hold (bit 1). -/
def hold (sl : Slot) : Bool := sl.flags.getLsbD 1
/-- Notify (bit 2). -/
def notify (sl : Slot) : Bool := sl.flags.getLsbD 2
/-- Keep (bit 3). -/
def keep (sl : Slot) : Bool := sl.flags.getLsbD 3
/-- ReturnOut (bit 4). -/
def returnOut (sl : Slot) : Bool := sl.flags.getLsbD 4

/-- A slot after reset (R73). -/
def reset : Slot where
  op := 0
  station := 0
  flags := 0
  link := 0
  outFirst := 0
  outLength := 0
  inLimit := 0
  retryLimit := 0
  patience := 0
  noticeCode := 0
  state := .openSlot
  lastOutcome := .ok
  lastTag := none
  attempts := 0

end Slot

/-! ## Reports -/

/-- The kinds of report record (R132). -/
inductive ReportKind where
  | exchange | notice | slot | attention
deriving DecidableEq, Repr

/-- A report record (R132). An absent field is `none`. -/
structure Report where
  kind : ReportKind
  urgent : Bool
  slot : Option SlotId
  tag : Option Tag
  station : Option StationId
  op : Option Byte
  outcome : Option OutcomeCode
  attempts : Option Nat
  busybacks : Option Nat
  stationStatus : Option Nibble
  refuseReason : Option Nibble
  length : Option Nat
  firstBlock : Option BlockId
  cause : Option Nibble
deriving DecidableEq, Repr

/-- The five event latches (R145). -/
structure Latches where
  launcherStopped : Bool
  trunkFault : Bool
  windowFault : Bool
  commandDone : Bool
  commandOverrun : Bool
deriving DecidableEq, Repr

/-- The Report Queue block. `timer` is `none` while the coalescing timer is stopped (R143). -/
structure Reports where
  queue : List Report
  backlog : List Report
  timer : Option Nat
  overdue : Bool
  latches : Latches
  mask : Byte
deriving DecidableEq, Repr

/-! ## Launcher -/

/-- Why a Launcher waits (R76); REPORT SPACE carries the owed report. -/
inductive Wait where
  | slotBusy
  | depth
  | tag
  | blocks
  | reportSpace (owed : Report)
deriving DecidableEq, Repr

/-- The Launcher's state with what is present in it (Figure 4.2, R76). `notice` is the notice attempts, present while the current
slot is a NOTICE. -/
inductive Phase where
  | idle
  | waiting (slot : SlotId) (reason : Wait)
  | contending (slot : SlotId) (notice : Option Nat)
  | launching (slot : SlotId) (notice : Option Nat)
  | held (position : SlotId)
deriving DecidableEq, Repr

/-- The Launcher (R76). -/
structure Launcher where
  phase : Phase
  pendingContinue : Bool
  haltPending : Bool
deriving DecidableEq, Repr

/-! ## Exchange Table -/

/-- The fields of an entry that are present unless it is Free or Resting (Table 3.1). `reservedChain` is `[]` when absent. -/
structure Exchange where
  station : StationId
  slot : SlotId
  op : SlotOp
  inLimit : Nat
  keep : Bool
  reservedChain : List BlockId
  attempts : Nat
  busybacks : Nat
deriving DecidableEq, Repr

/-- The storage decision of the answer window (R48). -/
inductive AnswerStore where
  | store | discardOverrun | discard
deriving DecidableEq, Repr

/-- The storage decision of a recall (R62). -/
inductive RecallStore where
  | overrun
  | reserved
  | taken (blocks : List BlockId)
  | busy
deriving DecidableEq, Repr

/-- What an entry in Done holds beside the exchange's fields (Table 3.1). `receivedChain` is `[]` when absent. -/
structure DoneRecord where
  outcome : OutcomeCode
  lateRecallSeen : Bool
  receivedChain : List BlockId
  receivedLength : Option Nat
  stationStatus : Option Nibble
  refuseReason : Option Nibble
deriving DecidableEq, Repr

/-- An entry of the Exchange Table: its state with the fields present in it (Figure 3.1, Table 3.1). -/
inductive Entry where
  | free
  | reserved (sending : Bool) (x : Exchange)
  | awaiting (x : Exchange) (decision : Option AnswerStore)
  | deferred (x : Exchange) (deadline : Nat)
  | receiving (x : Exchange) (deadline : Nat) (expiryPending : Bool) (decision : RecallStore)
  | done (x : Exchange) (d : DoneRecord)
  | resting (station : StationId) (rest : Nat)
deriving DecidableEq, Repr

/-! ## Station Table -/

/-- Presence states (Figure 6.1). -/
inductive Presence where
  | unknown | online | silent | fenced
deriving DecidableEq, Repr

/-- A station record (Table 6.1). -/
structure Station where
  presence : Presence
  depth : Nat
  outstanding : Nat
  misses : Nat
  attnPending : Bool
  attnCount : Nat
  lastCause : Nibble
  probed : Bool
  identity : Byte
  revision : Half
deriving DecidableEq, Repr

/-- A station record after reset (Table 6.1). -/
def Station.reset : Station where
  presence := .unknown
  depth := 1
  outstanding := 0
  misses := 0
  attnPending := false
  attnCount := 0
  lastCause := 0
  probed := false
  identity := 0
  revision := 0

/-! ## Block Pool -/

/-- Ownership states (Table 5.2). The report of REPORTED is named by its exchange's tag (log 20). -/
inductive Owner where
  | free
  | processor
  | outbound (slot : SlotId)
  | reserved (tag : Tag)
  | inbound (tag : Tag)
  | reported (tag : Tag)
deriving DecidableEq, Repr

/-- The pool (Table 5.1, R103). `none` as a link is END. `data` lists the bytes written since the last reset. -/
structure Pool where
  owner : Vector Owner 64
  link : Vector (Option BlockId) 64
  freeList : List BlockId
  data : List Host.Cell
deriving DecidableEq, Repr

/-- The pool after reset (R104). -/
def Pool.reset : Pool where
  owner := Vector.replicate 64 .free
  link := Vector.replicate 64 none
  freeList := List.finRange 64
  data := []

/-! ## Trunk Controller -/

/-- A send the Launcher asks for, with the slot it belongs to (R20), the tag and destination of a REQUEST. -/
inductive Send where
  | request (slot : SlotId) (tag : Tag) (station : StationId)
  | notice (slot : SlotId)
deriving DecidableEq, Repr

/-- A contention in progress (R26): the rank, whether ClaimPolicy was Alternate at the claim bit, and the bit time of the
arbitration (0 the claim bit, 1 to 5 the rank bits) that comes next. -/
structure Contention where
  rank : BitVec 5
  alternate : Bool
  bit : Nat
deriving DecidableEq, Repr

/-- A REQUEST or NOTICE on the line: the send it serves and the header taken at the win (R25). -/
structure Outgoing where
  send : Send
  address : Nibble
  code : Nibble
  tag : Nibble
  length : Nat
deriving DecidableEq, Repr

/-- A reply on the line (R15). -/
structure Reply where
  kind : ReplyKind
  address : Nibble
  tag : Nibble
deriving DecidableEq, Repr

/-- How far a reply is (R37): bit times of the reply window passed, or bits of the frame sent. -/
inductive ReplyProgress where
  | window (passed : Nat)
  | sending (position : Nat)
deriving DecidableEq, Repr

/-- The origin of a reception (R31); the answer window is that of a tag's REQUEST. -/
inductive Origin where
  | arbitration
  | answerWindow (tag : Tag)
  | unsolicited
deriving DecidableEq, Repr

/-- The reception record (R32) and the state a reception implies. -/
structure Reception where
  origin : Origin
  /-- GapTime sampled at the start of the reception (R21). -/
  gapLimit : Nat
  count : Nat
  kind : Option StationKind
  source : Option StationId
  code : Option Nibble
  tag : Option Tag
  lengthHigh : Option Byte
  length : Option Nat
  crc : Half
  /-- The first received CRC byte. -/
  crcHigh : Option Byte
  /-- Whether the received CRC bytes equal the register, once both are in (R17). -/
  crcGood : Bool
  handed : Bool
  malformed : Bool
  truncated : Bool
  /-- A payload byte received and not yet handed on (R34, log 5). -/
  due : Option Byte
  /-- Bit times of the arbitration still to follow (R31). -/
  arbitrationLeft : Nat
  /-- The gap timer's count (R33). -/
  gap : Nat
  /-- Consecutive recessive bit times on the line (R32). -/
  run : Nat
  /-- The character being assembled: data bits sampled, and their value (R2). -/
  char : Option (Nat × Byte)
deriving DecidableEq, Repr

/-- The ten states of the Trunk Controller (Figure 2.1) with what is present in each (R20). -/
inductive TrunkState where
  | offline
  | settling
  | idle
  | arbitrating (c : Contention)
  | transmitting (f : Outgoing) (position : Nat)
  | answerWait (tag : Tag) (station : StationId) (limit : Nat) (elapsed : Nat)
  | receiving (r : Reception)
  | replying (r : Reply) (progress : ReplyProgress)
  | resetting (driven : Nat)
  | fault
deriving DecidableEq, Repr

/-- The Trunk Controller (R20). `phase` is the alternation phase, `true` for 1. -/
structure Trunk where
  state : TrunkState
  quiet : Nat
  skip : Bool
  phase : Bool
  pendingSend : Option Send
  stuck : Nat
  heartbeat : Nat
deriving DecidableEq, Repr

/-- The controller after hardware reset (R20). -/
def Trunk.reset : Trunk where
  state := .offline
  quiet := 0
  skip := false
  phase := false
  pendingSend := none
  stuck := 0
  heartbeat := 0

/-- What the other parties do to the pair in one bit time (log 1): release it, drive it dominant, or (a fault of the line or
the transceiver, R5) make it read recessive whatever is driven. -/
inductive LineInput where
  | released
  | dominant
  | dead
deriving DecidableEq, Repr

/-! ## Counter Bank -/

/-- The Counter Bank (R169). `phaseHigh` is the read phase. -/
structure Counters where
  bank : Vector Half 12
  phaseHigh : Bool
  latch : Byte
deriving DecidableEq, Repr

/-! ## The state -/

/-- The state of the 2614. -/
structure State where
  /-- The nRESET pin is high. -/
  nreset : Bool
  /-- D7..D0 as the last read presented it. -/
  bus : Byte
  /-- The other parties' levels for the coming bit times, one item a bit time (log 1). -/
  lineIn : List LineInput
  config : Settings
  port : Port
  sel : Selectors
  slots : Vector Slot 32
  launcher : Launcher
  entries : Vector Entry 16
  stations : Vector Station 14
  pool : Pool
  trunk : Trunk
  reports : Reports
  counters : Counters
  /-- The model's count of resets, for `Config.undefinedData` (log 11). -/
  resets : Nat
  /-- The model's count of open orders met, for `Config.secondFirst` (log 7). -/
  choices : Nat
  /-- The commands waiting, first in, first out. -/
  pending : List Instr
deriving DecidableEq, Repr

/-- The reasons a step can fault. The part has no trap: a refused access, a failed command and a stuck line are all
next states (INVENTORY.md, Faults), so nothing raises one. Safe. -/
inductive Fault where
deriving DecidableEq, Repr

/-- The reasons a command has no next state. -/
inductive Refusal where
  /-- Raised by an arm of exec for a command that has no meaning yet. Safe. -/
  | notModelled (mnemonic : String)
  /-- Raised by an event row sent in a state in which that event does not exist: the spec's rules give it in other states only
  (log 4). Safe. -/
  | cannotOccur (event : String)
deriving DecidableEq, Repr

/-! ## After hardware reset -/

/-- The configuration items' defaults (Table 8.3). -/
def Settings.reset : Settings where
  trunkDivider := 32
  trunkEnable := false
  claimPolicy := .lead
  answerTime := 10
  gapTime := 4
  defaultPatience := 64
  restTime := 16
  fenceLimit := 3
  freeFloor := 16
  reportThreshold := 1
  coalesceTime := 0

/-- The port after hardware reset (R168). -/
def Port.reset : Port where
  command := 0
  arg0 := 0
  arg1 := 0
  busy := false
  result := .ok
  resultData := 0
  faultCause := .none
  staging := 0x20
  completionDue := false

/-- The selectors after reset (R168). -/
def Selectors.reset : Selectors where
  slotSelect := 0
  slotIndex := 0
  reportIndex := 0
  stationSelect := 0
  stationIndex := 0
  blockSelect := 0
  blockOffset := 0
  configIndex := 0
  counterIndex := 0

/-- The Launcher after reset (R76). -/
def Launcher.reset : Launcher where
  phase := .idle
  pendingContinue := false
  haltPending := false

/-- No latch set (R145). -/
def Latches.clear : Latches where
  launcherStopped := false
  trunkFault := false
  windowFault := false
  commandDone := false
  commandOverrun := false

/-- The Report Queue after hardware reset (R149). -/
def Reports.reset : Reports where
  queue := []
  backlog := []
  timer := none
  overdue := false
  latches := Latches.clear
  mask := 0

/-- The Counter Bank after reset (R169). -/
def Counters.reset : Counters where
  bank := Vector.replicate 12 0
  phaseHigh := false
  latch := 0

/-- The machine right after hardware reset (R168), with nothing waiting and nothing on the line. -/
def State.reset : State where
  nreset := true
  bus := 0
  lineIn := []
  config := Settings.reset
  port := Port.reset
  sel := Selectors.reset
  slots := Vector.replicate 32 Slot.reset
  launcher := Launcher.reset
  entries := Vector.replicate 16 .free
  stations := Vector.replicate 14 Station.reset
  pool := Pool.reset
  trunk := Trunk.reset
  reports := Reports.reset
  counters := Counters.reset
  resets := 0
  choices := 0
  pending := []

end Sys2Proof.Machine
end

