-- ==== Sys2Proof/Machine/Ops.lean ====
section
/-! DEFINITION. The named operations the meanings share: setters of the blocks, payload memory, the Block Pool, the Counter Bank,
the event latches, report posting, and the completion of commands. -/

namespace Sys2Proof.Machine

open Sys2Proof

/-! ## Setting one block of the state -/

namespace State

def setConfig (s : State) (c : Settings) : State := { s with config := c }
def setPort (s : State) (p : Port) : State := { s with port := p }
def setSel (s : State) (x : Selectors) : State := { s with sel := x }
def setLauncher (s : State) (l : Launcher) : State := { s with launcher := l }
def setPool (s : State) (p : Pool) : State := { s with pool := p }
def setTrunk (s : State) (t : Trunk) : State := { s with trunk := t }
def setReports (s : State) (r : Reports) : State := { s with reports := r }
def setCounters (s : State) (c : Counters) : State := { s with counters := c }
def setBus (s : State) (b : Byte) : State := { s with bus := b }
def setSlot (s : State) (k : SlotId) (sl : Slot) : State := { s with slots := s.slots.set k sl }
def setEntry (s : State) (t : Tag) (e : Entry) : State := { s with entries := s.entries.set t e }
def setStation (s : State) (i : StationId) (r : Station) : State := { s with stations := s.stations.set i r }
/-- One more open order met (log 7). -/
def nextChoice (s : State) : State := { s with choices := s.choices + 1 }

/-- The slot, entry and station record of a number. -/
def slot (s : State) (k : SlotId) : Slot := s.slots[k]
def entry (s : State) (t : Tag) : Entry := s.entries[t]
def station (s : State) (i : StationId) : Station := s.stations[i]

/-- The controller takes a new state, everything else of it kept. -/
def setTrunkState (s : State) (t : TrunkState) : State := s.setTrunk { s.trunk with state := t }

/-- The pending send set or removed (R25). -/
def setPendingSend (s : State) (p : Option Send) : State := s.setTrunk { s.trunk with pendingSend := p }

/-- Settling with the given quiet count and skip flag clear (R23). -/
def settle (s : State) (quiet : Nat) : State :=
  s.setTrunk { s.trunk with state := .settling, quiet := quiet, skip := false }

/-- The Launcher's phase, its flags kept. -/
def setPhase (s : State) (p : Phase) : State := s.setLauncher { s.launcher with phase := p }

/-- A soft reset is in progress: while the port is busy COMMAND keeps the code of the command in progress (R161, R162). -/
def softResetting (s : State) : Bool := s.port.busy && s.port.command == 0x0C

/-- A TRUNK RESET is in progress (R165). -/
def trunkResetting (s : State) : Bool := s.port.busy && s.port.command == 0x0A

end State

/-! ## Payload memory -/

namespace Memory

/-- The byte written at an address since the last reset, if any. -/
def read : List Host.Cell → Nat → Option Byte
  | [], _ => none
  | (b, w) :: m, a => if a = b then some w else read m a

/-- A byte written; the list stays sorted and without repeats. -/
def write : List Host.Cell → Nat → Byte → List Host.Cell
  | [], a, v => [(a, v)]
  | (b, w) :: m, a, v =>
    if a < b then (a, v) :: (b, w) :: m
    else if a = b then (a, v) :: m
    else (b, w) :: write m a v

/-- Every address of the list is above `lo` and below 4096, and the addresses rise. -/
def risingFrom : Nat → List Host.Cell → Bool
  | _, [] => true
  | lo, (b, _) :: m => decide (lo ≤ b) && decide (b < 4096) && risingFrom (b + 1) m

/-- The canonical form: addresses strictly rising, all inside the 4096 bytes. An unlisted address holds no written byte, so
no listed entry can equal it. -/
def wf (m : List Host.Cell) : Bool := risingFrom 0 m

end Memory

/-- The address of a byte of a block (05 section 5.1). -/
def byteAddress (b : BlockId) (offset : Nat) : Nat := 64 * b.val + offset % 64

/-- The byte of a block: as last written since reset, else undefined (R104, R105; log 11). -/
def State.blockByte (s : State) (b : BlockId) (offset : Nat) : Byte :=
  match Memory.read s.pool.data (byteAddress b offset) with
  | some v => v
  | none => Config.undefinedData s.resets (byteAddress b offset)

/-! ## Block Pool -/

/-- The blocks a payload of `len` bytes needs: len divided by 64, rounded up (00 section 0.5). -/
def blocksFor (len : Nat) : Nat := (len + 63) / 64

namespace Pool

/-- The free count (R103). -/
def freeCount (p : Pool) : Nat := p.freeList.length

def setOwner (p : Pool) (b : BlockId) (o : Owner) : Pool := { p with owner := p.owner.set b o }
def setLink (p : Pool) (b : BlockId) (l : Option BlockId) : Pool := { p with link := p.link.set b l }

/-- Every block of a list passes to one ownership. -/
def setOwners (p : Pool) : List BlockId → Owner → Pool
  | [], _ => p
  | b :: bs, o => setOwners (p.setOwner b o) bs o

/-- The blocks of a list are linked in order, the last to END (R113, R115). -/
def linkChain (p : Pool) : List BlockId → Pool
  | [] => p
  | [b] => p.setLink b none
  | b :: c :: bs => linkChain (p.setLink b (some c)) (c :: bs)

/-- A block joins the tail of the free list, FREE, its link END, its data kept (R103). -/
def appendFree (p : Pool) (b : BlockId) : Pool :=
  { (p.setOwner b .free).setLink b none with freeList := p.freeList ++ [b] }

/-- Blocks freed together, in the order of the list (R103). -/
def appendAll (p : Pool) : List BlockId → Pool
  | [] => p
  | b :: bs => appendAll (p.appendFree b) bs

/-- A take of the first `n` blocks of the free list for an ownership, linked in the order taken (R103, R113, R115). -/
def take (p : Pool) (n : Nat) (o : Owner) : Pool :=
  (({ p with freeList := p.freeList.drop n }).setOwners (p.freeList.take n) o).linkChain (p.freeList.take n)

/-- The blocks a take of `n` removes. -/
def head (p : Pool) (n : Nat) : List BlockId := p.freeList.take n

/-- The first `n` blocks of a chain by its links. -/
def chain (p : Pool) : Nat → BlockId → List BlockId
  | 0, _ => []
  | n + 1, b =>
    match p.link[b] with
    | none => [b]
    | some c => b :: chain p n c

/-- The walk of the validity check over `n` blocks (R80): each PROCESSOR and not visited before, and no END before the last. -/
def walkValid (p : Pool) : Nat → BlockId → List BlockId → Bool
  | 0, _, _ => true
  | n + 1, b, seen =>
    p.owner[b] == .processor && !seen.contains b &&
      (n == 0 || (match p.link[b] with
        | none => false
        | some c => walkValid p n c (b :: seen)))

/-- The walk of FREE CHAIN (R107) with `n` visits left: the blocks to free, or the result and the block it fails at. -/
def freeWalk (p : Pool) : Nat → BlockId → Except (CmdResult × BlockId) (List BlockId)
  | 0, b => .error (.chainTooLong, b)
  | n + 1, b =>
    if p.owner[b] = .processor then
      match p.link[b] with
      | none => .ok [b]
      | some c =>
        if n = 0 then .error (.chainTooLong, b)
        else match freeWalk p n c with
          | .ok bs => .ok (b :: bs)
          | .error e => .error e
    else .error (.notProcessor, b)

/-- A byte stored in a block. -/
def store (p : Pool) (b : BlockId) (offset : Nat) (v : Byte) : Pool :=
  { p with data := Memory.write p.data (byteAddress b offset) v }

/-- Inbound fill (R113): payload byte `i` goes to the chain's block at position i / 64, offset i mod 64, and that block passes
to INBOUND(tag) with its first byte. -/
def fill (p : Pool) (chain : List BlockId) (tag : Tag) (i : Nat) (v : Byte) : Pool :=
  match chain[i / 64]? with
  | none => p
  | some b => (p.store b (i % 64) v).setOwner b (.inbound tag)

end Pool

/-- Blocks freed by an event (R103). -/
def State.freeBlocks (s : State) (bs : List BlockId) : State := s.setPool (s.pool.appendAll bs)

/-- The outbound chain of a slot (R111): the blocks its OutLength needs, from OutFirst along the links. -/
def State.outChain (s : State) (k : SlotId) : List BlockId :=
  s.pool.chain (blocksFor (s.slot k).outLength.toNat) (s.slot k).outFirst

/-! ## Counter Bank -/

/-- The index of a counter (Table 9.1). -/
def Counter.index : Counter → Fin 12
  | .framesSent => 0
  | .framesReceived => 1
  | .damaged => 2
  | .truncated => 3
  | .malformed => 4
  | .collisions => 5
  | .arbitrationLosses => 6
  | .answerTimeouts => 7
  | .busyBacks => 8
  | .strayFrames => 9
  | .expiries => 10
  | .trunkFaults => 11

/-- A counter raised by 1, staying at 65535 once there (R170). -/
def Counters.raise (c : Counters) (i : Fin 12) : Counters :=
  { c with bank := c.bank.set i (if c.bank[i] = 0xFFFF then 0xFFFF else c.bank[i] + 1) }

def State.count (s : State) (c : Counter) : State := s.setCounters (s.counters.raise c.index)

/-! ## Event latches and window faults -/

/-- The latches changed, the queue and the timer kept. -/
def State.setLatches (s : State) (l : Latches) : State := s.setReports { s.reports with latches := l }

def State.latchLauncherStopped (s : State) : State := s.setLatches { s.reports.latches with launcherStopped := true }
def State.latchTrunkFault (s : State) : State := s.setLatches { s.reports.latches with trunkFault := true }
def State.latchWindowFault (s : State) : State := s.setLatches { s.reports.latches with windowFault := true }
def State.latchCommandDone (s : State) : State := s.setLatches { s.reports.latches with commandDone := true }
def State.latchCommandOverrun (s : State) : State := s.setLatches { s.reports.latches with commandOverrun := true }

/-- A refused window access (R153): FAULT CAUSE set and WINDOW FAULT latched. -/
def State.windowFault (s : State) (c : WindowFault) : State :=
  (s.setPort { s.port with faultCause := c }).latchWindowFault

/-! ## Posting reports -/

/-- Records the queue holds at most (R134). -/
def queueRoom (r : Reports) : Nat := 32 - r.queue.length

/-- A record at the tail of the queue; into an empty queue it starts the coalescing timer (R135, R143). -/
def Reports.enqueue (r : Reports) (coalesceTime : Nat) (x : Report) : Reports :=
  { r with
    queue := r.queue ++ [x]
    timer := if r.queue.isEmpty then (if coalesceTime = 0 then none else some coalesceTime) else r.timer }

/-- A posting by the Exchange Table or the Station Table: the queue, or the backlog when the queue is full (R135). -/
def State.post (s : State) (x : Report) : State :=
  s.setReports
    (if s.reports.queue.length < 32 then s.reports.enqueue s.config.coalesceTime x
     else { s.reports with backlog := s.reports.backlog ++ [x] })

/-- A posting by the Launcher into a queue with room (R136). -/
def State.postQueue (s : State) (x : Report) : State :=
  s.setReports (s.reports.enqueue s.config.coalesceTime x)

/-! ## Commands and window accesses -/

/-- The completion of a command (R161): RESULT, RESULT DATA, busy clear, COMMAND DONE latched. -/
def State.complete (s : State) (r : CmdResult) (data : Byte) : State :=
  (s.setPort { s.port with result := r, resultData := data, busy := false, completionDue := false }).latchCommandDone

/-- A write on the bus: dropped while nRESET is low (R151) and during a soft reset (R167). -/
def busWrite (f : State → State) (s : State) : Host.Outcome State Fault Refusal :=
  .next (if s.nreset && !s.softResetting then f s else s)

/-- A read on the bus (R151, R152): the value the location holds, with the read's effect on the state; 0x00 and no effect while
nRESET is low, and no effect during a soft reset (log 12). -/
def busRead (value : State → Byte) (effect : State → State) (s : State) : Host.Outcome State Fault Refusal :=
  .next (((if s.nreset && !s.softResetting then effect s else s)).setBus (value s))

/-- An event row: it occurs where its rules give it an effect and the part is not held in reset, else it is refused by
name (log 4). -/
def occurs (event : String) (effect : State → Option State) (s : State) : Host.Outcome State Fault Refusal :=
  if s.nreset then
    match effect s with
    | some t => .next t
    | none => .refused (.cannotOccur event)
  else .refused (.cannotOccur event)

end Sys2Proof.Machine
end

