-- ==== Sys2Proof/Machine/Operands.lean ====
section
/-! DEFINITION. How values are written as bytes and read from bytes: the codes of the spec's tables, the fields of slots, records
and reports in the window, and the configuration items. -/

namespace Sys2Proof.Machine

open Sys2Proof

/-- A number as the byte the window shows. -/
def byteOf (n : Nat) : Byte := BitVec.ofNat 8 n

/-- A flag as the byte 0 or 1. -/
def flagByte (b : Bool) : Byte := if b then 1 else 0

/-- The station record of an address, if there is one (R119). -/
def stationOf (address : Nat) : Option StationId :=
  if h : 1 ≤ address ∧ address ≤ 14 then some ⟨address - 1, by omega⟩ else none

/-- A number as a slot, a tag or a block, if it is one. -/
def slotOf (n : Nat) : Option SlotId := if h : n < 32 then some ⟨n, h⟩ else none
def tagOf (n : Nat) : Option Tag := if h : n < 16 then some ⟨n, h⟩ else none
def blockOf (n : Nat) : Option BlockId := if h : n < 64 then some ⟨n, h⟩ else none

/-! ## Codes -/

/-- Table 3.5. -/
def OutcomeCode.code : OutcomeCode → Nat
  | .ok => 0
  | .refused => 1
  | .expired => 2
  | .withdrawn => 3
  | .noAnswer => 4
  | .damaged => 5
  | .line => 6
  | .overrun => 7
  | .protocol => 8
  | .fenced => 9
  | .badSlot => 10
  | .trunkReset => 11

/-- Table 8.5. -/
def CmdResult.code : CmdResult → Nat
  | .ok => 0
  | .ignored => 1
  | .busy => 2
  | .range => 3
  | .empty => 4
  | .later => 5
  | .noExchange => 6
  | .notProcessor => 7
  | .chainTooLong => 8
  | .unknown => 9
  | .refused => 10

/-- Table 8.2. -/
def WindowFault.code : WindowFault → Nat
  | .none => 0
  | .slotActive => 1
  | .readOnly => 2
  | .notProcessor => 3
  | .range => 4
  | .locked => 5
  | .busy => 6
  | .index => 7

/-- The op codes of exchanges (Table 4.1). -/
def SlotOp.code : SlotOp → Nat
  | .fetch => 1
  | .store => 2
  | .swap => 3
  | .probe => 4

/-- The op that a slot's Op byte names, if it makes an exchange. -/
def SlotOp.ofCode (n : Nat) : Option SlotOp :=
  match n with
  | 1 => some .fetch
  | 2 => some .store
  | 3 => some .swap
  | 4 => some .probe
  | _ => none

/-- ClaimPolicy's values (Table 8.3). -/
def ClaimPolicy.code : ClaimPolicy → Nat
  | .lead => 0
  | .yield => 1
  | .alternate => 2

def ClaimPolicy.ofCode (n : Nat) : Option ClaimPolicy :=
  match n with
  | 0 => some .lead
  | 1 => some .yield
  | 2 => some .alternate
  | _ => none

/-- Presence states in the window (Table 6.2). -/
def Presence.code : Presence → Nat
  | .unknown => 0
  | .online => 1
  | .silent => 2
  | .fenced => 3

/-- Slot states in the window (Table 4.1, index 12). -/
def SlotState.code : SlotState → Nat
  | .openSlot => 0
  | .active => 1
  | .closed => 2

/-- Report kinds in the window (Table 7.1, index 0). -/
def ReportKind.code : ReportKind → Nat
  | .exchange => 0
  | .notice => 1
  | .slot => 2
  | .attention => 3

/-! ## Slot fields (Table 4.1) -/

/-- The byte a read of a slot field returns. -/
def Slot.readField (sl : Slot) (i : Fin 16) : Byte :=
  match i.val with
  | 0 => sl.op
  | 1 => sl.station
  | 2 => sl.flags.setWidth 8
  | 3 => byteOf sl.link.val
  | 4 => byteOf sl.outFirst.val
  | 5 => sl.outLength.low
  | 6 => sl.outLength.high
  | 7 => sl.inLimit.low
  | 8 => sl.inLimit.high
  | 9 => byteOf sl.retryLimit.val
  | 10 => sl.patience
  | 11 => sl.noticeCode.setWidth 8
  | 12 => byteOf sl.state.code
  | 13 => byteOf sl.lastOutcome.code
  | 14 => (sl.lastTag.map fun t => byteOf t.val).getD 0xFF
  | _ => byteOf sl.attempts

/-- The field written, or the cause of the refusal, by tests 2 to 4 of R74. -/
def Slot.writeField (sl : Slot) (i : Fin 16) (v : Byte) : Except WindowFault Slot :=
  match i.val with
  | 0 => .ok { sl with op := v }
  | 1 => .ok { sl with station := v }
  | 2 => if v.toNat < 32 then .ok { sl with flags := v.setWidth 5 } else .error .range
  | 3 => match slotOf v.toNat with
    | some k => .ok { sl with link := k }
    | none => .error .range
  | 4 => match blockOf v.toNat with
    | some b => .ok { sl with outFirst := b }
    | none => .error .range
  | 5 => .ok { sl with outLength := Half.ofBytes sl.outLength.high v }
  | 6 => .ok { sl with outLength := Half.ofBytes v sl.outLength.low }
  | 7 => .ok { sl with inLimit := Half.ofBytes sl.inLimit.high v }
  | 8 => .ok { sl with inLimit := Half.ofBytes v sl.inLimit.low }
  | 9 => if h : v.toNat < 8 then .ok { sl with retryLimit := ⟨v.toNat, h⟩ } else .error .range
  | 10 => .ok { sl with patience := v }
  | 11 => if v.toNat < 16 then .ok { sl with noticeCode := v.setWidth 4 } else .error .range
  | _ => .error .readOnly

/-- A processor write to a slot field (R74): refused while Active, else by field and value; an accepted write makes
the slot Open. -/
def Slot.processorWrite (sl : Slot) (i : Fin 16) (v : Byte) : Except WindowFault Slot :=
  if sl.state = .active then .error .slotActive
  else match sl.writeField i v with
    | .ok sl' => .ok { sl' with state := .openSlot }
    | .error c => .error c

/-! ## Station fields (Table 6.2) -/

def Station.readField (r : Station) (i : Fin 11) : Byte :=
  match i.val with
  | 0 => byteOf r.presence.code
  | 1 => byteOf r.depth
  | 2 => byteOf r.outstanding
  | 3 => byteOf r.misses
  | 4 => flagByte r.attnPending
  | 5 => byteOf r.attnCount
  | 6 => r.lastCause.setWidth 8
  | 7 => flagByte r.probed
  | 8 => r.identity
  | 9 => r.revision.low
  | _ => r.revision.high

/-! ## Report fields (Table 7.1) -/

/-- The Presence byte: bit 0 Station, 1 StationStatus, 2 RefuseReason, 3 Length, 4 FirstBlock. -/
def Report.presence (r : Report) : Byte :=
  flagByte r.station.isSome ||| (flagByte r.stationStatus.isSome <<< 1) ||| (flagByte r.refuseReason.isSome <<< 2) |||
    (flagByte r.length.isSome <<< 3) ||| (flagByte r.firstBlock.isSome <<< 4)

/-- A field of a record, 0xFF when absent (R133). -/
def Report.readField (r : Report) (i : Nat) : Byte :=
  match i with
  | 0 => byteOf r.kind.code
  | 1 => r.presence
  | 2 => flagByte r.urgent
  | 3 => (r.slot.map fun k => byteOf k.val).getD 0xFF
  | 4 => (r.tag.map fun t => byteOf t.val).getD 0xFF
  | 5 => (r.station.map fun a => byteOf a.address).getD 0xFF
  | 6 => r.op.getD 0xFF
  | 7 => (r.outcome.map fun o => byteOf o.code).getD 0xFF
  | 8 => (r.attempts.map byteOf).getD 0xFF
  | 9 => (r.busybacks.map byteOf).getD 0xFF
  | 10 => (r.stationStatus.map fun n => n.setWidth 8).getD 0xFF
  | 11 => (r.refuseReason.map fun n => n.setWidth 8).getD 0xFF
  | 12 => (r.length.map fun n => byteOf (n % 256)).getD 0xFF
  | 13 => (r.length.map fun n => byteOf (n / 256)).getD 0xFF
  | 14 => (r.firstBlock.map fun b => byteOf b.val).getD 0xFF
  | _ => (r.cause.map fun n => n.setWidth 8).getD 0xFF

/-- What REPORT FIELD DATA reads (R133): a field of the head, 0xFF for an empty queue, or the backlog count at index 16. -/
def Reports.readField (q : Reports) (i : Fin 17) : Byte :=
  if i = 16 then byteOf q.backlog.length
  else match q.queue with
    | [] => 0xFF
    | r :: _ => r.readField i.val

/-! ## Configuration items (Table 8.3) -/

/-- What CONFIG DATA reads (R158). -/
def Settings.readItem (c : Settings) (i : Fin 12) : Byte :=
  match i.val with
  | 0 => c.trunkDivider.low
  | 1 => c.trunkDivider.high
  | 2 => flagByte c.trunkEnable
  | 3 => byteOf c.claimPolicy.code
  | 4 => byteOf c.answerTime
  | 5 => byteOf c.gapTime
  | 6 => byteOf c.defaultPatience
  | 7 => byteOf c.restTime
  | 8 => byteOf c.fenceLimit
  | 9 => byteOf c.freeFloor
  | 10 => byteOf c.reportThreshold
  | _ => byteOf c.coalesceTime

/-- An item other than TrunkDivider and TrunkEnable written; `none` outside its range (R158). -/
def Settings.writeItem (c : Settings) (i : Fin 12) (v : Byte) : Option Settings :=
  let n := v.toNat
  match i.val with
  | 3 => (ClaimPolicy.ofCode n).map fun p => { c with claimPolicy := p }
  | 4 => if 2 ≤ n ∧ n ≤ 10 then some { c with answerTime := n } else none
  | 5 => if 1 ≤ n ∧ n ≤ 10 then some { c with gapTime := n } else none
  | 6 => if 1 ≤ n then some { c with defaultPatience := n } else none
  | 7 => some { c with restTime := n }
  | 8 => if n ≤ 7 then some { c with fenceLimit := n } else none
  | 9 => if n ≤ 63 then some { c with freeFloor := n } else none
  | 10 => if 1 ≤ n ∧ n ≤ 32 then some { c with reportThreshold := n } else none
  | 11 => some { c with coalesceTime := n }
  | _ => none

/-! ## Nibbles of a header byte (Table 1.2) -/

def highNibble (b : Byte) : Nibble := (b >>> 4).setWidth 4
def lowNibble (b : Byte) : Nibble := b.setWidth 4

/-- The frame kinds a station may send (Table 1.3, R12). -/
def StationKind.ofCode (n : Nibble) : Option StationKind :=
  match n.toNat with
  | 0x9 => some .answer
  | 0xA => some .defer
  | 0xB => some .refuse
  | 0xC => some .recall
  | 0xD => some .attention
  | _ => none

/-- The kind nibble of a reply (Table 1.3). -/
def ReplyKind.code : ReplyKind → Nibble
  | .taken => 0x3
  | .busyback => 0x4
  | .disown => 0x6

/-- A tag from a nibble. -/
def tagOfNibble (n : Nibble) : Tag := n.toFin

/-- A tag as a nibble. -/
def nibbleOfTag (t : Tag) : Nibble := BitVec.ofFin t

end Sys2Proof.Machine
end

