-- ==== Sys2Proof/Machine/Flags.lean ====
section
/-! DEFINITION. The views computed from the state: reports-ready, EVENTS, nIRQ, STATUS, LAUNCHER SLOT / WAIT REASON, and what a read
of each window location presents. -/

namespace Sys2Proof.Machine

open Sys2Proof

/-- Reports-ready (R142). -/
def State.reportsReady (s : State) : Bool :=
  decide (s.config.reportThreshold ≤ s.reports.queue.length) || s.reports.queue.any (·.urgent) || s.reports.overdue

/-- The latches in bits 0 to 4 (Table 7.2). -/
def Latches.bits (l : Latches) : Byte :=
  flagByte l.launcherStopped ||| (flagByte l.trunkFault <<< 1) ||| (flagByte l.windowFault <<< 2) |||
    (flagByte l.commandDone <<< 3) ||| (flagByte l.commandOverrun <<< 4)

/-- What EVENTS reads (R146). -/
def State.events (s : State) : Byte := s.reports.latches.bits ||| (flagByte s.reportsReady <<< 7)

/-- The latches left by a write of EVENTS: a bit written 1 clears its latch (R146). -/
def Latches.cleared (l : Latches) (v : Byte) : Latches where
  launcherStopped := l.launcherStopped && !v.getLsbD 0
  trunkFault := l.trunkFault && !v.getLsbD 1
  windowFault := l.windowFault && !v.getLsbD 2
  commandDone := l.commandDone && !v.getLsbD 3
  commandOverrun := l.commandOverrun && !v.getLsbD 4

/-- The interrupt line is asserted (R148); it is released while nRESET is low (R151). -/
def State.irq (s : State) : Bool := s.nreset && (s.events &&& s.reports.mask) != 0

/-- The trunk state field of STATUS (R154). -/
def TrunkState.code : TrunkState → Nat
  | .offline => 0
  | .settling => 1
  | .idle => 2
  | .arbitrating _ => 3
  | .transmitting _ _ => 4
  | .answerWait _ _ _ _ => 5
  | .receiving _ => 6
  | .replying _ _ => 7
  | .resetting _ => 8
  | .fault => 9

/-- The launcher state field of STATUS (R154). -/
def Phase.code : Phase → Nat
  | .idle => 0
  | .waiting _ _ => 1
  | .contending _ _ => 2
  | .launching _ _ => 3
  | .held _ => 4

/-- What STATUS reads (R154). -/
def State.status (s : State) : Byte :=
  byteOf (s.trunk.state.code + 16 * s.launcher.phase.code + 128 * (if s.port.busy then 1 else 0))

/-- The wait reasons of R155. -/
def Wait.code : Wait → Nat
  | .slotBusy => 1
  | .depth => 2
  | .tag => 3
  | .blocks => 4
  | .reportSpace _ => 5

/-- What LAUNCHER SLOT / WAIT REASON reads (R155). -/
def Phase.slotByte : Phase → Byte
  | .idle => 0xFF
  | .waiting k w => byteOf (k.val + 32 * w.code)
  | .contending k _ => byteOf k.val
  | .launching k _ => byteOf k.val
  | .held k => byteOf (k.val + 32 * 6)

/-- The link as BLOCK LINK reads it: END is 0x7F (R110). -/
def linkByte (l : Option BlockId) : Byte := (l.map fun b => byteOf b.val).getD 0x7F

/-- What BLOCK DATA reads (R109): the byte at the pointer of a PROCESSOR block, else 0x00. -/
def State.blockDataValue (s : State) : Byte :=
  if s.pool.owner[s.sel.blockSelect] = .processor then s.blockByte s.sel.blockSelect s.sel.blockOffset.val else 0

/-- What COUNTER DATA reads (R175). -/
def State.counterValue (s : State) : Byte :=
  if s.counters.phaseHigh then s.counters.latch else Half.low s.counters.bank[s.sel.counterIndex]

/-- What a read of a location presents, by Table 8.1; 0x00 while nRESET is low (R151). The effects of a read are those of
SLOT FIELD DATA, BLOCK DATA and COUNTER DATA alone (R152). -/
def State.windowValue (s : State) (a : BitVec 5) : Byte :=
  if !s.nreset then 0
  else match a.toNat with
    | 0x00 => 0x26
    | 0x01 => s.status
    | 0x02 => s.events
    | 0x03 => s.reports.mask
    | 0x04 => s.port.command
    | 0x05 => s.port.arg0
    | 0x06 => s.port.arg1
    | 0x07 => byteOf s.port.result.code
    | 0x08 => s.port.resultData
    | 0x09 => byteOf s.sel.slotSelect.val
    | 0x0A => byteOf s.sel.slotIndex.val
    | 0x0B => (s.slot s.sel.slotSelect).readField s.sel.slotIndex
    | 0x0C => byteOf s.reports.queue.length
    | 0x0D => byteOf s.sel.reportIndex.val
    | 0x0E => s.reports.readField s.sel.reportIndex
    | 0x0F => byteOf s.sel.stationSelect.address
    | 0x10 => byteOf s.sel.stationIndex.val
    | 0x11 => (s.station s.sel.stationSelect).readField s.sel.stationIndex
    | 0x12 => byteOf s.sel.blockSelect.val
    | 0x13 => byteOf s.sel.blockOffset.val
    | 0x14 => s.blockDataValue
    | 0x15 => linkByte s.pool.link[s.sel.blockSelect]
    | 0x16 => byteOf s.pool.freeCount
    | 0x17 => byteOf s.sel.configIndex.val
    | 0x18 => s.config.readItem s.sel.configIndex
    | 0x19 => byteOf s.sel.counterIndex.val
    | 0x1A => s.counterValue
    | 0x1B => s.launcher.phase.slotByte
    | 0x1C => byteOf s.port.faultCause.code
    | _ => 0

end Sys2Proof.Machine
end

