-- ==== Sys2Proof/Machine/Launch.lean ====
section
/-! DEFINITION. The Launcher (chapter 4): taking a slot, the launch checks, reservation, the end of a launch phase, the flags
and the next slot, and re-evaluation. -/

namespace Sys2Proof.Machine

open Sys2Proof

/-! ## The slot's state (R75) -/

/-- The Launcher takes a slot that is not Active (R78). -/
def State.activateSlot (s : State) (k : SlotId) : State :=
  s.setSlot k { s.slot k with state := .active, lastTag := none, attempts := 0 }

/-- A slot closed with an outcome. -/
def State.closeSlot (s : State) (k : SlotId) (o : OutcomeCode) : State :=
  s.setSlot k { s.slot k with state := .closed, lastOutcome := o }

/-- A slot whose launch is undone (R75, R97). -/
def State.reopenSlot (s : State) (k : SlotId) : State :=
  s.setSlot k { s.slot k with state := .openSlot, lastTag := none, attempts := 0 }

/-- The slot's Attempts written (R89). -/
def State.setAttempts (s : State) (k : SlotId) (n : Nat) : State := s.setSlot k { s.slot k with attempts := n }

/-! ## The Launcher's stops (R77) -/

/-- The Launcher enters Idle: pending flags clear, LAUNCHER STOPPED latched (R77, R91, R92). -/
def State.enterIdle (s : State) : State := (s.setLauncher ⟨.idle, false, false⟩).latchLauncherStopped

/-- The Launcher enters Held at a position: pending flags clear, LAUNCHER STOPPED latched (R77, R91, R92, R97, R100). -/
def State.enterHeld (s : State) (p : SlotId) : State := (s.setLauncher ⟨.held p, false, false⟩).latchLauncherStopped

/-! ## Launch checks (R79, R80) -/

def Entry.isFree : Entry → Bool
  | .free => true
  | .reserved _ _ => false
  | .awaiting _ _ => false
  | .deferred _ _ => false
  | .receiving _ _ _ _ => false
  | .done _ _ => false
  | .resting _ _ => false

/-- The lowest-numbered Free tag (R45). -/
def State.lowestFree (s : State) : Option Tag := (List.finRange 16).find? fun t => (s.entry t).isFree

/-- What an exchange may receive: the slot's InLimit, 4 for PROBE (R45). -/
def exchangeLimit (op : SlotOp) (sl : Slot) : Nat := if op = .probe then 4 else sl.inLimit.toNat

/-- Check 1: the slot is not BAD SLOT (R80). -/
def State.slotValid (s : State) (k : SlotId) : Bool :=
  let sl := s.slot k
  let op := sl.op.toNat
  decide (1 ≤ op ∧ op ≤ 5) && (op == 5 || (stationOf sl.station.toNat).isSome) &&
    decide (sl.outLength.toNat ≤ 1024) && decide (sl.inLimit.toNat ≤ 1024) && !(op == 4 && sl.outLength.toNat != 0) &&
    (sl.outLength.toNat == 0 || s.pool.walkValid (blocksFor sl.outLength.toNat) sl.outFirst [])

/-- What the launch checks decide. -/
inductive Verdict where
  | slotOnly (o : OutcomeCode) (station : Option StationId)
  | wait (w : Wait)
  | exchange (op : SlotOp) (station : StationId) (tag : Tag)
  | notice
deriving DecidableEq, Repr

/-- The launch checks in their order (R79). -/
def State.launchChecks (s : State) (k : SlotId) : Verdict :=
  let sl := s.slot k
  if s.slotValid k then
    match SlotOp.ofCode sl.op.toNat, stationOf sl.station.toNat with
    | none, _ => .notice
    | some _, none => .slotOnly .badSlot none
    | some op, some st =>
      if (s.station st).presence = .fenced then .slotOnly .fenced (some st)
      else if (s.station st).depth ≤ (s.station st).outstanding then .wait .depth
      else match s.lowestFree with
        | none => .wait .tag
        | some t =>
          if s.pool.freeCount < blocksFor (exchangeLimit op sl) then .wait .blocks else .exchange op st t
  else .slotOnly .badSlot none

/-! ## Reservation and launch (R84, R85, R45) -/

/-- The entry a reservation makes (R45). -/
def newExchange (s : State) (k : SlotId) (op : SlotOp) (st : StationId) : Exchange where
  station := st
  slot := k
  op := op
  inLimit := exchangeLimit op (s.slot k)
  keep := (s.slot k).keep
  reservedChain := s.pool.head (blocksFor (exchangeLimit op (s.slot k)))
  attempts := 1
  busybacks := 0

/-- The station's Outstanding raised or lowered by 1 (R127). -/
def State.raiseOutstanding (s : State) (st : StationId) : State :=
  s.setStation st { s.station st with outstanding := (s.station st).outstanding + 1 }
def State.lowerOutstanding (s : State) (st : StationId) : State :=
  s.setStation st { s.station st with outstanding := (s.station st).outstanding - 1 }

/-- The reservation of R84: entry, inbound blocks, Outstanding, outbound chain, LastTag, Contending with the REQUEST pending. -/
def State.reserve (s : State) (k : SlotId) (op : SlotOp) (st : StationId) (t : Tag) : State :=
  let x := newExchange s k op st
  let pool := (s.pool.take (blocksFor x.inLimit) (.reserved t)).setOwners (s.outChain k) (.outbound k)
  ((((((s.setPool pool).setEntry t (.reserved false x)).raiseOutstanding st).setSlot k
    { s.slot k with lastTag := some t })).setPhase (.contending k none)).setPendingSend (some (.request k t st))

/-- The launch of a NOTICE (R85). -/
def State.launchNotice (s : State) (k : SlotId) : State :=
  ((s.setPool (s.pool.setOwners (s.outChain k) (.outbound k))).setPhase (.contending k (some 1))).setPendingSend
    (some (.notice k))

/-! ## Slot-only and NOTICE reports (R81, R90) -/

/-- The SLOT report of a slot that ends BAD SLOT or FENCED (R81). -/
def slotReport (s : State) (k : SlotId) (o : OutcomeCode) (st : Option StationId) : Report where
  kind := .slot
  urgent := (s.slot k).notify
  slot := some k
  tag := none
  station := st
  op := some (s.slot k).op
  outcome := some o
  attempts := some 0
  busybacks := none
  stationStatus := none
  refuseReason := none
  length := none
  firstBlock := none
  cause := none

/-- The NOTICE report (R90). -/
def noticeReport (s : State) (k : SlotId) (o : OutcomeCode) (attempts : Nat) : Report where
  kind := .notice
  urgent := (s.slot k).notify
  slot := some k
  tag := none
  station := none
  op := some 5
  outcome := some o
  attempts := some attempts
  busybacks := none
  stationStatus := none
  refuseReason := none
  length := none
  firstBlock := none
  cause := none

/-! ## Moving on (R91, R92) and taking a slot (R78)

`take` is how the next head slot is taken. A slot-only outcome posts a report and moves on within one event, so the walk along a chain
is bounded by the places left in the queue (R94). -/

/-- The flags and the next slot (R91, R92). -/
def moveOnWith (take : SlotId → State → State) (k : SlotId) (s : State) : State :=
  let sl := s.slot k
  if sl.isEnd then s.enterIdle
  else if s.launcher.haltPending then s.enterHeld sl.link
  else if sl.hold then
    if s.launcher.pendingContinue then take sl.link (s.setLauncher { s.launcher with pendingContinue := false })
    else s.enterHeld sl.link
  else take sl.link s

/-- A SLOT or NOTICE report posted, the slot closed and the Launcher moved on; or kept as the owed report with REPORT SPACE
(R81, R90, R136). -/
def reportWith (take : SlotId → State → State) (k : SlotId) (r : Report) (s : State) : State :=
  if s.reports.queue.length < 32 then
    let s1 := (s.postQueue r).closeSlot k (r.outcome.getD .ok)
    if r.kind = .notice ∧ r.outcome = some .trunkReset then s1.enterHeld (s1.slot k).link else moveOnWith take k s1
  else s.setPhase (.waiting k (.reportSpace r))

/-- The launch checks of an Active head slot and what follows (R79, R81, R82, R84, R85). -/
def checkWith (take : SlotId → State → State) (k : SlotId) (s : State) : State :=
  match s.launchChecks k with
  | .slotOnly o st => reportWith take k (slotReport s k o st) s
  | .wait w => s.setPhase (.waiting k w)
  | .exchange op st t => s.reserve k op st t
  | .notice => s.launchNotice k

/-- A slot taken as the head slot (R78). -/
def takeWith (take : SlotId → State → State) (k : SlotId) (s : State) : State :=
  if (s.slot k).state = .active then s.setPhase (.waiting k .slotBusy) else checkWith take k (s.activateSlot k)

/-- A slot taken as the head slot, with `room` places in the report queue: each slot-only outcome on the way uses one, and with none
left the Launcher waits. -/
def takeSlot : Nat → SlotId → State → State
  | 0 => takeWith fun _ s => s
  | room + 1 => takeWith (takeSlot room)

/-- The next head slot taken with the places the queue has. -/
def State.take (k : SlotId) (s : State) : State := takeSlot (queueRoom s.reports) k s

def State.moveOn (k : SlotId) (s : State) : State := moveOnWith State.take k s
def State.report (k : SlotId) (r : Report) (s : State) : State := reportWith State.take k r s

/-! ## Re-evaluation (R83) -/

/-- A Launcher in Waiting looks at its current slot again. -/
def State.reevaluate (s : State) : State :=
  match s.launcher.phase with
  | .waiting k (.reportSpace r) => s.report k r
  | .waiting k .slotBusy => s.take k
  | .waiting k .depth => checkWith State.take k s
  | .waiting k .tag => checkWith State.take k s
  | .waiting k .blocks => checkWith State.take k s
  | .idle => s
  | .contending _ _ => s
  | .launching _ _ => s
  | .held _ => s

/-! ## The end of a launch phase (R89, R90, R101) -/

/-- The outbound chain leaves OUTBOUND(k) at the end of the launch phase (R89 step 1, R112). -/
def State.returnOutbound (s : State) (k : SlotId) : State :=
  if (s.slot k).returnOut then s.freeBlocks (s.outChain k)
  else s.setPool (s.pool.setOwners (s.outChain k) .processor)

/-- The outbound chain goes back to the processor whatever ReturnOut holds (R97, R100). -/
def State.undoOutbound (s : State) (k : SlotId) : State :=
  s.setPool (s.pool.setOwners (s.outChain k) .processor)

/-- "Answer phase ended" with the outcome, delivered to a Launcher in Launching (R87, R89, R101). -/
def State.answerPhaseEnded (s : State) (k : SlotId) (o : OutcomeCode) (attempts : Nat) : State :=
  match s.launcher.phase with
  | .launching j _ =>
    if j = k then
      let s1 := (((s.returnOutbound k).setAttempts k attempts).closeSlot k o)
      if o = .trunkReset then s1.enterHeld (s1.slot k).link else s1.moveOn k
    else s
  | .idle => s
  | .waiting _ _ => s
  | .contending _ _ => s
  | .held _ => s

/-- "Answer phase ended, deferred": the slot stays Active (R51, R87, R89). -/
def State.answerPhaseDeferred (s : State) (k : SlotId) (attempts : Nat) : State :=
  match s.launcher.phase with
  | .launching j _ => if j = k then ((s.returnOutbound k).setAttempts k attempts).moveOn k else s
  | .idle => s
  | .waiting _ _ => s
  | .contending _ _ => s
  | .held _ => s

/-- The launch phase of a NOTICE ends (R89, R90). -/
def State.noticeEnded (s : State) (k : SlotId) (attempts : Nat) (o : OutcomeCode) : State :=
  let s1 := (s.returnOutbound k).setAttempts k attempts
  s1.report k (noticeReport s1 k o attempts)

end Sys2Proof.Machine
end

