-- ==== Sys2Proof/Machine/Stations.lean ====
section
/-! DEFINITION. The Station Table (chapter 6): presence, misses and fencing, PROBE results, attention, and the trunk reset of the
records. Each delivery that changes State, Depth or Outstanding lets a waiting Launcher re-evaluate (R83, log 8). -/

namespace Sys2Proof.Machine

open Sys2Proof

/-- A good frame clears Misses and makes the station Online unless it is Fenced (R121). -/
def Station.heard (r : Station) : Station :=
  { r with misses := 0, presence := if r.presence = .fenced then .fenced else .online }

/-- An answer-timer expiry (R122). -/
def Station.missed (r : Station) (fenceLimit : Nat) : Station :=
  let m := if r.misses < 7 then r.misses + 1 else 7
  let p : Presence := if r.presence = .fenced then .fenced else .silent
  { r with misses := m, presence := if 0 < fenceLimit ∧ fenceLimit ≤ m then .fenced else p }

/-- FENCE (R123). -/
def Station.fence (r : Station) : Station := { r with presence := .fenced }

/-- ADMIT of a Fenced record (R124). -/
def Station.admitted (r : Station) : Station := { r with presence := .unknown, misses := 0 }

/-- An accepted PROBE answer (R128). -/
def Station.probedWith (r : Station) (depth identity revHigh revLow : Byte) : Station :=
  { r with depth := depth.toNat, identity := identity, revision := Half.ofBytes revHigh revLow, probed := true }

/-- The trunk reset of a record (R131). -/
def Station.trunkReset (r : Station) : Station :=
  if r.presence = .fenced then r else { r with presence := .unknown, depth := 1, probed := false, misses := 0 }

/-- A new value for a record, with re-evaluation when State, Depth or Outstanding changes (R83). -/
def State.updateStation (s : State) (i : StationId) (r : Station) : State :=
  let old := s.station i
  let s1 := s.setStation i r
  if old.presence = r.presence ∧ old.depth = r.depth ∧ old.outstanding = r.outstanding then s1 else s1.reevaluate

/-- A good frame delivered to the record of its source (R36, R121). -/
def State.goodFrame (s : State) (i : StationId) : State := s.updateStation i (s.station i).heard

/-- An answer-timer expiry delivered to the record of the REQUEST's destination (R122). -/
def State.missedAnswer (s : State) (i : StationId) : State :=
  s.updateStation i ((s.station i).missed s.config.fenceLimit)

/-- The ATTENTION report (R129). -/
def attentionReport (i : StationId) (cause : Nibble) : Report where
  kind := .attention
  urgent := false
  slot := none
  tag := none
  station := some i
  op := none
  outcome := none
  attempts := none
  busybacks := none
  stationStatus := none
  refuseReason := none
  length := none
  firstBlock := none
  cause := some cause

/-- An attention delivered to the record of its source (R129). -/
def State.attention (s : State) (i : StationId) (cause : Nibble) : State :=
  let r := s.station i
  if r.attnPending then
    s.setStation i { r with attnCount := if r.attnCount < 255 then r.attnCount + 1 else 255, lastCause := cause }
  else (s.setStation i { r with attnPending := true, attnCount := 1, lastCause := cause }).post (attentionReport i cause)

/-- The POP of an ATTENTION report (R130). -/
def State.attentionPopped (s : State) (i : StationId) : State :=
  s.setStation i { s.station i with attnPending := false, attnCount := 0 }

/-- The trunk reset of every record, within one event and with no re-evaluation (R131, R83). -/
def State.stationsTrunkReset (s : State) : State := { s with stations := s.stations.map Station.trunkReset }

end Sys2Proof.Machine
end

