-- ==== Sys2Proof/Machine/Exchange.lean ====
section
/-! DEFINITION. The Exchange Table (chapter 3): reaching Done, the answer phase and retries, deferral, recalls, WITHDRAW, rests, undo
and the trunk reset of the entries. -/

namespace Sys2Proof.Machine

open Sys2Proof

/-! ## Reaching Done (R57, R58) -/

/-- What the ending event supplies (R57): the outcome, the fields of the ending frame, the received chain and the blocks to
free in their order. -/
structure Finish where
  outcome : OutcomeCode
  length : Option Nat
  status : Option Nibble
  reason : Option Nibble
  chain : List BlockId
  frees : List BlockId
deriving DecidableEq, Repr

/-- The exchange report (R58). -/
def exchangeReport (s : State) (t : Tag) (x : Exchange) (f : Finish) : Report where
  kind := .exchange
  urgent := (s.slot x.slot).notify
  slot := some x.slot
  tag := some t
  station := some x.station
  op := some (byteOf x.op.code)
  outcome := some f.outcome
  attempts := some x.attempts
  busybacks := some x.busybacks
  stationStatus := f.status
  refuseReason := f.reason
  length := f.length
  firstBlock := f.chain.head?
  cause := none

/-- Steps 1 to 4 of R57: the entry Done, its blocks freed or attached to the report, Outstanding lowered, the report posted, and
Expiries counted for EXPIRED. -/
def State.reachDone (s : State) (t : Tag) (x : Exchange) (f : Finish) : State :=
  let d : DoneRecord := ⟨f.outcome, false, f.chain, f.length, f.status, f.reason⟩
  let s1 := (s.setEntry t (.done { x with reservedChain := [] } d)).freeBlocks f.frees
  let s2 := s1.setPool ((s1.pool.setOwners f.chain (.reported t)).linkChain f.chain)
  let s3 := (s2.lowerOutstanding x.station).post (exchangeReport s t x f)
  if f.outcome = .expired then s3.count .expiries else s3

/-- Done in the answer phase: step 5 is the Launcher's (R57, R89). The attempts delivered are the report's. -/
def State.finishAnswer (s : State) (t : Tag) (x : Exchange) (f : Finish) : State :=
  (s.reachDone t x f).answerPhaseEnded x.slot f.outcome x.attempts

/-- Done from Deferred or Receiving: step 5 closes the slot (R57). -/
def State.finishDeferred (s : State) (t : Tag) (x : Exchange) (f : Finish) : State :=
  (s.reachDone t x f).closeSlot x.slot f.outcome

/-- An ending with no frame to report, every block freed. -/
def endWith (o : OutcomeCode) (frees : List BlockId) : Finish where
  outcome := o
  length := none
  status := none
  reason := none
  chain := []
  frees := frees

/-! ## The answer phase (R47 to R56) -/

/-- A win delivered to an entry (R47). -/
def State.entryWon (s : State) (t : Tag) : State :=
  match s.entry t with
  | .reserved _ x => s.setEntry t (.reserved true x)
  | .free => s
  | .awaiting _ _ => s
  | .deferred _ _ => s
  | .receiving _ _ _ _ => s
  | .done _ _ => s
  | .resting _ _ => s

/-- "Request sent" delivered to an entry (R47). -/
def State.entrySent (s : State) (t : Tag) : State :=
  match s.entry t with
  | .reserved _ x => s.setEntry t (.awaiting x none)
  | .free => s
  | .awaiting _ _ => s
  | .deferred _ _ => s
  | .receiving _ _ _ _ => s
  | .done _ _ => s
  | .resting _ _ => s

/-- A retry (R56): Reserved, contending, attempts raised, and the Launcher's new pending send (R87). -/
def State.retry (s : State) (t : Tag) (x : Exchange) : State :=
  (s.setEntry t (.reserved false { x with attempts := x.attempts + 1 })).setPendingSend (some (.request x.slot t x.station))

/-- A failed attempt (R53, R54, R55): a retry while attempts is at most RetryLimit, else Done with the outcome. -/
def State.failedAttempt (s : State) (t : Tag) (x : Exchange) (o : OutcomeCode) : State :=
  if x.attempts ≤ (s.slot x.slot).retryLimit.val then s.retry t x else s.finishAnswer t x (endWith o x.reservedChain)

/-- Whether a PROBE answer of this length is accepted, from its first byte (R16, R50, R128). -/
def probeAccepted (length : Nat) (depth : Byte) : Bool := length == 4 && decide (1 ≤ depth.toNat ∧ depth.toNat ≤ 4)

/-- A good ANSWER within the in-limit (R49, R50). -/
def State.answerAccepted (s : State) (t : Tag) (x : Exchange) (length : Nat) (status : Nibble) : State :=
  let got := x.reservedChain.take (blocksFor length)
  let rest := x.reservedChain.drop (blocksFor length)
  let okay : Finish := ⟨.ok, some length, some status, none, got, rest⟩
  if x.op = .probe then
    match got with
    | [] => s.finishAnswer t x ⟨.protocol, some length, some status, none, [], x.reservedChain⟩
    | b :: _ =>
      if probeAccepted length (s.blockByte b 0) then
        (s.updateStation x.station
          ((s.station x.station).probedWith (s.blockByte b 0) (s.blockByte b 1) (s.blockByte b 2)
            (s.blockByte b 3))).finishAnswer t x okay
      else s.finishAnswer t x ⟨.protocol, some length, some status, none, [], x.reservedChain⟩
  else s.finishAnswer t x okay

/-- The deadline of a deferral in ticks: the slot's Patience, or DefaultPatience when that is 0 (R51). -/
def State.patienceOf (s : State) (k : SlotId) : Nat :=
  if (s.slot k).patience.toNat = 0 then s.config.defaultPatience else (s.slot k).patience.toNat

/-- A good DEFER from the right station under the right tag (R51). -/
def State.answerDeferred (s : State) (t : Tag) (x : Exchange) : State :=
  if x.op = .probe then s.finishAnswer t x (endWith .protocol x.reservedChain)
  else if x.keep then
    (s.setEntry t (.deferred x (s.patienceOf x.slot))).answerPhaseDeferred x.slot x.attempts
  else
    ((s.setEntry t (.deferred { x with reservedChain := [] } (s.patienceOf x.slot))).freeBlocks
      x.reservedChain).answerPhaseDeferred x.slot x.attempts

/-- The header of a reception, as far as it has been received (R34). -/
structure Header where
  kind : StationKind
  source : StationId
  code : Nibble
  tag : Tag
  length : Nat
deriving DecidableEq, Repr

/-- The storage decision of an Awaiting entry (R48). -/
def answerDecision (x : Exchange) (t : Tag) (h : Header) : AnswerStore :=
  if h.kind = .answer ∧ h.source = x.station ∧ h.tag = t then
    if h.length ≤ x.inLimit then .store else .discardOverrun
  else .discard

/-- A good frame at the end of the answer-window reception (R49 to R52, Table 3.3). -/
def State.answerGood (s : State) (t : Tag) (x : Exchange) (h : Header) : State :=
  if h.source = x.station ∧ h.tag = t then
    match h.kind with
    | .answer =>
      if h.length ≤ x.inLimit then s.answerAccepted t x h.length h.code
      else s.finishAnswer t x ⟨.overrun, some h.length, some h.code, none, [], x.reservedChain⟩
    | .defer => s.answerDeferred t x
    | .refuse => s.finishAnswer t x ⟨.refused, none, none, some h.code, [], x.reservedChain⟩
    | .recall => s.finishAnswer t x (endWith .protocol x.reservedChain)
    | .attention => s.finishAnswer t x (endWith .protocol x.reservedChain)
  else s.finishAnswer t x (endWith .protocol x.reservedChain)

/-- A frame not good at the end of the answer-window reception (R53): the blocks that took bytes return to RESERVED in place. -/
def State.answerBad (s : State) (t : Tag) (x : Exchange) : State :=
  (s.setPool (s.pool.setOwners x.reservedChain (.reserved t))).failedAttempt t x .damaged

/-- The answer-window frame end delivered to the Awaiting entry: `none` for a frame that is not good. -/
def State.answerFrameEnd (s : State) (t : Tag) (h : Option Header) : State :=
  match s.entry t with
  | .awaiting x _ => match h with
    | some h => s.answerGood t x h
    | none => s.answerBad t x
  | .free => s
  | .reserved _ _ => s
  | .deferred _ _ => s
  | .receiving _ _ _ _ => s
  | .done _ _ => s
  | .resting _ _ => s

/-- An answer-timer expiry delivered to the Awaiting entry (R54). -/
def State.answerExpired (s : State) (t : Tag) : State :=
  match s.entry t with
  | .awaiting x _ => s.failedAttempt t x .noAnswer
  | .free => s
  | .reserved _ _ => s
  | .deferred _ _ => s
  | .receiving _ _ _ _ => s
  | .done _ _ => s
  | .resting _ _ => s

/-- A collision delivered to an entry in Reserved, sending (R55). -/
def State.entryCollided (s : State) (t : Tag) : State :=
  match s.entry t with
  | .reserved true x => s.failedAttempt t x .line
  | .reserved false _ => s
  | .free => s
  | .awaiting _ _ => s
  | .deferred _ _ => s
  | .receiving _ _ _ _ => s
  | .done _ _ => s
  | .resting _ _ => s

/-! ## Recalls (R61 to R65) -/

/-- The storage decision of a recall and the blocks it takes (R62). -/
def State.recallDecision (s : State) (t : Tag) (x : Exchange) (length : Nat) : RecallStore × Pool :=
  if x.inLimit < length then (.overrun, s.pool)
  else if x.keep then (.reserved, s.pool)
  else if blocksFor length ≤ s.pool.freeCount then
    (.taken (s.pool.head (blocksFor length)), s.pool.take (blocksFor length) (.inbound t))
  else (.busy, s.pool)

/-- A RECALL header from a reception with origin Arbitration (R61). -/
def State.recallHeader (s : State) (h : Header) : State :=
  match s.entry h.tag with
  | .deferred x d =>
    if x.station = h.source then
      (s.setPool (s.recallDecision h.tag x h.length).2).setEntry h.tag
        (.receiving x d false (s.recallDecision h.tag x h.length).1)
    else s
  | .free => s
  | .reserved _ _ => s
  | .awaiting _ _ => s
  | .receiving _ _ _ _ => s
  | .done _ _ => s
  | .resting _ _ => s

/-- The blocks a Receiving entry stores into, by its decision (R62). -/
def recallChain (x : Exchange) : RecallStore → List BlockId
  | .reserved => x.reservedChain
  | .taken bs => bs
  | .overrun => []
  | .busy => []

/-- Every block a Receiving entry holds, in the order it frees them (R63, R71, R114, R115). -/
def receivingBlocks (x : Exchange) : RecallStore → List BlockId
  | .taken bs => x.reservedChain ++ bs
  | .reserved => x.reservedChain
  | .overrun => x.reservedChain
  | .busy => x.reservedChain

/-- Payload byte `i` handed to the entry that stores it (R48, R62, R113); dropped where no entry stores. -/
def State.storePayload (s : State) (o : Origin) (h : Header) (i : Nat) (v : Byte) : State :=
  match o with
  | .answerWindow t => match s.entry t with
    | .awaiting x (some .store) => s.setPool (s.pool.fill x.reservedChain t i v)
    | .awaiting _ (some .discardOverrun) => s
    | .awaiting _ (some .discard) => s
    | .awaiting _ none => s
    | .free => s
    | .reserved _ _ => s
    | .deferred _ _ => s
    | .receiving _ _ _ _ => s
    | .done _ _ => s
    | .resting _ _ => s
  | .arbitration =>
    if h.kind = .recall then
      match s.entry h.tag with
      | .receiving x _ _ dec => s.setPool (s.pool.fill (recallChain x dec) h.tag i v)
      | .free => s
      | .reserved _ _ => s
      | .awaiting _ _ => s
      | .deferred _ _ => s
      | .done _ _ => s
      | .resting _ _ => s
    else s
  | .unsolicited => s

/-- A recall that is not good (R63): blocks taken for it are freed, reserved blocks return to RESERVED, and the entry is Deferred again,
or Done EXPIRED when expiry is pending. -/
def State.recallBad (s : State) (t : Tag) : State :=
  match s.entry t with
  | .receiving x d pending dec =>
    if pending then (s.finishDeferred t x (endWith .expired (receivingBlocks x dec))).reevaluate
    else match dec with
      | .taken bs =>
        let s1 := (s.setEntry t (.deferred x d)).freeBlocks bs
        if bs.isEmpty then s1 else s1.reevaluate
      | .reserved => (s.setPool (s.pool.setOwners x.reservedChain (.reserved t))).setEntry t (.deferred x d)
      | .overrun => s.setEntry t (.deferred x d)
      | .busy => s.setEntry t (.deferred x d)
  | .free => s
  | .reserved _ _ => s
  | .awaiting _ _ => s
  | .deferred _ _ => s
  | .done _ _ => s
  | .resting _ _ => s

/-- A stored recall accepted (R64): the received chain is what took bytes, the reserved blocks that took none are freed. -/
def storedRecall (x : Exchange) (dec : RecallStore) (length : Nat) (status : Nibble) : Finish where
  outcome := .ok
  length := some length
  status := some status
  reason := none
  chain := (recallChain x dec).take (blocksFor length)
  frees := (recallChain x dec).drop (blocksFor length)

/-- The busyback count of an entry raised, staying at 255 (R64). -/
def Exchange.busied (x : Exchange) : Exchange :=
  { x with busybacks := if x.busybacks < 255 then x.busybacks + 1 else 255 }

/-- A good RECALL that made no entry Receiving (R65): StrayFrames, and the late recall's effect on a Resting or Done entry. -/
def State.recallDisowned (s : State) (t : Tag) (source : StationId) : State :=
  let s1 := s.count .strayFrames
  match s.entry t with
  | .resting st _ => if st = source then (s1.setEntry t .free).reevaluate else s1
  | .done x d =>
    if (d.outcome = .expired ∨ d.outcome = .withdrawn) ∧ x.station = source then
      s1.setEntry t (.done x { d with lateRecallSeen := true })
    else s1
  | .free => s1
  | .reserved _ _ => s1
  | .awaiting _ _ => s1
  | .deferred _ _ => s1
  | .receiving _ _ _ _ => s1

/-- A good RECALL with origin Arbitration at its frame end: the reply chosen and the effect (R64, R65, Table 3.4). -/
def State.recallGood (s : State) (h : Header) : ReplyKind × State :=
  match s.entry h.tag with
  | .receiving x d pending dec => match dec with
    | .reserved => (.taken, (s.finishDeferred h.tag x (storedRecall x .reserved h.length h.code)).reevaluate)
    | .taken bs => (.taken, (s.finishDeferred h.tag x (storedRecall x (.taken bs) h.length h.code)).reevaluate)
    | .overrun =>
      (.taken, (s.finishDeferred h.tag x ⟨.overrun, some h.length, some h.code, none, [], x.reservedChain⟩).reevaluate)
    | .busy =>
      let s1 := s.count .busyBacks
      if pending then (.busyback, (s1.finishDeferred h.tag x.busied (endWith .expired x.reservedChain)).reevaluate)
      else (.busyback, s1.setEntry h.tag (.deferred x.busied d))
  | .free => (.disown, s.recallDisowned h.tag h.source)
  | .reserved _ _ => (.disown, s.recallDisowned h.tag h.source)
  | .awaiting _ _ => (.disown, s.recallDisowned h.tag h.source)
  | .deferred _ _ => (.disown, s.recallDisowned h.tag h.source)
  | .done _ _ => (.disown, s.recallDisowned h.tag h.source)
  | .resting _ _ => (.disown, s.recallDisowned h.tag h.source)

/-- A header handed to the Exchange Table (R34, R48, R61). -/
def State.headerHanded (s : State) (o : Origin) (h : Header) : State :=
  match o with
  | .answerWindow t => match s.entry t with
    | .awaiting x _ => s.setEntry t (.awaiting x (some (answerDecision x t h)))
    | .free => s
    | .reserved _ _ => s
    | .deferred _ _ => s
    | .receiving _ _ _ _ => s
    | .done _ _ => s
    | .resting _ _ => s
  | .arbitration => if h.kind = .recall then s.recallHeader h else s
  | .unsolicited => s

/-! ## Ticks (R59, R69) -/

/-- A deadline lowered by 1 and settled at 0 (R59). -/
def State.deadlineTick (s : State) (t : Tag) : State :=
  match s.entry t with
  | .deferred x d =>
    if d ≤ 1 then (s.finishDeferred t x (endWith .expired x.reservedChain)).reevaluate else s.setEntry t (.deferred x (d - 1))
  | .receiving x d pending dec => s.setEntry t (.receiving x (d - 1) (pending || decide (d ≤ 1)) dec)
  | .free => s
  | .reserved _ _ => s
  | .awaiting _ _ => s
  | .done _ _ => s
  | .resting _ _ => s

/-- A rest lowered by 1, Free at 0 (R69). -/
def State.restTick (s : State) (t : Tag) : State :=
  match s.entry t with
  | .resting st r => if r ≤ 1 then (s.setEntry t .free).reevaluate else s.setEntry t (.resting st (r - 1))
  | .free => s
  | .reserved _ _ => s
  | .awaiting _ _ => s
  | .deferred _ _ => s
  | .receiving _ _ _ _ => s
  | .done _ _ => s

/-! ## WITHDRAW, POP, undo and trunk reset (R66, R68, R70, R71) -/

/-- WITHDRAW of a tag: the result and the effect (R66). -/
def State.withdrawTag (s : State) (t : Tag) : CmdResult × State :=
  match s.entry t with
  | .deferred x _ => (.ok, (s.finishDeferred t x (endWith .withdrawn x.reservedChain)).reevaluate)
  | .reserved _ _ => (.later, s)
  | .awaiting _ _ => (.later, s)
  | .receiving _ _ _ _ => (.later, s)
  | .free => (.noExchange, s)
  | .done _ _ => (.noExchange, s)
  | .resting _ _ => (.noExchange, s)

/-- What an entry in Done becomes at the POP of its report (R68). -/
def afterPop (x : Exchange) (d : DoneRecord) (restTime : Nat) : Entry :=
  if (d.outcome = .expired ∨ d.outcome = .withdrawn) ∧ d.lateRecallSeen = false ∧ 0 < restTime then .resting x.station restTime
  else .free

/-- The POP of an EXCHANGE report at its entry: the received chain to the processor, the entry Free or Resting (R68, R116). -/
def State.exchangePopped (s : State) (t : Tag) : State :=
  match s.entry t with
  | .done x d =>
    (s.setPool (s.pool.setOwners d.receivedChain .processor)).setEntry t (afterPop x d s.config.restTime)
  | .free => s
  | .reserved _ _ => s
  | .awaiting _ _ => s
  | .deferred _ _ => s
  | .receiving _ _ _ _ => s
  | .resting _ _ => s

/-- A reservation undone (R70). -/
def State.undoEntry (s : State) (t : Tag) (x : Exchange) : State :=
  ((s.setEntry t .free).freeBlocks x.reservedChain).lowerOutstanding x.station

/-- A trunk reset reaching one entry (R71); no re-evaluation (R83). -/
def State.entryTrunkReset (s : State) (t : Tag) : State :=
  match s.entry t with
  | .free => s
  | .reserved false x =>
    if x.attempts ≤ 1 then s.undoEntry t x
    else s.finishAnswer t { x with attempts := x.attempts - 1 } (endWith .trunkReset x.reservedChain)
  | .reserved true x => s.finishAnswer t x (endWith .trunkReset x.reservedChain)
  | .awaiting x _ => s.finishAnswer t x (endWith .trunkReset x.reservedChain)
  | .deferred x _ => s.finishDeferred t x (endWith .trunkReset x.reservedChain)
  | .receiving x _ _ dec => s.finishDeferred t x (endWith .trunkReset (receivingBlocks x dec))
  | .done _ _ => s
  | .resting _ _ => s.setEntry t .free

/-- A trunk reset reaching the table: every entry, in ascending order of tag (R71). The outbound chain of an exchange in Launching joins the
free list, under ReturnOut 1, directly after its own entry's blocks, ahead of those of higher tags; the spec leaves that order open
(log 29). -/
def State.entriesTrunkReset (s : State) : State := (List.finRange 16).foldl State.entryTrunkReset s

end Sys2Proof.Machine
end

