-- ==== Sys2Proof/Machine/Frame.lean ====
section
/-! DEFINITION. Frames on the line (chapter 1): the CRC, the bytes of the frames the 2614 sends, and the level of each bit time. -/

namespace Sys2Proof.Machine

open Sys2Proof

/-! ## The CRC (R17) -/

/-- One data bit: the register shifts toward its most significant end, and 0x1021 is combined in when the bit that left differs from
the data bit. -/
def crcBit (reg : Half) (bit : Bool) : Half :=
  if reg.getLsbD 15 = bit then reg <<< 1 else (reg <<< 1) ^^^ 0x1021

/-- One byte, most significant bit first. -/
def crcByte (reg : Half) (v : Byte) : Half :=
  [7, 6, 5, 4, 3, 2, 1, 0].foldl (fun r i => crcBit r (v.getLsbD i)) reg

/-- The register after a list of bytes, from the preset 0xFFFF. -/
def crcOf (bs : List Byte) : Half := bs.foldl crcByte 0xFFFF

/-! ## The bytes of a frame (Table 1.2) -/

/-- The four header bytes. -/
def headerBytes (kind address code tag : Nibble) (length : Nat) : List Byte :=
  [kind ++ address, code ++ tag, byteOf (length / 256), byteOf (length % 256)]

/-- The address nibble of a station. -/
def addressNibble (i : StationId) : Nibble := BitVec.ofNat 4 i.address

/-- The slot a send belongs to (R20). -/
def Send.slot : Send → SlotId
  | .request k _ _ => k
  | .notice k => k

/-- The kind nibble of a send (Table 1.3). -/
def Send.kind : Send → Nibble
  | .request _ _ _ => 0x1
  | .notice _ => 0x2

/-- The attempts of the entry a REQUEST serves. -/
def Entry.attempts : Entry → Nat
  | .free => 0
  | .reserved _ x => x.attempts
  | .awaiting x _ => x.attempts
  | .deferred x _ => x.attempts
  | .receiving x _ _ _ => x.attempts
  | .done x _ => x.attempts
  | .resting _ _ => 0

/-- The header taken at the win from the slot and the entry (R14, R15, R25). -/
def State.outgoing (s : State) (send : Send) : Outgoing :=
  match send with
  | .request k t _ =>
    { send := send
      address := (s.slot k).station.setWidth 4
      code := (if 2 ≤ (s.entry t).attempts then 8 else 0) ||| ((s.slot k).op.setWidth 4 &&& 7)
      tag := nibbleOfTag t
      length := (s.slot k).outLength.toNat }
  | .notice k =>
    { send := send
      address := 15
      code := (s.slot k).noticeCode
      tag := 0
      length := (s.slot k).outLength.toNat }

/-- The first `n` payload bytes of a slot's outbound chain, in chain order (R14, R111). -/
def State.payloadBytes (s : State) (k : SlotId) (n : Nat) : List Byte :=
  let chain := s.outChain k
  (List.range n).filterMap fun i => (chain[i / 64]?).map fun b => s.blockByte b (i % 64)

/-- Bytes 1 to the last payload byte followed by their CRC, high byte first, behind the Lead byte (R11, R17). -/
def frameOf (covered : List Byte) : List Byte :=
  (0x96 : Byte) :: (covered ++ [(crcOf covered).high, (crcOf covered).low])

/-- A REQUEST or NOTICE as it goes out (R14, R15). -/
def State.outgoingFrame (s : State) (f : Outgoing) : List Byte :=
  frameOf (headerBytes f.send.kind f.address f.code f.tag f.length ++ s.payloadBytes f.send.slot f.length)

/-- A reply as it goes out (R15). -/
def replyFrame (r : Reply) : List Byte := frameOf (headerBytes r.kind.code r.address 0 r.tag 0)

/-! ## Bits (R2) -/

/-- Whether bit `i` of a character is dominant: the start bit, then the data bits least significant first, dominant for
0, then a recessive stop bit. -/
def characterBit (v : Byte) (i : Nat) : Bool :=
  if i = 0 then true else if i ≤ 8 then !v.getLsbD (i - 1) else false

/-- Whether bit time `p` of a frame is dominant, its characters back to back. -/
def frameBit (bytes : List Byte) (p : Nat) : Bool :=
  match bytes[p / 10]? with
  | some v => characterBit v (p % 10)
  | none => false

/-- Whether a contender drives bit time `bit` of an arbitration (R5): the claim bit, and each rank bit that is 0. -/
def Contention.drives (c : Contention) : Bool :=
  if c.bit = 0 then true else !c.rank.getLsbD (5 - c.bit)

/-- Whether the 2614 drives dominant in the coming bit time, which is when DE is asserted (R1, Table 2.1). -/
def State.drives (s : State) : Bool :=
  s.nreset &&
    match s.trunk.state with
    | .offline => false
    | .settling => false
    | .idle => false
    | .arbitrating c => c.drives
    | .transmitting f p => frameBit (s.outgoingFrame f) p
    | .answerWait _ _ _ _ => false
    | .receiving _ => false
    | .replying _ (.window _) => false
    | .replying r (.sending p) => frameBit (replyFrame r) p
    | .resetting _ => true
    | .fault => false

end Sys2Proof.Machine
end

