-- ==== Sys2Proof/Machine/Reception.lean ====
section
/-! DEFINITION. Receiving a frame (chapter 2, sections 2.6 and 2.7): the reception record, the checks of each character, the header
and payload hand-ons, and the end of a reception by class and route. Each event answers `none` where it does not exist. -/

namespace Sys2Proof.Machine

open Sys2Proof

/-! ## Opening a reception (R31, R32) -/

/-- A reception record at its start; GapTime is sampled here (R21). -/
def newReception (origin : Origin) (gapTime arbitrationLeft : Nat) (char : Option (Nat × Byte)) : Reception where
  origin := origin
  gapLimit := gapTime
  count := 0
  kind := none
  source := none
  code := none
  tag := none
  lengthHigh := none
  length := none
  crc := 0xFFFF
  crcHigh := none
  crcGood := false
  handed := false
  malformed := false
  truncated := false
  due := none
  arbitrationLeft := arbitrationLeft
  gap := 0
  run := 0
  char := char

/-- Receiving as a non-contender that follows the arbitration (R6, R24, R26, R27). -/
def State.follow (s : State) (arbitrationLeft : Nat) : State :=
  s.setTrunkState (.receiving (newReception .arbitration s.config.gapTime arbitrationLeft none))

/-- The reception record changed. -/
def State.setReception (s : State) (r : Reception) : State := s.setTrunkState (.receiving r)

/-! ## Start bits (R23, R30, R33) -/

/-- The second CRC byte is in (R3). -/
def Reception.complete (r : Reception) : Bool :=
  match r.length with
  | some n => r.count == 7 + n
  | none => false

/-- A start bit: it opens the answer-window reception, or an unsolicited one, restarts a skipped count, or begins the next
character of a reception (log 25). -/
def State.startBitSeen (s : State) : Option State :=
  match s.trunk.state with
  | .answerWait t _ _ _ => some (s.setReception (newReception (.answerWindow t) s.config.gapTime 0 (some (0, 0))))
  | .settling =>
    if s.trunk.skip then some (s.setTrunk { s.trunk with quiet := 0 })
    else some (s.setTrunk { s.trunk with
      state := .receiving (newReception .unsolicited s.config.gapTime 0 (some (0, 0))), quiet := 0 })
  | .receiving r =>
    if r.malformed || r.complete || r.char.isSome then none
    else some (s.setReception { r with gap := 0, run := 0, arbitrationLeft := 0, char := some (0, 0) })
  | .offline => none
  | .idle => none
  | .arbitrating _ => none
  | .transmitting _ _ => none
  | .replying _ _ => none
  | .resetting _ => none
  | .fault => none

/-! ## Hand-ons (R34, R48, R62) -/

/-- The header of a reception once byte 4 is in. -/
def Reception.headerIn (r : Reception) : Option Header :=
  match r.kind, r.source, r.code, r.tag, r.length with
  | some kind, some source, some code, some tag, some length => some ⟨kind, source, code, tag, length⟩
  | _, _, _, _, _ => none

/-- The header waits to be handed on: byte 4 is in, no check has failed, and the origin is not Unsolicited (R34). -/
def Reception.headerDue (r : Reception) : Option Header :=
  if r.malformed || r.handed || r.origin = .unsolicited then none else r.headerIn

/-- The header handed to the Exchange Table (R34). -/
def State.handHeader (s : State) : Option State :=
  match s.trunk.state with
  | .receiving r =>
    match r.headerDue with
    | some h => some ((s.setReception { r with handed := true }).headerHanded r.origin h)
    | none => none
  | .offline => none
  | .settling => none
  | .idle => none
  | .arbitrating _ => none
  | .transmitting _ _ => none
  | .answerWait _ _ _ _ => none
  | .replying _ _ => none
  | .resetting _ => none
  | .fault => none

/-- A received payload byte handed to the Exchange Table (R34); its index is the number of characters before it, less the
five of the header and the Lead byte. -/
def State.handPayload (s : State) : Option State :=
  match s.trunk.state with
  | .receiving r =>
    match r.due, r.headerIn with
    | some v, some h => some ((s.setReception { r with due := none }).storePayload r.origin h (r.count - 6) v)
    | some _, none => none
    | none, _ => none
  | .offline => none
  | .settling => none
  | .idle => none
  | .arbitrating _ => none
  | .transmitting _ _ => none
  | .answerWait _ _ _ _ => none
  | .replying _ _ => none
  | .resetting _ => none
  | .fault => none

/-- What is due is handed on before anything later of the same reception (R34, log 5). -/
def State.handDue (s : State) : State := (s.handHeader.getD s).handPayload.getD (s.handHeader.getD s)

/-! ## Characters (R32) -/

/-- The check a character has to pass as it completes (R32); the Length is known at character 4 (log 17). -/
def Reception.passes (r : Reception) (v : Byte) (stopRecessive : Bool) : Bool :=
  stopRecessive &&
    (if r.count = 0 then v == 0x96
     else if r.count = 1 then (StationKind.ofCode (highNibble v)).isSome && (stationOf (lowNibble v).toNat).isSome
     else if r.count = 4 then decide (256 * (r.lengthHigh.getD 0).toNat + v.toNat ≤ 1024)
     else true)

/-- The fields a character fills: the header's fields, the running CRC over bytes 1 to the last payload byte, a payload byte due to be
handed on, and the two CRC bytes (R17, R32, R34). -/
def Reception.fill (r : Reception) (v : Byte) : Reception :=
  if r.count = 0 then r
  else if r.count = 1 then
    { r with kind := StationKind.ofCode (highNibble v), source := stationOf (lowNibble v).toNat, crc := crcByte r.crc v }
  else if r.count = 2 then { r with code := some (highNibble v), tag := some (tagOfNibble (lowNibble v)), crc := crcByte r.crc v }
  else if r.count = 3 then { r with lengthHigh := some v, crc := crcByte r.crc v }
  else if r.count = 4 then
    { r with length := some (256 * (r.lengthHigh.getD 0).toNat + v.toNat), crc := crcByte r.crc v }
  else match r.length with
    | none => r
    | some n =>
      if r.count < 5 + n then
        { r with crc := crcByte r.crc v, due := if r.origin = .unsolicited then none else some v }
      else if r.count = 5 + n then { r with crcHigh := some v }
      else { r with crcGood := r.crcHigh == some r.crc.high && v == r.crc.low }

/-- A completed character in the record: checked, and filled in or the malformed flag set (R32). -/
def Reception.take (r : Reception) (v : Byte) (stopRecessive : Bool) : Reception :=
  if r.passes v stopRecessive then
    { r.fill v with count := r.count + 1, gap := 0, arbitrationLeft := 0, char := none }
  else { r with count := r.count + 1, malformed := true, gap := 0, arbitrationLeft := 0, char := none }

/-- A character completes (R32), what was due having been handed on. -/
def State.characterIn (s : State) (v : Byte) (stopRecessive : Bool) : Option State :=
  match s.handDue.trunk.state with
  | .receiving r =>
    if r.malformed || r.complete then none else some (s.handDue.setReception (r.take v stopRecessive))
  | .offline => none
  | .settling => none
  | .idle => none
  | .arbitrating _ => none
  | .transmitting _ _ => none
  | .answerWait _ _ _ _ => none
  | .replying _ _ => none
  | .resetting _ => none
  | .fault => none

/-! ## The end of a reception (R35, R36, Table 2.3) -/

/-- The counter of a class (R35). -/
def FrameClass.counter : FrameClass → Counter
  | .good => .framesReceived
  | .damaged => .damaged
  | .truncated => .truncated
  | .malformed => .malformed

/-- A good frame with origin Arbitration, after its delivery to the Station Table (log 28): a RECALL or ATTENTION opens the reply window,
any other kind is a stray frame. -/
def State.arbitrationGood (s : State) (h : Header) : State :=
  match h.kind with
  | .recall =>
    (s.recallGood h).2.setTrunkState
      (.replying ⟨(s.recallGood h).1, addressNibble h.source, nibbleOfTag h.tag⟩ (.window 0))
  | .attention => (s.attention h.source h.code).setTrunkState (.replying ⟨.taken, addressNibble h.source, 0⟩ (.window 0))
  | .answer => s.count .strayFrames
  | .defer => s.count .strayFrames
  | .refuse => s.count .strayFrames

/-- The routes of a good frame, after its delivery to the Station Table. -/
def State.routeGood (s : State) (o : Origin) (h : Header) : State :=
  match o with
  | .answerWindow t => s.answerFrameEnd t (some h)
  | .arbitration => s.arbitrationGood h
  | .unsolicited => s.count .strayFrames

/-- The routes of a frame that is not good. -/
def State.routeBad (s : State) (r : Reception) : State :=
  match r.origin with
  | .answerWindow t => s.answerFrameEnd t none
  | .arbitration =>
    match r.headerIn with
    | some h => if r.handed && h.kind == .recall then s.recallBad h.tag else s
    | none => s
  | .unsolicited => s

/-- A classified reception ends: counted, Settling with quiet count 0, and routed (R35, R36). The Station Table takes a good frame, with the
re-evaluation of a changed State, before its other routes: in the answer window by R49; for a RECALL or ATTENTION after an arbitration the
spec fixes no order against the frame end or the attention, and the model takes the same one (log 28). -/
def State.endReception (s : State) (r : Reception) (c : FrameClass) : State :=
  let s1 := (s.count c.counter).settle 0
  match c with
  | .good =>
    match r.headerIn with
    | some h => (s1.goodFrame h.source).routeGood r.origin h
    | none => s1
  | .damaged => s1.routeBad r
  | .truncated => s1.routeBad r
  | .malformed => s1.routeBad r

/-- The reception in progress, with what was due handed on. -/
def State.receptionOf (s : State) : Option Reception :=
  match s.handDue.trunk.state with
  | .receiving r => some r
  | .offline => none
  | .settling => none
  | .idle => none
  | .arbitrating _ => none
  | .transmitting _ _ => none
  | .answerWait _ _ _ _ => none
  | .replying _ _ => none
  | .resetting _ => none
  | .fault => none

/-- The frame end at the second CRC byte (R35 rules 4 and 5). -/
def State.frameEnded (s : State) : Option State :=
  match s.receptionOf with
  | some r =>
    if r.complete && !r.malformed then some (s.handDue.endReception r (if r.crcGood then .good else .damaged)) else none
  | none => none

/-- The gap timer, which runs between characters, expires: truncated (R33). -/
def State.gapExpired (s : State) : Option State :=
  match s.receptionOf with
  | some r =>
    if r.malformed || r.complete || r.char.isSome then none
    else some (s.handDue.endReception { r with truncated := true } .truncated)
  | none => none

/-- The recessive run after a failed check: malformed (R32). -/
def State.malformedEnded (s : State) : Option State :=
  match s.receptionOf with
  | some r => if r.malformed then some (s.handDue.endReception r .malformed) else none
  | none => none

end Sys2Proof.Machine
end

