-- ==== Sys2Proof/Machine/Trunk.lean ====
section
/-! DEFINITION. The Trunk Controller's other events (chapter 2): contention, sending, the answer and reply windows, settling, the stuck
line, and the reset mark. Each event answers `none` where it does not exist. -/

namespace Sys2Proof.Machine

open Sys2Proof

/-! ## Contention (R24, R26) -/

/-- The rank taken at the claim bit (R7, R26). -/
def State.rank (s : State) : BitVec 5 :=
  match s.config.claimPolicy with
  | .lead => 0
  | .yield => 31
  | .alternate => if s.trunk.phase then 31 else 0

/-- The claim bit driven for the pending send (R24). -/
def State.claim (s : State) : Option State :=
  match s.trunk.state, s.trunk.pendingSend with
  | .idle, some _ => some (s.setTrunkState (.arbitrating ⟨s.rank, s.config.claimPolicy == .alternate, 0⟩))
  | _, _ => none

/-- Another party's claim with no send pending (R24). -/
def State.foreignClaim (s : State) : Option State :=
  match s.trunk.state, s.trunk.pendingSend with
  | .idle, none => some (s.follow 5)
  | _, _ => none

/-- The phase toggled by a contention made under Alternate (R7). -/
def State.togglePhase (s : State) (c : Contention) : State :=
  if c.alternate then s.setTrunk { s.trunk with phase := !s.trunk.phase } else s

/-- The win delivered to the Launcher (R86). -/
def State.launcherWon (s : State) : State :=
  match s.launcher.phase with
  | .contending k n => s.setPhase (.launching k n)
  | .idle => s
  | .waiting _ _ => s
  | .launching _ _ => s
  | .held _ => s

/-- The win delivered to the entry of a REQUEST (R26, R47). -/
def State.entryOfSendWon (s : State) : Send → State
  | .request _ t _ => s.entryWon t
  | .notice _ => s

/-- A contention won (R26): the send consumed, the deliveries made, and the frame taken from the slot and the entry. -/
def State.win (s : State) : Option State :=
  match s.trunk.state, s.trunk.pendingSend with
  | .arbitrating c, some send =>
    some (((((s.togglePhase c).setPendingSend none).launcherWon).entryOfSendWon send).setTrunkState
      (.transmitting (s.outgoing send) 0))
  | _, _ => none

/-- The bit times of the arbitration that follow the one in which it was lost (R31); a released bit is a rank bit, so the first
that can lose is bit time 1. -/
def Contention.leftAfterLoss (c : Contention) : LossCause → Nat
  | .readBackFault => 5 - c.bit
  | .releasedBitDominant => 5 - max c.bit 1

/-- Whether a contention can be lost this way: rank 0 releases no bit (R5). -/
def Contention.losable (c : Contention) : LossCause → Bool
  | .readBackFault => true
  | .releasedBitDominant => c.rank != 0

/-- A contention lost, the send left pending (R26). -/
def State.lose (s : State) (cause : LossCause) : Option State :=
  match s.trunk.state with
  | .arbitrating c =>
    if c.losable cause then
      some (((s.togglePhase c).count .arbitrationLosses).follow (c.leftAfterLoss cause))
    else none
  | .offline => none
  | .settling => none
  | .idle => none
  | .transmitting _ _ => none
  | .answerWait _ _ _ _ => none
  | .receiving _ => none
  | .replying _ _ => none
  | .resetting _ => none
  | .fault => none

/-! ## Sending (R28, R29, R88) -/

/-- A REQUEST reaches its last stop bit (R28); AnswerTime is sampled here. -/
def State.requestOut (s : State) : Option State :=
  match s.trunk.state with
  | .transmitting f _ =>
    match f.send with
    | .request _ t st =>
      some (((s.count .framesSent).entrySent t).setTrunkState (.answerWait t st s.config.answerTime 0))
    | .notice _ => none
  | .offline => none
  | .settling => none
  | .idle => none
  | .arbitrating _ => none
  | .answerWait _ _ _ _ => none
  | .receiving _ => none
  | .replying _ _ => none
  | .resetting _ => none
  | .fault => none

/-- "Notice sent" at the Launcher (R88). -/
def State.launcherNoticeSent (s : State) (k : SlotId) : State :=
  match s.launcher.phase with
  | .launching j (some n) => if j = k then s.noticeEnded k n .ok else s
  | .launching _ none => s
  | .idle => s
  | .waiting _ _ => s
  | .contending _ _ => s
  | .held _ => s

/-- A collision of a NOTICE at the Launcher (R88). -/
def State.launcherNoticeCut (s : State) (k : SlotId) : State :=
  match s.launcher.phase with
  | .launching j (some n) =>
    if j = k then
      if n ≤ (s.slot k).retryLimit.val then (s.setPhase (.launching k (some (n + 1)))).setPendingSend (some (.notice k))
      else s.noticeEnded k n .line
    else s
  | .launching _ none => s
  | .idle => s
  | .waiting _ _ => s
  | .contending _ _ => s
  | .held _ => s

/-- A NOTICE reaches its last stop bit (R28, R88). -/
def State.noticeOut (s : State) : Option State :=
  match s.trunk.state with
  | .transmitting f _ =>
    match f.send with
    | .notice k => some (((s.count .framesSent).settle 0).launcherNoticeSent k)
    | .request _ _ _ => none
  | .offline => none
  | .settling => none
  | .idle => none
  | .arbitrating _ => none
  | .answerWait _ _ _ _ => none
  | .receiving _ => none
  | .replying _ _ => none
  | .resetting _ => none
  | .fault => none

/-- A collision delivered to the owner of the frame (R29). -/
def State.ownerCut (s : State) : Send → State
  | .request _ t _ => s.entryCollided t
  | .notice k => s.launcherNoticeCut k

/-- A read-back mismatch in a REQUEST or NOTICE (R29). -/
def State.frameCut (s : State) : Option State :=
  match s.trunk.state with
  | .transmitting f _ => some (((s.count .collisions).settle 0).ownerCut f.send)
  | .offline => none
  | .settling => none
  | .idle => none
  | .arbitrating _ => none
  | .answerWait _ _ _ _ => none
  | .receiving _ => none
  | .replying _ _ => none
  | .resetting _ => none
  | .fault => none

/-! ## The answer window (R30) -/

/-- The answer timer expires (R30, R54, R122); the order of the two deliveries is open (log 7). -/
def State.answerWindowExpired (s : State) (stationFirst : Bool) : Option State :=
  match s.trunk.state with
  | .answerWait t st limit _ =>
    let s1 := (s.count .answerTimeouts).settle limit
    some (if stationFirst then (s1.missedAnswer st).answerExpired t else (s1.answerExpired t).missedAnswer st)
  | .offline => none
  | .settling => none
  | .idle => none
  | .arbitrating _ => none
  | .transmitting _ _ => none
  | .receiving _ => none
  | .replying _ _ => none
  | .resetting _ => none
  | .fault => none

/-! ## Replies (R37) -/

/-- The two released bit times have passed: the reply starts. -/
def State.replyStarts (s : State) : Option State :=
  match s.trunk.state with
  | .replying r (.window _) => some (s.setTrunkState (.replying r (.sending 0)))
  | .replying _ (.sending _) => none
  | .offline => none
  | .settling => none
  | .idle => none
  | .arbitrating _ => none
  | .transmitting _ _ => none
  | .answerWait _ _ _ _ => none
  | .receiving _ => none
  | .resetting _ => none
  | .fault => none

/-- The reply reaches its last stop bit. -/
def State.replyOut (s : State) : Option State :=
  match s.trunk.state with
  | .replying _ (.sending _) => some ((s.count .framesSent).settle 0)
  | .replying _ (.window _) => none
  | .offline => none
  | .settling => none
  | .idle => none
  | .arbitrating _ => none
  | .transmitting _ _ => none
  | .answerWait _ _ _ _ => none
  | .receiving _ => none
  | .resetting _ => none
  | .fault => none

/-- A read-back mismatch cuts the reply; the collision goes to no block. -/
def State.replyCut (s : State) : Option State :=
  match s.trunk.state with
  | .replying _ (.sending _) => some ((s.count .collisions).settle 0)
  | .replying _ (.window _) => none
  | .offline => none
  | .settling => none
  | .idle => none
  | .arbitrating _ => none
  | .transmitting _ _ => none
  | .answerWait _ _ _ _ => none
  | .receiving _ => none
  | .resetting _ => none
  | .fault => none

/-! ## Idle, the stuck line and Fault (R23, R40, R41) -/

/-- Idle entered: quiet count 0, skip flag clear, and a TRUNK RESET in progress due to complete (R23, R39, log 6). -/
def State.enterLineIdle (s : State) : State :=
  (s.setTrunk { s.trunk with state := .idle, quiet := 0, skip := false }).setPort
    { s.port with completionDue := s.port.completionDue || s.trunkResetting }

/-- The quiet count reaches 12 in Settling (R23). -/
def State.lineFallsIdle (s : State) : Option State :=
  if s.trunk.state = .settling then some s.enterLineIdle else none

/-- The quiet count reaches 12 in Fault; the stuck count is 0 (R41). -/
def State.faultClears (s : State) : Option State :=
  if s.trunk.state = .fault then some ((s.setTrunk { s.trunk with stuck := 0 }).enterLineIdle) else none

/-- Fault entered: TRUNK FAULT latched, TrunkFaults raised, quiet count 0 (R40). -/
def State.enterFault (s : State) : State :=
  ((s.setTrunk { s.trunk with state := .fault, quiet := 0, stuck := 2048 }).latchTrunkFault).count .trunkFaults

/-- The stuck count reaches 2048 (R40), where it can (log 24). -/
def State.sticks (s : State) : Option State :=
  match s.trunk.state with
  | .receiving _ =>
    match s.receptionOf with
    | some r => some ((s.handDue.endReception r .truncated).enterFault)
    | none => none
  | .settling => some s.enterFault
  | .fault => some (s.setTrunk { s.trunk with stuck := 2048 })
  | .offline => none
  | .idle => none
  | .arbitrating _ => none
  | .transmitting _ _ => none
  | .answerWait _ _ _ _ => none
  | .replying _ _ => none
  | .resetting _ => none

/-! ## The reset mark (R38, R39, R100, R165) -/

/-- The mark ends (R39). -/
def State.markEnds (s : State) : Option State :=
  match s.trunk.state with
  | .resetting _ => some (s.settle 0)
  | .offline => none
  | .settling => none
  | .idle => none
  | .arbitrating _ => none
  | .transmitting _ _ => none
  | .answerWait _ _ _ _ => none
  | .receiving _ => none
  | .replying _ _ => none
  | .fault => none

/-- TRUNK RESET completes once Idle has been entered after the mark (R39, R165). -/
def State.trunkResetCompletes (s : State) : Option State := if s.port.completionDue then some (s.complete .ok 0) else none

/-- A slot undone by a trunk reset, the Launcher Held at it (R97, R100). -/
def State.heldAtReopened (s : State) (k : SlotId) : State := (s.reopenSlot k).enterHeld k

/-- The Launcher's own trunk-reset delivery (R100). -/
def State.launcherTrunkReset (s : State) : State :=
  match s.launcher.phase with
  | .idle => s
  | .held _ => s
  | .waiting k (.reportSpace r) => if r.kind = .notice then s else s.heldAtReopened k
  | .waiting k .slotBusy => s.enterHeld k
  | .waiting k .depth => s.heldAtReopened k
  | .waiting k .tag => s.heldAtReopened k
  | .waiting k .blocks => s.heldAtReopened k
  | .contending k _ => (s.undoOutbound k).heldAtReopened k
  | .launching k (some n) => s.noticeEnded k n .trunkReset
  | .launching _ none => s

/-- The deliveries of a trunk reset (R38 step 6). The rules do not depend on the order, but for the reports and blocks of a NOTICE
in Launching beside those of the entries, whose order is open (log 7). -/
def State.trunkResetDelivered (s : State) : State :=
  match s.launcher.phase with
  | .launching _ (some _) =>
    let s1 := s.nextChoice
    (if Config.secondFirst s.choices then s1.launcherTrunkReset.entriesTrunkReset
     else s1.entriesTrunkReset.launcherTrunkReset).stationsTrunkReset
  | .launching _ none => s.entriesTrunkReset.launcherTrunkReset.stationsTrunkReset
  | .idle => s.entriesTrunkReset.launcherTrunkReset.stationsTrunkReset
  | .waiting _ _ => s.entriesTrunkReset.launcherTrunkReset.stationsTrunkReset
  | .contending _ _ => s.entriesTrunkReset.launcherTrunkReset.stationsTrunkReset
  | .held _ => s.entriesTrunkReset.launcherTrunkReset.stationsTrunkReset

/-- The trunk reset taken (R38): the line activity dropped, the pending send removed, phase and stuck count 0, the deliveries made,
the mark begun. -/
def State.beginTrunkReset (s : State) : State :=
  (s.setTrunk { s.trunk with
    state := .resetting 0, quiet := 0, skip := false, phase := false, pendingSend := none, stuck := 0 }).trunkResetDelivered

/-! ## TrunkEnable (R22, R165) -/

/-- TrunkEnable written 1 in Offline. -/
def State.enableTrunk (s : State) : State :=
  (s.setConfig { s.config with trunkEnable := true }).setTrunk
    { s.trunk with state := .settling, quiet := 0, skip := true, stuck := 0 }

/-- TrunkEnable written 0 in a state that accepts it; a TRUNK RESET in progress completes (R165). -/
def State.disableTrunk (s : State) : State :=
  let s1 := (s.setConfig { s.config with trunkEnable := false }).setTrunk
    { s.trunk with state := .offline, quiet := 0, stuck := 0 }
  if s.trunkResetting then s1.complete .ok 0 else s1

/-- An accepted TrunkEnable write (R22). -/
def State.acceptTrunkEnable (s : State) (on : Bool) : State :=
  match s.trunk.state with
  | .offline => if on then s.enableTrunk else s
  | .settling => if on then s else s.disableTrunk
  | .idle => if on then s else s.disableTrunk
  | .arbitrating _ => if on then s else s.disableTrunk
  | .fault => if on then s else s.disableTrunk
  | .transmitting _ _ => s
  | .answerWait _ _ _ _ => s
  | .receiving _ => s
  | .replying _ _ => s
  | .resetting _ => s

/-- The controller states that refuse a TrunkEnable write (R22). -/
def TrunkState.locksEnable : TrunkState → Bool
  | .transmitting _ _ => true
  | .answerWait _ _ _ _ => true
  | .receiving _ => true
  | .replying _ _ => true
  | .resetting _ => true
  | .offline => false
  | .settling => false
  | .idle => false
  | .arbitrating _ => false
  | .fault => false

/-! ## Withdrawal of the pending send (R27) -/

/-- The pending send removed; in Arbitrating the controller stays on as a receiver. -/
def State.withdrawSend (s : State) : State :=
  match s.trunk.state with
  | .arbitrating c => (s.setPendingSend none).follow (6 - c.bit)
  | .offline => s.setPendingSend none
  | .settling => s.setPendingSend none
  | .idle => s.setPendingSend none
  | .transmitting _ _ => s.setPendingSend none
  | .answerWait _ _ _ _ => s.setPendingSend none
  | .receiving _ => s.setPendingSend none
  | .replying _ _ => s.setPendingSend none
  | .resetting _ => s.setPendingSend none
  | .fault => s.setPendingSend none

end Sys2Proof.Machine
end

