-- ==== Sys2Proof/Machine/Commands.lean ====
section
/-! DEFINITION. The command port (chapter 8, section 8.5): what each command of Table 8.4 does, the COMMAND write, and the rows of the
table that are COMMAND writes. -/

namespace Sys2Proof.Machine

open Sys2Proof

/-! ## Commands to the Launcher -/

/-- START (R95). -/
def State.commandStart (s : State) : State :=
  match slotOf s.port.arg0.toNat with
  | none => s.complete .range 0
  | some k =>
    match s.launcher.phase with
    | .idle => (State.take k s).complete .ok 0
    | .held _ => (State.take k s).complete .ok 0
    | .waiting _ _ => s.complete .busy 0
    | .contending _ _ => s.complete .busy 0
    | .launching _ _ => s.complete .busy 0

/-- Pending-continue set, halt-pending cleared (R96). -/
def State.setContinue (s : State) : State :=
  s.setLauncher { s.launcher with pendingContinue := true, haltPending := false }

/-- CONTINUE (R96). -/
def State.commandContinue (s : State) : State :=
  match s.launcher.phase with
  | .held p => (State.take p s).complete .ok 0
  | .idle => s.complete .ignored 0
  | .waiting _ _ => s.setContinue.complete .ok 0
  | .contending _ _ => s.setContinue.complete .ok 0
  | .launching _ _ => s.setContinue.complete .ok 0

/-- Halt-pending set, pending-continue cleared (R98). -/
def State.setHalt (s : State) : State :=
  s.setLauncher { s.launcher with pendingContinue := false, haltPending := true }

/-- The reservation of a pending send undone at the table (R70): the entry of a REQUEST, nothing for a NOTICE. -/
def State.undoSend (s : State) : State :=
  match s.trunk.pendingSend with
  | some (.request _ t _) =>
    match s.entry t with
    | .reserved false x => s.undoEntry t x
    | .reserved true _ => s
    | .free => s
    | .awaiting _ _ => s
    | .deferred _ _ => s
    | .receiving _ _ _ _ => s
    | .done _ _ => s
    | .resting _ _ => s
  | some (.notice _) => s
  | none => s

/-- The launch of a slot in Contending undone (R97): withdrawal, undo of the entry, the outbound chain to the processor, the
slot Open, Held at it. -/
def State.undoLaunch (s : State) (k : SlotId) : State :=
  ((s.undoSend.withdrawSend).undoOutbound k).heldAtReopened k

/-- HALT (R97, R98). -/
def State.commandHalt (s : State) : State :=
  match s.launcher.phase with
  | .idle => s.complete .ignored 0
  | .held _ => s.complete .ignored 0
  | .waiting k .slotBusy => (s.enterHeld k).complete .ok 0
  | .waiting k .depth => (s.heldAtReopened k).complete .ok 0
  | .waiting k .tag => (s.heldAtReopened k).complete .ok 0
  | .waiting k .blocks => (s.heldAtReopened k).complete .ok 0
  | .waiting k (.reportSpace r) =>
    if r.kind = .notice then s.setHalt.complete .ok 0 else (s.heldAtReopened k).complete .ok 0
  | .contending k _ => (s.undoLaunch k).complete .ok 0
  | .launching _ _ => s.setHalt.complete .ok 0

/-! ## Commands to the Exchange Table and the Report Queue -/

/-- WITHDRAW (R66). -/
def State.commandWithdraw (s : State) : State :=
  match tagOf s.port.arg0.toNat with
  | none => s.complete .range 0
  | some t => (s.withdrawTag t).2.complete (s.withdrawTag t).1 0

/-- Step 3 of POP: the effects of the record on other blocks (R138). -/
def State.popEffects (s : State) (r : Report) : State :=
  match r.kind with
  | .exchange => match r.tag with
    | some t => s.exchangePopped t
    | none => s
  | .attention => match r.station with
    | some i => s.attentionPopped i
    | none => s
  | .notice => s
  | .slot => s

/-- Step 4 of POP: the oldest backlog item to the queue's tail (R137). -/
def Reports.refill (r : Reports) : Reports :=
  match r.backlog with
  | [] => r
  | x :: rest => { r with queue := r.queue ++ [x], backlog := rest }

/-- Step 5 of POP: the timer of an emptied queue stopped and overdue cleared (R137, R144). -/
def Reports.settle (r : Reports) : Reports :=
  if r.queue.isEmpty then { r with timer := none, overdue := false } else r

/-- POP (R137): removal, effects, refill, emptying, result; the Launcher then re-evaluates (R139). -/
def State.commandPop (s : State) : State :=
  match s.reports.queue with
  | [] => s.complete .empty 0
  | r :: rest =>
    let s1 := (s.setReports { s.reports with queue := rest }).popEffects r
    let s2 := s1.setReports s1.reports.refill.settle
    (s2.complete .ok (byteOf s2.reports.queue.length)).reevaluate

/-! ## Commands to the Block Pool -/

/-- TAKE BLOCK (R106). -/
def State.commandTakeBlock (s : State) : State :=
  if s.config.freeFloor < s.pool.freeCount then
    match s.pool.freeList with
    | [] => s.complete .empty 0xFF
    | b :: _ => (s.setPool (s.pool.take 1 .processor)).complete .ok (byteOf b.val)
  else s.complete .empty 0xFF

/-- FREE CHAIN (R107); a success is an append the Launcher re-evaluates on. -/
def State.commandFreeChain (s : State) : State :=
  match blockOf s.port.arg0.toNat with
  | none => s.complete .range 0xFF
  | some b =>
    match s.pool.freeWalk 16 b with
    | .ok bs => ((s.freeBlocks bs).reevaluate).complete .ok (byteOf bs.length)
    | .error e => s.complete e.1 (byteOf e.2.val)

/-! ## Commands to the Station Table and the Counter Bank -/

/-- FENCE (R123). -/
def State.commandFence (s : State) : State :=
  match stationOf s.port.arg0.toNat with
  | none => s.complete .range 0
  | some i => (s.updateStation i (s.station i).fence).complete .ok 0

/-- ADMIT (R124). -/
def State.commandAdmit (s : State) : State :=
  match stationOf s.port.arg0.toNat with
  | none => s.complete .range 0
  | some i =>
    if (s.station i).presence = .fenced then (s.updateStation i (s.station i).admitted).complete .ok 0
    else s.complete .ignored 0

/-- Whether the twelve-bit mask selects a counter (R164). -/
def Port.selects (p : Port) (i : Fin 12) : Bool := (p.arg1 ++ p.arg0).getLsbD i.val

/-- The counters of a mask cleared, the read phase and the latch kept (R164, R175). -/
def Counters.clear (c : Counters) (selected : Fin 12 → Bool) : Counters :=
  { c with bank := (List.finRange 12).foldl (fun bank i => if selected i then bank.set i 0 else bank) c.bank }

/-- CLEAR COUNTERS (R164). -/
def State.commandClearCounters (s : State) : State :=
  if s.port.arg1.toNat < 16 then (s.setCounters (s.counters.clear s.port.selects)).complete .ok 0
  else s.complete .range 0

/-! ## Commands that take time -/

/-- TRUNK RESET (R38, R165): REFUSED in Offline; else begun, the port staying busy. -/
def State.commandTrunkReset (s : State) : State :=
  match s.trunk.state with
  | .offline => s.complete .refused 0
  | .settling => s.beginTrunkReset
  | .idle => s.beginTrunkReset
  | .arbitrating _ => s.beginTrunkReset
  | .transmitting _ _ => s.beginTrunkReset
  | .answerWait _ _ _ _ => s.beginTrunkReset
  | .receiving _ => s.beginTrunkReset
  | .replying _ _ => s.beginTrunkReset
  | .resetting _ => s.beginTrunkReset
  | .fault => s.beginTrunkReset

/-- The controller after a soft reset (R43): Offline or Settling with the skip flag set, by the kept TrunkEnable. -/
def Settings.softTrunk (c : Settings) : Trunk where
  state := if c.trunkEnable then .settling else .offline
  quiet := 0
  skip := c.trunkEnable
  phase := false
  pendingSend := none
  stuck := 0
  heartbeat := 0

/-- SOFT RESET (R166): every block at its reset values but the configuration and EVENT MASK; RESULT keeps the last completion's value
until this one completes (R161, log 12), and the port stays busy. -/
def State.commandSoftReset (s : State) : State where
  nreset := s.nreset
  bus := s.bus
  lineIn := s.lineIn
  config := s.config
  port := { Port.reset with command := 0x0C, busy := true, result := s.port.result, staging := s.config.trunkDivider.low }
  sel := Selectors.reset
  slots := Vector.replicate 32 Slot.reset
  launcher := Launcher.reset
  entries := Vector.replicate 16 .free
  stations := Vector.replicate 14 Station.reset
  pool := Pool.reset
  trunk := s.config.softTrunk
  reports := { Reports.reset with mask := s.reports.mask }
  counters := Counters.reset
  resets := s.resets + 1
  choices := s.choices
  pending := s.pending

/-- The soft reset completes: a latch set since its start is cleared with the others, and COMMAND DONE is latched (R150). -/
def State.softResetCompletes (s : State) : Option State :=
  if s.softResetting then some ((s.setLatches Latches.clear).complete .ok 0) else none

/-! ## The COMMAND write (R161, R162) -/

/-- The dispatch of a code to its owner (Table 8.4). -/
def State.dispatch (s : State) (code : Byte) : State :=
  match code.toNat with
  | 0x01 => s.commandStart
  | 0x02 => s.commandContinue
  | 0x03 => s.commandHalt
  | 0x04 => s.commandWithdraw
  | 0x05 => s.commandPop
  | 0x06 => s.commandTakeBlock
  | 0x07 => s.commandFreeChain
  | 0x08 => s.commandFence
  | 0x09 => s.commandAdmit
  | 0x0A => s.commandTrunkReset
  | 0x0B => s.commandClearCounters
  | 0x0C => s.commandSoftReset
  | _ => s.complete .unknown 0

/-- A command taken: recorded in COMMAND, the busy flag set, dispatched (R161). -/
def State.takeCommand (s : State) (code : Byte) : State :=
  (s.setPort { s.port with command := code, busy := true }).dispatch code

/-- A write of COMMAND: taken, or dropped as an overrun while the port is busy (R161, R162). -/
def State.writeCommand (s : State) (code : Byte) : State :=
  if s.port.busy then s.latchCommandOverrun else s.takeCommand code

/-! ## The rows -/

/-- START. -/
def execStart (s : State) : Host.Outcome State Fault Refusal := busWrite (·.writeCommand 0x01) s
/-- CONTINUE. -/
def execContinue (s : State) : Host.Outcome State Fault Refusal := busWrite (·.writeCommand 0x02) s
/-- HALT. -/
def execHalt (s : State) : Host.Outcome State Fault Refusal := busWrite (·.writeCommand 0x03) s
/-- WITHDRAW. -/
def execWithdraw (s : State) : Host.Outcome State Fault Refusal := busWrite (·.writeCommand 0x04) s
/-- POP. -/
def execPop (s : State) : Host.Outcome State Fault Refusal := busWrite (·.writeCommand 0x05) s
/-- TAKE_BLOCK. -/
def execTakeBlock (s : State) : Host.Outcome State Fault Refusal := busWrite (·.writeCommand 0x06) s
/-- FREE_CHAIN. -/
def execFreeChain (s : State) : Host.Outcome State Fault Refusal := busWrite (·.writeCommand 0x07) s
/-- FENCE. -/
def execFence (s : State) : Host.Outcome State Fault Refusal := busWrite (·.writeCommand 0x08) s
/-- ADMIT. -/
def execAdmit (s : State) : Host.Outcome State Fault Refusal := busWrite (·.writeCommand 0x09) s
/-- TRUNK_RESET. -/
def execTrunkReset (s : State) : Host.Outcome State Fault Refusal := busWrite (·.writeCommand 0x0A) s
/-- CLEAR_COUNTERS. -/
def execClearCounters (s : State) : Host.Outcome State Fault Refusal := busWrite (·.writeCommand 0x0B) s
/-- SOFT_RESET. -/
def execSoftReset (s : State) : Host.Outcome State Fault Refusal := busWrite (·.writeCommand 0x0C) s

/-- UNKNOWN: a COMMAND write whose code is not in Table 8.4; a code that is in it is that command (log 19). -/
def execUnknown (code : Byte) (s : State) : Host.Outcome State Fault Refusal := busWrite (·.writeCommand code) s

/-- COMMAND_OVERRUN: a COMMAND write while the port is busy; one that finds it not busy is taken (R162, log 19). -/
def execCommandOverrun (code : Byte) (s : State) : Host.Outcome State Fault Refusal := busWrite (·.writeCommand code) s

/-- SOFT_RESET_COMPLETE. -/
def execSoftResetComplete (s : State) : Host.Outcome State Fault Refusal :=
  occurs "SOFT_RESET_COMPLETE" State.softResetCompletes s

/-- HARDWARE_RESET (R168): the state after hardware reset, with what is outside the part kept, and the model's two counts (log 7, log
10, log 11). -/
def execHardwareReset (s : State) : Host.Outcome State Fault Refusal :=
  .next { State.reset with lineIn := s.lineIn, resets := s.resets + 1, choices := s.choices, pending := s.pending }

/-- NRESET_ASSERTED (R151, R168): nRESET low, DE deasserted and a frame in progress cut, a command in progress ended without
completion (log 9). -/
def execNresetAsserted (s : State) : Host.Outcome State Fault Refusal :=
  .next { s with nreset := false, trunk := Trunk.reset, port := { s.port with busy := false, completionDue := false } }

end Sys2Proof.Machine
end

