-- ==== Sys2Proof/Machine/Window.lean ====
section
/-! DEFINITION. The register window (chapter 8, sections 8.1 to 8.4): writes and state-changing reads, with the rows of the table that
are window accesses. -/

namespace Sys2Proof.Machine

open Sys2Proof

/-! ## Slots (R74, R156) -/

/-- SLOT SELECT written: the slot selected and the index set to 0, or RANGE. -/
def State.writeSlotSelect (s : State) (v : Byte) : State :=
  match slotOf v.toNat with
  | some k => s.setSel { s.sel with slotSelect := k, slotIndex := 0 }
  | none => s.windowFault .range

/-- SLOT FIELD INDEX written, or INDEX. -/
def State.writeSlotIndex (s : State) (v : Byte) : State :=
  if h : v.toNat < 16 then s.setSel { s.sel with slotIndex := ⟨v.toNat, h⟩ } else s.windowFault .index

/-- SLOT FIELD INDEX rises by 1, from 15 to 0. -/
def State.advanceSlotIndex (s : State) : State := s.setSel { s.sel with slotIndex := s.sel.slotIndex + 1 }

/-- SLOT FIELD DATA written: accepted or refused, and the index advanced in both cases. -/
def State.writeSlotData (s : State) (v : Byte) : State :=
  match (s.slot s.sel.slotSelect).processorWrite s.sel.slotIndex v with
  | .ok sl => (s.setSlot s.sel.slotSelect sl).advanceSlotIndex
  | .error c => (s.windowFault c).advanceSlotIndex

/-! ## Reports, stations (R133, R157) -/

/-- REPORT FIELD INDEX written, or INDEX. -/
def State.writeReportIndex (s : State) (v : Byte) : State :=
  if h : v.toNat < 17 then s.setSel { s.sel with reportIndex := ⟨v.toNat, h⟩ } else s.windowFault .index

/-- STATION SELECT written, the index kept, or RANGE. -/
def State.writeStationSelect (s : State) (v : Byte) : State :=
  match stationOf v.toNat with
  | some i => s.setSel { s.sel with stationSelect := i }
  | none => s.windowFault .range

/-- STATION FIELD INDEX written, or INDEX. -/
def State.writeStationIndex (s : State) (v : Byte) : State :=
  if h : v.toNat < 11 then s.setSel { s.sel with stationIndex := ⟨v.toNat, h⟩ } else s.windowFault .index

/-! ## Blocks (R108 to R110) -/

/-- BLOCK SELECT written: the block selected at offset 0, or RANGE. -/
def State.writeBlockSelect (s : State) (v : Byte) : State :=
  match blockOf v.toNat with
  | some b => s.setSel { s.sel with blockSelect := b, blockOffset := 0 }
  | none => s.windowFault .range

/-- BLOCK OFFSET written, or RANGE. -/
def State.writeBlockOffset (s : State) (v : Byte) : State :=
  if h : v.toNat < 64 then s.setSel { s.sel with blockOffset := ⟨v.toNat, h⟩ } else s.windowFault .range

/-- The pointer after a BLOCK DATA access (R109): the next offset, or past offset 63 the linked block's start, or the same
block's start at END. -/
def State.advancedPointer (s : State) : Selectors :=
  if s.sel.blockOffset = 63 then
    match s.pool.link[s.sel.blockSelect] with
    | some c => { s.sel with blockSelect := c, blockOffset := 0 }
    | none => { s.sel with blockOffset := 0 }
  else { s.sel with blockOffset := s.sel.blockOffset + 1 }

/-- A read of BLOCK DATA moves the pointer, and is refused outside PROCESSOR ownership. -/
def State.readBlockData (s : State) : State :=
  if s.pool.owner[s.sel.blockSelect] = .processor then s.setSel s.advancedPointer
  else (s.windowFault .notProcessor).setSel s.advancedPointer

/-- A write of BLOCK DATA stores the byte and moves the pointer, and is refused outside PROCESSOR ownership. -/
def State.writeBlockData (s : State) (v : Byte) : State :=
  if s.pool.owner[s.sel.blockSelect] = .processor then
    (s.setPool (s.pool.store s.sel.blockSelect s.sel.blockOffset.val v)).setSel s.advancedPointer
  else (s.windowFault .notProcessor).setSel s.advancedPointer

/-- BLOCK LINK written, or NOT PROCESSOR, or RANGE (R110). -/
def State.writeBlockLink (s : State) (v : Byte) : State :=
  if s.pool.owner[s.sel.blockSelect] = .processor then
    if v = 0x7F then s.setPool (s.pool.setLink s.sel.blockSelect none)
    else match blockOf v.toNat with
      | some b => s.setPool (s.pool.setLink s.sel.blockSelect (some b))
      | none => s.windowFault .range
  else s.windowFault .notProcessor

/-! ## Configuration (R21, R22, R158, R159) -/

/-- CONFIG INDEX written, or INDEX. -/
def State.writeConfigIndex (s : State) (v : Byte) : State :=
  if h : v.toNat < 12 then s.setSel { s.sel with configIndex := ⟨v.toNat, h⟩ } else s.windowFault .index

/-- The low byte of the divider written: staged, or LOCKED. -/
def State.writeDividerLow (s : State) (v : Byte) : State :=
  if s.config.trunkEnable then s.windowFault .locked else s.setPort { s.port with staging := v }

/-- The high byte of the divider written: RANGE, then LOCKED, else TrunkDivider takes the value. -/
def State.writeDividerHigh (s : State) (v : Byte) : State :=
  let d := Half.ofBytes v s.port.staging
  if d.toNat < 8 ∨ 4095 < d.toNat then s.windowFault .range
  else if s.config.trunkEnable then s.windowFault .locked
  else s.setConfig { s.config with trunkDivider := d }

/-- TrunkEnable written: RANGE for a value above 1 (log 14), BUSY in the active states, else R22's effect. -/
def State.writeTrunkEnable (s : State) (v : Byte) : State :=
  if 1 < v.toNat then s.windowFault .range
  else if s.trunk.state.locksEnable then s.windowFault .busy
  else s.acceptTrunkEnable (v == 1)

/-- Any other item written, or RANGE. -/
def State.writeItem (s : State) (i : Fin 12) (v : Byte) : State :=
  match s.config.writeItem i v with
  | some c => s.setConfig c
  | none => s.windowFault .range

/-- CONFIG DATA written: the byte offered to the selected item. -/
def State.writeConfigData (s : State) (v : Byte) : State :=
  match s.sel.configIndex.val with
  | 0 => s.writeDividerLow v
  | 1 => s.writeDividerHigh v
  | 2 => s.writeTrunkEnable v
  | _ => s.writeItem s.sel.configIndex v

/-! ## Events, counters (R146, R147, R175) -/

/-- EVENTS written. -/
def State.writeEvents (s : State) (v : Byte) : State := s.setLatches (s.reports.latches.cleared v)

/-- EVENT MASK written, or RANGE with bit 5 or 6 set. -/
def State.writeMask (s : State) (v : Byte) : State :=
  if v.getLsbD 5 || v.getLsbD 6 then s.windowFault .range else s.setReports { s.reports with mask := v }

/-- COUNTER INDEX written and the phase set to low, or INDEX. -/
def State.writeCounterIndex (s : State) (v : Byte) : State :=
  if h : v.toNat < 12 then
    (s.setSel { s.sel with counterIndex := ⟨v.toNat, h⟩ }).setCounters { s.counters with phaseHigh := false }
  else s.windowFault .index

/-- A read of COUNTER DATA: in phase low the high byte is latched; the phase toggles. -/
def State.readCounter (s : State) : State :=
  if s.counters.phaseHigh then s.setCounters { s.counters with phaseHigh := false }
  else s.setCounters
    { s.counters with phaseHigh := true, latch := Half.high s.counters.bank[s.sel.counterIndex] }

/-! ## A write to any location (Table 8.1) -/

/-- A write to a location: ARG0 and ARG1 are stored, read-only locations refused, the unassigned ones left alone (R151, R152), and
every other location takes its own rule's effect (log 19). -/
def State.writeWindow (s : State) (a : BitVec 5) (v : Byte) : State :=
  match a.toNat with
  | 0x02 => s.writeEvents v
  | 0x03 => s.writeMask v
  | 0x04 => s.writeCommand v
  | 0x05 => s.setPort { s.port with arg0 := v }
  | 0x06 => s.setPort { s.port with arg1 := v }
  | 0x09 => s.writeSlotSelect v
  | 0x0A => s.writeSlotIndex v
  | 0x0B => s.writeSlotData v
  | 0x0D => s.writeReportIndex v
  | 0x0F => s.writeStationSelect v
  | 0x10 => s.writeStationIndex v
  | 0x12 => s.writeBlockSelect v
  | 0x13 => s.writeBlockOffset v
  | 0x14 => s.writeBlockData v
  | 0x15 => s.writeBlockLink v
  | 0x17 => s.writeConfigIndex v
  | 0x18 => s.writeConfigData v
  | 0x19 => s.writeCounterIndex v
  | 0x1D => s
  | 0x1E => s
  | 0x1F => s
  | _ => s.windowFault .readOnly

/-! ## The rows -/

/-- WINDOW_WRITE. -/
def execWindowWrite (a : BitVec 5) (v : Byte) (s : State) : Host.Outcome State Fault Refusal := busWrite (·.writeWindow a v) s
/-- SLOT_SELECT_WRITE. -/
def execSlotSelectWrite (v : Byte) (s : State) : Host.Outcome State Fault Refusal := busWrite (·.writeSlotSelect v) s
/-- SLOT_FIELD_INDEX_WRITE. -/
def execSlotFieldIndexWrite (v : Byte) (s : State) : Host.Outcome State Fault Refusal := busWrite (·.writeSlotIndex v) s
/-- SLOT_FIELD_DATA_WRITE. -/
def execSlotFieldDataWrite (v : Byte) (s : State) : Host.Outcome State Fault Refusal := busWrite (·.writeSlotData v) s
/-- SLOT_FIELD_DATA_READ. -/
def execSlotFieldDataRead (s : State) : Host.Outcome State Fault Refusal :=
  busRead (·.windowValue 0x0B) State.advanceSlotIndex s
/-- REPORT_FIELD_INDEX_WRITE. -/
def execReportFieldIndexWrite (v : Byte) (s : State) : Host.Outcome State Fault Refusal := busWrite (·.writeReportIndex v) s
/-- STATION_SELECT_WRITE. -/
def execStationSelectWrite (v : Byte) (s : State) : Host.Outcome State Fault Refusal := busWrite (·.writeStationSelect v) s
/-- STATION_FIELD_INDEX_WRITE. -/
def execStationFieldIndexWrite (v : Byte) (s : State) : Host.Outcome State Fault Refusal := busWrite (·.writeStationIndex v) s
/-- BLOCK_SELECT_WRITE. -/
def execBlockSelectWrite (v : Byte) (s : State) : Host.Outcome State Fault Refusal := busWrite (·.writeBlockSelect v) s
/-- BLOCK_OFFSET_WRITE. -/
def execBlockOffsetWrite (v : Byte) (s : State) : Host.Outcome State Fault Refusal := busWrite (·.writeBlockOffset v) s
/-- BLOCK_DATA_ACCESS. -/
def execBlockDataAccess (access : BlockAccess) (s : State) : Host.Outcome State Fault Refusal :=
  match access with
  | .read => busRead (·.windowValue 0x14) State.readBlockData s
  | .write v => busWrite (·.writeBlockData v) s
/-- BLOCK_LINK_WRITE. -/
def execBlockLinkWrite (v : Byte) (s : State) : Host.Outcome State Fault Refusal := busWrite (·.writeBlockLink v) s
/-- CONFIG_INDEX_WRITE. -/
def execConfigIndexWrite (v : Byte) (s : State) : Host.Outcome State Fault Refusal := busWrite (·.writeConfigIndex v) s
/-- CONFIG_DATA_WRITE. -/
def execConfigDataWrite (v : Byte) (s : State) : Host.Outcome State Fault Refusal := busWrite (·.writeConfigData v) s
/-- TRUNK_DIVIDER_LOW_WRITE (log 15). -/
def execTrunkDividerLowWrite (v : Byte) (s : State) : Host.Outcome State Fault Refusal := busWrite (·.writeDividerLow v) s
/-- TRUNK_DIVIDER_HIGH_WRITE (log 15). -/
def execTrunkDividerHighWrite (v : Byte) (s : State) : Host.Outcome State Fault Refusal := busWrite (·.writeDividerHigh v) s
/-- TRUNK_ENABLE_WRITE (log 15). -/
def execTrunkEnableWrite (v : Byte) (s : State) : Host.Outcome State Fault Refusal := busWrite (·.writeTrunkEnable v) s
/-- EVENTS_WRITE. -/
def execEventsWrite (v : Byte) (s : State) : Host.Outcome State Fault Refusal := busWrite (·.writeEvents v) s
/-- EVENT_MASK_WRITE. -/
def execEventMaskWrite (v : Byte) (s : State) : Host.Outcome State Fault Refusal := busWrite (·.writeMask v) s
/-- COUNTER_INDEX_WRITE. -/
def execCounterIndexWrite (v : Byte) (s : State) : Host.Outcome State Fault Refusal := busWrite (·.writeCounterIndex v) s
/-- COUNTER_DATA_READ. -/
def execCounterDataRead (s : State) : Host.Outcome State Fault Refusal := busRead (·.windowValue 0x1A) State.readCounter s

end Sys2Proof.Machine
end

