-- ==== Sys2Proof/Machine/Time.lean ====
section
/-! DEFINITION. The tick (R42) and what it lowers: deadlines (R59), rests (R69) and the coalescing timer (R144), with their rows. -/

namespace Sys2Proof.Machine

open Sys2Proof

/-- The tick at every deadline, in ascending order of tag (R59). -/
def State.deadlinesTick (s : State) : State := (List.finRange 16).foldl State.deadlineTick s

/-- The tick at every rest, in ascending order of tag (R69). -/
def State.restsTick (s : State) : State := (List.finRange 16).foldl State.restTick s

/-- The tick at the Exchange Table. -/
def State.tableTick (s : State) (restsFirst : Bool) : State :=
  if restsFirst then s.restsTick.deadlinesTick else s.deadlinesTick.restsTick

/-- The tick at the coalescing timer (R144). -/
def Reports.tick (r : Reports) : Reports :=
  match r.timer with
  | none => r
  | some n => if n ≤ 1 then { r with timer := none, overdue := true } else { r with timer := some (n - 1) }

/-- The tick at the Report Queue. -/
def State.reportsTick (s : State) : State := s.setReports s.reports.tick

/-- A tick (R42): the heartbeat returns to 0 and both receivers act; the orders are open (log 7). -/
def State.tick (s : State) (order : TickOrder) : State :=
  let s1 := s.setTrunk { s.trunk with heartbeat := 0 }
  if order.reportsFirst then s1.reportsTick.tableTick order.restsFirst else (s1.tableTick order.restsFirst).reportsTick

/-- A deadline reaching 0 (R59). -/
def State.deadlineExpires (s : State) (t : Tag) : Option State :=
  match s.entry t with
  | .deferred _ d => if d ≤ 1 then some (s.deadlineTick t) else none
  | .receiving _ d _ _ => if d ≤ 1 then some (s.deadlineTick t) else none
  | .free => none
  | .reserved _ _ => none
  | .awaiting _ _ => none
  | .done _ _ => none
  | .resting _ _ => none

/-- A rest reaching 0 (R69). -/
def State.restEnds (s : State) (t : Tag) : Option State :=
  match s.entry t with
  | .resting _ r => if r ≤ 1 then some (s.restTick t) else none
  | .free => none
  | .reserved _ _ => none
  | .awaiting _ _ => none
  | .deferred _ _ => none
  | .receiving _ _ _ _ => none
  | .done _ _ => none

/-- The coalescing timer reaching 0 (R144). -/
def State.coalescingExpires (s : State) : Option State :=
  match s.reports.timer with
  | some n => if n ≤ 1 then some s.reportsTick else none
  | none => none

/-! ## The rows -/

/-- TICK. -/
def execTick (order : TickOrder) (s : State) : Host.Outcome State Fault Refusal :=
  occurs "TICK" (fun s => some (s.tick order)) s
/-- DEADLINE_EXPIRY. -/
def execDeadlineExpiry (t : Tag) (s : State) : Host.Outcome State Fault Refusal :=
  occurs "DEADLINE_EXPIRY" (·.deadlineExpires t) s
/-- REST_END. -/
def execRestEnd (t : Tag) (s : State) : Host.Outcome State Fault Refusal := occurs "REST_END" (·.restEnds t) s
/-- COALESCING_TIMER_EXPIRY. -/
def execCoalescingTimerExpiry (s : State) : Host.Outcome State Fault Refusal :=
  occurs "COALESCING_TIMER_EXPIRY" State.coalescingExpires s

end Sys2Proof.Machine
end

