-- ==== Sys2Proof/Machine/Line.lean ====
section
/-! DEFINITION. The rows of the table that are events of the line. Each stands for the bit times that lead to it and occurs in
the states in which its rules give it an effect (log 3, log 4). -/

namespace Sys2Proof.Machine

open Sys2Proof

/-- LINE_IDLE. -/
def execLineIdle (s : State) : Host.Outcome State Fault Refusal := occurs "LINE_IDLE" State.lineFallsIdle s
/-- FAULT_CLEAR. -/
def execFaultClear (s : State) : Host.Outcome State Fault Refusal := occurs "FAULT_CLEAR" State.faultClears s
/-- STUCK_LINE. -/
def execStuckLine (s : State) : Host.Outcome State Fault Refusal := occurs "STUCK_LINE" State.sticks s
/-- CONTENTION_WON. -/
def execContentionWon (s : State) : Host.Outcome State Fault Refusal := occurs "CONTENTION_WON" State.win s
/-- CONTENTION_LOST. -/
def execContentionLost (cause : LossCause) (s : State) : Host.Outcome State Fault Refusal :=
  occurs "CONTENTION_LOST" (·.lose cause) s
/-- REQUEST_SENT. -/
def execRequestSent (s : State) : Host.Outcome State Fault Refusal := occurs "REQUEST_SENT" State.requestOut s
/-- NOTICE_SENT. -/
def execNoticeSent (s : State) : Host.Outcome State Fault Refusal := occurs "NOTICE_SENT" State.noticeOut s
/-- COLLISION. -/
def execCollision (s : State) : Host.Outcome State Fault Refusal := occurs "COLLISION" State.frameCut s
/-- ANSWER_TIMER_EXPIRY. -/
def execAnswerTimerExpiry (stationFirst : Bool) (s : State) : Host.Outcome State Fault Refusal :=
  occurs "ANSWER_TIMER_EXPIRY" (·.answerWindowExpired stationFirst) s
/-- HEADER. -/
def execHeader (s : State) : Host.Outcome State Fault Refusal := occurs "HEADER" State.handHeader s
/-- PAYLOAD_BYTE. -/
def execPayloadByte (s : State) : Host.Outcome State Fault Refusal := occurs "PAYLOAD_BYTE" State.handPayload s
/-- FRAME_END. -/
def execFrameEnd (s : State) : Host.Outcome State Fault Refusal := occurs "FRAME_END" State.frameEnded s
/-- GAP_TIMER_EXPIRY. -/
def execGapTimerExpiry (s : State) : Host.Outcome State Fault Refusal := occurs "GAP_TIMER_EXPIRY" State.gapExpired s
/-- MALFORMED_RUN_END. -/
def execMalformedRunEnd (s : State) : Host.Outcome State Fault Refusal := occurs "MALFORMED_RUN_END" State.malformedEnded s
/-- REPLY_WINDOW. -/
def execReplyWindow (s : State) : Host.Outcome State Fault Refusal := occurs "REPLY_WINDOW" State.replyStarts s
/-- REPLY_SENT. -/
def execReplySent (s : State) : Host.Outcome State Fault Refusal := occurs "REPLY_SENT" State.replyOut s
/-- REPLY_COLLISION. -/
def execReplyCollision (s : State) : Host.Outcome State Fault Refusal := occurs "REPLY_COLLISION" State.replyCut s
/-- MARK_END. -/
def execMarkEnd (s : State) : Host.Outcome State Fault Refusal := occurs "MARK_END" State.markEnds s
/-- TRUNK_RESET_COMPLETE. -/
def execTrunkResetComplete (s : State) : Host.Outcome State Fault Refusal :=
  occurs "TRUNK_RESET_COMPLETE" State.trunkResetCompletes s
/-- CLAIM_BIT. -/
def execClaimBit (s : State) : Host.Outcome State Fault Refusal := occurs "CLAIM_BIT" State.claim s
/-- FOREIGN_CLAIM_BIT. -/
def execForeignClaimBit (s : State) : Host.Outcome State Fault Refusal := occurs "FOREIGN_CLAIM_BIT" State.foreignClaim s
/-- START_BIT. -/
def execStartBit (s : State) : Host.Outcome State Fault Refusal := occurs "START_BIT" State.startBitSeen s
/-- CHARACTER_RECEIVED. -/
def execCharacterReceived (value : Byte) (stopRecessive : Bool) (s : State) : Host.Outcome State Fault Refusal :=
  occurs "CHARACTER_RECEIVED" (·.characterIn value stopRecessive) s

end Sys2Proof.Machine
end

