-- ==== Sys2Proof/Machine/BitTime.lean ====
section
/-! DEFINITION. One bit time of the Trunk Controller, which is what a step on an empty queue does (log 2): the level on the pair, what
each state does with it, the stuck count and the heartbeat. The events it meets are those of the rows. -/

namespace Sys2Proof.Machine

open Sys2Proof

/-! ## The level (R1) -/

/-- The level of the pair is dominant: the 2614 or another party drives, and the line is not dead (log 1). -/
def levelOf (drives : Bool) (input : LineInput) : Bool :=
  match input with
  | .released => drives
  | .dominant => true
  | .dead => false

/-- What the other parties do in the coming bit time; with nothing listed they release the pair (log 1). -/
def State.nextInput (s : State) : LineInput := s.lineIn.headD .released

/-- The bit time's input used up. -/
def State.dropInput (s : State) : State := { s with lineIn := s.lineIn.tail }

/-! ## The states that count -/

/-- A bit time in Settling (R23). -/
def State.settlingBit (s : State) (dominant : Bool) : State :=
  if dominant then s.startBitSeen.getD s
  else
    let s1 := s.setTrunk { s.trunk with quiet := s.trunk.quiet + 1 }
    if 12 ≤ s1.trunk.quiet then s1.lineFallsIdle.getD s1 else s1

/-- A bit time in Fault (R41). -/
def State.faultBit (s : State) (dominant : Bool) : State :=
  if dominant then s.setTrunk { s.trunk with quiet := 0 }
  else
    let s1 := s.setTrunk { s.trunk with quiet := s.trunk.quiet + 1 }
    if 12 ≤ s1.trunk.quiet then s1.faultClears.getD s1 else s1

/-- A bit time in Idle (R24). With a send pending at its boundary the 2614 would have claimed there, so a dominant level is another
party's claim, and a send made pending since waits for the next Idle. -/
def State.idleBit (s : State) (dominant : Bool) : State := if dominant then s.follow 5 else s

/-- A bit time of a contention (R5, R26): a released bit read dominant or a driven bit read recessive loses; the fifth rank bit
without a loss wins. -/
def State.arbitrationBit (s : State) (c : Contention) (dominant : Bool) : State :=
  if c.drives && !dominant then (s.lose .readBackFault).getD s
  else if !c.drives && dominant then (s.lose .releasedBitDominant).getD s
  else if 5 ≤ c.bit then s.win.getD s
  else s.setTrunkState (.arbitrating { c with bit := c.bit + 1 })

/-- A bit time of a REQUEST or NOTICE (R28, R29). -/
def State.transmitBit (s : State) (f : Outgoing) (p : Nat) (drives dominant : Bool) : State :=
  if drives != dominant then s.frameCut.getD s
  else if p + 1 < 10 * (7 + f.length) then s.setTrunkState (.transmitting f (p + 1))
  else match f.send with
    | .request _ _ _ => s.requestOut.getD s
    | .notice _ => s.noticeOut.getD s

/-- A bit time of the answer window (R30). -/
def State.answerBit (s : State) (t : Tag) (st : StationId) (limit elapsed : Nat) (dominant : Bool) : State :=
  if dominant then s.startBitSeen.getD s
  else
    let s1 := s.setTrunkState (.answerWait t st limit (elapsed + 1))
    if limit ≤ elapsed + 1 then (s1.nextChoice.answerWindowExpired (Config.secondFirst s1.choices)).getD s1 else s1

/-- A bit time of a reply (R37): two released bit times, then the frame with its read-back. -/
def State.replyBit (s : State) (r : Reply) (progress : ReplyProgress) (drives dominant : Bool) : State :=
  match progress with
  | .window n => if 2 ≤ n + 1 then s.replyStarts.getD s else s.setTrunkState (.replying r (.window (n + 1)))
  | .sending p =>
    if drives != dominant then s.replyCut.getD s
    else if p + 1 < 70 then s.setTrunkState (.replying r (.sending (p + 1)))
    else s.replyOut.getD s

/-- A bit time of the mark (R39). -/
def State.markBit (s : State) (driven : Nat) : State :=
  if driven + 1 < 64 then s.setTrunkState (.resetting (driven + 1)) else s.markEnds.getD s

/-! ## Receiving (R31 to R35) -/

/-- The reception ended by its frame end, or malformed once the recessive run is long enough (R32, log 17). -/
def State.receptionSettled (s : State) (r : Reception) : State :=
  if r.malformed then (if r.gapLimit + 1 ≤ r.run then s.malformedEnded.getD s else s)
  else if r.complete then s.frameEnded.getD s
  else s

/-- A bit of a character: a data bit sampled, or the stop bit, at which the character completes and what it made due is handed
on (R2, R34). -/
def State.characterBitIn (s : State) (r : Reception) (n : Nat) (v : Byte) (dominant : Bool) : State :=
  if n < 8 then s.setReception { r with char := some (n + 1, if dominant then v else v ||| ((1 : Byte) <<< n)) }
  else match (s.characterIn v (!dominant)).map State.handDue with
    | none => s
    | some s1 =>
      match s1.trunk.state with
      | .receiving r1 => s1.receptionSettled r1
      | .offline => s1
      | .settling => s1
      | .idle => s1
      | .arbitrating _ => s1
      | .transmitting _ _ => s1
      | .answerWait _ _ _ _ => s1
      | .replying _ _ => s1
      | .resetting _ => s1
      | .fault => s1

/-- A bit time between characters: a start bit, or one more of the gap (R33). -/
def State.gapBit (s : State) (r : Reception) (dominant : Bool) : State :=
  if dominant then s.startBitSeen.getD s
  else
    let s1 := s.setReception { r with gap := r.gap + 1 }
    if r.gapLimit + 1 ≤ r.gap + 1 then s1.gapExpired.getD s1 else s1

/-- A bit time in Receiving, on the record with its recessive run counted on (R31 to R33). -/
def State.receivingBit (s : State) (r : Reception) (dominant : Bool) : State :=
  let r1 := { r with run := if dominant then 0 else r.run + 1 }
  let s1 := s.setReception r1
  if 0 < r1.arbitrationLeft then s1.setReception { r1 with arbitrationLeft := r1.arbitrationLeft - 1 }
  else if r1.malformed then s1.receptionSettled r1
  else match r1.char with
    | some (n, v) => s1.characterBitIn r1 n v dominant
    | none => s1.gapBit r1 dominant

/-! ## The bit time -/

/-- What the controller's state does with the level (Table 2.1). -/
def State.stateBit (s : State) (drives dominant : Bool) : State :=
  match s.trunk.state with
  | .offline => s
  | .settling => s.settlingBit dominant
  | .idle => s.idleBit dominant
  | .arbitrating c => s.arbitrationBit c dominant
  | .transmitting f p => s.transmitBit f p drives dominant
  | .answerWait t st limit elapsed => s.answerBit t st limit elapsed dominant
  | .receiving r => s.receivingBit r dominant
  | .replying r progress => s.replyBit r progress drives dominant
  | .resetting n => s.markBit n
  | .fault => s.faultBit dominant

/-- Whether the stuck detector runs (R40). -/
def TrunkState.countsStuck : TrunkState → Bool
  | .offline => false
  | .resetting _ => false
  | .settling => true
  | .idle => true
  | .arbitrating _ => true
  | .transmitting _ _ => true
  | .answerWait _ _ _ _ => true
  | .receiving _ => true
  | .replying _ _ => true
  | .fault => true

/-- The stuck count after a bit time, kept at 2048 while the line stays dominant (R40). -/
def stuckAfter (stuck : Nat) (dominant : Bool) : Nat := if dominant then (if stuck < 2048 then stuck + 1 else 2048) else 0

/-- The stuck count raised or reset, and the line stuck when it reaches 2048 (R40). -/
def State.stuckBit (s : State) (counting dominant : Bool) : State :=
  if counting then
    let s1 := s.setTrunk { s.trunk with stuck := stuckAfter s.trunk.stuck dominant }
    if s.trunk.stuck < 2048 && s1.trunk.stuck == 2048 then s1.sticks.getD s1 else s1
  else s

/-- The claim bit driven at the boundary of a bit time in Idle with a send pending (R24). -/
def State.boundary (s : State) : State := s.claim.getD s

/-- What the level does once it is read: the controller's state acts on it, the stuck detector counts it, and a TRUNK RESET due to
complete completes at the Idle entered (R39). -/
def State.lineEvents (s : State) (counting drives dominant : Bool) : State :=
  let s1 := (s.stateBit drives dominant).stuckBit counting dominant
  s1.trunkResetCompletes.getD s1

/-- The line's part of a bit time: the claim at its boundary, the level, and the level's events. `between` is what else the end of the
bit time brings ahead of those events. -/
def State.lineBitWith (between : State → State) (s : State) : State :=
  let s1 := s.boundary
  (between s1.dropInput).lineEvents s1.trunk.state.countsStuck s1.drives (levelOf s1.drives s1.nextInput)

/-- The line's part of a bit time that brings nothing else. -/
def State.lineBit (s : State) : State := s.lineBitWith id

/-- The heartbeat raised, short of passing 4095 (R42). Nothing of the line's part reads the count, so raising it before that part is
raising it at the end of the bit time. -/
def State.beat (s : State) : State := s.setTrunk { s.trunk with heartbeat := s.trunk.heartbeat + 1 }

/-- A bit time at whose end the heartbeat passes 4095: the tick and the bit time's line events in the orders left open (log 7). In either
order the claim and the level are the bit time's own, before the tick (R24, R42). -/
def State.tickBit (s : State) : State :=
  let order : TickOrder := ⟨Config.secondFirst (s.choices + 1), Config.secondFirst (s.choices + 2)⟩
  let s1 := s.nextChoice.nextChoice.nextChoice
  if Config.secondFirst s.choices then s1.lineBitWith (·.tick order) else s1.lineBit.tick order

/-- One bit time (R21). A soft reset taken before it completes at its end (R150, R166); while nRESET is low no bit time passes. -/
def State.bitTime (s : State) : State :=
  if s.nreset then
    let s1 := if 4095 ≤ s.trunk.heartbeat then s.tickBit else s.beat.lineBit
    if s.softResetting then s1.softResetCompletes.getD s1 else s1
  else s

end Sys2Proof.Machine
end

