-- ==== Sys2Proof/Machine/Dispatch.lean ====
section
/-! DEFINITION. The effect of each command: one arm, one meaning. -/

namespace Sys2Proof.Machine

open Sys2Proof

/-- A command's effect on everything but the queue. -/
def exec (i : Instr) (s : State) : Host.Outcome State Fault Refusal :=
  match i with
  | .hardwareReset => Sys2Proof.Machine.execHardwareReset s
  | .softReset => Sys2Proof.Machine.execSoftReset s
  | .softResetComplete => Sys2Proof.Machine.execSoftResetComplete s
  | .start => Sys2Proof.Machine.execStart s
  | .continueChain => Sys2Proof.Machine.execContinue s
  | .halt => Sys2Proof.Machine.execHalt s
  | .withdraw => Sys2Proof.Machine.execWithdraw s
  | .pop => Sys2Proof.Machine.execPop s
  | .takeBlock => Sys2Proof.Machine.execTakeBlock s
  | .freeChain => Sys2Proof.Machine.execFreeChain s
  | .fenceStation => Sys2Proof.Machine.execFence s
  | .admitStation => Sys2Proof.Machine.execAdmit s
  | .trunkReset => Sys2Proof.Machine.execTrunkReset s
  | .clearCounters => Sys2Proof.Machine.execClearCounters s
  | .unknown code => Sys2Proof.Machine.execUnknown code s
  | .commandOverrun code => Sys2Proof.Machine.execCommandOverrun code s
  | .windowWrite a v => Sys2Proof.Machine.execWindowWrite a v s
  | .slotSelectWrite v => Sys2Proof.Machine.execSlotSelectWrite v s
  | .slotFieldIndexWrite v => Sys2Proof.Machine.execSlotFieldIndexWrite v s
  | .slotFieldDataWrite v => Sys2Proof.Machine.execSlotFieldDataWrite v s
  | .slotFieldDataRead => Sys2Proof.Machine.execSlotFieldDataRead s
  | .reportFieldIndexWrite v => Sys2Proof.Machine.execReportFieldIndexWrite v s
  | .stationSelectWrite v => Sys2Proof.Machine.execStationSelectWrite v s
  | .stationFieldIndexWrite v => Sys2Proof.Machine.execStationFieldIndexWrite v s
  | .blockSelectWrite v => Sys2Proof.Machine.execBlockSelectWrite v s
  | .blockOffsetWrite v => Sys2Proof.Machine.execBlockOffsetWrite v s
  | .blockDataAccess access => Sys2Proof.Machine.execBlockDataAccess access s
  | .blockLinkWrite v => Sys2Proof.Machine.execBlockLinkWrite v s
  | .configIndexWrite v => Sys2Proof.Machine.execConfigIndexWrite v s
  | .configDataWrite v => Sys2Proof.Machine.execConfigDataWrite v s
  | .trunkDividerLowWrite v => Sys2Proof.Machine.execTrunkDividerLowWrite v s
  | .trunkDividerHighWrite v => Sys2Proof.Machine.execTrunkDividerHighWrite v s
  | .trunkEnableWrite v => Sys2Proof.Machine.execTrunkEnableWrite v s
  | .eventsWrite v => Sys2Proof.Machine.execEventsWrite v s
  | .eventMaskWrite v => Sys2Proof.Machine.execEventMaskWrite v s
  | .counterIndexWrite v => Sys2Proof.Machine.execCounterIndexWrite v s
  | .counterDataRead => Sys2Proof.Machine.execCounterDataRead s
  | .tick order => Sys2Proof.Machine.execTick order s
  | .deadlineExpiry t => Sys2Proof.Machine.execDeadlineExpiry t s
  | .restEnd t => Sys2Proof.Machine.execRestEnd t s
  | .coalescingTimerExpiry => Sys2Proof.Machine.execCoalescingTimerExpiry s
  | .lineIdle => Sys2Proof.Machine.execLineIdle s
  | .faultClear => Sys2Proof.Machine.execFaultClear s
  | .stuckLine => Sys2Proof.Machine.execStuckLine s
  | .contentionWon => Sys2Proof.Machine.execContentionWon s
  | .contentionLost cause => Sys2Proof.Machine.execContentionLost cause s
  | .requestSent => Sys2Proof.Machine.execRequestSent s
  | .noticeSent => Sys2Proof.Machine.execNoticeSent s
  | .collision => Sys2Proof.Machine.execCollision s
  | .answerTimerExpiry stationFirst => Sys2Proof.Machine.execAnswerTimerExpiry stationFirst s
  | .header => Sys2Proof.Machine.execHeader s
  | .payloadByte => Sys2Proof.Machine.execPayloadByte s
  | .frameEnd => Sys2Proof.Machine.execFrameEnd s
  | .gapTimerExpiry => Sys2Proof.Machine.execGapTimerExpiry s
  | .malformedRunEnd => Sys2Proof.Machine.execMalformedRunEnd s
  | .replyWindow => Sys2Proof.Machine.execReplyWindow s
  | .replySent => Sys2Proof.Machine.execReplySent s
  | .replyCollision => Sys2Proof.Machine.execReplyCollision s
  | .markEnd => Sys2Proof.Machine.execMarkEnd s
  | .trunkResetComplete => Sys2Proof.Machine.execTrunkResetComplete s
  | .claimBit => Sys2Proof.Machine.execClaimBit s
  | .foreignClaimBit => Sys2Proof.Machine.execForeignClaimBit s
  | .startBit => Sys2Proof.Machine.execStartBit s
  | .characterReceived value stopRecessive => Sys2Proof.Machine.execCharacterReceived value stopRecessive s
  | .nresetAsserted => Sys2Proof.Machine.execNresetAsserted s

end Sys2Proof.Machine
end

