-- ==== Sys2Proof/Safety.lean ====
section
/-! DEFINITION. The predicates the statements speak of: when the port takes accesses, what an access or a command leaves, and what every
step keeps. -/

namespace Sys2Proof.Machine

open Sys2Proof

/-! ## The port -/

/-- The port takes accesses: nRESET is high (R151) and no soft reset is in progress (R167). -/
def State.windowOpen (s : State) : Prop := s.nreset = true ∧ s.softResetting = false

/-- The command port takes a command: nRESET is high (R151) and the port is not busy (R161). -/
def State.portFree (s : State) : Prop := s.nreset = true ∧ s.port.busy = false

/-- The state a completed command leaves (R161): COMMAND, RESULT, RESULT DATA, busy clear, COMMAND DONE latched. -/
def State.commandDone (s : State) (code : Byte) (r : CmdResult) (data : Byte) : State :=
  { s with
    port := { s.port with command := code, busy := false, result := r, resultData := data, completionDue := false }
    reports := { s.reports with latches := { s.reports.latches with commandDone := true } } }

/-- The state a refused access leaves (R153): FAULT CAUSE set, WINDOW FAULT latched. -/
def State.faulted (s : State) (c : WindowFault) : State :=
  { s with
    port := { s.port with faultCause := c }
    reports := { s.reports with latches := { s.reports.latches with windowFault := true } } }

/-- The rows that are a write on the processor bus. -/
def isBusWrite : Instr → Bool
  | .softReset | .start | .continueChain | .halt | .withdraw | .pop | .takeBlock | .freeChain | .fenceStation
  | .admitStation | .trunkReset | .clearCounters | .unknown _ | .commandOverrun _ | .windowWrite _ _
  | .slotSelectWrite _ | .slotFieldIndexWrite _ | .slotFieldDataWrite _ | .reportFieldIndexWrite _
  | .stationSelectWrite _ | .stationFieldIndexWrite _ | .blockSelectWrite _ | .blockOffsetWrite _
  | .blockDataAccess (.write _) | .blockLinkWrite _ | .configIndexWrite _ | .configDataWrite _
  | .trunkDividerLowWrite _ | .trunkDividerHighWrite _ | .trunkEnableWrite _ | .eventsWrite _ | .eventMaskWrite _
  | .counterIndexWrite _ => true
  | .hardwareReset | .nresetAsserted | .softResetComplete | .slotFieldDataRead | .counterDataRead
  | .blockDataAccess .read | .tick _ | .deadlineExpiry _ | .restEnd _ | .coalescingTimerExpiry | .lineIdle
  | .faultClear | .stuckLine | .contentionWon | .contentionLost _ | .requestSent | .noticeSent | .collision
  | .answerTimerExpiry _ | .header | .payloadByte | .frameEnd | .gapTimerExpiry | .malformedRunEnd | .replyWindow
  | .replySent | .replyCollision | .markEnd | .trunkResetComplete | .claimBit | .foreignClaimBit | .startBit
  | .characterReceived _ _ => false

/-- The code a row writes to COMMAND, for the rows that are COMMAND writes (Table 8.4). -/
def commandCode : Instr → Option Byte
  | .start => some 0x01
  | .continueChain => some 0x02
  | .halt => some 0x03
  | .withdraw => some 0x04
  | .pop => some 0x05
  | .takeBlock => some 0x06
  | .freeChain => some 0x07
  | .fenceStation => some 0x08
  | .admitStation => some 0x09
  | .trunkReset => some 0x0A
  | .clearCounters => some 0x0B
  | .softReset => some 0x0C
  | .unknown code => some code
  | .commandOverrun code => some code
  | .windowWrite _ _ | .slotSelectWrite _ | .slotFieldIndexWrite _ | .slotFieldDataWrite _ | .slotFieldDataRead
  | .reportFieldIndexWrite _ | .stationSelectWrite _ | .stationFieldIndexWrite _ | .blockSelectWrite _
  | .blockOffsetWrite _ | .blockDataAccess _ | .blockLinkWrite _ | .configIndexWrite _ | .configDataWrite _
  | .trunkDividerLowWrite _ | .trunkDividerHighWrite _ | .trunkEnableWrite _ | .eventsWrite _ | .eventMaskWrite _
  | .counterIndexWrite _ | .counterDataRead | .hardwareReset | .nresetAsserted | .softResetComplete | .tick _
  | .deadlineExpiry _ | .restEnd _ | .coalescingTimerExpiry | .lineIdle | .faultClear | .stuckLine
  | .contentionWon | .contentionLost _ | .requestSent | .noticeSent | .collision | .answerTimerExpiry _ | .header
  | .payloadByte | .frameEnd | .gapTimerExpiry | .malformedRunEnd | .replyWindow | .replySent | .replyCollision
  | .markEnd | .trunkResetComplete | .claimBit | .foreignClaimBit | .startBit | .characterReceived _ _ => none

/-! ## The Launcher -/

/-- The Launcher is Idle or Held, the states in which START takes a slot (R95). -/
def Phase.stopped : Phase → Prop
  | .idle => True
  | .held _ => True
  | .waiting _ _ => False
  | .contending _ _ => False
  | .launching _ _ => False

/-- The blocks follow one another by their links. -/
def Pool.chained (p : Pool) : List BlockId → Prop
  | [] => True
  | [_] => True
  | b :: c :: bs => p.link[b] = some c ∧ p.chained (c :: bs)

/-- Every block of a list is the processor's. -/
def Pool.processorHolds (p : Pool) (bs : List BlockId) : Prop := ∀ b ∈ bs, p.owner[b] = .processor

/-- The outbound chain passes its walk (R80): as many blocks as the payload needs, from OutFirst along the links, all the processor's,
none met twice. -/
def State.chainSound (s : State) (k : SlotId) : Prop :=
  ∃ bs, bs.length = blocksFor (s.slot k).outLength.toNat ∧ bs.head? = some (s.slot k).outFirst ∧ s.pool.chained bs ∧
    s.pool.processorHolds bs ∧ bs.Nodup

/-- The slot is not BAD SLOT (R80). -/
def State.slotSound (s : State) (k : SlotId) : Prop :=
  (1 ≤ (s.slot k).op.toNat ∧ (s.slot k).op.toNat ≤ 5) ∧
  ((s.slot k).op.toNat ≤ 4 → 1 ≤ (s.slot k).station.toNat ∧ (s.slot k).station.toNat ≤ 14) ∧
  (s.slot k).outLength.toNat ≤ 1024 ∧ (s.slot k).inLimit.toNat ≤ 1024 ∧
  ((s.slot k).op.toNat = 4 → (s.slot k).outLength.toNat = 0) ∧
  (0 < (s.slot k).outLength.toNat → s.chainSound k)

/-- A tag is the lowest-numbered Free one (R45). -/
def State.firstFree (s : State) (t : Tag) : Prop := s.entry t = .free ∧ ∀ u, u < t → s.entry u ≠ .free

/-- What a slot's exchange may receive (R45): the InLimit, 4 for PROBE. -/
def Slot.limit (sl : Slot) : Nat := if sl.op = 4 then 4 else sl.inLimit.toNat

/-- The slot as the Launcher takes it (R78). -/
def Slot.taken (sl : Slot) : Slot := { sl with state := .active, lastTag := none, attempts := 0 }

/-- The slot of a launch undone (R97). -/
def Slot.undone (sl : Slot) : Slot := { sl with state := .openSlot, lastTag := none, attempts := 0 }

/-- The end of a launch phase at the slot and its outbound chain, steps 1 and 2 of R89. -/
def State.launchEnded (s : State) (k : SlotId) (o : OutcomeCode) (attempts : Nat) : State :=
  { s with
    pool := if (s.slot k).returnOut then s.pool.appendAll (s.outChain k) else s.pool.setOwners (s.outChain k) .processor
    slots := s.slots.set k { s.slot k with state := .closed, lastOutcome := o, attempts := attempts } }

/-! ## Records and Done -/

/-- The queue and the backlog after a posting by the Exchange Table or the Station Table (R135, R143). -/
def Reports.posted (r : Reports) (coalesceTime : Nat) (x : Report) : Reports :=
  if r.queue.length < 32 then
    { r with
      queue := r.queue ++ [x]
      timer := if r.queue = [] then (if coalesceTime = 0 then none else some coalesceTime) else r.timer }
  else { r with backlog := r.backlog ++ [x] }

/-- The queue, the backlog and the timer after the head record is removed (R137, steps 2, 4 and 5). -/
def Reports.popped (r : Reports) : Reports :=
  match r.backlog with
  | x :: rest => { r with queue := r.queue.tail ++ [x], backlog := rest }
  | [] =>
    match r.queue.tail with
    | [] => { r with queue := [], timer := none, overdue := false }
    | x :: rest => { r with queue := x :: rest }

/-- The EXCHANGE record (R58, R132). -/
def Exchange.record (x : Exchange) (urgent : Bool) (t : Tag) (o : OutcomeCode) (length : Option Nat)
    (status reason : Option Nibble) (first : Option BlockId) : Report where
  kind := .exchange
  urgent := urgent
  slot := some x.slot
  tag := some t
  station := some x.station
  op := some (byteOf x.op.code)
  outcome := some o
  attempts := some x.attempts
  busybacks := some x.busybacks
  stationStatus := status
  refuseReason := reason
  length := length
  firstBlock := first
  cause := none

/-- An entry reaches Done, steps 1 to 4 of R57: the received chain to its report, the other blocks freed, Outstanding lowered, the
record posted, and Expiries counted for EXPIRED. -/
def State.ended (s : State) (t : Tag) (x : Exchange) (o : OutcomeCode) (length : Option Nat) (status reason : Option Nibble)
    (chain frees : List BlockId) : State :=
  { s with
    entries := s.entries.set t (.done { x with reservedChain := [] } ⟨o, false, chain, length, status, reason⟩)
    pool := ((s.pool.appendAll frees).setOwners chain (.reported t)).linkChain chain
    stations := s.stations.set x.station { s.station x.station with outstanding := (s.station x.station).outstanding - 1 }
    reports := s.reports.posted s.config.coalesceTime
      (x.record (s.slot x.slot).notify t o length status reason chain.head?)
    counters := if o = .expired then s.counters.raise 10 else s.counters }

/-- A slot closed by the Exchange Table (R57, step 5). -/
def State.closed (s : State) (k : SlotId) (o : OutcomeCode) : State :=
  { s with slots := s.slots.set k { s.slot k with state := .closed, lastOutcome := o } }

/-! ## Receptions -/

/-- The reception holds nothing still to be handed on (R34). -/
def Reception.nothingDue (r : Reception) : Prop := r.headerDue = none ∧ r.due = none

/-- The events that end a reception with a class that is not good, with the index of the class's counter (R35, Table 9.1). -/
def Reception.endsBad (r : Reception) (event : Instr) (counter : Fin 12) : Prop :=
  (event = .frameEnd ∧ counter = 2 ∧ r.malformed = false ∧ r.complete = true ∧ r.crcGood = false) ∨
  (event = .gapTimerExpiry ∧ counter = 3 ∧ r.malformed = false ∧ r.complete = false ∧ r.char = none) ∨
  (event = .malformedRunEnd ∧ counter = 4 ∧ r.malformed = true)

/-- The reception has come to its second CRC byte with every check passed and a good CRC (R35). -/
def Reception.endsGood (r : Reception) : Prop := r.malformed = false ∧ r.complete = true ∧ r.crcGood = true

/-- The state at the end of a reception, before its routes: its class counted, Settling with quiet count 0 (R35, R36). -/
def State.receptionOver (s : State) (counter : Fin 12) : State :=
  { s with
    counters := s.counters.raise counter
    trunk := { s.trunk with state := .settling, quiet := 0, skip := false } }

/-- A good frame at the record of its source (R121), with the re-evaluation of a changed State (R83). -/
def State.heardFrom (s : State) (i : StationId) : State :=
  let p : Presence := if (s.station i).presence = .fenced then .fenced else .online
  let t : State := { s with stations := s.stations.set i { s.station i with misses := 0, presence := p } }
  if (s.station i).presence = p then t else t.reevaluate

/-! ## Trunk reset -/

/-- What a trunk reset's report of an entry holds: the exchange with the attempts of the report, for each entry that reaches Done (R71). -/
def Entry.resetEnds : Entry → Option Exchange
  | .reserved true x => some x
  | .reserved false x => if x.attempts ≤ 1 then none else some { x with attempts := x.attempts - 1 }
  | .awaiting x _ => some x
  | .deferred x _ => some x
  | .receiving x _ _ _ => some x
  | .free => none
  | .done _ _ => none
  | .resting _ _ => none

/-- The exchange of an entry in its answer phase that a trunk reset ends, which ends the launch phase too (R71, R101). -/
def Entry.resetAnswers : Entry → Option Exchange
  | .reserved b x => (Entry.reserved b x).resetEnds
  | .awaiting x c => (Entry.awaiting x c).resetEnds
  | .deferred _ _ => none
  | .receiving _ _ _ _ => none
  | .free => none
  | .done _ _ => none
  | .resting _ _ => none

/-- The slot of an entry in Deferred or Receiving, which the trunk reset closes (R71). -/
def Entry.awaySlot : Entry → Option SlotId
  | .deferred x _ => some x.slot
  | .receiving x _ _ _ => some x.slot
  | .free => none
  | .reserved _ _ => none
  | .awaiting _ _ => none
  | .done _ _ => none
  | .resting _ _ => none

/-- The blocks an entry holds, its reserved chain before those taken for a recall: what a trunk reset frees (R71). -/
def Entry.holds : Entry → List BlockId
  | .reserved _ x => x.reservedChain
  | .awaiting x _ => x.reservedChain
  | .deferred x _ => x.reservedChain
  | .receiving x _ _ (.taken bs) => x.reservedChain ++ bs
  | .receiving x _ _ .reserved => x.reservedChain
  | .receiving x _ _ .overrun => x.reservedChain
  | .receiving x _ _ .busy => x.reservedChain
  | .free => []
  | .done _ _ => []
  | .resting _ _ => []

/-- An entry after a trunk reset (R71): Done TRUNK RESET, or Free, or a Done as it was. -/
def Entry.afterReset (e : Entry) : Entry :=
  match e.resetEnds with
  | some x => .done { x with reservedChain := [] } ⟨.trunkReset, false, [], none, none, none⟩
  | none => match e with
    | .done x d => .done x d
    | .free => .free
    | .resting _ _ => .free
    | .reserved _ _ => .free
    | .awaiting _ _ => .free
    | .deferred _ _ => .free
    | .receiving _ _ _ _ => .free

/-- An entry in a live state that names a station (R46). -/
def Entry.liveFor (i : StationId) : Entry → Bool
  | .reserved _ x => x.station == i
  | .awaiting x _ => x.station == i
  | .deferred x _ => x.station == i
  | .receiving x _ _ _ => x.station == i
  | .free => false
  | .done _ _ => false
  | .resting _ _ => false

/-- The trunk reset of the entries of some tags (R71): the entries, the slots of those answered later, Outstanding, the blocks freed and the
records posted in the order of the tags. -/
def State.entriesReset (s : State) (tags : List Tag) : State :=
  { s with
    entries := Vector.ofFn fun g => if g ∈ tags then (s.entry g).afterReset else s.entry g
    slots := Vector.ofFn fun k =>
      if ∃ g ∈ tags, (s.entry g).awaySlot = some k then { s.slot k with state := .closed, lastOutcome := .trunkReset }
      else s.slot k
    stations := Vector.ofFn fun i => { s.station i with
      outstanding := (s.station i).outstanding - (tags.filter fun g => (s.entry g).liveFor i).length }
    pool := s.pool.appendAll (tags.flatMap fun g => (s.entry g).holds)
    reports := (tags.filterMap fun g => (s.entry g).resetEnds.map fun x =>
        x.record (s.slot x.slot).notify g .trunkReset none none none none).foldl
      (fun r x => r.posted s.config.coalesceTime x) s.reports }

/-- The Launcher stopped Held at a position by its own act (R77). -/
def State.stoppedAt (s : State) (k : SlotId) : State :=
  { s with
    launcher := ⟨.held k, false, false⟩
    reports := { s.reports with latches := { s.reports.latches with launcherStopped := true } } }

/-- The trunk reset of a NOTICE in Launching (R90, R100): its launch phase ended, and its record posted with the Launcher Held at the link, or
owed while the queue is full. -/
def State.noticeReset (s : State) (k : SlotId) (n : Nat) : State :=
  let r : Report := ⟨.notice, (s.slot k).notify, some k, none, none, some 5, some .trunkReset, some n, none, none, none, none,
    none, none⟩
  if s.reports.queue.length < 32 then
    { s.launchEnded k .trunkReset n with reports := s.reports.posted s.config.coalesceTime r }.stoppedAt (s.slot k).link
  else { s.launchEnded k .trunkReset n with
    slots := s.slots.set k { s.slot k with attempts := n }
    launcher := { s.launcher with phase := .waiting k (.reportSpace r) } }

/-! ## What every step keeps -/

/-- Each configuration item is in its range (Table 8.3). -/
def Settings.inRange (c : Settings) : Prop :=
  (8 ≤ c.trunkDivider.toNat ∧ c.trunkDivider.toNat ≤ 4095) ∧ (2 ≤ c.answerTime ∧ c.answerTime ≤ 10) ∧
  (1 ≤ c.gapTime ∧ c.gapTime ≤ 10) ∧ (1 ≤ c.defaultPatience ∧ c.defaultPatience ≤ 255) ∧ c.restTime ≤ 255 ∧
  c.fenceLimit ≤ 7 ∧ c.freeFloor ≤ 63 ∧ (1 ≤ c.reportThreshold ∧ c.reportThreshold ≤ 32) ∧ c.coalesceTime ≤ 255

/-- Bits 5 and 6 of EVENT MASK are clear (R147). -/
def maskClean (m : Byte) : Prop := m.getLsbD 5 = false ∧ m.getLsbD 6 = false

/-- The queue holds at most 32 records, and 32 whenever the backlog holds an item (R134, R135). -/
def Reports.bounded (r : Reports) : Prop := r.queue.length ≤ 32 ∧ (r.backlog ≠ [] → r.queue.length = 32)

/-- At most one of the pending flags is set (R76), and none in Idle or Held (R95). -/
def Launcher.exclusive (l : Launcher) : Prop :=
  ¬ (l.pendingContinue = true ∧ l.haltPending = true) ∧
  (l.phase = .idle → l.pendingContinue = false ∧ l.haltPending = false) ∧
  (∀ p, l.phase = .held p → l.pendingContinue = false ∧ l.haltPending = false)

/-- The counts of the Trunk Controller are in their ranges (R20), the answer timer's limit among them (R8). -/
def Trunk.bounded (t : Trunk) : Prop :=
  t.quiet ≤ 12 ∧ t.stuck ≤ 2048 ∧ t.heartbeat ≤ 4095 ∧ (∀ g st limit n, t.state = .answerWait g st limit n → limit ≤ 10)

/-- With nRESET high, the controller is Offline exactly while TrunkEnable is 0 (R1, R22). -/
def State.enableAgrees (s : State) : Prop :=
  s.nreset = true → (s.config.trunkEnable = false ↔ s.trunk.state = .offline)

/-- The number of live entries that name a station. -/
def State.liveCount (s : State) (i : StationId) : Nat :=
  ((List.finRange 16).filter fun t => (s.entry t).liveFor i).length

/-- Outstanding is the number of live entries that name the station, and at most 4; Depth is 1 to 4 (R46, R127, Table 6.1). -/
def State.outstandingAgrees (s : State) : Prop :=
  ∀ i, (s.station i).outstanding = s.liveCount i ∧ (s.station i).outstanding ≤ 4 ∧ 1 ≤ (s.station i).depth ∧
    (s.station i).depth ≤ 4

/-! ## What every step keeps: who holds a block, a slot and the pending send -/

/-- The blocks attached to an entry's report (R116). -/
def Entry.reported : Entry → List BlockId
  | .done _ d => d.receivedChain
  | .free => []
  | .reserved _ _ => []
  | .awaiting _ _ => []
  | .deferred _ _ => []
  | .receiving _ _ _ _ => []
  | .resting _ _ => []

/-- Blocks are taken for a recall only where the deferral kept none (R51, R62). -/
def Entry.apart : Entry → Prop
  | .deferred x _ => x.keep = false → x.reservedChain = []
  | .receiving x _ _ (.taken _) => x.keep = false ∧ x.reservedChain = []
  | .receiving x _ _ .reserved => x.keep = false → x.reservedChain = []
  | .receiving x _ _ .overrun => x.keep = false → x.reservedChain = []
  | .receiving x _ _ .busy => x.keep = false → x.reservedChain = []
  | .free => True
  | .reserved _ _ => True
  | .awaiting _ _ => True
  | .done _ _ => True
  | .resting _ _ => True

/-- The slot whose outbound chain the Launcher has (R84, R85, R112). -/
def Phase.lender : Phase → Option SlotId
  | .contending k _ => some k
  | .launching k _ => some k
  | .idle => none
  | .waiting _ _ => none
  | .held _ => none

/-- The current slot, which the Launcher made Active (R75, R78). -/
def Phase.current : Phase → Option SlotId
  | .waiting _ .slotBusy => none
  | .waiting k .depth => some k
  | .waiting k .tag => some k
  | .waiting k .blocks => some k
  | .waiting k (.reportSpace _) => some k
  | .contending k _ => some k
  | .launching k _ => some k
  | .idle => none
  | .held _ => none

/-- The outbound chain the Launcher has. -/
def State.lent (s : State) : List BlockId :=
  match s.launcher.phase.lender with
  | some k => s.outChain k
  | none => []

/-- The owners of the pool's blocks are those that name them (R102, R103): the free list is the FREE blocks, each once; a RESERVED or INBOUND
block is held by its tag's entry, once; a REPORTED block is on its tag's report; an OUTBOUND block is on the chain the Launcher has, once. -/
structure Pool.owned (p : Pool) (holds reports : Tag → List BlockId) (lender : Option SlotId) (chain : List BlockId) : Prop where
  free : ∀ b : BlockId, p.owner[b] = .free ↔ b ∈ p.freeList
  freeOnce : p.freeList.Nodup
  held : ∀ g, ∀ b : BlockId, (p.owner[b] = .reserved g ∨ p.owner[b] = .inbound g) ↔ b ∈ holds g
  heldOnce : ∀ g, (holds g).Nodup
  reported : ∀ g, ∀ b : BlockId, p.owner[b] = .reported g ↔ b ∈ reports g
  lent : ∀ k, ∀ b : BlockId, p.owner[b] = .outbound k ↔ lender = some k ∧ b ∈ chain
  lentOnce : chain.Nodup

/-- The pool agrees with the table and the Launcher on who owns each block (R102, R103). -/
structure State.blocksAgree (s : State) : Prop where
  owned : s.pool.owned (fun g => (s.entry g).holds) (fun g => (s.entry g).reported) s.launcher.phase.lender s.lent
  apart : ∀ g, (s.entry g).apart

/-- The current slot is Active and no deferred exchange is its own; the slot of a deferred exchange is Active and no other one's (R75,
R78). -/
structure State.slotsAgree (s : State) : Prop where
  current : ∀ k, s.launcher.phase.current = some k → (s.slot k).state = .active ∧ ∀ g, (s.entry g).awaySlot ≠ some k
  away : ∀ g k, (s.entry g).awaySlot = some k → (s.slot k).state = .active ∧ ∀ u, (s.entry u).awaySlot = some k → u = g

/-- The exchange of an entry whose REQUEST is on the line or awaits its answer (R47). -/
def Entry.answering : Entry → Option Exchange
  | .reserved true x => some x
  | .awaiting x _ => some x
  | .reserved false _ => none
  | .free => none
  | .deferred _ _ => none
  | .receiving _ _ _ _ => none
  | .done _ _ => none
  | .resting _ _ => none

/-- A send made pending is the Launcher's: a REQUEST of the reserved entry of its slot, or a NOTICE of its slot (R20, R25, R84, R85). -/
def State.asks (s : State) : Send → Prop
  | .request k g _ => (∃ x, s.entry g = .reserved false x ∧ x.slot = k) ∧
    (s.launcher.phase = .contending k none ∨ s.launcher.phase = .launching k none)
  | .notice k => ∃ n, s.launcher.phase = .contending k (some n) ∨ s.launcher.phase = .launching k (some n)

/-- A frame on the line is that of the entry in Reserved, sending, or of the NOTICE in Launching (R26, R47, R86). -/
def State.sends (s : State) : Send → Prop
  | .request k g _ => ∃ x, s.entry g = .reserved true x ∧ x.slot = k
  | .notice k => ∃ n, s.launcher.phase = .launching k (some n)

/-- At most one exchange is in Launching, and it is the Launcher's; a pending send has its owner, and with it nothing is on the line (R20, R47,
R76). -/
structure State.sendsAgree (s : State) : Prop where
  answering : ∀ g x, (s.entry g).answering = some x →
    s.launcher.phase = .launching x.slot none ∧ ∀ u y, (s.entry u).answering = some y → u = g
  pending : ∀ p, s.trunk.pendingSend = some p → (∀ g, (s.entry g).answering = none) ∧ s.asks p
  sending : ∀ f n, s.trunk.state = .transmitting f n → s.trunk.pendingSend = none ∧ s.sends f.send

end Sys2Proof.Machine
end

