-- ==== Sys2Proof/Certificates/Slice0/Obligations.lean ====
section
/-! DEFINITION. The statements for the provers. A statement gives the next state whole: what it does not name is unchanged. `commandDone`,
`faulted`, `ended` and the other names of Safety.lean write a state out. -/

open Sys2Proof Sys2Proof.Machine

/-! ## The queue and the bit time -/

/-- The step takes the command at the front of the queue and runs it on the state with the queue's rest. -/
def Obligations.StepRunsFrontCommand : Prop :=
  ∀ (c : Instr) (rest : List Instr) (s : State),
    step { s with pending := c :: rest } = exec c { s with pending := rest }

/-- With nothing waiting a step is one bit time (the model's choice, log 2). The claim is made at its boundary (R24); its level is the
next item of lineIn (an empty list is a released pair, log 1) over what the part drives (R1); then the level's events come, and the heartbeat
rises, or passes 4095 and the tick is delivered before or after them (R42; the order is log 7). One level a bit time is log 16. The events, state by state: Offline none (R1);
Settling and Fault count recessive bit times to 12 (R23, R41); Idle a claim bit (R24); an arbitration, a frame and a reply are read back and
end in their rows (R5, R26, R28, R29, R37); the answer window ends at a start bit or its limit (R30); a reception takes its arbitration, its
characters bit by bit, its gaps and its malformed run (R2, R31 to R34), where the model's choices are that what a character makes due is handed on
in its stop bit's bit time (log 5) and that a run long enough at the failing character's own stop bit ends the reception there (log 17); the mark
is 64 bit times (R39); then the stuck count (R40; in a state where the line cannot be stuck the row is refused and nothing follows, log 24 and
log 4), and a TRUNK RESET due to complete completes in the same bit time (R39, log 6). -/
def Obligations.EmptyQueueStepIsABitTime : Prop :=
  (∀ s : State, s.pending = [] → s.nreset = true → s.softResetting = false → s.port.completionDue = false →
    s.lineIn = [] → s.trunk.heartbeat < 4095 →
    (s.trunk.state = .offline →
      step s = .next { s with trunk := { s.trunk with heartbeat := s.trunk.heartbeat + 1 } }) ∧
    (s.trunk.state = .settling → s.trunk.quiet < 11 →
      step s = .next { s with trunk :=
        { s.trunk with quiet := s.trunk.quiet + 1, stuck := 0, heartbeat := s.trunk.heartbeat + 1 } }) ∧
    (s.trunk.state = .settling → s.trunk.quiet = 11 → s.trunkResetting = false →
      step s = .next { s with trunk := { s.trunk with
        state := .idle, quiet := 0, skip := false, stuck := 0, heartbeat := s.trunk.heartbeat + 1 } }) ∧
    (s.trunk.state = .settling → s.trunk.quiet = 11 → s.trunkResetting = true →
      step s = .next (State.commandDone { s with trunk := { s.trunk with
        state := .idle, quiet := 0, skip := false, stuck := 0, heartbeat := s.trunk.heartbeat + 1 } } 0x0A .ok 0)) ∧
    (∀ n, s.trunk.state = .resetting n → n < 63 →
      step s = .next { s with trunk :=
        { s.trunk with state := .resetting (n + 1), heartbeat := s.trunk.heartbeat + 1 } }) ∧
    (s.trunk.state = .resetting 63 →
      step s = .next { s with trunk := { s.trunk with
        state := .settling, quiet := 0, skip := false, heartbeat := s.trunk.heartbeat + 1 } })) ∧
  (∀ s b : State, s.pending = [] → s.nreset = true → s.softResetting = false →
    (exec .claimBit s = .next b ∨ ((∀ c, exec .claimBit s ≠ .next c) ∧ b = s)) →
    let level := match s.lineIn.headD .released with
      | .released => b.drives
      | .dominant => true
      | .dead => false
    let counting := match b.trunk.state with
      | .offline => false
      | .resetting _ => false
      | _ => true
    let bit := fun (u : State) => u.lineEvents counting b.drives level
    (s.trunk.heartbeat < 4095 → step s = .next (bit { b with
      lineIn := s.lineIn.tail, trunk := { b.trunk with heartbeat := s.trunk.heartbeat + 1 } })) ∧
    (s.trunk.heartbeat = 4095 → ∃ o : TickOrder,
      let begun := { b with lineIn := s.lineIn.tail, choices := s.choices + 3 }
      step s = exec (.tick o) (bit begun) ∨ ∃ t, exec (.tick o) begun = .next t ∧ step s = .next (bit t))) ∧
  (∀ (u : State) (counting drives level : Bool), u.nreset = true →
    let after := fun (x : State) => if x.port.completionDue then x.commandDone x.port.command .ok 0 else x
    let goes := fun (v : State) =>
      let w : State := if counting then
        { v with trunk := { v.trunk with stuck := if level then min (v.trunk.stuck + 1) 2048 else 0 } } else v
      (counting = false ∨ level = false ∨ v.trunk.stuck ≠ 2047 → u.lineEvents counting drives level = after w) ∧
      (counting = true → level = true → v.nreset = true → v.trunk.stuck = 2047 →
        (∀ x, exec .stuckLine w = .next x → u.lineEvents counting drives level = after x) ∧
        (∀ e, exec .stuckLine w = .refused e → u.lineEvents counting drives level = after w))
    let row := fun (event : Instr) (t : State) => ∀ v, exec event t = .next v → goes v
    let into := fun (x : TrunkState) => { u with trunk := { u.trunk with state := x } }
    let quiet := fun (n : Nat) => { u with trunk := { u.trunk with quiet := n } }
    let payload := fun (t : State) => match exec .payloadByte t with
      | .next v => v
      | .fault _ => t
      | .refused _ => t
    let due := fun (t : State) => match exec .header t with
      | .next v => payload v
      | .fault _ => payload t
      | .refused _ => payload t
    (u.trunk.state = .offline → goes u) ∧
    (u.trunk.state = .settling → (level = true → row .startBit u) ∧
      (level = false → u.trunk.quiet < 11 → goes (quiet (u.trunk.quiet + 1))) ∧
      (level = false → 11 ≤ u.trunk.quiet → row .lineIdle u)) ∧
    (u.trunk.state = .idle → (level = false → goes u) ∧
      (level = true → goes (into (.receiving (newReception .arbitration u.config.gapTime 5 none))))) ∧
    (∀ c, u.trunk.state = .arbitrating c → u.drives = drives →
      (drives = true → level = false → row (.contentionLost .readBackFault) u) ∧
      (drives = false → level = true → row (.contentionLost .releasedBitDominant) u) ∧
      (drives = level → c.bit < 5 → goes (into (.arbitrating { c with bit := c.bit + 1 }))) ∧
      (drives = level → 5 ≤ c.bit → row .contentionWon u)) ∧
    (∀ f p, u.trunk.state = .transmitting f p → (drives ≠ level → row .collision u) ∧
      (drives = level → p + 1 < 10 * (7 + f.length) → goes (into (.transmitting f (p + 1)))) ∧
      (drives = level → 10 * (7 + f.length) ≤ p + 1 → row .requestSent u ∧ row .noticeSent u)) ∧
    (∀ g st limit n, u.trunk.state = .answerWait g st limit n → (level = true → row .startBit u) ∧
      (level = false → n + 1 < limit → goes (into (.answerWait g st limit (n + 1)))) ∧
      (level = false → limit ≤ n + 1 → ∃ order, row (.answerTimerExpiry order) { u with choices := u.choices + 1 })) ∧
    (∀ r, u.trunk.state = .receiving r →
      let q := { r with run := if level then 0 else r.run + 1 }
      (0 < r.arbitrationLeft → goes (into (.receiving { q with arbitrationLeft := r.arbitrationLeft - 1 }))) ∧
      (r.arbitrationLeft = 0 → r.malformed = true →
        (q.run ≤ r.gapLimit → goes (into (.receiving q))) ∧
        (r.gapLimit < q.run → row .malformedRunEnd (into (.receiving q)))) ∧
      (r.arbitrationLeft = 0 → r.malformed = false → r.char = none →
        (level = true → row .startBit (into (.receiving q))) ∧
        (level = false → r.gap < r.gapLimit → goes (into (.receiving { q with gap := r.gap + 1 }))) ∧
        (level = false → r.gapLimit ≤ r.gap → row .gapTimerExpiry (into (.receiving { q with gap := r.gap + 1 })))) ∧
      (∀ n v, r.arbitrationLeft = 0 → r.malformed = false → r.char = some (n, v) →
        (n < 8 → goes (into (.receiving
          { q with char := some (n + 1, if level then v else v ||| ((1 : Byte) <<< n)) }))) ∧
        (8 ≤ n → ∀ t, exec (.characterReceived v (!level)) (into (.receiving q)) = .next t →
          ∀ x, (due t).trunk.state = .receiving x →
            (x.malformed = true → x.run ≤ x.gapLimit → goes (due t)) ∧
            (x.malformed = true → x.gapLimit < x.run → row .malformedRunEnd (due t)) ∧
            (x.malformed = false → x.complete = true → row .frameEnd (due t)) ∧
            (x.malformed = false → x.complete = false → goes (due t))))) ∧
    (∀ x n, u.trunk.state = .replying x (.window n) → (n = 0 → goes (into (.replying x (.window 1)))) ∧
      (1 ≤ n → row .replyWindow u)) ∧
    (∀ x p, u.trunk.state = .replying x (.sending p) → (drives ≠ level → row .replyCollision u) ∧
      (drives = level → p + 1 < 70 → goes (into (.replying x (.sending (p + 1))))) ∧
      (drives = level → 70 ≤ p + 1 → row .replySent u)) ∧
    (∀ n, u.trunk.state = .resetting n → (n < 63 → goes (into (.resetting (n + 1)))) ∧ (63 ≤ n → row .markEnd u)) ∧
    (u.trunk.state = .fault → (level = true → goes (quiet 0)) ∧
      (level = false → u.trunk.quiet < 11 → goes (quiet (u.trunk.quiet + 1))) ∧
      (level = false → 11 ≤ u.trunk.quiet → row .faultClear u)))

/-! ## Resets -/

/-- HARDWARE_RESET leaves every block at the values the spec gives for hardware reset, and nothing waiting is lost (what is kept
outside the part, and the two counts of the model, are log 7, log 10 and log 11; that no read has presented a byte yet is log 13). -/
def Obligations.HardwareResetTakesResetValues : Prop :=
  ∀ s : State, ∃ t, exec .hardwareReset s = .next t ∧
    t.nreset = true ∧ t.irq = false ∧ t.drives = false ∧ t.lineIn = s.lineIn ∧ t.pending = s.pending ∧
    t.config = ⟨32, false, .lead, 10, 4, 64, 16, 3, 16, 1, 0⟩ ∧
    t.port = ⟨0, 0, 0, false, .ok, 0, .none, 0x20, false⟩ ∧
    t.sel = ⟨0, 0, 0, 0, 0, 0, 0, 0, 0⟩ ∧ t.sel.stationSelect.address = 1 ∧
    (∀ k, t.slot k = ⟨0, 0, 0, 0, 0, 0, 0, 0, 0, 0, .openSlot, .ok, none, 0⟩) ∧
    t.launcher = ⟨.idle, false, false⟩ ∧ (∀ g, t.entry g = .free) ∧
    (∀ i, t.station i = ⟨.unknown, 1, 0, 0, false, 0, 0, false, 0, 0⟩) ∧
    (∀ b : BlockId, t.pool.owner[b] = .free ∧ t.pool.link[b] = none) ∧ t.pool.freeList = List.finRange 64 ∧
    t.trunk = ⟨.offline, 0, false, false, none, 0, 0⟩ ∧
    t.reports = ⟨[], [], none, false, ⟨false, false, false, false, false⟩, 0⟩ ∧
    (∀ c : Fin 12, t.counters.bank[c] = 0) ∧ t.counters.phaseHigh = false ∧ t.counters.latch = 0 ∧
    t = { State.reset with lineIn := s.lineIn, resets := s.resets + 1, choices := s.choices, pending := s.pending }

/-- NRESET_ASSERTED: the interrupt line released, nothing driven, a command in progress ended with no RESULT and no COMMAND DONE, and from
then on writes dropped and reads 0x00 (R151, R168; what else stands while nRESET is low is log 9). -/
def Obligations.NresetLowClosesThePart : Prop :=
  (∀ s : State, exec .nresetAsserted s = .next { s with
    nreset := false
    trunk := ⟨.offline, 0, false, false, none, 0, 0⟩
    port := { s.port with busy := false, completionDue := false } }) ∧
  (∀ s : State, s.nreset = false → s.irq = false ∧ s.drives = false ∧
    (∀ c, isBusWrite c = true → exec c s = .next s) ∧
    exec .slotFieldDataRead s = .next { s with bus := 0 } ∧
    exec .counterDataRead s = .next { s with bus := 0 } ∧
    exec (.blockDataAccess .read) s = .next { s with bus := 0 })

/-- SOFT_RESET: every block at its reset values but the eleven configuration items and EVENT MASK, COMMAND 0x0C and the port busy
(R43, R166; that RESULT keeps its value until the completion is log 12, the skip flag clear in Offline log 18, the model's two counts
log 7 and log 11); every write dropped meanwhile (R167); SOFT_RESET_COMPLETE clears the latches set meanwhile and completes the
command (R150). -/
def Obligations.SoftResetAndItsCompletion : Prop :=
  (∀ s : State, s.portFree → exec .softReset s = .next { State.reset with
    bus := s.bus
    lineIn := s.lineIn
    config := s.config
    port := { State.reset.port with
      command := 0x0C, busy := true, result := s.port.result, staging := s.config.trunkDivider.low }
    trunk := { State.reset.trunk with
      state := if s.config.trunkEnable then .settling else .offline, skip := s.config.trunkEnable }
    reports := { State.reset.reports with mask := s.reports.mask }
    resets := s.resets + 1
    choices := s.choices
    pending := s.pending }) ∧
  (∀ s : State, s.nreset = true → s.softResetting = true →
    (∀ c, isBusWrite c = true → exec c s = .next s) ∧
    exec .softResetComplete s = .next (State.commandDone
      { s with reports := { s.reports with latches := ⟨false, false, false, false, false⟩ } } 0x0C .ok 0))

/-! ## The command port -/

/-- A COMMAND write while the port is busy latches COMMAND OVERRUN and changes nothing else (R162); a code outside Table 8.4 completes at
once with UNKNOWN (R161); and a COMMAND write is its code's command, whichever row carries it (log 19). -/
def Obligations.CommandWrites : Prop :=
  (∀ (c : Instr) (code : Byte) (s : State), commandCode c = some code → s.windowOpen → s.port.busy = true →
    exec c s = .next { s with reports :=
      { s.reports with latches := { s.reports.latches with commandOverrun := true } } }) ∧
  (∀ (s : State) (code : Byte), s.portFree → commandCodeKnown code = false →
    exec (.unknown code) s = .next (s.commandDone code .unknown 0) ∧
    exec (.commandOverrun code) s = .next (s.commandDone code .unknown 0)) ∧
  (∀ (c : Instr) (code : Byte) (s : State), commandCode c = some code →
    exec (.unknown code) s = exec c s ∧ exec (.commandOverrun code) s = exec c s ∧
    exec (.windowWrite 0x04 code) s = exec c s)

/-! ## The Launcher -/

/-- START outside Idle and Held, or with no slot, changes nothing (R95); from Idle and Held it takes the slot. CONTINUE takes the
held position from Held, is ignored in Idle, and else sets pending-continue and clears halt-pending (R96). -/
def Obligations.StartAndContinue : Prop :=
  (∀ s : State, s.portFree → 32 ≤ s.port.arg0.toNat → exec .start s = .next (s.commandDone 0x01 .range 0)) ∧
  (∀ s : State, s.portFree → s.port.arg0.toNat < 32 → ¬ s.launcher.phase.stopped →
    exec .start s = .next (s.commandDone 0x01 .busy 0)) ∧
  (∀ (s : State) (k : SlotId), s.portFree → s.port.arg0.toNat = k.val → s.launcher.phase.stopped →
    exec .start s = .next ((State.take k s).commandDone 0x01 .ok 0)) ∧
  (∀ (s : State) (p : SlotId), s.portFree → s.launcher.phase = .held p →
    exec .continueChain s = .next ((State.take p s).commandDone 0x02 .ok 0)) ∧
  (∀ s : State, s.portFree → s.launcher.phase = .idle → exec .continueChain s = .next (s.commandDone 0x02 .ignored 0)) ∧
  (∀ s : State, s.portFree → ¬ s.launcher.phase.stopped →
    exec .continueChain s = .next (State.commandDone
      { s with launcher := { s.launcher with pendingContinue := true, haltPending := false } } 0x02 .ok 0))

/-- The validity check is R80's: the six conditions, the last of them the walk of the outbound chain; and a sound chain is the one the
Launcher moves. -/
def Obligations.ValidityCheck : Prop :=
  ∀ (s : State) (k : SlotId),
    (s.slotValid k = true ↔ s.slotSound k) ∧
    (s.slotValid k = true → 0 < (s.slot k).outLength.toNat →
      (s.outChain k).length = blocksFor (s.slot k).outLength.toNat ∧ (s.outChain k).head? = some (s.slot k).outFirst ∧
      s.pool.chained (s.outChain k) ∧ s.pool.processorHolds (s.outChain k) ∧ (s.outChain k).Nodup) ∧
    ((s.slot k).outLength = 0 → s.outChain k = [])

/-- A slot taken waits when it is Active (R78), or when the station is at its Depth, no tag is Free, or too few blocks are free (R79,
R82). -/
def Obligations.TakenSlotWaits : Prop :=
  (∀ (s : State) (k : SlotId), (s.slot k).state = .active →
    State.take k s = { s with launcher := { s.launcher with phase := .waiting k .slotBusy } }) ∧
  (∀ (s : State) (k : SlotId) (op : SlotOp) (st : StationId) (w : Wait),
    (s.slot k).state ≠ .active → s.slotSound k → (s.slot k).op.toNat = op.code → (s.slot k).station.toNat = st.address →
    (s.station st).presence ≠ .fenced →
    ((w = .depth ∧ (s.station st).depth ≤ (s.station st).outstanding) ∨
      (w = .tag ∧ (s.station st).outstanding < (s.station st).depth ∧ ∀ g, s.entry g ≠ .free) ∨
      (w = .blocks ∧ (s.station st).outstanding < (s.station st).depth ∧ (∃ g, s.entry g = .free) ∧
        s.pool.freeList.length < blocksFor (s.slot k).limit)) →
    State.take k s = { s with
      slots := s.slots.set k (s.slot k).taken
      launcher := { s.launcher with phase := .waiting k w } })

/-- A slot taken that is not sound ends BAD SLOT, and one for a Fenced station FENCED (R79, R81): its SLOT record is posted and the
slot closed, and the flags decide (R91), a set pending-continue consumed at a Hold; with the queue full the Launcher keeps the record and
waits (R136). -/
def Obligations.SlotOnlyOutcome : Prop :=
  ∀ (s : State) (k : SlotId) (o : OutcomeCode) (st : Option StationId),
    (s.slot k).state ≠ .active → s.launcher.haltPending = false →
    ((o = .badSlot ∧ st = none ∧ ¬ s.slotSound k) ∨
      (o = .fenced ∧ s.slotSound k ∧ (s.slot k).op.toNat ≤ 4 ∧
        ∃ i : StationId, st = some i ∧ (s.slot k).station.toNat = i.address ∧ (s.station i).presence = .fenced)) →
    let r : Report := ⟨.slot, (s.slot k).notify, some k, none, st, some (s.slot k).op, some o, some 0, none, none, none, none,
      none, none⟩
    let closed : State := { s with
      slots := s.slots.set k { (s.slot k).taken with state := .closed, lastOutcome := o }
      reports := s.reports.posted s.config.coalesceTime r }
    (32 ≤ s.reports.queue.length → State.take k s = { s with
      slots := s.slots.set k (s.slot k).taken
      launcher := { s.launcher with phase := .waiting k (.reportSpace r) } }) ∧
    (s.reports.queue.length < 32 → State.take k s =
      (if (s.slot k).isEnd then
        { closed with
          launcher := ⟨.idle, false, false⟩
          reports := { closed.reports with latches := { s.reports.latches with launcherStopped := true } } }
      else if (s.slot k).hold then
        (if s.launcher.pendingContinue then
          State.take (s.slot k).link { closed with launcher := { s.launcher with pendingContinue := false } }
        else { closed with
          launcher := ⟨.held (s.slot k).link, false, false⟩
          reports := { closed.reports with latches := { s.reports.latches with launcherStopped := true } } })
      else State.take (s.slot k).link closed))

/-- START of a slot that passes every check launches it in one step. An exchange is reserved (R45, R84): the tag, the inbound blocks,
Outstanding, the outbound chain, LastTag and the pending send. A NOTICE takes no tag and no inbound block (R85). -/
def Obligations.StartLaunches : Prop :=
  ∀ (s : State) (k : SlotId),
    s.portFree → s.port.arg0.toNat = k.val → s.launcher.phase.stopped → (s.slot k).state ≠ .active → s.slotSound k →
    (∀ (op : SlotOp) (st : StationId) (g : Tag),
      (s.slot k).op.toNat = op.code → (s.slot k).station.toNat = st.address → (s.station st).presence ≠ .fenced →
      (s.station st).outstanding < (s.station st).depth → s.firstFree g →
      blocksFor (s.slot k).limit ≤ s.pool.freeList.length →
      exec .start s = .next (State.commandDone { s with
        slots := s.slots.set k { (s.slot k).taken with lastTag := some g }
        launcher := { s.launcher with phase := .contending k none }
        entries := s.entries.set g (.reserved false
          ⟨st, k, op, (s.slot k).limit, (s.slot k).keep, s.pool.freeList.take (blocksFor (s.slot k).limit), 1, 0⟩)
        stations := s.stations.set st { s.station st with outstanding := (s.station st).outstanding + 1 }
        pool := (s.pool.take (blocksFor (s.slot k).limit) (.reserved g)).setOwners (s.outChain k) (.outbound k)
        trunk := { s.trunk with pendingSend := some (.request k g st) } } 0x01 .ok 0)) ∧
    ((s.slot k).op = 5 → exec .start s = .next (State.commandDone { s with
      slots := s.slots.set k (s.slot k).taken
      launcher := { s.launcher with phase := .contending k (some 1) }
      pool := s.pool.setOwners (s.outChain k) (.outbound k)
      trunk := { s.trunk with pendingSend := some (.notice k) } } 0x01 .ok 0))

/-- HALT is ignored in Idle and Held, and in Launching or with a NOTICE's report owed it sets halt-pending (R98); in Waiting it
reopens the slot, or leaves a busy one, and the Launcher is Held at it (R97). -/
def Obligations.HaltOutsideContending : Prop :=
  ∀ s : State, s.portFree →
    (s.launcher.phase.stopped → exec .halt s = .next (s.commandDone 0x03 .ignored 0)) ∧
    (∀ k n, s.launcher.phase = .launching k n → exec .halt s = .next (State.commandDone
      { s with launcher := { s.launcher with pendingContinue := false, haltPending := true } } 0x03 .ok 0)) ∧
    (∀ k r, s.launcher.phase = .waiting k (.reportSpace r) → r.kind = .notice → exec .halt s = .next (State.commandDone
      { s with launcher := { s.launcher with pendingContinue := false, haltPending := true } } 0x03 .ok 0)) ∧
    (∀ k, s.launcher.phase = .waiting k .slotBusy → exec .halt s = .next (State.commandDone { s with
      launcher := ⟨.held k, false, false⟩
      reports := { s.reports with latches := { s.reports.latches with launcherStopped := true } } } 0x03 .ok 0)) ∧
    (∀ k w, s.launcher.phase = .waiting k w →
      (w = .depth ∨ w = .tag ∨ w = .blocks ∨ ∃ r, w = .reportSpace r ∧ r.kind ≠ .notice) →
      exec .halt s = .next (State.commandDone { s with
        slots := s.slots.set k (s.slot k).undone
        launcher := ⟨.held k, false, false⟩
        reports := { s.reports with latches := { s.reports.latches with launcherStopped := true } } } 0x03 .ok 0))

/-- HALT in Contending undoes the launch (R70, R97): the send withdrawn, so that in Arbitrating the controller follows as a receiver
(R27; the bit times still to follow are read from the model's bit count, log 16); the entry Free and its blocks freed; the outbound
chain to the processor; the slot Open; Held at it. -/
def Obligations.HaltUndoesALaunch : Prop :=
  ∀ (s : State) (k : SlotId), s.portFree →
    let line : TrunkState → TrunkState := fun c => match c with
      | .arbitrating c => .receiving (newReception .arbitration s.config.gapTime (6 - c.bit) none)
      | other => other
    (∀ (n : Nat), s.launcher.phase = .contending k (some n) → s.trunk.pendingSend = some (.notice k) →
      exec .halt s = .next (State.commandDone { s with
        slots := s.slots.set k (s.slot k).undone
        launcher := ⟨.held k, false, false⟩
        pool := s.pool.setOwners (s.outChain k) .processor
        trunk := { s.trunk with state := line s.trunk.state, pendingSend := none }
        reports := { s.reports with latches := { s.reports.latches with launcherStopped := true } } } 0x03 .ok 0)) ∧
    (∀ (g : Tag) (x : Exchange), s.launcher.phase = .contending k none →
      s.trunk.pendingSend = some (.request k g x.station) → s.entry g = .reserved false x →
      exec .halt s = .next (State.commandDone { s with
        slots := s.slots.set k (s.slot k).undone
        launcher := ⟨.held k, false, false⟩
        entries := s.entries.set g .free
        stations := s.stations.set x.station
          { s.station x.station with outstanding := (s.station x.station).outstanding - 1 }
        pool := (s.pool.appendAll x.reservedChain).setOwners
          (State.outChain { s with pool := s.pool.appendAll x.reservedChain } k) .processor
        trunk := { s.trunk with state := line s.trunk.state, pendingSend := none }
        reports := { s.reports with latches := { s.reports.latches with launcherStopped := true } } } 0x03 .ok 0))

/-- The flags and the next slot (R91, R92). -/
def Obligations.FlagsDecideTheNextSlot : Prop :=
  ∀ (s : State) (k : SlotId),
    let stopped := fun (p : Phase) => { s with
      launcher := ⟨p, false, false⟩
      reports := { s.reports with latches := { s.reports.latches with launcherStopped := true } } }
    State.moveOn k s =
      (if (s.slot k).isEnd then stopped .idle
      else if s.launcher.haltPending then stopped (.held (s.slot k).link)
      else if (s.slot k).hold ∧ s.launcher.pendingContinue = false then stopped (.held (s.slot k).link)
      else if (s.slot k).hold then
        State.take (s.slot k).link { s with launcher := { s.launcher with pendingContinue := false } }
      else State.take (s.slot k).link s)

/-- What the Launcher's own work, taking a slot and re-evaluating, leaves alone: the pins, the configuration, the port, the
selectors, the counters, the mask, the controller but for its pending send, every entry that is not Free, every written byte. And what a
re-evaluation does (R83): nothing for a Launcher that does not wait; for SLOT BUSY the slot is taken (R78); for DEPTH, TAG and BLOCKS the
checks run again from check 1, as of the slot taken while Open, and a slot that passes is reserved (R84); for REPORT SPACE the owed record
is posted once the queue has room, the slot closed and the Launcher moved on (R81, R90, R136), or Held at the link for a NOTICE that a trunk
reset ended (R100). -/
def Obligations.LauncherWorkFrame : Prop :=
  (∀ (s t : State), (∃ k, t = State.take k s) ∨ t = s.reevaluate →
    t.nreset = s.nreset ∧ t.bus = s.bus ∧ t.lineIn = s.lineIn ∧ t.config = s.config ∧ t.port = s.port ∧ t.sel = s.sel ∧
    t.counters = s.counters ∧ t.pending = s.pending ∧ t.reports.mask = s.reports.mask ∧
    t.trunk = { s.trunk with pendingSend := t.trunk.pendingSend } ∧ t.pool.data = s.pool.data ∧
    (∀ g, s.entry g ≠ .free → t.entry g = s.entry g)) ∧
  (∀ s : State, (∀ k w, s.launcher.phase ≠ .waiting k w) → s.reevaluate = s) ∧
  (∀ (s : State) (k : SlotId), s.launcher.phase = .waiting k .slotBusy → s.reevaluate = State.take k s) ∧
  (∀ (s : State) (k : SlotId) (w : Wait), s.launcher.phase = .waiting k w → w = .depth ∨ w = .tag ∨ w = .blocks →
    (s.slot k).state = .active → (s.slot k).lastTag = none → (s.slot k).attempts = 0 →
    s.reevaluate = State.take k { s with slots := s.slots.set k { s.slot k with state := .openSlot } } ∧
    (∀ (op : SlotOp) (st : StationId) (g : Tag), s.slotSound k → (s.slot k).op.toNat = op.code →
      (s.slot k).station.toNat = st.address → (s.station st).presence ≠ .fenced →
      (s.station st).outstanding < (s.station st).depth → s.firstFree g →
      blocksFor (s.slot k).limit ≤ s.pool.freeList.length →
      s.reevaluate = { s with
        slots := s.slots.set k { s.slot k with lastTag := some g }
        launcher := { s.launcher with phase := .contending k none }
        entries := s.entries.set g (.reserved false
          ⟨st, k, op, (s.slot k).limit, (s.slot k).keep, s.pool.freeList.take (blocksFor (s.slot k).limit), 1, 0⟩)
        stations := s.stations.set st { s.station st with outstanding := (s.station st).outstanding + 1 }
        pool := (s.pool.take (blocksFor (s.slot k).limit) (.reserved g)).setOwners (s.outChain k) (.outbound k)
        trunk := { s.trunk with pendingSend := some (.request k g st) } })) ∧
  (∀ (s : State) (k : SlotId) (r : Report) (o : OutcomeCode), s.launcher.phase = .waiting k (.reportSpace r) →
    r.outcome = some o →
    let posted : State := { s with
      slots := s.slots.set k { s.slot k with state := .closed, lastOutcome := o }
      reports := s.reports.posted s.config.coalesceTime r }
    (32 ≤ s.reports.queue.length → s.reevaluate = s) ∧
    (s.reports.queue.length < 32 → ¬ (r.kind = .notice ∧ o = .trunkReset) → s.reevaluate = State.moveOn k posted) ∧
    (s.reports.queue.length < 32 → r.kind = .notice → o = .trunkReset →
      s.reevaluate = posted.stoppedAt (s.slot k).link))

/-! ## The Exchange Table, the Report Queue, the Block Pool and the Station Table by command -/

/-- WITHDRAW (R66): RANGE above 15; LATER, NO EXCHANGE or, for a Deferred entry, Done WITHDRAWN with its blocks freed, its record
posted and its slot closed (R57), then a re-evaluation (R83; that it is one, after the slot is closed, is log 8). -/
def Obligations.WithdrawByState : Prop :=
  ∀ s : State, s.portFree →
    (16 ≤ s.port.arg0.toNat → exec .withdraw s = .next (s.commandDone 0x04 .range 0)) ∧
    (∀ g : Tag, s.port.arg0.toNat = g.val →
      (∀ x d, s.entry g = .deferred x d → exec .withdraw s = .next
        ((((s.ended g x .withdrawn none none none [] x.reservedChain).closed x.slot .withdrawn).reevaluate).commandDone
          0x04 .ok 0)) ∧
      ((∃ b x, s.entry g = .reserved b x) ∨ (∃ x d, s.entry g = .awaiting x d) ∨
        (∃ x d p c, s.entry g = .receiving x d p c) → exec .withdraw s = .next (s.commandDone 0x04 .later 0)) ∧
      (s.entry g = .free ∨ (∃ x d, s.entry g = .done x d) ∨ (∃ st n, s.entry g = .resting st n) →
        exec .withdraw s = .next (s.commandDone 0x04 .noExchange 0)))

/-- POP (R137, R138): EMPTY on an empty queue; else the head removed, its effects by kind (R68, R116, R130), the backlog's oldest item
moved up, an emptied queue's timer stopped, the count left as RESULT DATA, and one re-evaluation after it (R139). -/
def Obligations.PopByKind : Prop :=
  (∀ s : State, s.portFree → s.reports.queue = [] → exec .pop s = .next (s.commandDone 0x05 .empty 0)) ∧
  (∀ (s : State) (r : Report) (rest : List Report), s.portFree → s.reports.queue = r :: rest →
    let left : Byte := byteOf s.reports.popped.queue.length
    (r.kind = .notice ∨ r.kind = .slot → exec .pop s = .next
      (State.reevaluate (State.commandDone { s with reports := s.reports.popped } 0x05 .ok left))) ∧
    (∀ i, r.kind = .attention → r.station = some i → exec .pop s = .next
      (State.reevaluate (State.commandDone { s with
        reports := s.reports.popped
        stations := s.stations.set i { s.station i with attnPending := false, attnCount := 0 } } 0x05 .ok left))) ∧
    (∀ g x d, r.kind = .exchange → r.tag = some g → s.entry g = .done x d → exec .pop s = .next
      (State.reevaluate (State.commandDone { s with
        reports := s.reports.popped
        pool := s.pool.setOwners d.receivedChain .processor
        entries := s.entries.set g
          (if (d.outcome = .expired ∨ d.outcome = .withdrawn) ∧ d.lateRecallSeen = false ∧ 0 < s.config.restTime then
            .resting x.station s.config.restTime else .free) } 0x05 .ok left))))

/-- TAKE BLOCK: above FreeFloor the head of the free list passes to the processor with link END; at or below it EMPTY. -/
def Obligations.TakeBlockAboveFloor : Prop :=
  (∀ s : State, s.portFree → s.pool.freeList.length ≤ s.config.freeFloor →
    exec .takeBlock s = .next (s.commandDone 0x06 .empty 0xFF)) ∧
  (∀ (s : State) (b : BlockId) (rest : List BlockId), s.portFree → s.pool.freeList = b :: rest →
    s.config.freeFloor < s.pool.freeList.length →
    exec .takeBlock s = .next (State.commandDone { s with pool := { s.pool with
      owner := s.pool.owner.set b .processor, link := s.pool.link.set b none, freeList := rest } }
      0x06 .ok (BitVec.ofNat 8 b.val)))

/-- FREE CHAIN: the walk from ARG0 fails at a block that is not the processor's, or at the 16th, or frees the whole chain in walk
order, after which the Launcher re-evaluates. -/
def Obligations.FreeChainWalk : Prop :=
  ∀ s : State, s.portFree →
    (64 ≤ s.port.arg0.toNat → exec .freeChain s = .next (s.commandDone 0x07 .range 0xFF)) ∧
    (∀ (b last : BlockId) (bs : List BlockId), s.port.arg0.toNat = b.val → bs.head? = some b → bs.getLast? = some last →
      s.pool.chained bs → s.pool.processorHolds bs → bs.length ≤ 16 → s.pool.link[last] = none →
      exec .freeChain s = .next ((State.reevaluate { s with pool := s.pool.appendAll bs }).commandDone
        0x07 .ok (BitVec.ofNat 8 bs.length))) ∧
    (∀ (b last : BlockId) (bs : List BlockId), s.port.arg0.toNat = b.val → bs.head? = some b → bs.getLast? = some last →
      s.pool.chained bs → s.pool.processorHolds bs → bs.length = 16 → s.pool.link[last] ≠ none →
      exec .freeChain s = .next (s.commandDone 0x07 .chainTooLong (BitVec.ofNat 8 last.val))) ∧
    (∀ (b last : BlockId) (bs : List BlockId), s.port.arg0.toNat = b.val → (bs ++ [last]).head? = some b →
      s.pool.chained (bs ++ [last]) → s.pool.processorHolds bs → bs.length < 16 → s.pool.owner[last] ≠ .processor →
      exec .freeChain s = .next (s.commandDone 0x07 .notProcessor (BitVec.ofNat 8 last.val)))

/-- FENCE makes the station Fenced, whatever it was (R123); ADMIT makes a Fenced one Unknown with no misses and is ignored for any other
(R124); an address that is none is RANGE; a change of State re-evaluates (R83). -/
def Obligations.FenceAndAdmit : Prop :=
  (∀ s : State, s.portFree → s.port.arg0.toNat = 0 ∨ 14 < s.port.arg0.toNat →
    exec .fenceStation s = .next (s.commandDone 0x08 .range 0) ∧
    exec .admitStation s = .next (s.commandDone 0x09 .range 0)) ∧
  (∀ (s : State) (i : StationId), s.portFree → s.port.arg0.toNat = i.address →
    ((s.station i).presence = .fenced →
      exec .fenceStation s = .next (s.commandDone 0x08 .ok 0) ∧
      exec .admitStation s = .next ((State.reevaluate { s with
        stations := s.stations.set i { s.station i with presence := .unknown, misses := 0 } }).commandDone 0x09 .ok 0)) ∧
    ((s.station i).presence ≠ .fenced →
      exec .fenceStation s = .next ((State.reevaluate { s with
        stations := s.stations.set i { s.station i with presence := .fenced } }).commandDone 0x08 .ok 0) ∧
      exec .admitStation s = .next (s.commandDone 0x09 .ignored 0)))

/-- TRUNK RESET is REFUSED in Offline; else it begins the mark at once (R38), the port busy, and every block takes its own effect: the
entries by R71 in ascending order of tag, with their blocks, records, slots and Outstanding, which is 0 after it; the station records by
R131; the counters none (R169); the Launcher by R100 and R101: nothing in Idle, Held or with a NOTICE's report owed; a busy slot left and
any other waiting or contending slot undone, Held at it; an exchange in Launching closed with its entry, its chain returned beside that
entry's blocks (log 29), Held at the link; a NOTICE in Launching ended with its report, before or after the entries (log 7), its attempts as they
stand, also when it waits to be sent again (log 26). -/
def Obligations.TrunkResetTaken : Prop :=
  (∀ s : State, s.portFree → s.trunk.state = .offline → exec .trunkReset s = .next (s.commandDone 0x0A .refused 0)) ∧
  (∀ s : State, s.portFree → s.trunk.state ≠ .offline → ∃ t, exec .trunkReset s = .next t ∧
    t.port = { s.port with command := 0x0A, busy := true } ∧
    t.trunk = { s.trunk with
      state := .resetting 0, quiet := 0, skip := false, phase := false, pendingSend := none, stuck := 0 } ∧
    t.config = s.config ∧ t.sel = s.sel ∧ t.counters = s.counters ∧ t.reports.mask = s.reports.mask ∧
    (∀ g, (s.entry g = .free ∨ (∃ st n, s.entry g = .resting st n) ∨
        (∃ x, s.entry g = .reserved false x ∧ x.attempts ≤ 1) → t.entry g = .free) ∧
      (∀ x d, s.entry g = .done x d → t.entry g = .done x d) ∧
      (∀ b x, s.entry g = .reserved b x → b = true ∨ 2 ≤ x.attempts → ∃ y d, t.entry g = .done y d ∧
        d.outcome = .trunkReset ∧ y.attempts = if b then x.attempts else x.attempts - 1) ∧
      (∀ x, (∃ c, s.entry g = .awaiting x c) ∨ (∃ n, s.entry g = .deferred x n) ∨
        (∃ n p c, s.entry g = .receiving x n p c) → ∃ y d, t.entry g = .done y d ∧ d.outcome = .trunkReset)) ∧
    (∀ i, (t.station i).attnPending = (s.station i).attnPending ∧ (t.station i).identity = (s.station i).identity ∧
      ((s.station i).presence = .fenced →
        (t.station i).presence = .fenced ∧ (t.station i).depth = (s.station i).depth ∧
        (t.station i).misses = (s.station i).misses ∧ (t.station i).probed = (s.station i).probed) ∧
      ((s.station i).presence ≠ .fenced →
        (t.station i).presence = .unknown ∧ (t.station i).depth = 1 ∧ (t.station i).misses = 0 ∧
        (t.station i).probed = false)) ∧
    (s.outstandingAgrees → ∀ i, (t.station i).outstanding = 0)) ∧
  (∀ s : State, s.portFree → s.trunk.state ≠ .offline →
    let begun : State := { s with
      port := { s.port with command := 0x0A, busy := true }
      trunk := { s.trunk with
        state := .resetting 0, quiet := 0, skip := false, phase := false, pendingSend := none, stuck := 0 } }
    let records := fun (u : State) => { u with stations := Vector.ofFn fun i =>
      if (u.station i).presence = .fenced then u.station i
      else { u.station i with presence := .unknown, depth := 1, probed := false, misses := 0 } }
    let all : List Tag := List.finRange 16
    let ended := begun.entriesReset all
    (s.launcher.phase.stopped ∨ (∃ k r, s.launcher.phase = .waiting k (.reportSpace r) ∧ r.kind = .notice) →
      exec .trunkReset s = .next (records ended)) ∧
    (∀ k, s.launcher.phase = .waiting k .slotBusy → exec .trunkReset s = .next (records (ended.stoppedAt k))) ∧
    (∀ k w, s.launcher.phase = .waiting k w →
      (w = .depth ∨ w = .tag ∨ w = .blocks ∨ ∃ r, w = .reportSpace r ∧ r.kind ≠ .notice) →
      exec .trunkReset s = .next (records (State.stoppedAt
        { ended with slots := ended.slots.set k (ended.slot k).undone } k))) ∧
    (∀ k n, s.launcher.phase = .contending k n → exec .trunkReset s = .next (records (State.stoppedAt
        { ended with
          slots := ended.slots.set k (ended.slot k).undone
          pool := ended.pool.setOwners (ended.outChain k) .processor } k))) ∧
    (∀ (g : Tag) (x : Exchange), s.launcher.phase = .launching x.slot none → (s.entry g).resetAnswers = some x →
      (∀ u y, (s.entry u).resetAnswers = some y → y.slot = x.slot → u = g) →
      let first := begun.entriesReset (all.filter fun u => u ≤ g)
      let closed := first.launchEnded x.slot .trunkReset x.attempts
      exec .trunkReset s = .next (records
        ((closed.stoppedAt (s.slot x.slot).link).entriesReset (all.filter fun u => g < u)))) ∧
    (∀ k n, s.launcher.phase = .launching k (some n) → (∀ g x, (s.entry g).resetAnswers = some x → x.slot ≠ k) →
      ∃ noticeFirst : Bool, exec .trunkReset s = .next
      { records (if noticeFirst then (begun.noticeReset k n).entriesReset all else ended.noticeReset k n) with
        choices := s.choices + 1 }))

/-- CLEAR COUNTERS: RANGE with a bit of ARG1 above bit 3 set; else each counter of the mask 0 and each other kept. -/
def Obligations.ClearCountersByMask : Prop :=
  ∀ s : State, s.portFree →
    (16 ≤ s.port.arg1.toNat → exec .clearCounters s = .next (s.commandDone 0x0B .range 0)) ∧
    (s.port.arg1.toNat < 16 → exec .clearCounters s = .next (State.commandDone { s with counters := { s.counters with
      bank := Vector.ofFn fun i : Fin 12 =>
        if (if i.val < 8 then s.port.arg0.getLsbD i.val else s.port.arg1.getLsbD (i.val - 8)) then 0
        else s.counters.bank[i] } } 0x0B .ok 0))

/-! ## The window -/

/-- Writes of ARG0 and ARG1, which are stored; of the read-only locations, which are refused (R152); of the unassigned ones, which change nothing
(R151); and of the slot, station and report selectors, each of which takes a value in its range and refuses any other (R133, R156, R157). -/
def Obligations.ArgumentAndSelectorWrites : Prop :=
  ∀ (s : State) (v : Byte), s.windowOpen →
    exec (.windowWrite 0x05 v) s = .next { s with port := { s.port with arg0 := v } } ∧
    exec (.windowWrite 0x06 v) s = .next { s with port := { s.port with arg1 := v } } ∧
    (∀ a : BitVec 5, a.toNat ∈ [0x00, 0x01, 0x07, 0x08, 0x0C, 0x0E, 0x11, 0x16, 0x1A, 0x1B, 0x1C] →
      exec (.windowWrite a v) s = .next (s.faulted .readOnly)) ∧
    (∀ a : BitVec 5, 0x1D ≤ a.toNat → exec (.windowWrite a v) s = .next s) ∧
    (∀ k : SlotId, v.toNat = k.val →
      exec (.slotSelectWrite v) s = .next { s with sel := { s.sel with slotSelect := k, slotIndex := 0 } }) ∧
    (32 ≤ v.toNat → exec (.slotSelectWrite v) s = .next (s.faulted .range)) ∧
    (∀ i : Fin 16, v.toNat = i.val →
      exec (.slotFieldIndexWrite v) s = .next { s with sel := { s.sel with slotIndex := i } }) ∧
    (16 ≤ v.toNat → exec (.slotFieldIndexWrite v) s = .next (s.faulted .index)) ∧
    (∀ i : StationId, v.toNat = i.address →
      exec (.stationSelectWrite v) s = .next { s with sel := { s.sel with stationSelect := i } }) ∧
    (v.toNat = 0 ∨ 14 < v.toNat → exec (.stationSelectWrite v) s = .next (s.faulted .range)) ∧
    (∀ i : Fin 11, v.toNat = i.val →
      exec (.stationFieldIndexWrite v) s = .next { s with sel := { s.sel with stationIndex := i } }) ∧
    (11 ≤ v.toNat → exec (.stationFieldIndexWrite v) s = .next (s.faulted .index)) ∧
    (∀ i : Fin 17, v.toNat = i.val →
      exec (.reportFieldIndexWrite v) s = .next { s with sel := { s.sel with reportIndex := i } }) ∧
    (17 ≤ v.toNat → exec (.reportFieldIndexWrite v) s = .next (s.faulted .index))

/-- A write of SLOT FIELD DATA (R74, R156): SLOT ACTIVE, READ ONLY, RANGE, or the one field written and the slot Open; the index rises
by 1 in every case, from 15 to 0. -/
def Obligations.SlotFieldWrite : Prop :=
  ∀ (s : State) (v : Byte), s.windowOpen →
    let k := s.sel.slotSelect
    let i := s.sel.slotIndex
    let advanced : Selectors := { s.sel with slotIndex := i + 1 }
    let refused := fun (c : WindowFault) => { s.faulted c with sel := advanced }
    let written := fun (sl : Slot) => { s with slots := s.slots.set k { sl with state := .openSlot }, sel := advanced }
    ((s.slot k).state = .active → exec (.slotFieldDataWrite v) s = .next (refused .slotActive)) ∧
    ((s.slot k).state ≠ .active →
      (12 ≤ i.val → exec (.slotFieldDataWrite v) s = .next (refused .readOnly)) ∧
      ((i = 2 ∧ 32 ≤ v.toNat) ∨ (i = 3 ∧ 32 ≤ v.toNat) ∨ (i = 4 ∧ 64 ≤ v.toNat) ∨ (i = 9 ∧ 8 ≤ v.toNat) ∨
        (i = 11 ∧ 16 ≤ v.toNat) → exec (.slotFieldDataWrite v) s = .next (refused .range)) ∧
      (i = 0 → exec (.slotFieldDataWrite v) s = .next (written { s.slot k with op := v })) ∧
      (i = 1 → exec (.slotFieldDataWrite v) s = .next (written { s.slot k with station := v })) ∧
      (i = 2 → v.toNat < 32 →
        exec (.slotFieldDataWrite v) s = .next (written { s.slot k with flags := v.setWidth 5 })) ∧
      (∀ l : SlotId, i = 3 → v.toNat = l.val →
        exec (.slotFieldDataWrite v) s = .next (written { s.slot k with link := l })) ∧
      (∀ b : BlockId, i = 4 → v.toNat = b.val →
        exec (.slotFieldDataWrite v) s = .next (written { s.slot k with outFirst := b })) ∧
      (i = 5 → exec (.slotFieldDataWrite v) s =
        .next (written { s.slot k with outLength := Half.ofBytes (s.slot k).outLength.high v })) ∧
      (i = 6 → exec (.slotFieldDataWrite v) s =
        .next (written { s.slot k with outLength := Half.ofBytes v (s.slot k).outLength.low })) ∧
      (i = 7 → exec (.slotFieldDataWrite v) s =
        .next (written { s.slot k with inLimit := Half.ofBytes (s.slot k).inLimit.high v })) ∧
      (i = 8 → exec (.slotFieldDataWrite v) s =
        .next (written { s.slot k with inLimit := Half.ofBytes v (s.slot k).inLimit.low })) ∧
      (∀ n : Fin 8, i = 9 → v.toNat = n.val →
        exec (.slotFieldDataWrite v) s = .next (written { s.slot k with retryLimit := n })) ∧
      (i = 10 → exec (.slotFieldDataWrite v) s = .next (written { s.slot k with patience := v })) ∧
      (i = 11 → v.toNat < 16 →
        exec (.slotFieldDataWrite v) s = .next (written { s.slot k with noticeCode := v.setWidth 4 })))

/-- A read of SLOT FIELD DATA presents the selected field in the layout of Table 4.1 and moves the index on (R156); during a soft
reset it moves nothing (log 12). And with nRESET high what a read of each other location presents (Table 8.1): STATUS (R154), EVENTS (R146),
RESULT (R161), the selectors, REPORT FIELD DATA (R133), STATION FIELD DATA (R120), BLOCK DATA (R109), BLOCK LINK (R110), CONFIG DATA (R158),
COUNTER DATA (R175), LAUNCHER SLOT / WAIT REASON (R155), FAULT CAUSE (R153); 0x00 where none is assigned (R151). -/
def Obligations.SlotFieldRead : Prop :=
  ([OutcomeCode.ok, .refused, .expired, .withdrawn, .noAnswer, .damaged, .line, .overrun, .protocol, .fenced, .badSlot,
      .trunkReset].map OutcomeCode.code = List.range 12 ∧
    [CmdResult.ok, .ignored, .busy, .range, .empty, .later, .noExchange, .notProcessor, .chainTooLong, .unknown,
      .refused].map CmdResult.code = List.range 11 ∧
    [WindowFault.none, .slotActive, .readOnly, .notProcessor, .range, .locked, .busy, .index].map WindowFault.code =
      List.range 8) ∧
  (∀ s : State, s.nreset = true →
    let shows := s.windowValue
    let num := BitVec.ofNat 8
    let bit : Bool → Byte := fun b => if b then 1 else 0
    let absent : Byte := 0xFF
    shows 0x00 = 0x26 ∧
    (shows 0x01).toNat = (match s.trunk.state with
      | .offline => 0
      | .settling => 1
      | .idle => 2
      | .arbitrating _ => 3
      | .transmitting _ _ => 4
      | .answerWait _ _ _ _ => 5
      | .receiving _ => 6
      | .replying _ _ => 7
      | .resetting _ => 8
      | .fault => 9) + 16 * (match s.launcher.phase with
      | .idle => 0
      | .waiting _ _ => 1
      | .contending _ _ => 2
      | .launching _ _ => 3
      | .held _ => 4) + (if s.port.busy then 128 else 0) ∧
    ((shows 0x02).getLsbD 0 = s.reports.latches.launcherStopped ∧ (shows 0x02).getLsbD 1 = s.reports.latches.trunkFault ∧
      (shows 0x02).getLsbD 2 = s.reports.latches.windowFault ∧ (shows 0x02).getLsbD 3 = s.reports.latches.commandDone ∧
      (shows 0x02).getLsbD 4 = s.reports.latches.commandOverrun ∧ (shows 0x02).getLsbD 5 = false ∧
      (shows 0x02).getLsbD 6 = false ∧ (shows 0x02).getLsbD 7 = s.reportsReady) ∧
    shows 0x03 = s.reports.mask ∧ shows 0x04 = s.port.command ∧ shows 0x05 = s.port.arg0 ∧ shows 0x06 = s.port.arg1 ∧
    shows 0x07 = num s.port.result.code ∧ shows 0x08 = s.port.resultData ∧ shows 0x09 = num s.sel.slotSelect.val ∧
    shows 0x0A = num s.sel.slotIndex.val ∧ shows 0x0C = num s.reports.queue.length ∧ shows 0x0D = num s.sel.reportIndex.val ∧
    (s.sel.reportIndex = 16 → shows 0x0E = num s.reports.backlog.length) ∧
    (s.sel.reportIndex ≠ 16 → s.reports.queue = [] → shows 0x0E = absent) ∧
    (∀ r rest, s.sel.reportIndex ≠ 16 → s.reports.queue = r :: rest → shows 0x0E = match s.sel.reportIndex.val with
      | 0 => match r.kind with
        | .exchange => 0
        | .notice => 1
        | .slot => 2
        | .attention => 3
      | 1 => (if r.station.isSome then 1 else 0) ||| (if r.stationStatus.isSome then 2 else 0) |||
          (if r.refuseReason.isSome then 4 else 0) ||| (if r.length.isSome then 8 else 0) |||
          (if r.firstBlock.isSome then 16 else 0)
      | 2 => bit r.urgent
      | 3 => r.slot.elim absent fun k => num k.val
      | 4 => r.tag.elim absent fun g => num g.val
      | 5 => r.station.elim absent fun i => num i.address
      | 6 => r.op.elim absent id
      | 7 => r.outcome.elim absent fun o => num o.code
      | 8 => r.attempts.elim absent num
      | 9 => r.busybacks.elim absent num
      | 10 => r.stationStatus.elim absent fun n => n.setWidth 8
      | 11 => r.refuseReason.elim absent fun n => n.setWidth 8
      | 12 => r.length.elim absent fun n => num (n % 256)
      | 13 => r.length.elim absent fun n => num (n / 256)
      | 14 => r.firstBlock.elim absent fun b => num b.val
      | _ => r.cause.elim absent fun n => n.setWidth 8) ∧
    shows 0x0F = num s.sel.stationSelect.address ∧ shows 0x10 = num s.sel.stationIndex.val ∧
    (let i := s.station s.sel.stationSelect
     shows 0x11 = match s.sel.stationIndex.val with
      | 0 => match i.presence with
        | .unknown => 0
        | .online => 1
        | .silent => 2
        | .fenced => 3
      | 1 => num i.depth
      | 2 => num i.outstanding
      | 3 => num i.misses
      | 4 => bit i.attnPending
      | 5 => num i.attnCount
      | 6 => i.lastCause.setWidth 8
      | 7 => bit i.probed
      | 8 => i.identity
      | 9 => i.revision.extractLsb' 0 8
      | _ => i.revision.extractLsb' 8 8) ∧
    shows 0x12 = num s.sel.blockSelect.val ∧ shows 0x13 = num s.sel.blockOffset.val ∧
    shows 0x14 = (if s.pool.owner[s.sel.blockSelect] = .processor then s.blockByte s.sel.blockSelect s.sel.blockOffset.val
      else 0) ∧
    (s.pool.link[s.sel.blockSelect] = none → shows 0x15 = 0x7F) ∧
    (∀ b, s.pool.link[s.sel.blockSelect] = some b → shows 0x15 = num b.val) ∧
    shows 0x16 = num s.pool.freeList.length ∧ shows 0x17 = num s.sel.configIndex.val ∧
    shows 0x18 = (match s.sel.configIndex.val with
      | 0 => s.config.trunkDivider.extractLsb' 0 8
      | 1 => s.config.trunkDivider.extractLsb' 8 8
      | 2 => bit s.config.trunkEnable
      | 3 => match s.config.claimPolicy with
        | .lead => 0
        | .yield => 1
        | .alternate => 2
      | 4 => num s.config.answerTime
      | 5 => num s.config.gapTime
      | 6 => num s.config.defaultPatience
      | 7 => num s.config.restTime
      | 8 => num s.config.fenceLimit
      | 9 => num s.config.freeFloor
      | 10 => num s.config.reportThreshold
      | _ => num s.config.coalesceTime) ∧
    shows 0x19 = num s.sel.counterIndex.val ∧
    shows 0x1A = (if s.counters.phaseHigh then s.counters.latch
      else s.counters.bank[s.sel.counterIndex].extractLsb' 0 8) ∧
    shows 0x1B = (match s.launcher.phase with
      | .idle => 0xFF
      | .waiting k w => num (k.val + 32 * match w with
        | .slotBusy => 1
        | .depth => 2
        | .tag => 3
        | .blocks => 4
        | .reportSpace _ => 5)
      | .contending k _ => num k.val
      | .launching k _ => num k.val
      | .held k => num (k.val + 32 * 6)) ∧
    shows 0x1C = num s.port.faultCause.code ∧ (∀ a : BitVec 5, 0x1D ≤ a.toNat → shows a = 0)) ∧
  (∀ s : State, s.nreset = true →
    let sl := s.slot s.sel.slotSelect
    let shown : Byte := match s.sel.slotIndex.val with
      | 0 => sl.op
      | 1 => sl.station
      | 2 => sl.flags.setWidth 8
      | 3 => BitVec.ofNat 8 sl.link.val
      | 4 => BitVec.ofNat 8 sl.outFirst.val
      | 5 => sl.outLength.extractLsb' 0 8
      | 6 => sl.outLength.extractLsb' 8 8
      | 7 => sl.inLimit.extractLsb' 0 8
      | 8 => sl.inLimit.extractLsb' 8 8
      | 9 => BitVec.ofNat 8 sl.retryLimit.val
      | 10 => sl.patience
      | 11 => sl.noticeCode.setWidth 8
      | 12 => match sl.state with
        | .openSlot => 0
        | .active => 1
        | .closed => 2
      | 13 => BitVec.ofNat 8 sl.lastOutcome.code
      | 14 => match sl.lastTag with
        | some g => BitVec.ofNat 8 g.val
        | none => 0xFF
      | _ => BitVec.ofNat 8 sl.attempts
    (s.softResetting = false → exec .slotFieldDataRead s = .next { s with
      bus := shown, sel := { s.sel with slotIndex := s.sel.slotIndex + 1 } }) ∧
    (s.softResetting = true → exec .slotFieldDataRead s = .next { s with bus := shown }))

/-- BLOCK SELECT, BLOCK OFFSET and BLOCK LINK written (R108, R110): a selected block starts at offset 0; a link is written for a
block of the processor's alone, and NOT PROCESSOR comes before RANGE. -/
def Obligations.BlockPointerAndLink : Prop :=
  ∀ (s : State) (v : Byte), s.windowOpen →
    (∀ b : BlockId, v.toNat = b.val →
      exec (.blockSelectWrite v) s = .next { s with sel := { s.sel with blockSelect := b, blockOffset := 0 } }) ∧
    (64 ≤ v.toNat → exec (.blockSelectWrite v) s = .next (s.faulted .range)) ∧
    (∀ o : Fin 64, v.toNat = o.val →
      exec (.blockOffsetWrite v) s = .next { s with sel := { s.sel with blockOffset := o } }) ∧
    (64 ≤ v.toNat → exec (.blockOffsetWrite v) s = .next (s.faulted .range)) ∧
    (s.pool.owner[s.sel.blockSelect] ≠ .processor → exec (.blockLinkWrite v) s = .next (s.faulted .notProcessor)) ∧
    (s.pool.owner[s.sel.blockSelect] = .processor →
      (∀ b : BlockId, v.toNat = b.val → exec (.blockLinkWrite v) s = .next
        { s with pool := { s.pool with link := s.pool.link.set s.sel.blockSelect (some b) } }) ∧
      (v = 0x7F → exec (.blockLinkWrite v) s = .next
        { s with pool := { s.pool with link := s.pool.link.set s.sel.blockSelect none } }) ∧
      ((64 ≤ v.toNat ∧ v.toNat ≤ 126) ∨ 127 < v.toNat → exec (.blockLinkWrite v) s = .next (s.faulted .range)))

/-- An access to BLOCK DATA (R109): the byte at the pointer read or written in a block of the processor's, else NOT PROCESSOR with 0x00
read; and the pointer moved on in every case, past offset 63 along the link. -/
def Obligations.BlockDataAtThePointer : Prop :=
  ∀ (s : State) (v : Byte), s.windowOpen →
    let b := s.sel.blockSelect
    let o := s.sel.blockOffset
    let moved : Selectors :=
      if o = 63 then
        match s.pool.link[b] with
        | some c => { s.sel with blockSelect := c, blockOffset := 0 }
        | none => { s.sel with blockOffset := 0 }
      else { s.sel with blockOffset := o + 1 }
    (s.pool.owner[b] = .processor →
      exec (.blockDataAccess .read) s = .next { s with bus := s.blockByte b o.val, sel := moved } ∧
      exec (.blockDataAccess (.write v)) s = .next { s with pool := s.pool.store b o.val v, sel := moved }) ∧
    (s.pool.owner[b] ≠ .processor →
      exec (.blockDataAccess .read) s = .next { s.faulted .notProcessor with bus := 0, sel := moved } ∧
      exec (.blockDataAccess (.write v)) s = .next { s.faulted .notProcessor with sel := moved })

/-- What the pool's operations do. A byte stored reads back and every other byte reads as before, whatever the free value of unwritten
bytes (log 11; R105, R109). Blocks moved change owner alone (R102); blocks freed join the tail in order, FREE with link END; a take
removes the head of the free list and links the blocks in the order taken, the last to END (R103, R113); no move touches the data. -/
def Obligations.PoolOperations : Prop :=
  (∀ (s : State) (b c : BlockId) (o q : Fin 64) (v : Byte),
    let t : State := { s with pool := s.pool.store b o.val v }
    t.blockByte c q.val = (if c = b ∧ q = o then v else s.blockByte c q.val) ∧
    t.pool.owner = s.pool.owner ∧ t.pool.link = s.pool.link ∧ t.pool.freeList = s.pool.freeList) ∧
  (∀ (p : Pool) (bs : List BlockId) (o : Owner) (b : BlockId),
    (p.setOwners bs o).owner[b] = (if b ∈ bs then o else p.owner[b]) ∧ (p.setOwners bs o).link = p.link ∧
    (p.setOwners bs o).data = p.data ∧ (p.setOwners bs o).freeList = p.freeList) ∧
  (∀ (p : Pool) (bs : List BlockId) (b : BlockId),
    (p.appendAll bs).owner[b] = (if b ∈ bs then .free else p.owner[b]) ∧
    (p.appendAll bs).link[b] = (if b ∈ bs then none else p.link[b]) ∧
    (p.appendAll bs).data = p.data ∧ (p.appendAll bs).freeList = p.freeList ++ bs) ∧
  (∀ (p : Pool) (n : Nat) (o : Owner) (b : BlockId), p.freeList.Nodup →
    (p.take n o).owner[b] = (if b ∈ p.freeList.take n then o else p.owner[b]) ∧
    (b ∉ p.freeList.take n → (p.take n o).link[b] = p.link[b]) ∧
    (p.take n o).chained (p.freeList.take n) ∧ ((p.freeList.take n).getLast? = some b → (p.take n o).link[b] = none) ∧
    (p.take n o).data = p.data ∧ (p.take n o).freeList = p.freeList.drop n)

/-- CONFIG INDEX takes 0 to 11; CONFIG DATA offers the byte to the selected item, which takes a value in its range (Table 8.3) and
refuses any other (R158); indices 0 to 2 have the rows of their own (log 15). -/
def Obligations.ConfigIndexAndData : Prop :=
  ∀ (s : State) (v : Byte), s.windowOpen →
    let i := s.sel.configIndex
    let n := v.toNat
    (∀ j : Fin 12, n = j.val → exec (.configIndexWrite v) s = .next { s with sel := { s.sel with configIndex := j } }) ∧
    (12 ≤ n → exec (.configIndexWrite v) s = .next (s.faulted .index)) ∧
    (i = 0 → exec (.configDataWrite v) s = exec (.trunkDividerLowWrite v) s) ∧
    (i = 1 → exec (.configDataWrite v) s = exec (.trunkDividerHighWrite v) s) ∧
    (i = 2 → exec (.configDataWrite v) s = exec (.trunkEnableWrite v) s) ∧
    (∀ p : ClaimPolicy, i = 3 → n = p.code → exec (.configDataWrite v) s = .next { s with config := { s.config with claimPolicy := p } }) ∧
    (i = 4 → 2 ≤ n → n ≤ 10 → exec (.configDataWrite v) s = .next { s with config := { s.config with answerTime := n } }) ∧
    (i = 5 → 1 ≤ n → n ≤ 10 → exec (.configDataWrite v) s = .next { s with config := { s.config with gapTime := n } }) ∧
    (i = 6 → 1 ≤ n → exec (.configDataWrite v) s = .next { s with config := { s.config with defaultPatience := n } }) ∧
    (i = 7 → exec (.configDataWrite v) s = .next { s with config := { s.config with restTime := n } }) ∧
    (i = 8 → n ≤ 7 → exec (.configDataWrite v) s = .next { s with config := { s.config with fenceLimit := n } }) ∧
    (i = 9 → n ≤ 63 → exec (.configDataWrite v) s = .next { s with config := { s.config with freeFloor := n } }) ∧
    (i = 10 → 1 ≤ n → n ≤ 32 → exec (.configDataWrite v) s = .next { s with config := { s.config with reportThreshold := n } }) ∧
    (i = 11 → exec (.configDataWrite v) s = .next { s with config := { s.config with coalesceTime := n } }) ∧
    ((i = 3 ∧ 2 < n) ∨ (i = 4 ∧ (n < 2 ∨ 10 < n)) ∨ (i = 5 ∧ (n < 1 ∨ 10 < n)) ∨ (i = 6 ∧ n < 1) ∨ (i = 8 ∧ 7 < n) ∨
      (i = 9 ∧ 63 < n) ∨ (i = 10 ∧ (n < 1 ∨ 32 < n)) → exec (.configDataWrite v) s = .next (s.faulted .range))

/-- TrunkDivider is written low byte first into the staging byte, then high byte, RANGE before LOCKED (R159); the rows address their byte
whatever CONFIG INDEX holds (log 15). -/
def Obligations.DividerByBytes : Prop :=
  ∀ (s : State) (v : Byte), s.windowOpen →
    let d := 256 * v.toNat + s.port.staging.toNat
    (s.config.trunkEnable = true → exec (.trunkDividerLowWrite v) s = .next (s.faulted .locked)) ∧
    (s.config.trunkEnable = false →
      exec (.trunkDividerLowWrite v) s = .next { s with port := { s.port with staging := v } }) ∧
    (d < 8 ∨ 4095 < d → exec (.trunkDividerHighWrite v) s = .next (s.faulted .range)) ∧
    (8 ≤ d → d ≤ 4095 → s.config.trunkEnable = true → exec (.trunkDividerHighWrite v) s = .next (s.faulted .locked)) ∧
    (8 ≤ d → d ≤ 4095 → s.config.trunkEnable = false → exec (.trunkDividerHighWrite v) s =
      .next { s with config := { s.config with trunkDivider := BitVec.ofNat 16 d } })

/-- TrunkEnable written (R22): BUSY in the five states that refuse it; 1 in Offline enters Settling with the skip flag set; 0 takes
Settling, Idle, Arbitrating and Fault to Offline, which completes a TRUNK RESET in progress (R165); no change else. A value above 1 is
RANGE whatever the state (log 14); the row addresses its item whatever CONFIG INDEX holds (log 15). -/
def Obligations.TrunkEnableByState : Prop :=
  ∀ (s : State) (v : Byte), s.windowOpen →
    (1 < v.toNat → exec (.trunkEnableWrite v) s = .next (s.faulted .range)) ∧
    (v.toNat ≤ 1 → s.trunk.state.code = 4 ∨ s.trunk.state.code = 5 ∨ s.trunk.state.code = 6 ∨ s.trunk.state.code = 7 ∨
      s.trunk.state.code = 8 → exec (.trunkEnableWrite v) s = .next (s.faulted .busy)) ∧
    (v = 1 → s.trunk.state = .offline → exec (.trunkEnableWrite v) s = .next { s with
      config := { s.config with trunkEnable := true }
      trunk := { s.trunk with state := .settling, quiet := 0, skip := true, stuck := 0 } }) ∧
    (v = 0 → s.trunk.state = .offline → exec (.trunkEnableWrite v) s = .next s) ∧
    (v = 1 → s.trunk.state.code = 1 ∨ s.trunk.state.code = 2 ∨ s.trunk.state.code = 3 ∨ s.trunk.state.code = 9 →
      exec (.trunkEnableWrite v) s = .next s) ∧
    (v = 0 → s.trunk.state.code = 1 ∨ s.trunk.state.code = 2 ∨ s.trunk.state.code = 3 ∨ s.trunk.state.code = 9 →
      let off : State := { s with
        config := { s.config with trunkEnable := false }
        trunk := { s.trunk with state := .offline, quiet := 0, stuck := 0 } }
      exec (.trunkEnableWrite v) s = .next (if s.trunkResetting then off.commandDone 0x0A .ok 0 else off))

/-- EVENTS written clears the latches written 1 (R146); EVENT MASK is replaced, or refused with bit 5 or 6 set (R147). -/
def Obligations.EventsAndMaskWrites : Prop :=
  ∀ (s : State) (v : Byte), s.windowOpen →
    exec (.eventsWrite v) s = .next { s with reports := { s.reports with latches :=
      ⟨s.reports.latches.launcherStopped && !v.getLsbD 0, s.reports.latches.trunkFault && !v.getLsbD 1,
        s.reports.latches.windowFault && !v.getLsbD 2, s.reports.latches.commandDone && !v.getLsbD 3,
        s.reports.latches.commandOverrun && !v.getLsbD 4⟩ } } ∧
    (v.getLsbD 5 = true ∨ v.getLsbD 6 = true → exec (.eventMaskWrite v) s = .next (s.faulted .range)) ∧
    (v.getLsbD 5 = false → v.getLsbD 6 = false →
      exec (.eventMaskWrite v) s = .next { s with reports := { s.reports with mask := v } })

/-- With nRESET high the interrupt line is asserted exactly while an enabled latch is set or reports-ready is enabled and true (R148); and
reports-ready is the threshold met, an urgent record in the queue, or overdue (R142). -/
def Obligations.InterruptLineFollowsEvents : Prop :=
  ∀ s : State, s.nreset = true →
    (s.irq = true ↔
      (s.reports.mask.getLsbD 0 = true ∧ s.reports.latches.launcherStopped = true) ∨
      (s.reports.mask.getLsbD 1 = true ∧ s.reports.latches.trunkFault = true) ∨
      (s.reports.mask.getLsbD 2 = true ∧ s.reports.latches.windowFault = true) ∨
      (s.reports.mask.getLsbD 3 = true ∧ s.reports.latches.commandDone = true) ∨
      (s.reports.mask.getLsbD 4 = true ∧ s.reports.latches.commandOverrun = true) ∨
      (s.reports.mask.getLsbD 7 = true ∧ s.reportsReady = true)) ∧
    (s.reportsReady = true ↔ s.config.reportThreshold ≤ s.reports.queue.length ∨
      (∃ r ∈ s.reports.queue, r.urgent = true) ∨ s.reports.overdue = true)

/-- COUNTER INDEX sets the phase low; a read of COUNTER DATA gives the low byte and latches the high one, then gives the latch
(R175); during a soft reset a read moves nothing (log 12). -/
def Obligations.CounterReadSequence : Prop :=
  (∀ (s : State) (v : Byte), s.windowOpen →
    (∀ i : Fin 12, v.toNat = i.val → exec (.counterIndexWrite v) s = .next { s with
      sel := { s.sel with counterIndex := i }, counters := { s.counters with phaseHigh := false } }) ∧
    (12 ≤ v.toNat → exec (.counterIndexWrite v) s = .next (s.faulted .index))) ∧
  (∀ s : State, s.windowOpen →
    let c := s.counters.bank[s.sel.counterIndex]
    (s.counters.phaseHigh = false → exec .counterDataRead s = .next { s with
      bus := c.extractLsb' 0 8
      counters := { s.counters with phaseHigh := true, latch := c.extractLsb' 8 8 } }) ∧
    (s.counters.phaseHigh = true → exec .counterDataRead s = .next { s with
      bus := s.counters.latch, counters := { s.counters with phaseHigh := false } })) ∧
  (∀ s : State, s.nreset = true → s.softResetting = true →
    ∃ b, exec .counterDataRead s = .next { s with bus := b })

/-! ## Time -/

/-- A tick, in either order of its deliveries (log 7), answers a next state with the heartbeat at 0 (R42); where nothing runs out at it, it lowers every
deadline (R59), every rest (R69) and the coalescing timer (R144) by 1 and changes nothing else. Every tick is the two deliveries, one after the
other: at the coalescing timer, lowered, or stopped with overdue set at its end (R144); and at the Exchange Table, where in ascending order of
tag each deadline is lowered, and one that ends makes a Deferred entry Done EXPIRED with its record posted and its slot closed, and sets expiry
pending in a Receiving one (R59), and each rest is lowered, and at its end the entry is Free (R69). Deadlines before rests or after them is
log 7; the re-evaluation after each entry that expires or ends its rest is log 8. The row looks at no heartbeat count, log 3. -/
def Obligations.TickLowersEveryTimer : Prop :=
  (∀ (s : State) (o : TickOrder), s.nreset = true → ∃ t, exec (.tick o) s = .next t ∧
    t.trunk = { s.trunk with heartbeat := 0, pendingSend := t.trunk.pendingSend } ∧
    (∀ n, s.reports.timer = some n → n ≤ 1 → o.reportsFirst = true → t.reports.overdue = true)) ∧
  (∀ (s : State) (o : TickOrder), s.nreset = true → (∀ g x d, s.entry g = .deferred x d → 2 ≤ d) →
    (∀ g st n, s.entry g = .resting st n → 2 ≤ n) → (∀ n, s.reports.timer = some n → 2 ≤ n) →
    exec (.tick o) s = .next { s with
      trunk := { s.trunk with heartbeat := 0 }
      entries := s.entries.map fun e => match e with
        | .deferred x d => .deferred x (d - 1)
        | .receiving x d p c => .receiving x (d - 1) (p || decide (d ≤ 1)) c
        | .resting st n => .resting st (n - 1)
        | other => other
      reports := { s.reports with timer := s.reports.timer.map (· - 1) } }) ∧
  (∀ (s : State) (o : TickOrder), s.nreset = true →
    let tags : List Tag := List.finRange 16
    let deadline := fun (u : State) (g : Tag) => match u.entry g with
      | .deferred x d =>
        if d ≤ 1 then ((u.ended g x .expired none none none [] x.reservedChain).closed x.slot .expired).reevaluate
        else { u with entries := u.entries.set g (.deferred x (d - 1)) }
      | .receiving x d p c => { u with entries := u.entries.set g (.receiving x (d - 1) (p || decide (d ≤ 1)) c) }
      | _ => u
    let rest := fun (u : State) (g : Tag) => match u.entry g with
      | .resting st n =>
        if n ≤ 1 then State.reevaluate { u with entries := u.entries.set g .free }
        else { u with entries := u.entries.set g (.resting st (n - 1)) }
      | _ => u
    let table := fun (u : State) =>
      if o.restsFirst then tags.foldl deadline (tags.foldl rest u) else tags.foldl rest (tags.foldl deadline u)
    let timer := fun (u : State) => { u with reports := match u.reports.timer with
      | none => u.reports
      | some n => if n ≤ 1 then { u.reports with timer := none, overdue := true }
        else { u.reports with timer := some (n - 1) } }
    let begun : State := { s with trunk := { s.trunk with heartbeat := 0 } }
    exec (.tick o) s = .next (if o.reportsFirst then table (timer begun) else timer (table begun)))

/-- At its last tick a Deferred entry is Done EXPIRED and its slot closed, and a Receiving one has expiry pending (R59); a rest ends Free
(R69); the coalescing timer stops with overdue set (R144). Where the Launcher re-evaluates is log 8; the rows are no tick of the heartbeat,
log 3. -/
def Obligations.TimersRunOut : Prop :=
  ∀ s : State, s.nreset = true →
    (∀ g x d, s.entry g = .deferred x d → d ≤ 1 → exec (.deadlineExpiry g) s = .next
      ((s.ended g x .expired none none none [] x.reservedChain).closed x.slot .expired).reevaluate) ∧
    (∀ g x d p c, s.entry g = .receiving x d p c → d ≤ 1 → exec (.deadlineExpiry g) s = .next
      { s with entries := s.entries.set g (.receiving x 0 true c) }) ∧
    (∀ g st n, s.entry g = .resting st n → n ≤ 1 → exec (.restEnd g) s = .next
      (State.reevaluate { s with entries := s.entries.set g .free })) ∧
    (∀ n, s.reports.timer = some n → n ≤ 1 → exec .coalescingTimerExpiry s = .next
      { s with reports := { s.reports with timer := none, overdue := true } })

/-! ## The line -/

/-- Idle is entered from Settling and from Fault with the quiet count 0 and the skip flag clear (R23, R41), and a TRUNK RESET in
progress is then due to complete, which TRUNK_RESET_COMPLETE does (R39; two events, log 6). The mark ends in Settling (R39). The rows look
at no count, log 3. -/
def Obligations.LineFallsIdle : Prop :=
  ∀ s : State, s.nreset = true →
    let due : Port := { s.port with completionDue := s.port.completionDue || s.trunkResetting }
    (s.trunk.state = .settling → exec .lineIdle s = .next { s with
      trunk := { s.trunk with state := .idle, quiet := 0, skip := false }, port := due }) ∧
    (s.trunk.state = .fault → exec .faultClear s = .next { s with
      trunk := { s.trunk with state := .idle, quiet := 0, skip := false, stuck := 0 }, port := due }) ∧
    (s.port.completionDue = true → exec .trunkResetComplete s = .next (s.commandDone s.port.command .ok 0)) ∧
    (∀ n, s.trunk.state = .resetting n → exec .markEnd s = .next { s with
      trunk := { s.trunk with state := .settling, quiet := 0, skip := false } })

/-- The stuck count at 2048 (R40): from Settling the controller enters Fault, latches TRUNK FAULT and counts it; a reception ends truncated
first, counted and routed as R36 gives: in the answer window a failed attempt (R53, R56), after the header of a recall the end of a recall
that is not good (R63), else nothing more; in Fault nothing more happens. In which states the count can get there is log 24; the row looks at
no count, log 3; where the Launcher re-evaluates is log 8. -/
def Obligations.StuckLineFaults : Prop :=
  ∀ s : State, s.nreset = true →
    let faults := fun (u : State) => { u with
      trunk := { u.trunk with state := .fault, quiet := 0, stuck := 2048 }
      reports := { u.reports with latches := { u.reports.latches with trunkFault := true } }
      counters := u.counters.raise 11 }
    (s.trunk.state = .settling → exec .stuckLine s = .next (faults s)) ∧
    (s.trunk.state = .fault → exec .stuckLine s = .next { s with trunk := { s.trunk with stuck := 2048 } }) ∧
    (∀ r, s.trunk.state = .receiving r → r.nothingDue → r.origin = .unsolicited →
      exec .stuckLine s = .next (faults (s.receptionOver 3))) ∧
    (∀ r, s.trunk.state = .receiving r → ∃ t, exec .stuckLine s = .next t ∧
      t.trunk = { s.trunk with
        state := .fault, quiet := 0, skip := false, stuck := 2048, pendingSend := t.trunk.pendingSend } ∧
      t.reports.latches.trunkFault = true) ∧
    (∀ r, s.trunk.state = .receiving r → r.nothingDue →
      let closing := s.receptionOver 3
      (r.origin = .arbitration → r.handed = false → exec .stuckLine s = .next (faults closing)) ∧
      (∀ g x c, r.origin = .answerWindow g → s.entry g = .awaiting x c → x.attempts ≤ (s.slot x.slot).retryLimit.val →
        exec .stuckLine s = .next (faults { closing with
          pool := s.pool.setOwners x.reservedChain (.reserved g)
          entries := s.entries.set g (.reserved false { x with attempts := x.attempts + 1 })
          trunk := { closing.trunk with pendingSend := some (.request x.slot g x.station) } })) ∧
      (∀ g x c m, r.origin = .answerWindow g → s.entry g = .awaiting x c → (s.slot x.slot).retryLimit.val < x.attempts →
        s.launcher.phase = .launching x.slot m → exec .stuckLine s = .next (faults
          (State.moveOn x.slot ((State.ended { closing with pool := s.pool.setOwners x.reservedChain (.reserved g) } g x
            .damaged none none none [] x.reservedChain).launchEnded x.slot .damaged x.attempts)))) ∧
      (∀ h, r.origin = .arbitration → r.handed = true → r.headerIn = some h →
        (h.kind ≠ .recall ∨ (∀ x d p c, s.entry h.tag ≠ .receiving x d p c) → exec .stuckLine s = .next (faults closing)) ∧
        (∀ x d, h.kind = .recall → s.entry h.tag = .receiving x d false .reserved → exec .stuckLine s = .next (faults
          { closing with
            pool := s.pool.setOwners x.reservedChain (.reserved h.tag)
            entries := s.entries.set h.tag (.deferred x d) })) ∧
        (∀ x d c, h.kind = .recall → s.entry h.tag = .receiving x d false c → c = .overrun ∨ c = .busy ∨ c = .taken [] →
          exec .stuckLine s = .next (faults { closing with entries := s.entries.set h.tag (.deferred x d) })) ∧
        (∀ x d b bs, h.kind = .recall → s.entry h.tag = .receiving x d false (.taken (b :: bs)) →
          exec .stuckLine s = .next (faults (State.reevaluate { closing with
            pool := s.pool.appendAll (b :: bs)
            entries := s.entries.set h.tag (.deferred x d) }))) ∧
        (∀ x d c, h.kind = .recall → s.entry h.tag = .receiving x d true c → exec .stuckLine s = .next (faults
          (State.reevaluate ((closing.ended h.tag x .expired none none none [] (s.entry h.tag).holds).closed x.slot
            .expired))))))

/-- The claim bit (R7, R24, R26): with a send pending the controller contends with the rank ClaimPolicy gives; with none it follows the
other party's arbitration as a receiver, for the five rank bits still to come (the rows look at no level, log 3). And when the part drives
(R1, R5, Table 2.1): the mark, the claim bit, each rank bit that is 0, most significant first, and nothing in the other states but the frames
it sends. -/
def Obligations.ClaimBits : Prop :=
  (∀ s : State, s.nreset = true →
    (s.trunk.state = .offline ∨ s.trunk.state = .settling ∨ s.trunk.state = .idle ∨ s.trunk.state = .fault ∨
      (∃ g st limit n, s.trunk.state = .answerWait g st limit n) ∨ (∃ r, s.trunk.state = .receiving r) ∨
      (∃ r n, s.trunk.state = .replying r (.window n)) → s.drives = false) ∧
    (∀ n, s.trunk.state = .resetting n → s.drives = true) ∧
    (∀ c, s.trunk.state = .arbitrating c → c.bit = 0 → s.drives = true) ∧
    (∀ c, s.trunk.state = .arbitrating c → 1 ≤ c.bit → c.bit ≤ 5 →
      s.drives = decide (c.rank.getLsbD (5 - c.bit) = false))) ∧
  (∀ s : State, s.nreset = true → s.trunk.state = .idle →
    (∀ x, s.trunk.pendingSend = some x → exec .claimBit s = .next { s with trunk := { s.trunk with
      state := .arbitrating
        ⟨match s.config.claimPolicy with
          | .lead => 0
          | .yield => 31
          | .alternate => if s.trunk.phase then 31 else 0,
          decide (s.config.claimPolicy = .alternate), 0⟩ } }) ∧
    (s.trunk.pendingSend = none → exec .foreignClaimBit s = .next { s with trunk := { s.trunk with
      state := .receiving (newReception .arbitration s.config.gapTime 5 none) } }))

/-- A contention won (R14, R26, R47, R86): the send consumed, the Launcher Launching, the entry sending, and the frame's header taken from
the slot and the entry, with the repeat mark from the second attempt on (the row looks at no bit, log 3). While it is sent the line carries
the Lead byte, the header, the outbound chain's bytes and the CRC (R11, R14, R17), each character a dominant start bit, its data bits least
significant first with 0 dominant, and a released stop bit (R2). -/
def Obligations.ContentionWonSends : Prop :=
  (∀ (s : State) (f : Outgoing) (p : Nat) (payload : List Byte) (v : Byte), s.nreset = true →
    s.trunk.state = .transmitting f p → payload.length = f.length →
    (∀ i w, payload[i]? = some w → ∃ b, (s.outChain f.send.slot)[i / 64]? = some b ∧ s.blockByte b (i % 64) = w) →
    let kind : Nibble := match f.send with
      | .request _ _ _ => 1
      | .notice _ => 2
    let covered := [kind ++ f.address, f.code ++ f.tag, BitVec.ofNat 8 (f.length / 256), BitVec.ofNat 8 (f.length % 256)] ++
      payload
    let crc := crcOf covered
    ((0x96 : Byte) :: (covered ++ [crc.extractLsb' 8 8, crc.extractLsb' 0 8]))[p / 10]? = some v →
    (p % 10 = 0 → s.drives = true) ∧ (p % 10 = 9 → s.drives = false) ∧
    (∀ i, i < 8 → p % 10 = i + 1 → s.drives = decide (v.getLsbD i = false))) ∧
  (∀ (s : State) (c : Contention) (k : SlotId) (n : Option Nat), s.nreset = true → s.trunk.state = .arbitrating c →
    s.launcher.phase = .contending k n ∨ s.launcher.phase = .launching k n →
    let phase := if c.alternate then !s.trunk.phase else s.trunk.phase
    (∀ g st x b, s.trunk.pendingSend = some (.request k g st) → s.entry g = .reserved b x →
      exec .contentionWon s = .next { s with
        launcher := { s.launcher with phase := .launching k n }
        entries := s.entries.set g (.reserved true x)
        trunk := { s.trunk with
          phase := phase
          pendingSend := none
          state := .transmitting ⟨.request k g st, (s.slot k).station.setWidth 4,
            (if 2 ≤ x.attempts then 8 else 0) ||| ((s.slot k).op.setWidth 4 &&& 7), BitVec.ofNat 4 g.val,
            (s.slot k).outLength.toNat⟩ 0 } }) ∧
    (s.trunk.pendingSend = some (.notice k) → exec .contentionWon s = .next { s with
      launcher := { s.launcher with phase := .launching k n }
      trunk := { s.trunk with
        phase := phase
        pendingSend := none
        state := .transmitting ⟨.notice k, 15, (s.slot k).noticeCode, 0, (s.slot k).outLength.toNat⟩ 0 } }))

/-- A contention lost in a released bit, or ended by a read-back fault (R26): ArbitrationLosses raised, the phase toggled under Alternate, the
send still pending, and the controller a receiver of what follows: all five rank bits after a read-back fault in the claim bit, those after the bit
lost in else (read from the model's bit count, log 16; the row looks at no level, log 3, and one sent in the claim bit for a released bit is taken
as in the first rank bit, log 16). -/
def Obligations.ContentionLostFollows : Prop :=
  ∀ (s : State) (c : Contention) (cause : LossCause), s.nreset = true → s.trunk.state = .arbitrating c →
    cause = .readBackFault ∨ c.rank ≠ 0 →
    ∃ left, exec (.contentionLost cause) s = .next { s with
      counters := s.counters.raise 6
      trunk := { s.trunk with
        phase := if c.alternate then !s.trunk.phase else s.trunk.phase
        state := .receiving (newReception .arbitration s.config.gapTime left none) } } ∧
      (1 ≤ c.bit → c.bit ≤ 5 → left = 5 - c.bit) ∧
      (c.bit = 0 → left = match cause with
        | .readBackFault => 5
        | .releasedBitDominant => 4)

/-- The last stop bit of a frame (R28): a REQUEST opens the answer window with the AnswerTime of that moment, its entry Awaiting (R47); a
NOTICE ends its launch phase (R88 to R90), the chain returned, Attempts written, and its record posted with the slot closed OK and the Launcher
moved on, or kept as the owed report while the queue is full. The rows look at no bit count, log 3. -/
def Obligations.LastStopBit : Prop :=
  (∀ (s : State) (f : Outgoing) (p : Nat) (k : SlotId) (g : Tag) (st : StationId) (b : Bool) (x : Exchange),
    s.nreset = true → s.trunk.state = .transmitting f p → f.send = .request k g st → s.entry g = .reserved b x →
    exec .requestSent s = .next { s with
      counters := s.counters.raise 0
      entries := s.entries.set g (.awaiting x none)
      trunk := { s.trunk with state := .answerWait g st s.config.answerTime 0 } }) ∧
  (∀ (s : State) (f : Outgoing) (p : Nat) (k : SlotId) (n : Nat),
    s.nreset = true → s.trunk.state = .transmitting f p → f.send = .notice k → s.launcher.phase = .launching k (some n) →
    let r : Report := ⟨.notice, (s.slot k).notify, some k, none, none, some 5, some .ok, some n, none, none, none, none, none,
      none⟩
    let sent : State := { s with
      counters := s.counters.raise 0
      trunk := { s.trunk with state := .settling, quiet := 0, skip := false } }
    (s.reports.queue.length < 32 → exec .noticeSent s = .next
      (State.moveOn k { sent.launchEnded k .ok n with reports := s.reports.posted s.config.coalesceTime r })) ∧
    (32 ≤ s.reports.queue.length → exec .noticeSent s = .next { sent.launchEnded k .ok n with
      slots := s.slots.set k { s.slot k with attempts := n }
      launcher := { s.launcher with phase := .waiting k (.reportSpace r) } }))

/-- A collision (R29, R55, R56, R88): Collisions raised, Settling, and the owner retries while its attempts are at most RetryLimit;
after that the exchange is Done LINE, and so is a NOTICE. The row looks at no level, log 3. -/
def Obligations.CollisionRetriesOrEnds : Prop :=
  ∀ (s : State) (f : Outgoing) (p : Nat), s.nreset = true → s.trunk.state = .transmitting f p →
    let cut : State := { s with
      counters := s.counters.raise 5
      trunk := { s.trunk with state := .settling, quiet := 0, skip := false } }
    (∀ k g st x, f.send = .request k g st → s.entry g = .reserved true x →
      x.attempts ≤ (s.slot x.slot).retryLimit.val → exec .collision s = .next { cut with
        entries := s.entries.set g (.reserved false { x with attempts := x.attempts + 1 })
        trunk := { cut.trunk with pendingSend := some (.request x.slot g x.station) } }) ∧
    (∀ k g st x n, f.send = .request k g st → s.entry g = .reserved true x →
      (s.slot x.slot).retryLimit.val < x.attempts → s.launcher.phase = .launching x.slot n → exec .collision s = .next
        (State.moveOn x.slot
          ((cut.ended g x .line none none none [] x.reservedChain).launchEnded x.slot .line x.attempts))) ∧
    (∀ k n, f.send = .notice k → s.launcher.phase = .launching k (some n) → n ≤ (s.slot k).retryLimit.val →
      exec .collision s = .next { cut with
        launcher := { s.launcher with phase := .launching k (some (n + 1)) }
        trunk := { cut.trunk with pendingSend := some (.notice k) } }) ∧
    (∀ k n, f.send = .notice k → s.launcher.phase = .launching k (some n) → (s.slot k).retryLimit.val < n →
      let r : Report := ⟨.notice, (s.slot k).notify, some k, none, none, some 5, some .line, some n, none, none, none, none,
        none, none⟩
      (s.reports.queue.length < 32 → exec .collision s = .next
        (State.moveOn k { cut.launchEnded k .line n with reports := s.reports.posted s.config.coalesceTime r })) ∧
      (32 ≤ s.reports.queue.length → exec .collision s = .next { cut.launchEnded k .line n with
        slots := s.slots.set k { s.slot k with attempts := n }
        launcher := { s.launcher with phase := .waiting k (.reportSpace r) } }))

/-- The answer timer expires (R30, R54, R122): AnswerTimeouts raised, Settling from AnswerTime, the destination's Misses raised and
the station Silent or, at FenceLimit, Fenced; the entry retries while attempts are at most RetryLimit, else it is Done NO ANSWER. The two orders
are log 7; the row looks at no count, log 3. -/
def Obligations.AnswerTimerExpires : Prop :=
  ∀ (s : State) (g : Tag) (x : Exchange) (c : Option AnswerStore) (limit n : Nat) (m : Option Nat) (b : Bool),
    s.nreset = true → s.trunk.state = .answerWait g x.station limit n → s.entry g = .awaiting x c →
    s.launcher.phase = .launching x.slot m →
    let r := s.station x.station
    let misses := if r.misses < 7 then r.misses + 1 else 7
    let missed : Station := { r with
      misses := misses
      presence := if (0 < s.config.fenceLimit ∧ s.config.fenceLimit ≤ misses) ∨ r.presence = .fenced then .fenced
        else .silent }
    let closing : State := { s with
      counters := s.counters.raise 7
      trunk := { s.trunk with state := .settling, quiet := limit, skip := false } }
    (x.attempts ≤ (s.slot x.slot).retryLimit.val → exec (.answerTimerExpiry b) s = .next { closing with
      stations := s.stations.set x.station missed
      entries := s.entries.set g (.reserved false { x with attempts := x.attempts + 1 })
      trunk := { closing.trunk with pendingSend := some (.request x.slot g x.station) } }) ∧
    ((s.slot x.slot).retryLimit.val < x.attempts → exec (.answerTimerExpiry true) s = .next
      (State.moveOn x.slot ((State.ended { closing with stations := s.stations.set x.station missed } g x .noAnswer none none none []
        x.reservedChain).launchEnded x.slot .noAnswer x.attempts))) ∧
    ((s.slot x.slot).retryLimit.val < x.attempts → exec (.answerTimerExpiry false) s = .next
      ((State.moveOn x.slot ((closing.ended g x .noAnswer none none none [] x.reservedChain).launchEnded x.slot .noAnswer
        x.attempts)).missedAnswer x.station))

/-- A start bit (R23, R30, R31, R33): it opens the answer-window reception, or an unsolicited one, or restarts a skipped count, or begins the
next character of a reception (log 25). The row looks at no level, log 3. -/
def Obligations.StartBitByState : Prop :=
  ∀ s : State, s.nreset = true →
    (∀ g st limit n, s.trunk.state = .answerWait g st limit n → exec .startBit s = .next { s with trunk := { s.trunk with
      state := .receiving (newReception (.answerWindow g) s.config.gapTime 0 (some (0, 0))) } }) ∧
    (s.trunk.state = .settling → s.trunk.skip = true →
      exec .startBit s = .next { s with trunk := { s.trunk with quiet := 0 } }) ∧
    (s.trunk.state = .settling → s.trunk.skip = false → exec .startBit s = .next { s with trunk := { s.trunk with
      state := .receiving (newReception .unsolicited s.config.gapTime 0 (some (0, 0))), quiet := 0 } }) ∧
    (∀ r, s.trunk.state = .receiving r → r.malformed = false → r.complete = false → r.char = none →
      exec .startBit s = .next { s with trunk := { s.trunk with
        state := .receiving { r with gap := 0, run := 0, arbitrationLeft := 0, char := some (0, 0) } } })

/-! ## Receptions -/

/-- A character completes (R12, R17, R32): a dominant stop bit, a wrong Lead byte, a kind or source no station has, or a Length above 1024
sets the malformed flag; else the record takes the byte. What was due is handed on first (log 5); Length is checked at character 4 (log
17); the row takes a whole character and looks at no bit time (log 3). And the CRC (R17): preset 0xFFFF, each byte most significant bit
first, 0x1021 combined in where the bit shifted out differs from the data bit. -/
def Obligations.CharacterChecksAndFields : Prop :=
  (crcOf [] = 0xFFFF ∧ (∀ (bs : List Byte) (v : Byte), crcOf (bs ++ [v]) = crcByte (crcOf bs) v) ∧
    (∀ (reg : Half) (v : Byte),
      let next := fun (q : Half) (i : Nat) => if q.getLsbD 15 ≠ v.getLsbD i then (q <<< 1) ^^^ 0x1021 else q <<< 1
      crcByte reg v = next (next (next (next (next (next (next (next reg 7) 6) 5) 4) 3) 2) 1) 0)) ∧
  (∀ (s : State) (r : Reception) (v : Byte), s.nreset = true → s.trunk.state = .receiving r → r.malformed = false →
    r.complete = false → r.nothingDue →
    let got := fun (q : Reception) => { s with trunk := { s.trunk with
      state := .receiving { q with count := r.count + 1, gap := 0, arbitrationLeft := 0, char := none } } }
    let length := 256 * (r.lengthHigh.getD 0).toNat + v.toNat
    (exec (.characterReceived v false) s = .next (got { r with malformed := true })) ∧
    ((r.count = 0 ∧ v ≠ 0x96) ∨
      (r.count = 1 ∧ ((v.extractLsb' 4 4).toNat < 9 ∨ 13 < (v.extractLsb' 4 4).toNat ∨ (v.extractLsb' 0 4).toNat = 0 ∨
        (v.extractLsb' 0 4).toNat = 15)) ∨
      (r.count = 4 ∧ 1024 < length) →
      exec (.characterReceived v true) s = .next (got { r with malformed := true })) ∧
    (r.count = 0 → v = 0x96 → exec (.characterReceived v true) s = .next (got r)) ∧
    (∀ (kind : StationKind) (i : StationId), r.count = 1 → StationKind.ofCode (v.extractLsb' 4 4) = some kind →
      (v.extractLsb' 0 4).toNat = i.address →
      exec (.characterReceived v true) s =
        .next (got { r with kind := some kind, source := some i, crc := crcByte r.crc v })) ∧
    (r.count = 2 → exec (.characterReceived v true) s = .next (got { r with
      code := some (v.extractLsb' 4 4), tag := some (v.extractLsb' 0 4).toFin, crc := crcByte r.crc v })) ∧
    (r.count = 3 → exec (.characterReceived v true) s = .next (got { r with lengthHigh := some v, crc := crcByte r.crc v })) ∧
    (r.count = 4 → length ≤ 1024 →
      exec (.characterReceived v true) s = .next (got { r with length := some length, crc := crcByte r.crc v })) ∧
    (∀ n, 5 ≤ r.count → r.count < 5 + n → r.length = some n →
      exec (.characterReceived v true) s = .next (got { r with
        crc := crcByte r.crc v, due := if r.origin = .unsolicited then none else some v })) ∧
    (∀ n, r.count = 5 + n → r.length = some n →
      exec (.characterReceived v true) s = .next (got { r with crcHigh := some v })) ∧
    (∀ n, r.count = 6 + n → r.length = some n →
      exec (.characterReceived v true) s = .next (got { r with
        crcGood := decide (r.crcHigh = some (r.crc.extractLsb' 8 8) ∧ v = r.crc.extractLsb' 0 8) })))

/-- The header handed on after byte 4 (R34): an Awaiting entry takes its storage decision (R48); a RECALL makes the Deferred entry of its tag and
station Receiving, with the decision and the blocks of R62; any other header is passed over (R61). The row stands for the bit times that
lead to it, log 3. -/
def Obligations.HeaderHandedOn : Prop :=
  ∀ (s : State) (r : Reception) (h : Header), s.nreset = true → s.trunk.state = .receiving r → r.headerDue = some h →
    let handed : State := { s with trunk := { s.trunk with state := .receiving { r with handed := true } } }
    let need := blocksFor h.length
    (∀ g x c, r.origin = .answerWindow g → s.entry g = .awaiting x c → exec .header s = .next { handed with
      entries := s.entries.set g (.awaiting x (some
        (if h.kind = .answer ∧ h.source = x.station ∧ h.tag = g then
          (if h.length ≤ x.inLimit then .store else .discardOverrun)
        else .discard))) }) ∧
    (r.origin = .arbitration → h.kind ≠ .recall → exec .header s = .next handed) ∧
    (r.origin = .arbitration → (∀ x d, s.entry h.tag = .deferred x d → x.station ≠ h.source) →
      exec .header s = .next handed) ∧
    (∀ x d, r.origin = .arbitration → h.kind = .recall → s.entry h.tag = .deferred x d → x.station = h.source →
      (x.inLimit < h.length → exec .header s = .next { handed with
        entries := s.entries.set h.tag (.receiving x d false .overrun) }) ∧
      (h.length ≤ x.inLimit → x.keep = true → exec .header s = .next { handed with
        entries := s.entries.set h.tag (.receiving x d false .reserved) }) ∧
      (h.length ≤ x.inLimit → x.keep = false → need ≤ s.pool.freeList.length → exec .header s = .next { handed with
        entries := s.entries.set h.tag (.receiving x d false (.taken (s.pool.freeList.take need)))
        pool := s.pool.take need (.inbound h.tag) }) ∧
      (h.length ≤ x.inLimit → x.keep = false → s.pool.freeList.length < need → exec .header s = .next { handed with
        entries := s.entries.set h.tag (.receiving x d false .busy) }))

/-- A payload byte handed on (R34, R48, R62, R113): byte `i` of the payload goes to offset `i` mod 64 of the block at position `i` / 64 of the chain
the entry stores into, which passes to INBOUND; under a decision to discard it is dropped. The row stands for the bit times that lead to
it, log 3. -/
def Obligations.PayloadByteStored : Prop :=
  ∀ (s : State) (r : Reception) (h : Header) (v : Byte), s.nreset = true → s.trunk.state = .receiving r →
    r.headerDue = none → r.headerIn = some h → r.due = some v →
    let i := r.count - 6
    let dropped : State := { s with trunk := { s.trunk with state := .receiving { r with due := none } } }
    let stored := fun (b : BlockId) (g : Tag) => { dropped with pool := { s.pool with
      data := Memory.write s.pool.data (64 * b.val + i % 64) v, owner := s.pool.owner.set b (.inbound g) } }
    (∀ g x b, r.origin = .answerWindow g → s.entry g = .awaiting x (some .store) → x.reservedChain[i / 64]? = some b →
      exec .payloadByte s = .next (stored b g)) ∧
    (∀ g x c, r.origin = .answerWindow g → s.entry g = .awaiting x c → c ≠ some .store →
      exec .payloadByte s = .next dropped) ∧
    (∀ x d p b, r.origin = .arbitration → h.kind = .recall → s.entry h.tag = .receiving x d p .reserved →
      x.reservedChain[i / 64]? = some b → exec .payloadByte s = .next (stored b h.tag)) ∧
    (∀ x d p bs b, r.origin = .arbitration → h.kind = .recall → s.entry h.tag = .receiving x d p (.taken bs) →
      bs[i / 64]? = some b → exec .payloadByte s = .next (stored b h.tag)) ∧
    (∀ x d p c, r.origin = .arbitration → s.entry h.tag = .receiving x d p c → c = .overrun ∨ c = .busy →
      exec .payloadByte s = .next dropped) ∧
    (r.origin = .arbitration → (∀ x d p c, s.entry h.tag ≠ .receiving x d p c) → exec .payloadByte s = .next dropped)

/-- The end of a reception that is damaged, truncated or malformed (R35, R36): its class is counted and Settling entered; with no entry to
reach nothing else happens; in the answer window it is a failed attempt (R53, R56). The rows look at no gap or run, log 3. -/
def Obligations.BadReceptionEnds : Prop :=
  ∀ (s : State) (r : Reception) (event : Instr) (n : Fin 12), s.nreset = true → s.trunk.state = .receiving r → r.nothingDue →
    r.endsBad event n →
    let closing := s.receptionOver n
    (r.origin = .unsolicited ∨ (r.origin = .arbitration ∧ r.handed = false) → exec event s = .next closing) ∧
    (∀ g x c, r.origin = .answerWindow g → s.entry g = .awaiting x c → x.attempts ≤ (s.slot x.slot).retryLimit.val →
      exec event s = .next { closing with
        pool := s.pool.setOwners x.reservedChain (.reserved g)
        entries := s.entries.set g (.reserved false { x with attempts := x.attempts + 1 })
        trunk := { closing.trunk with pendingSend := some (.request x.slot g x.station) } }) ∧
    (∀ g x c m, r.origin = .answerWindow g → s.entry g = .awaiting x c → (s.slot x.slot).retryLimit.val < x.attempts →
      s.launcher.phase = .launching x.slot m → exec event s = .next
        (State.moveOn x.slot ((State.ended { closing with pool := s.pool.setOwners x.reservedChain (.reserved g) } g x .damaged
          none none none [] x.reservedChain).launchEnded x.slot .damaged x.attempts)))

/-- A recall that ends damaged, truncated or malformed (R63): its entry is Deferred again, blocks taken for it freed and reserved ones RESERVED
again, or Done EXPIRED when expiry is pending; a header that made no entry Receiving changes nothing (R65). Where the Launcher re-evaluates is
log 8; the rows look at no gap or run, log 3. -/
def Obligations.BadRecallEnds : Prop :=
  ∀ (s : State) (r : Reception) (event : Instr) (n : Fin 12) (h : Header), s.nreset = true → s.trunk.state = .receiving r →
    r.nothingDue → r.endsBad event n → r.origin = .arbitration → r.handed = true → r.headerIn = some h →
    let closing := s.receptionOver n
    (h.kind ≠ .recall ∨ (∀ x d p c, s.entry h.tag ≠ .receiving x d p c) → exec event s = .next closing) ∧
    (∀ x d, h.kind = .recall → s.entry h.tag = .receiving x d false .reserved → exec event s = .next { closing with
      pool := s.pool.setOwners x.reservedChain (.reserved h.tag)
      entries := s.entries.set h.tag (.deferred x d) }) ∧
    (∀ x d c, h.kind = .recall → s.entry h.tag = .receiving x d false c → c = .overrun ∨ c = .busy ∨ c = .taken [] →
      exec event s = .next { closing with entries := s.entries.set h.tag (.deferred x d) }) ∧
    (∀ x d b bs, h.kind = .recall → s.entry h.tag = .receiving x d false (.taken (b :: bs)) →
      exec event s = .next (State.reevaluate { closing with
        pool := s.pool.appendAll (b :: bs)
        entries := s.entries.set h.tag (.deferred x d) })) ∧
    (∀ x d c, h.kind = .recall → s.entry h.tag = .receiving x d true c → exec event s = .next
      (State.reevaluate ((closing.ended h.tag x .expired none none none []
        (x.reservedChain ++ match c with
          | .taken bs => bs
          | .reserved => []
          | .overrun => []
          | .busy => [])).closed x.slot .expired)))

/-- The end of a good frame in the answer window (R49 to R52): from the right station under the right tag Done OK with the blocks that took
bytes attached to the report, Done OVERRUN, Deferred with its deadline, or Done REFUSED; a PROBE's answer teaches the record or ends PROTOCOL
(R50, R128); any other good frame ends PROTOCOL. The row stands for the bit times that lead to it, log 3. -/
def Obligations.AnswerFrameEnds : Prop :=
  ∀ (s : State) (r : Reception) (g : Tag) (x : Exchange) (c : Option AnswerStore) (h : Header) (m : Option Nat),
    s.nreset = true → s.trunk.state = .receiving r → r.nothingDue → r.endsGood → r.origin = .answerWindow g →
    r.headerIn = some h → s.entry g = .awaiting x c → s.launcher.phase = .launching x.slot m →
    let heard := (s.receptionOver 1).heardFrom h.source
    let ends := fun (u : State) (o : OutcomeCode) (length : Option Nat) (status reason : Option Nibble)
        (chain frees : List BlockId) => Host.Outcome.next
      (State.moveOn x.slot ((u.ended g x o length status reason chain frees).launchEnded x.slot o x.attempts))
    let chain := x.reservedChain.take (blocksFor h.length)
    let rest := x.reservedChain.drop (blocksFor h.length)
    let right := h.source = x.station ∧ h.tag = g
    (right → h.kind = .answer → h.length ≤ x.inLimit → x.op ≠ .probe →
      exec .frameEnd s = ends heard .ok (some h.length) (some h.code) none chain rest) ∧
    (∀ b bs, right → h.kind = .answer → h.length ≤ x.inLimit → x.op = .probe → chain = b :: bs →
      let depth := s.blockByte b 0
      (h.length = 4 → 1 ≤ depth.toNat → depth.toNat ≤ 4 → exec .frameEnd s =
        ends { heard with stations := heard.stations.set x.station { heard.station x.station with
          depth := depth.toNat
          identity := s.blockByte b 1
          revision := s.blockByte b 2 ++ s.blockByte b 3
          probed := true } } .ok (some h.length) (some h.code) none chain rest) ∧
      (h.length ≠ 4 ∨ depth.toNat = 0 ∨ 4 < depth.toNat →
        exec .frameEnd s = ends heard .protocol (some h.length) (some h.code) none [] x.reservedChain)) ∧
    (right → h.kind = .answer → h.length ≤ x.inLimit → x.op = .probe → chain = [] →
      exec .frameEnd s = ends heard .protocol (some h.length) (some h.code) none [] x.reservedChain) ∧
    (right → h.kind = .answer → x.inLimit < h.length →
      exec .frameEnd s = ends heard .overrun (some h.length) (some h.code) none [] x.reservedChain) ∧
    (right → h.kind = .refuse → exec .frameEnd s = ends heard .refused none none (some h.code) [] x.reservedChain) ∧
    (¬ right ∨ h.kind = .recall ∨ h.kind = .attention ∨ (h.kind = .defer ∧ x.op = .probe) →
      exec .frameEnd s = ends heard .protocol none none none [] x.reservedChain) ∧
    (right → h.kind = .defer → x.op ≠ .probe →
      let patience := if (s.slot x.slot).patience = 0 then s.config.defaultPatience else (s.slot x.slot).patience.toNat
      let kept : State := { heard with
        entries := s.entries.set g (.deferred (if x.keep then x else { x with reservedChain := [] }) patience)
        pool := if x.keep then s.pool else s.pool.appendAll x.reservedChain }
      exec .frameEnd s = .next (State.moveOn x.slot { kept.launchEnded x.slot .ok x.attempts with
        slots := s.slots.set x.slot { s.slot x.slot with attempts := x.attempts } }))

/-- The end of a good frame that is no recall, with origin Arbitration or Unsolicited (R36, R37, R129, R173): its source is heard; an ATTENTION
after an arbitration is answered TAKEN and reported, or counted under the report standing; any other is a stray frame. Where the
Launcher re-evaluates is log 8; that the source is heard before its attention is log 28; the row stands for the bit times that lead to it,
log 3. -/
def Obligations.AttentionAndStrayFramesEnd : Prop :=
  ∀ (s : State) (r : Reception) (h : Header), s.nreset = true → s.trunk.state = .receiving r → r.nothingDue → r.endsGood →
    r.headerIn = some h →
    let heard := (s.receptionOver 1).heardFrom h.source
    let i := heard.station h.source
    let replies := fun (u : State) => { u with
      trunk := { u.trunk with state := .replying ⟨.taken, BitVec.ofNat 4 h.source.address, 0⟩ (.window 0) } }
    (r.origin = .unsolicited ∨ (r.origin = .arbitration ∧ h.kind ≠ .recall ∧ h.kind ≠ .attention) →
      exec .frameEnd s = .next { heard with counters := heard.counters.raise 9 }) ∧
    (r.origin = .arbitration → h.kind = .attention → i.attnPending = false → exec .frameEnd s = .next (replies { heard with
      stations := heard.stations.set h.source { i with attnPending := true, attnCount := 1, lastCause := h.code }
      reports := heard.reports.posted heard.config.coalesceTime
        ⟨.attention, false, none, none, some h.source, none, none, none, none, none, none, none, none, some h.code⟩ })) ∧
    (r.origin = .arbitration → h.kind = .attention → i.attnPending = true → exec .frameEnd s = .next (replies { heard with
      stations := heard.stations.set h.source
        { i with attnCount := if i.attnCount < 255 then i.attnCount + 1 else 255, lastCause := h.code } }))

/-- The end of a good RECALL after an arbitration (R64, R65): TAKEN with the exchange Done OK or OVERRUN, BUSYBACK with the entry Deferred
again or Done EXPIRED, or DISOWN with a stray frame counted, a rest ended or the late recall noted. Where the Launcher re-evaluates is
log 8; that the source is heard before the entry takes the frame is log 28; the row stands for the bit times that lead to it, log 3. -/
def Obligations.RecallFrameEnds : Prop :=
  ∀ (s : State) (r : Reception) (h : Header), s.nreset = true → s.trunk.state = .receiving r → r.nothingDue → r.endsGood →
    r.headerIn = some h → r.origin = .arbitration → h.kind = .recall →
    let heard := (s.receptionOver 1).heardFrom h.source
    let replies := fun (kind : ReplyKind) (u : State) => Host.Outcome.next { u with trunk := { u.trunk with
      state := .replying ⟨kind, BitVec.ofNat 4 h.source.address, BitVec.ofNat 4 h.tag.val⟩ (.window 0) } }
    let busied := fun (x : Exchange) => { x with busybacks := if x.busybacks < 255 then x.busybacks + 1 else 255 }
    let n := blocksFor h.length
    (∀ x d p, heard.entry h.tag = .receiving x d p .reserved → exec .frameEnd s = replies .taken (State.reevaluate
      ((heard.ended h.tag x .ok (some h.length) (some h.code) none (x.reservedChain.take n)
        (x.reservedChain.drop n)).closed x.slot .ok))) ∧
    (∀ x d p bs, heard.entry h.tag = .receiving x d p (.taken bs) → bs.length = n →
      exec .frameEnd s = replies .taken (State.reevaluate
        ((heard.ended h.tag x .ok (some h.length) (some h.code) none bs []).closed x.slot .ok))) ∧
    (∀ x d p, heard.entry h.tag = .receiving x d p .overrun → exec .frameEnd s = replies .taken (State.reevaluate
      ((heard.ended h.tag x .overrun (some h.length) (some h.code) none [] x.reservedChain).closed x.slot .overrun))) ∧
    (∀ x d, heard.entry h.tag = .receiving x d false .busy → exec .frameEnd s = replies .busyback { heard with
      counters := heard.counters.raise 8
      entries := heard.entries.set h.tag (.deferred (busied x) d) }) ∧
    (∀ x d, heard.entry h.tag = .receiving x d true .busy → exec .frameEnd s = replies .busyback (State.reevaluate
      ((State.ended { heard with counters := heard.counters.raise 8 } h.tag (busied x) .expired none none none []
        x.reservedChain).closed x.slot .expired))) ∧
    (∀ m, heard.entry h.tag = .resting h.source m → exec .frameEnd s = replies .disown (State.reevaluate { heard with
      counters := heard.counters.raise 9, entries := heard.entries.set h.tag .free })) ∧
    (∀ x d, heard.entry h.tag = .done x d → (d.outcome = .expired ∨ d.outcome = .withdrawn) → x.station = h.source →
      exec .frameEnd s = replies .disown { heard with
        counters := heard.counters.raise 9
        entries := heard.entries.set h.tag (.done x { d with lateRecallSeen := true }) }) ∧
    ((∀ x d p c, heard.entry h.tag ≠ .receiving x d p c) → (∀ m, heard.entry h.tag ≠ .resting h.source m) →
      (∀ x d, heard.entry h.tag = .done x d →
        (d.outcome ≠ .expired ∧ d.outcome ≠ .withdrawn) ∨ x.station ≠ h.source) →
      exec .frameEnd s = replies .disown { heard with counters := heard.counters.raise 9 })

/-- A reply (R37): after the two released bit times it is sent; its last stop bit counts FramesSent, a read-back mismatch counts
Collisions and goes to no block; either way Settling (the rows look at no bit, log 3). While it is sent the line carries the Lead byte, the
header of the reply with Length 0, and the CRC, in the bits of R2 (R9, R15, R17). -/
def Obligations.RepliesGoOut : Prop :=
  (∀ (s : State) (x : Reply) (p : Nat) (v : Byte), s.nreset = true → s.trunk.state = .replying x (.sending p) →
    let kind : Nibble := match x.kind with
      | .taken => 3
      | .busyback => 4
      | .disown => 6
    let covered : List Byte := [kind ++ x.address, (0 : Nibble) ++ x.tag, 0, 0]
    let crc := crcOf covered
    ((0x96 : Byte) :: (covered ++ [crc.extractLsb' 8 8, crc.extractLsb' 0 8]))[p / 10]? = some v →
    (p % 10 = 0 → s.drives = true) ∧ (p % 10 = 9 → s.drives = false) ∧
    (∀ i, i < 8 → p % 10 = i + 1 → s.drives = decide (v.getLsbD i = false))) ∧
  (∀ (s : State) (x : Reply), s.nreset = true →
    (∀ n, s.trunk.state = .replying x (.window n) → exec .replyWindow s = .next { s with
      trunk := { s.trunk with state := .replying x (.sending 0) } }) ∧
    (∀ p, s.trunk.state = .replying x (.sending p) →
      exec .replySent s = .next { s with
        counters := s.counters.raise 0
        trunk := { s.trunk with state := .settling, quiet := 0, skip := false } } ∧
      exec .replyCollision s = .next { s with
        counters := s.counters.raise 5
        trunk := { s.trunk with state := .settling, quiet := 0, skip := false } }))

/-! ## What every step keeps -/

/-- The state after reset meets every invariant below. -/
def Obligations.ResetMeetsInvariants : Prop :=
  Memory.wf State.reset.pool.data = true ∧ State.reset.config.inRange ∧ maskClean State.reset.reports.mask ∧
  State.reset.reports.bounded ∧ State.reset.launcher.exclusive ∧ State.reset.trunk.bounded ∧ State.reset.enableAgrees ∧
  State.reset.outstandingAgrees ∧ State.reset.blocksAgree ∧ State.reset.slotsAgree ∧ State.reset.sendsAgree

/-- Payload memory keeps its canonical form: addresses strictly rising, all below 4096. And the pool's owners stay those that name the blocks
(R102, R103): the free list is exactly the FREE blocks, each once; a RESERVED or INBOUND block is held by its tag's entry alone, a REPORTED one
is on its tag's report, an OUTBOUND one on the chain the Launcher has. With it go the rules it needs: the current slot and those of deferred
exchanges are Active and no two are one (R75, R78), at most one exchange is in Launching, and a pending send or a frame on the line has its
owner (R20, R47, R76). -/
def Obligations.StepKeepsMemoryForm : Prop :=
  ∀ s t : State, step s = .next t →
    (Memory.wf s.pool.data = true → Memory.wf t.pool.data = true) ∧
    (s.blocksAgree → s.slotsAgree → s.sendsAgree → t.blocksAgree ∧ t.slotsAgree ∧ t.sendsAgree)

/-- Every configuration item stays in its range (Table 8.3), and bits 5 and 6 of EVENT MASK stay clear (R147). -/
def Obligations.StepKeepsConfiguration : Prop :=
  ∀ s t : State, step s = .next t → s.config.inRange → maskClean s.reports.mask →
    t.config.inRange ∧ maskClean t.reports.mask

/-- The queue holds at most 32 records, and 32 whenever the backlog holds an item (R134, R135); pending-continue and halt-pending are
never both set (R76), and both are clear in Idle and Held (R95). -/
def Obligations.StepKeepsQueueAndFlags : Prop :=
  ∀ s t : State, step s = .next t →
    (s.reports.bounded → t.reports.bounded) ∧ (s.launcher.exclusive → t.launcher.exclusive)

/-- The counts of the Trunk Controller stay in their ranges (R20), and with nRESET high the controller is Offline exactly while
TrunkEnable is 0 (R1, R22). -/
def Obligations.StepKeepsTrunkCounts : Prop :=
  ∀ s t : State, step s = .next t →
    (s.config.inRange → s.trunk.bounded → t.config.inRange ∧ t.trunk.bounded) ∧ (s.enableAgrees → t.enableAgrees)

/-- Every station's Outstanding is the number of live entries that name it, and never above 4 (R46); Depth stays 1 to 4 (Table
6.1). -/
def Obligations.StepKeepsOutstanding : Prop :=
  ∀ s t : State, step s = .next t → s.outstandingAgrees → t.outstandingAgrees
end

