-- ==== Sys2Proof/Laws/Memory.lean ====
section
/-! SUPPORT. Payload memory: reading after writing, the canonical form kept, and which pool operations leave the data alone. -/

namespace Sys2Proof.Machine

open Sys2Proof

namespace Memory

theorem read_write_same (m : List Host.Cell) (a : Nat) (v : Byte) : read (write m a v) a = some v := by
  induction m with
  | nil => simp [write, read]
  | cons c m ih =>
    obtain ⟨b, w⟩ := c
    unfold write
    split
    · simp [read]
    · split
      · simp [read]
      · simp only [read]
        split
        · contradiction
        · exact ih

theorem read_write_other (m : List Host.Cell) (a b : Nat) (v : Byte) (h : b ≠ a) : read (write m a v) b = read m b := by
  induction m with
  | nil => simp [write, read, h]
  | cons c m ih =>
    obtain ⟨d, w⟩ := c
    unfold write
    split
    · simp [read, h]
    · split
      · rename_i hd
        subst hd
        simp [read, h]
      · simp only [read, ih]

theorem risingFrom_write (m : List Host.Cell) (lo a : Nat) (v : Byte) (h : risingFrom lo m = true) (hlo : lo ≤ a) (ha : a < 4096) :
    risingFrom lo (write m a v) = true := by
  induction m generalizing lo with
  | nil => simp [write, risingFrom, hlo, ha]
  | cons c m ih =>
    obtain ⟨b, w⟩ := c
    simp only [risingFrom, Bool.and_eq_true, decide_eq_true_eq] at h
    obtain ⟨⟨h1, h2⟩, h3⟩ := h
    unfold write
    split
    · simp only [risingFrom, Bool.and_eq_true, decide_eq_true_eq]
      exact ⟨⟨hlo, ha⟩, ⟨by omega, h2⟩, h3⟩
    · split
      · rename_i hab
        subst hab
        simp only [risingFrom, Bool.and_eq_true, decide_eq_true_eq]
        exact ⟨⟨hlo, ha⟩, h3⟩
      · simp only [risingFrom, Bool.and_eq_true, decide_eq_true_eq]
        exact ⟨⟨h1, h2⟩, ih (b + 1) h3 (by omega)⟩

/-- A write of a byte inside the 4096 keeps the canonical form. -/
theorem wf_write (m : List Host.Cell) (a : Nat) (v : Byte) (h : wf m = true) (ha : a < 4096) : wf (write m a v) = true :=
  risingFrom_write m 0 a v h (Nat.zero_le a) ha

end Memory

theorem byteAddress_lt (b : BlockId) (o : Nat) : byteAddress b o < 4096 := by
  have hb := b.isLt
  unfold byteAddress
  omega

/-- Two byte addresses are equal only for the same block and the same offset. -/
theorem byteAddress_inj (b c : BlockId) (o p : Nat) (h : byteAddress b o = byteAddress c p) : b = c ∧ o % 64 = p % 64 := by
  unfold byteAddress at h
  refine ⟨Fin.ext ?_, ?_⟩ <;> omega

namespace Pool

variable (p : Pool)

@[simp] theorem setOwner_data (b : BlockId) (o : Owner) : (p.setOwner b o).data = p.data := rfl
@[simp] theorem setLink_data (b : BlockId) (l : Option BlockId) : (p.setLink b l).data = p.data := rfl
@[simp] theorem setOwner_freeList (b : BlockId) (o : Owner) : (p.setOwner b o).freeList = p.freeList := rfl
@[simp] theorem setLink_freeList (b : BlockId) (l : Option BlockId) : (p.setLink b l).freeList = p.freeList := rfl
@[simp] theorem setOwner_link (b : BlockId) (o : Owner) : (p.setOwner b o).link = p.link := rfl
@[simp] theorem setLink_owner (b : BlockId) (l : Option BlockId) : (p.setLink b l).owner = p.owner := rfl
@[simp] theorem store_owner (b : BlockId) (o : Nat) (v : Byte) : (p.store b o v).owner = p.owner := rfl
@[simp] theorem store_link (b : BlockId) (o : Nat) (v : Byte) : (p.store b o v).link = p.link := rfl
@[simp] theorem store_freeList (b : BlockId) (o : Nat) (v : Byte) : (p.store b o v).freeList = p.freeList := rfl

@[simp] theorem setOwners_data (bs : List BlockId) (o : Owner) : (p.setOwners bs o).data = p.data := by
  induction bs generalizing p with
  | nil => rfl
  | cons b bs ih => simp [setOwners, ih]

@[simp] theorem setOwners_freeList (bs : List BlockId) (o : Owner) : (p.setOwners bs o).freeList = p.freeList := by
  induction bs generalizing p with
  | nil => rfl
  | cons b bs ih => simp [setOwners, ih]

@[simp] theorem setOwners_link (bs : List BlockId) (o : Owner) : (p.setOwners bs o).link = p.link := by
  induction bs generalizing p with
  | nil => rfl
  | cons b bs ih => simp [setOwners, ih]

@[simp] theorem linkChain_data (bs : List BlockId) : (p.linkChain bs).data = p.data := by
  induction bs generalizing p with
  | nil => rfl
  | cons b bs ih => cases bs with
    | nil => rfl
    | cons c bs => simp only [linkChain, ih, setLink_data]

@[simp] theorem linkChain_freeList (bs : List BlockId) : (p.linkChain bs).freeList = p.freeList := by
  induction bs generalizing p with
  | nil => rfl
  | cons b bs ih => cases bs with
    | nil => rfl
    | cons c bs => simp only [linkChain, ih, setLink_freeList]

@[simp] theorem linkChain_owner (bs : List BlockId) : (p.linkChain bs).owner = p.owner := by
  induction bs generalizing p with
  | nil => rfl
  | cons b bs ih => cases bs with
    | nil => rfl
    | cons c bs => simp only [linkChain, ih, setLink_owner]

@[simp] theorem appendFree_data (b : BlockId) : (p.appendFree b).data = p.data := rfl
@[simp] theorem appendFree_freeList (b : BlockId) : (p.appendFree b).freeList = p.freeList ++ [b] := rfl

@[simp] theorem appendAll_data (bs : List BlockId) : (p.appendAll bs).data = p.data := by
  induction bs generalizing p with
  | nil => rfl
  | cons b bs ih => simp [appendAll, ih]

/-- Blocks freed together join the tail in the order of the list (R103). -/
@[simp] theorem appendAll_freeList (bs : List BlockId) : (p.appendAll bs).freeList = p.freeList ++ bs := by
  induction bs generalizing p with
  | nil => simp [appendAll]
  | cons b bs ih => simp [appendAll, ih]

@[simp] theorem take_data (n : Nat) (o : Owner) : (p.take n o).data = p.data := by simp [take]
/-- A take removes the first blocks of the free list (R103). -/
@[simp] theorem take_freeList (n : Nat) (o : Owner) : (p.take n o).freeList = p.freeList.drop n := by simp [take]

theorem store_wf (b : BlockId) (o : Nat) (v : Byte) (h : Memory.wf p.data = true) : Memory.wf (p.store b o v).data = true :=
  Memory.wf_write _ _ _ h (byteAddress_lt b o)

theorem fill_wf (chain : List BlockId) (t : Tag) (i : Nat) (v : Byte) (h : Memory.wf p.data = true) :
    Memory.wf (p.fill chain t i v).data = true := by
  unfold fill
  split
  · exact h
  · exact store_wf p _ _ _ h

end Pool

end Sys2Proof.Machine
end

