-- ==== Sys2Proof/Laws/State.lean ====
section
/-! SUPPORT. What each setter of State leaves in each field, and what the composed setters are. -/

namespace Sys2Proof.Machine

open Sys2Proof

section setConfig
variable (s : State) (c : Settings)
@[simp] theorem setConfig_nreset : (s.setConfig c).nreset = s.nreset := rfl
@[simp] theorem setConfig_bus : (s.setConfig c).bus = s.bus := rfl
@[simp] theorem setConfig_lineIn : (s.setConfig c).lineIn = s.lineIn := rfl
@[simp] theorem setConfig_config : (s.setConfig c).config = c := rfl
@[simp] theorem setConfig_port : (s.setConfig c).port = s.port := rfl
@[simp] theorem setConfig_sel : (s.setConfig c).sel = s.sel := rfl
@[simp] theorem setConfig_slots : (s.setConfig c).slots = s.slots := rfl
@[simp] theorem setConfig_launcher : (s.setConfig c).launcher = s.launcher := rfl
@[simp] theorem setConfig_entries : (s.setConfig c).entries = s.entries := rfl
@[simp] theorem setConfig_stations : (s.setConfig c).stations = s.stations := rfl
@[simp] theorem setConfig_pool : (s.setConfig c).pool = s.pool := rfl
@[simp] theorem setConfig_trunk : (s.setConfig c).trunk = s.trunk := rfl
@[simp] theorem setConfig_reports : (s.setConfig c).reports = s.reports := rfl
@[simp] theorem setConfig_counters : (s.setConfig c).counters = s.counters := rfl
@[simp] theorem setConfig_resets : (s.setConfig c).resets = s.resets := rfl
@[simp] theorem setConfig_choices : (s.setConfig c).choices = s.choices := rfl
@[simp] theorem setConfig_pending : (s.setConfig c).pending = s.pending := rfl
end setConfig

section setPort
variable (s : State) (p : Port)
@[simp] theorem setPort_nreset : (s.setPort p).nreset = s.nreset := rfl
@[simp] theorem setPort_bus : (s.setPort p).bus = s.bus := rfl
@[simp] theorem setPort_lineIn : (s.setPort p).lineIn = s.lineIn := rfl
@[simp] theorem setPort_config : (s.setPort p).config = s.config := rfl
@[simp] theorem setPort_port : (s.setPort p).port = p := rfl
@[simp] theorem setPort_sel : (s.setPort p).sel = s.sel := rfl
@[simp] theorem setPort_slots : (s.setPort p).slots = s.slots := rfl
@[simp] theorem setPort_launcher : (s.setPort p).launcher = s.launcher := rfl
@[simp] theorem setPort_entries : (s.setPort p).entries = s.entries := rfl
@[simp] theorem setPort_stations : (s.setPort p).stations = s.stations := rfl
@[simp] theorem setPort_pool : (s.setPort p).pool = s.pool := rfl
@[simp] theorem setPort_trunk : (s.setPort p).trunk = s.trunk := rfl
@[simp] theorem setPort_reports : (s.setPort p).reports = s.reports := rfl
@[simp] theorem setPort_counters : (s.setPort p).counters = s.counters := rfl
@[simp] theorem setPort_resets : (s.setPort p).resets = s.resets := rfl
@[simp] theorem setPort_choices : (s.setPort p).choices = s.choices := rfl
@[simp] theorem setPort_pending : (s.setPort p).pending = s.pending := rfl
end setPort

section setSel
variable (s : State) (x : Selectors)
@[simp] theorem setSel_nreset : (s.setSel x).nreset = s.nreset := rfl
@[simp] theorem setSel_bus : (s.setSel x).bus = s.bus := rfl
@[simp] theorem setSel_lineIn : (s.setSel x).lineIn = s.lineIn := rfl
@[simp] theorem setSel_config : (s.setSel x).config = s.config := rfl
@[simp] theorem setSel_port : (s.setSel x).port = s.port := rfl
@[simp] theorem setSel_sel : (s.setSel x).sel = x := rfl
@[simp] theorem setSel_slots : (s.setSel x).slots = s.slots := rfl
@[simp] theorem setSel_launcher : (s.setSel x).launcher = s.launcher := rfl
@[simp] theorem setSel_entries : (s.setSel x).entries = s.entries := rfl
@[simp] theorem setSel_stations : (s.setSel x).stations = s.stations := rfl
@[simp] theorem setSel_pool : (s.setSel x).pool = s.pool := rfl
@[simp] theorem setSel_trunk : (s.setSel x).trunk = s.trunk := rfl
@[simp] theorem setSel_reports : (s.setSel x).reports = s.reports := rfl
@[simp] theorem setSel_counters : (s.setSel x).counters = s.counters := rfl
@[simp] theorem setSel_resets : (s.setSel x).resets = s.resets := rfl
@[simp] theorem setSel_choices : (s.setSel x).choices = s.choices := rfl
@[simp] theorem setSel_pending : (s.setSel x).pending = s.pending := rfl
end setSel

section setLauncher
variable (s : State) (l : Launcher)
@[simp] theorem setLauncher_nreset : (s.setLauncher l).nreset = s.nreset := rfl
@[simp] theorem setLauncher_bus : (s.setLauncher l).bus = s.bus := rfl
@[simp] theorem setLauncher_lineIn : (s.setLauncher l).lineIn = s.lineIn := rfl
@[simp] theorem setLauncher_config : (s.setLauncher l).config = s.config := rfl
@[simp] theorem setLauncher_port : (s.setLauncher l).port = s.port := rfl
@[simp] theorem setLauncher_sel : (s.setLauncher l).sel = s.sel := rfl
@[simp] theorem setLauncher_slots : (s.setLauncher l).slots = s.slots := rfl
@[simp] theorem setLauncher_launcher : (s.setLauncher l).launcher = l := rfl
@[simp] theorem setLauncher_entries : (s.setLauncher l).entries = s.entries := rfl
@[simp] theorem setLauncher_stations : (s.setLauncher l).stations = s.stations := rfl
@[simp] theorem setLauncher_pool : (s.setLauncher l).pool = s.pool := rfl
@[simp] theorem setLauncher_trunk : (s.setLauncher l).trunk = s.trunk := rfl
@[simp] theorem setLauncher_reports : (s.setLauncher l).reports = s.reports := rfl
@[simp] theorem setLauncher_counters : (s.setLauncher l).counters = s.counters := rfl
@[simp] theorem setLauncher_resets : (s.setLauncher l).resets = s.resets := rfl
@[simp] theorem setLauncher_choices : (s.setLauncher l).choices = s.choices := rfl
@[simp] theorem setLauncher_pending : (s.setLauncher l).pending = s.pending := rfl
end setLauncher

section setPool
variable (s : State) (p : Pool)
@[simp] theorem setPool_nreset : (s.setPool p).nreset = s.nreset := rfl
@[simp] theorem setPool_bus : (s.setPool p).bus = s.bus := rfl
@[simp] theorem setPool_lineIn : (s.setPool p).lineIn = s.lineIn := rfl
@[simp] theorem setPool_config : (s.setPool p).config = s.config := rfl
@[simp] theorem setPool_port : (s.setPool p).port = s.port := rfl
@[simp] theorem setPool_sel : (s.setPool p).sel = s.sel := rfl
@[simp] theorem setPool_slots : (s.setPool p).slots = s.slots := rfl
@[simp] theorem setPool_launcher : (s.setPool p).launcher = s.launcher := rfl
@[simp] theorem setPool_entries : (s.setPool p).entries = s.entries := rfl
@[simp] theorem setPool_stations : (s.setPool p).stations = s.stations := rfl
@[simp] theorem setPool_pool : (s.setPool p).pool = p := rfl
@[simp] theorem setPool_trunk : (s.setPool p).trunk = s.trunk := rfl
@[simp] theorem setPool_reports : (s.setPool p).reports = s.reports := rfl
@[simp] theorem setPool_counters : (s.setPool p).counters = s.counters := rfl
@[simp] theorem setPool_resets : (s.setPool p).resets = s.resets := rfl
@[simp] theorem setPool_choices : (s.setPool p).choices = s.choices := rfl
@[simp] theorem setPool_pending : (s.setPool p).pending = s.pending := rfl
end setPool

section setTrunk
variable (s : State) (t : Trunk)
@[simp] theorem setTrunk_nreset : (s.setTrunk t).nreset = s.nreset := rfl
@[simp] theorem setTrunk_bus : (s.setTrunk t).bus = s.bus := rfl
@[simp] theorem setTrunk_lineIn : (s.setTrunk t).lineIn = s.lineIn := rfl
@[simp] theorem setTrunk_config : (s.setTrunk t).config = s.config := rfl
@[simp] theorem setTrunk_port : (s.setTrunk t).port = s.port := rfl
@[simp] theorem setTrunk_sel : (s.setTrunk t).sel = s.sel := rfl
@[simp] theorem setTrunk_slots : (s.setTrunk t).slots = s.slots := rfl
@[simp] theorem setTrunk_launcher : (s.setTrunk t).launcher = s.launcher := rfl
@[simp] theorem setTrunk_entries : (s.setTrunk t).entries = s.entries := rfl
@[simp] theorem setTrunk_stations : (s.setTrunk t).stations = s.stations := rfl
@[simp] theorem setTrunk_pool : (s.setTrunk t).pool = s.pool := rfl
@[simp] theorem setTrunk_trunk : (s.setTrunk t).trunk = t := rfl
@[simp] theorem setTrunk_reports : (s.setTrunk t).reports = s.reports := rfl
@[simp] theorem setTrunk_counters : (s.setTrunk t).counters = s.counters := rfl
@[simp] theorem setTrunk_resets : (s.setTrunk t).resets = s.resets := rfl
@[simp] theorem setTrunk_choices : (s.setTrunk t).choices = s.choices := rfl
@[simp] theorem setTrunk_pending : (s.setTrunk t).pending = s.pending := rfl
end setTrunk

section setReports
variable (s : State) (r : Reports)
@[simp] theorem setReports_nreset : (s.setReports r).nreset = s.nreset := rfl
@[simp] theorem setReports_bus : (s.setReports r).bus = s.bus := rfl
@[simp] theorem setReports_lineIn : (s.setReports r).lineIn = s.lineIn := rfl
@[simp] theorem setReports_config : (s.setReports r).config = s.config := rfl
@[simp] theorem setReports_port : (s.setReports r).port = s.port := rfl
@[simp] theorem setReports_sel : (s.setReports r).sel = s.sel := rfl
@[simp] theorem setReports_slots : (s.setReports r).slots = s.slots := rfl
@[simp] theorem setReports_launcher : (s.setReports r).launcher = s.launcher := rfl
@[simp] theorem setReports_entries : (s.setReports r).entries = s.entries := rfl
@[simp] theorem setReports_stations : (s.setReports r).stations = s.stations := rfl
@[simp] theorem setReports_pool : (s.setReports r).pool = s.pool := rfl
@[simp] theorem setReports_trunk : (s.setReports r).trunk = s.trunk := rfl
@[simp] theorem setReports_reports : (s.setReports r).reports = r := rfl
@[simp] theorem setReports_counters : (s.setReports r).counters = s.counters := rfl
@[simp] theorem setReports_resets : (s.setReports r).resets = s.resets := rfl
@[simp] theorem setReports_choices : (s.setReports r).choices = s.choices := rfl
@[simp] theorem setReports_pending : (s.setReports r).pending = s.pending := rfl
end setReports

section setCounters
variable (s : State) (c : Counters)
@[simp] theorem setCounters_nreset : (s.setCounters c).nreset = s.nreset := rfl
@[simp] theorem setCounters_bus : (s.setCounters c).bus = s.bus := rfl
@[simp] theorem setCounters_lineIn : (s.setCounters c).lineIn = s.lineIn := rfl
@[simp] theorem setCounters_config : (s.setCounters c).config = s.config := rfl
@[simp] theorem setCounters_port : (s.setCounters c).port = s.port := rfl
@[simp] theorem setCounters_sel : (s.setCounters c).sel = s.sel := rfl
@[simp] theorem setCounters_slots : (s.setCounters c).slots = s.slots := rfl
@[simp] theorem setCounters_launcher : (s.setCounters c).launcher = s.launcher := rfl
@[simp] theorem setCounters_entries : (s.setCounters c).entries = s.entries := rfl
@[simp] theorem setCounters_stations : (s.setCounters c).stations = s.stations := rfl
@[simp] theorem setCounters_pool : (s.setCounters c).pool = s.pool := rfl
@[simp] theorem setCounters_trunk : (s.setCounters c).trunk = s.trunk := rfl
@[simp] theorem setCounters_reports : (s.setCounters c).reports = s.reports := rfl
@[simp] theorem setCounters_counters : (s.setCounters c).counters = c := rfl
@[simp] theorem setCounters_resets : (s.setCounters c).resets = s.resets := rfl
@[simp] theorem setCounters_choices : (s.setCounters c).choices = s.choices := rfl
@[simp] theorem setCounters_pending : (s.setCounters c).pending = s.pending := rfl
end setCounters

section setBus
variable (s : State) (b : Byte)
@[simp] theorem setBus_nreset : (s.setBus b).nreset = s.nreset := rfl
@[simp] theorem setBus_bus : (s.setBus b).bus = b := rfl
@[simp] theorem setBus_lineIn : (s.setBus b).lineIn = s.lineIn := rfl
@[simp] theorem setBus_config : (s.setBus b).config = s.config := rfl
@[simp] theorem setBus_port : (s.setBus b).port = s.port := rfl
@[simp] theorem setBus_sel : (s.setBus b).sel = s.sel := rfl
@[simp] theorem setBus_slots : (s.setBus b).slots = s.slots := rfl
@[simp] theorem setBus_launcher : (s.setBus b).launcher = s.launcher := rfl
@[simp] theorem setBus_entries : (s.setBus b).entries = s.entries := rfl
@[simp] theorem setBus_stations : (s.setBus b).stations = s.stations := rfl
@[simp] theorem setBus_pool : (s.setBus b).pool = s.pool := rfl
@[simp] theorem setBus_trunk : (s.setBus b).trunk = s.trunk := rfl
@[simp] theorem setBus_reports : (s.setBus b).reports = s.reports := rfl
@[simp] theorem setBus_counters : (s.setBus b).counters = s.counters := rfl
@[simp] theorem setBus_resets : (s.setBus b).resets = s.resets := rfl
@[simp] theorem setBus_choices : (s.setBus b).choices = s.choices := rfl
@[simp] theorem setBus_pending : (s.setBus b).pending = s.pending := rfl
end setBus

section setSlot
variable (s : State) (k : SlotId) (sl : Slot)
@[simp] theorem setSlot_nreset : (s.setSlot k sl).nreset = s.nreset := rfl
@[simp] theorem setSlot_bus : (s.setSlot k sl).bus = s.bus := rfl
@[simp] theorem setSlot_lineIn : (s.setSlot k sl).lineIn = s.lineIn := rfl
@[simp] theorem setSlot_config : (s.setSlot k sl).config = s.config := rfl
@[simp] theorem setSlot_port : (s.setSlot k sl).port = s.port := rfl
@[simp] theorem setSlot_sel : (s.setSlot k sl).sel = s.sel := rfl
@[simp] theorem setSlot_slots : (s.setSlot k sl).slots = s.slots.set k sl := rfl
@[simp] theorem setSlot_launcher : (s.setSlot k sl).launcher = s.launcher := rfl
@[simp] theorem setSlot_entries : (s.setSlot k sl).entries = s.entries := rfl
@[simp] theorem setSlot_stations : (s.setSlot k sl).stations = s.stations := rfl
@[simp] theorem setSlot_pool : (s.setSlot k sl).pool = s.pool := rfl
@[simp] theorem setSlot_trunk : (s.setSlot k sl).trunk = s.trunk := rfl
@[simp] theorem setSlot_reports : (s.setSlot k sl).reports = s.reports := rfl
@[simp] theorem setSlot_counters : (s.setSlot k sl).counters = s.counters := rfl
@[simp] theorem setSlot_resets : (s.setSlot k sl).resets = s.resets := rfl
@[simp] theorem setSlot_choices : (s.setSlot k sl).choices = s.choices := rfl
@[simp] theorem setSlot_pending : (s.setSlot k sl).pending = s.pending := rfl
end setSlot

section setEntry
variable (s : State) (t : Tag) (e : Entry)
@[simp] theorem setEntry_nreset : (s.setEntry t e).nreset = s.nreset := rfl
@[simp] theorem setEntry_bus : (s.setEntry t e).bus = s.bus := rfl
@[simp] theorem setEntry_lineIn : (s.setEntry t e).lineIn = s.lineIn := rfl
@[simp] theorem setEntry_config : (s.setEntry t e).config = s.config := rfl
@[simp] theorem setEntry_port : (s.setEntry t e).port = s.port := rfl
@[simp] theorem setEntry_sel : (s.setEntry t e).sel = s.sel := rfl
@[simp] theorem setEntry_slots : (s.setEntry t e).slots = s.slots := rfl
@[simp] theorem setEntry_launcher : (s.setEntry t e).launcher = s.launcher := rfl
@[simp] theorem setEntry_entries : (s.setEntry t e).entries = s.entries.set t e := rfl
@[simp] theorem setEntry_stations : (s.setEntry t e).stations = s.stations := rfl
@[simp] theorem setEntry_pool : (s.setEntry t e).pool = s.pool := rfl
@[simp] theorem setEntry_trunk : (s.setEntry t e).trunk = s.trunk := rfl
@[simp] theorem setEntry_reports : (s.setEntry t e).reports = s.reports := rfl
@[simp] theorem setEntry_counters : (s.setEntry t e).counters = s.counters := rfl
@[simp] theorem setEntry_resets : (s.setEntry t e).resets = s.resets := rfl
@[simp] theorem setEntry_choices : (s.setEntry t e).choices = s.choices := rfl
@[simp] theorem setEntry_pending : (s.setEntry t e).pending = s.pending := rfl
end setEntry

section setStation
variable (s : State) (i : StationId) (r : Station)
@[simp] theorem setStation_nreset : (s.setStation i r).nreset = s.nreset := rfl
@[simp] theorem setStation_bus : (s.setStation i r).bus = s.bus := rfl
@[simp] theorem setStation_lineIn : (s.setStation i r).lineIn = s.lineIn := rfl
@[simp] theorem setStation_config : (s.setStation i r).config = s.config := rfl
@[simp] theorem setStation_port : (s.setStation i r).port = s.port := rfl
@[simp] theorem setStation_sel : (s.setStation i r).sel = s.sel := rfl
@[simp] theorem setStation_slots : (s.setStation i r).slots = s.slots := rfl
@[simp] theorem setStation_launcher : (s.setStation i r).launcher = s.launcher := rfl
@[simp] theorem setStation_entries : (s.setStation i r).entries = s.entries := rfl
@[simp] theorem setStation_stations : (s.setStation i r).stations = s.stations.set i r := rfl
@[simp] theorem setStation_pool : (s.setStation i r).pool = s.pool := rfl
@[simp] theorem setStation_trunk : (s.setStation i r).trunk = s.trunk := rfl
@[simp] theorem setStation_reports : (s.setStation i r).reports = s.reports := rfl
@[simp] theorem setStation_counters : (s.setStation i r).counters = s.counters := rfl
@[simp] theorem setStation_resets : (s.setStation i r).resets = s.resets := rfl
@[simp] theorem setStation_choices : (s.setStation i r).choices = s.choices := rfl
@[simp] theorem setStation_pending : (s.setStation i r).pending = s.pending := rfl
end setStation

section nextChoice
variable (s : State)
@[simp] theorem nextChoice_nreset : s.nextChoice.nreset = s.nreset := rfl
@[simp] theorem nextChoice_bus : s.nextChoice.bus = s.bus := rfl
@[simp] theorem nextChoice_lineIn : s.nextChoice.lineIn = s.lineIn := rfl
@[simp] theorem nextChoice_config : s.nextChoice.config = s.config := rfl
@[simp] theorem nextChoice_port : s.nextChoice.port = s.port := rfl
@[simp] theorem nextChoice_sel : s.nextChoice.sel = s.sel := rfl
@[simp] theorem nextChoice_slots : s.nextChoice.slots = s.slots := rfl
@[simp] theorem nextChoice_launcher : s.nextChoice.launcher = s.launcher := rfl
@[simp] theorem nextChoice_entries : s.nextChoice.entries = s.entries := rfl
@[simp] theorem nextChoice_stations : s.nextChoice.stations = s.stations := rfl
@[simp] theorem nextChoice_pool : s.nextChoice.pool = s.pool := rfl
@[simp] theorem nextChoice_trunk : s.nextChoice.trunk = s.trunk := rfl
@[simp] theorem nextChoice_reports : s.nextChoice.reports = s.reports := rfl
@[simp] theorem nextChoice_counters : s.nextChoice.counters = s.counters := rfl
@[simp] theorem nextChoice_resets : s.nextChoice.resets = s.resets := rfl
@[simp] theorem nextChoice_choices : s.nextChoice.choices = s.choices + 1 := rfl
@[simp] theorem nextChoice_pending : s.nextChoice.pending = s.pending := rfl
end nextChoice

section dropInput
variable (s : State)
@[simp] theorem dropInput_nreset : s.dropInput.nreset = s.nreset := rfl
@[simp] theorem dropInput_bus : s.dropInput.bus = s.bus := rfl
@[simp] theorem dropInput_lineIn : s.dropInput.lineIn = s.lineIn.tail := rfl
@[simp] theorem dropInput_config : s.dropInput.config = s.config := rfl
@[simp] theorem dropInput_port : s.dropInput.port = s.port := rfl
@[simp] theorem dropInput_sel : s.dropInput.sel = s.sel := rfl
@[simp] theorem dropInput_slots : s.dropInput.slots = s.slots := rfl
@[simp] theorem dropInput_launcher : s.dropInput.launcher = s.launcher := rfl
@[simp] theorem dropInput_entries : s.dropInput.entries = s.entries := rfl
@[simp] theorem dropInput_stations : s.dropInput.stations = s.stations := rfl
@[simp] theorem dropInput_pool : s.dropInput.pool = s.pool := rfl
@[simp] theorem dropInput_trunk : s.dropInput.trunk = s.trunk := rfl
@[simp] theorem dropInput_reports : s.dropInput.reports = s.reports := rfl
@[simp] theorem dropInput_counters : s.dropInput.counters = s.counters := rfl
@[simp] theorem dropInput_resets : s.dropInput.resets = s.resets := rfl
@[simp] theorem dropInput_choices : s.dropInput.choices = s.choices := rfl
@[simp] theorem dropInput_pending : s.dropInput.pending = s.pending := rfl
end dropInput

/-! ## Composed setters -/

section composed
variable (s : State)

theorem setTrunkState_eq (t : TrunkState) : s.setTrunkState t = s.setTrunk { s.trunk with state := t } := rfl
theorem setPendingSend_eq (p : Option Send) : s.setPendingSend p = s.setTrunk { s.trunk with pendingSend := p } := rfl
theorem settle_eq (q : Nat) :
    s.settle q = s.setTrunk { s.trunk with state := .settling, quiet := q, skip := false } := rfl
theorem setPhase_eq (p : Phase) : s.setPhase p = s.setLauncher { s.launcher with phase := p } := rfl
theorem setReception_eq (r : Reception) : s.setReception r = s.setTrunk { s.trunk with state := .receiving r } := rfl
theorem freeBlocks_eq (bs : List BlockId) : s.freeBlocks bs = s.setPool (s.pool.appendAll bs) := rfl
theorem count_eq (c : Counter) : s.count c = s.setCounters (s.counters.raise c.index) := rfl
theorem setLatches_eq (l : Latches) : s.setLatches l = s.setReports { s.reports with latches := l } := rfl
theorem windowFault_eq (c : WindowFault) : s.windowFault c =
    (s.setPort { s.port with faultCause := c }).setReports
      { s.reports with latches := { s.reports.latches with windowFault := true } } := rfl
theorem complete_eq (r : CmdResult) (d : Byte) : s.complete r d =
    (s.setPort { s.port with result := r, resultData := d, busy := false, completionDue := false }).setReports
      { s.reports with latches := { s.reports.latches with commandDone := true } } := rfl
theorem enterIdle_eq : s.enterIdle = (s.setLauncher ⟨.idle, false, false⟩).setReports
    { s.reports with latches := { s.reports.latches with launcherStopped := true } } := rfl
theorem enterHeld_eq (p : SlotId) : s.enterHeld p = (s.setLauncher ⟨.held p, false, false⟩).setReports
    { s.reports with latches := { s.reports.latches with launcherStopped := true } } := rfl

end composed

/-! ## Reading a table after writing it -/

@[simp] theorem slot_setSlot_self (s : State) (k : SlotId) (sl : Slot) : (s.setSlot k sl).slot k = sl := by
  simp [State.slot]

theorem slot_setSlot (s : State) (k j : SlotId) (sl : Slot) :
    (s.setSlot k sl).slot j = if k = j then sl else s.slot j := by
  simp [State.slot, Vector.getElem_set, Fin.ext_iff]

@[simp] theorem entry_setEntry_self (s : State) (t : Tag) (e : Entry) : (s.setEntry t e).entry t = e := by
  simp [State.entry]

theorem entry_setEntry (s : State) (t u : Tag) (e : Entry) :
    (s.setEntry t e).entry u = if t = u then e else s.entry u := by
  simp [State.entry, Vector.getElem_set, Fin.ext_iff]

@[simp] theorem station_setStation_self (s : State) (i : StationId) (r : Station) :
    (s.setStation i r).station i = r := by
  simp [State.station]

theorem station_setStation (s : State) (i j : StationId) (r : Station) :
    (s.setStation i r).station j = if i = j then r else s.station j := by
  simp [State.station, Vector.getElem_set, Fin.ext_iff]

end Sys2Proof.Machine
end

