-- ==== Sys2Proof/Laws/Inner.lean ====
section
/-! SUPPORT. What the work of the Launcher, the Exchange Table and the Station Table leaves alone: the host's side of the state, the line
and its counts; and what it keeps: the memory's form, the queue's bound and the pending flags' rule. One lemma for each operation. -/

namespace Sys2Proof.Machine

open Sys2Proof

/-- `t` comes from `s` by work inside the part: nothing of the host's side has changed, the controller's state and counts stand (the
pending send may change), and the three rules hold of `t` where they hold of `s`. -/
structure Inner (s t : State) : Prop where
  nreset : t.nreset = s.nreset
  bus : t.bus = s.bus
  lineIn : t.lineIn = s.lineIn
  config : t.config = s.config
  port : t.port = s.port
  sel : t.sel = s.sel
  resets : t.resets = s.resets
  pending : t.pending = s.pending
  mask : t.reports.mask = s.reports.mask
  trunk : t.trunk = { s.trunk with pendingSend := t.trunk.pendingSend }
  memory : Memory.wf s.pool.data = true → Memory.wf t.pool.data = true
  queue : s.reports.bounded → t.reports.bounded
  flags : s.launcher.exclusive → t.launcher.exclusive

namespace Inner

theorem refl (s : State) : Inner s s := ⟨rfl, rfl, rfl, rfl, rfl, rfl, rfl, rfl, rfl, rfl, id, id, id⟩

theorem trans {s t u : State} (h : Inner s t) (k : Inner t u) : Inner s u where
  nreset := k.nreset.trans h.nreset
  bus := k.bus.trans h.bus
  lineIn := k.lineIn.trans h.lineIn
  config := k.config.trans h.config
  port := k.port.trans h.port
  sel := k.sel.trans h.sel
  resets := k.resets.trans h.resets
  pending := k.pending.trans h.pending
  mask := k.mask.trans h.mask
  trunk := by rw [k.trunk, h.trunk]
  memory := fun w => k.memory (h.memory w)
  queue := fun w => k.queue (h.queue w)
  flags := fun w => k.flags (h.flags w)

/-! ## Setters -/

theorem setSlot (s : State) (k : SlotId) (sl : Slot) : Inner s (s.setSlot k sl) :=
  ⟨rfl, rfl, rfl, rfl, rfl, rfl, rfl, rfl, rfl, rfl, id, id, id⟩
theorem setEntry (s : State) (t : Tag) (e : Entry) : Inner s (s.setEntry t e) :=
  ⟨rfl, rfl, rfl, rfl, rfl, rfl, rfl, rfl, rfl, rfl, id, id, id⟩
theorem setStation (s : State) (i : StationId) (r : Station) : Inner s (s.setStation i r) :=
  ⟨rfl, rfl, rfl, rfl, rfl, rfl, rfl, rfl, rfl, rfl, id, id, id⟩
theorem setCounters (s : State) (c : Counters) : Inner s (s.setCounters c) :=
  ⟨rfl, rfl, rfl, rfl, rfl, rfl, rfl, rfl, rfl, rfl, id, id, id⟩
theorem setPendingSend (s : State) (p : Option Send) : Inner s (s.setPendingSend p) :=
  ⟨rfl, rfl, rfl, rfl, rfl, rfl, rfl, rfl, rfl, rfl, id, id, id⟩
theorem nextChoice (s : State) : Inner s s.nextChoice :=
  ⟨rfl, rfl, rfl, rfl, rfl, rfl, rfl, rfl, rfl, rfl, id, id, id⟩
theorem setPool (s : State) (p : Pool) (h : Memory.wf s.pool.data = true → Memory.wf p.data = true) : Inner s (s.setPool p) :=
  ⟨rfl, rfl, rfl, rfl, rfl, rfl, rfl, rfl, rfl, rfl, h, id, id⟩
theorem setPool_data (s : State) (p : Pool) (h : p.data = s.pool.data) : Inner s (s.setPool p) :=
  setPool s p (by rw [h]; exact id)
theorem setReports (s : State) (r : Reports) (hm : r.mask = s.reports.mask) (h : s.reports.bounded → r.bounded) :
    Inner s (s.setReports r) :=
  ⟨rfl, rfl, rfl, rfl, rfl, rfl, rfl, rfl, hm, rfl, id, h, id⟩
theorem setLatches (s : State) (l : Latches) : Inner s (s.setLatches l) := setReports s _ rfl id
theorem setLauncher (s : State) (l : Launcher) (h : s.launcher.exclusive → l.exclusive) : Inner s (s.setLauncher l) :=
  ⟨rfl, rfl, rfl, rfl, rfl, rfl, rfl, rfl, rfl, rfl, id, id, h⟩

theorem count (s : State) (c : Counter) : Inner s (s.count c) := setCounters s _
theorem freeBlocks (s : State) (bs : List BlockId) : Inner s (s.freeBlocks bs) := setPool_data s _ (by simp)

theorem setWaiting (s : State) (k : SlotId) (w : Wait) : Inner s (s.setPhase (.waiting k w)) :=
  setLauncher s _ fun h => ⟨h.1, by simp, by simp⟩
theorem setContending (s : State) (k : SlotId) (n : Option Nat) : Inner s (s.setPhase (.contending k n)) :=
  setLauncher s _ fun h => ⟨h.1, by simp, by simp⟩
theorem setLaunching (s : State) (k : SlotId) (n : Option Nat) : Inner s (s.setPhase (.launching k n)) :=
  setLauncher s _ fun h => ⟨h.1, by simp, by simp⟩

theorem enterIdle (s : State) : Inner s s.enterIdle :=
  trans (setLauncher s _ fun _ => ⟨by simp, fun _ => ⟨rfl, rfl⟩, fun _ _ => ⟨rfl, rfl⟩⟩) (setLatches _ _)
theorem enterHeld (s : State) (p : SlotId) : Inner s (s.enterHeld p) :=
  trans (setLauncher s _ fun _ => ⟨by simp, fun _ => ⟨rfl, rfl⟩, fun _ _ => ⟨rfl, rfl⟩⟩) (setLatches _ _)

theorem activateSlot (s : State) (k : SlotId) : Inner s (s.activateSlot k) := setSlot s _ _
theorem closeSlot (s : State) (k : SlotId) (o : OutcomeCode) : Inner s (s.closeSlot k o) := setSlot s _ _
theorem reopenSlot (s : State) (k : SlotId) : Inner s (s.reopenSlot k) := setSlot s _ _
theorem setAttempts (s : State) (k : SlotId) (n : Nat) : Inner s (s.setAttempts k n) := setSlot s _ _
theorem raiseOutstanding (s : State) (i : StationId) : Inner s (s.raiseOutstanding i) := setStation s _ _
theorem lowerOutstanding (s : State) (i : StationId) : Inner s (s.lowerOutstanding i) := setStation s _ _

/-! ## Postings -/

theorem post (s : State) (x : Report) : Inner s (s.post x) := by
  unfold State.post
  split
  · rename_i h
    refine setReports s _ rfl fun b => ⟨?_, fun e => ?_⟩
    · simp only [Reports.enqueue, List.length_append, List.length_singleton]; omega
    · have := b.2 e; omega
  · rename_i h
    refine setReports s _ rfl fun b => ⟨b.1, fun _ => ?_⟩
    have := b.1
    simp only
    omega

theorem postQueue (s : State) (x : Report) (h : s.reports.queue.length < 32) : Inner s (s.postQueue x) := by
  refine setReports s _ rfl fun b => ⟨?_, fun e => ?_⟩
  · simp only [Reports.enqueue, List.length_append, List.length_singleton]; omega
  · have := b.2 e; omega

/-! ## The Launcher -/

/-- What an operation that takes a slot has to satisfy for the walk along a chain. -/
def Takes (take : SlotId → State → State) : Prop := ∀ k s, Inner s (take k s)

theorem moveOnWith {take : SlotId → State → State} (h : Takes take) (k : SlotId) (s : State) :
    Inner s (Machine.moveOnWith take k s) := by
  unfold Machine.moveOnWith
  dsimp only
  split
  · exact enterIdle s
  · split
    · exact enterHeld s _
    · split
      · split
        · refine trans (setLauncher s { s.launcher with pendingContinue := false } fun e => ?_) (h _ _)
          exact ⟨by simp, fun p => ⟨rfl, (e.2.1 p).2⟩, fun q p => ⟨rfl, (e.2.2 q p).2⟩⟩
        · exact enterHeld s _
      · exact h _ _

theorem reportWith {take : SlotId → State → State} (h : Takes take) (k : SlotId) (r : Report) (s : State) :
    Inner s (Machine.reportWith take k r s) := by
  unfold Machine.reportWith
  split
  · rename_i hq
    have base := trans (postQueue s r hq) (closeSlot (s.postQueue r) k (r.outcome.getD .ok))
    dsimp only
    split
    · exact trans base (enterHeld _ _)
    · exact trans base (moveOnWith h _ _)
  · exact setWaiting s _ _

theorem reserve (s : State) (k : SlotId) (op : SlotOp) (st : StationId) (t : Tag) : Inner s (s.reserve k op st t) := by
  unfold State.reserve
  exact trans (trans (trans (trans (trans (setPool_data s _ (by simp)) (setEntry _ _ _)) (raiseOutstanding _ _))
    (setSlot _ _ _)) (setContending _ _ _)) (setPendingSend _ _)

theorem launchNotice (s : State) (k : SlotId) : Inner s (s.launchNotice k) := by
  unfold State.launchNotice
  exact trans (trans (setPool_data s _ (by simp)) (setContending _ _ _)) (setPendingSend _ _)

theorem checkWith {take : SlotId → State → State} (h : Takes take) (k : SlotId) (s : State) :
    Inner s (Machine.checkWith take k s) := by
  unfold Machine.checkWith
  split
  · exact reportWith h _ _ _
  · exact setWaiting s _ _
  · exact reserve s _ _ _ _
  · exact launchNotice s _

theorem takeWith {take : SlotId → State → State} (h : Takes take) (k : SlotId) (s : State) :
    Inner s (Machine.takeWith take k s) := by
  unfold Machine.takeWith
  split
  · exact setWaiting s _ _
  · exact trans (activateSlot s k) (checkWith h _ _)

theorem takeSlot (room : Nat) : Takes (Machine.takeSlot room) := by
  induction room with
  | zero => exact fun k s => takeWith (fun _ s => refl s) k s
  | succ n ih => exact fun k s => takeWith ih k s

theorem take : Takes State.take := fun k s => takeSlot _ k s
theorem moveOn (k : SlotId) (s : State) : Inner s (s.moveOn k) := moveOnWith take k s
theorem report (k : SlotId) (r : Report) (s : State) : Inner s (s.report k r) := reportWith take k r s

theorem reevaluate (s : State) : Inner s s.reevaluate := by
  unfold State.reevaluate
  split
  · exact report _ _ s
  · exact take _ s
  · exact checkWith take _ s
  · exact checkWith take _ s
  · exact checkWith take _ s
  all_goals exact refl s

theorem returnOutbound (s : State) (k : SlotId) : Inner s (s.returnOutbound k) := by
  unfold State.returnOutbound
  split
  · exact freeBlocks s _
  · exact setPool_data s _ (by simp)

theorem undoOutbound (s : State) (k : SlotId) : Inner s (s.undoOutbound k) := setPool_data s _ (by simp)

theorem answerPhaseEnded (s : State) (k : SlotId) (o : OutcomeCode) (n : Nat) : Inner s (s.answerPhaseEnded k o n) := by
  unfold State.answerPhaseEnded
  split
  · split
    · have base := trans (trans (returnOutbound s k) (setAttempts _ k n)) (closeSlot _ k o)
      dsimp only
      split
      · exact trans base (enterHeld _ _)
      · exact trans base (moveOn _ _)
    · exact refl s
  all_goals exact refl s

theorem answerPhaseDeferred (s : State) (k : SlotId) (n : Nat) : Inner s (s.answerPhaseDeferred k n) := by
  unfold State.answerPhaseDeferred
  split
  · split
    · exact trans (trans (returnOutbound s k) (setAttempts _ k n)) (moveOn _ _)
    · exact refl s
  all_goals exact refl s

theorem noticeEnded (s : State) (k : SlotId) (n : Nat) (o : OutcomeCode) : Inner s (s.noticeEnded k n o) := by
  unfold State.noticeEnded
  exact trans (trans (returnOutbound s k) (setAttempts _ k n)) (report _ _ _)

theorem heldAtReopened (s : State) (k : SlotId) : Inner s (s.heldAtReopened k) := trans (reopenSlot s k) (enterHeld _ _)

theorem launcherTrunkReset (s : State) : Inner s s.launcherTrunkReset := by
  unfold State.launcherTrunkReset
  split
  · exact refl s
  · exact refl s
  · split
    · exact refl s
    · exact heldAtReopened s _
  · exact enterHeld s _
  · exact heldAtReopened s _
  · exact heldAtReopened s _
  · exact heldAtReopened s _
  · exact trans (undoOutbound s _) (heldAtReopened _ _)
  · exact noticeEnded s _ _ _
  · exact refl s

theorem launcherWon (s : State) : Inner s s.launcherWon := by
  unfold State.launcherWon
  split
  · exact setLaunching s _ _
  all_goals exact refl s

theorem launcherNoticeSent (s : State) (k : SlotId) : Inner s (s.launcherNoticeSent k) := by
  unfold State.launcherNoticeSent
  split
  · split
    · exact noticeEnded s _ _ _
    · exact refl s
  all_goals exact refl s

theorem launcherNoticeCut (s : State) (k : SlotId) : Inner s (s.launcherNoticeCut k) := by
  unfold State.launcherNoticeCut
  split
  · split
    · split
      · exact trans (setLaunching s _ _) (setPendingSend _ _)
      · exact noticeEnded s _ _ _
    · exact refl s
  all_goals exact refl s

/-! ## The Station Table -/

theorem updateStation (s : State) (i : StationId) (r : Station) : Inner s (s.updateStation i r) := by
  unfold State.updateStation
  dsimp only
  split
  · exact setStation s _ _
  · exact trans (setStation s _ _) (reevaluate _)

theorem goodFrame (s : State) (i : StationId) : Inner s (s.goodFrame i) := updateStation s _ _
theorem missedAnswer (s : State) (i : StationId) : Inner s (s.missedAnswer i) := updateStation s _ _

theorem attention (s : State) (i : StationId) (c : Nibble) : Inner s (s.attention i c) := by
  unfold State.attention
  dsimp only
  split
  · exact setStation s _ _
  · exact trans (setStation s _ _) (post _ _)

theorem attentionPopped (s : State) (i : StationId) : Inner s (s.attentionPopped i) := setStation s _ _

theorem stationsTrunkReset (s : State) : Inner s s.stationsTrunkReset :=
  ⟨rfl, rfl, rfl, rfl, rfl, rfl, rfl, rfl, rfl, rfl, id, id, id⟩

/-! ## The Exchange Table -/

theorem reachDone (s : State) (t : Tag) (x : Exchange) (f : Finish) : Inner s (s.reachDone t x f) := by
  unfold State.reachDone
  have base := trans (trans (trans (trans (setEntry s t (.done { x with reservedChain := [] }
    ⟨f.outcome, false, f.chain, f.length, f.status, f.reason⟩)) (freeBlocks _ f.frees))
    (setPool_data _ ((((s.setEntry t (.done { x with reservedChain := [] }
    ⟨f.outcome, false, f.chain, f.length, f.status, f.reason⟩)).freeBlocks f.frees).pool.setOwners f.chain
      (.reported t)).linkChain f.chain) (by simp))) (lowerOutstanding _ x.station)) (post _ (exchangeReport s t x f))
  dsimp only
  split
  · exact trans base (count _ _)
  · exact base

theorem finishAnswer (s : State) (t : Tag) (x : Exchange) (f : Finish) : Inner s (s.finishAnswer t x f) :=
  trans (reachDone s t x f) (answerPhaseEnded _ _ _ _)
theorem finishDeferred (s : State) (t : Tag) (x : Exchange) (f : Finish) : Inner s (s.finishDeferred t x f) :=
  trans (reachDone s t x f) (closeSlot _ _ _)

theorem entryWon (s : State) (t : Tag) : Inner s (s.entryWon t) := by
  unfold State.entryWon
  split
  · exact setEntry s _ _
  all_goals exact refl s

theorem entrySent (s : State) (t : Tag) : Inner s (s.entrySent t) := by
  unfold State.entrySent
  split
  · exact setEntry s _ _
  all_goals exact refl s

theorem entryOfSendWon (s : State) (x : Send) : Inner s (s.entryOfSendWon x) := by
  cases x with
  | request k t st => exact entryWon s t
  | notice k => exact refl s

theorem retry (s : State) (t : Tag) (x : Exchange) : Inner s (s.retry t x) := trans (setEntry s _ _) (setPendingSend _ _)

theorem failedAttempt (s : State) (t : Tag) (x : Exchange) (o : OutcomeCode) : Inner s (s.failedAttempt t x o) := by
  unfold State.failedAttempt
  split
  · exact retry s t x
  · exact finishAnswer s t x _

theorem answerAccepted (s : State) (t : Tag) (x : Exchange) (n : Nat) (c : Nibble) : Inner s (s.answerAccepted t x n c) := by
  unfold State.answerAccepted
  dsimp only
  split
  · split
    · exact finishAnswer s _ _ _
    · split
      · exact trans (updateStation s _ _) (finishAnswer _ _ _ _)
      · exact finishAnswer s _ _ _
  · exact finishAnswer s _ _ _

theorem answerDeferred (s : State) (t : Tag) (x : Exchange) : Inner s (s.answerDeferred t x) := by
  unfold State.answerDeferred
  split
  · exact finishAnswer s _ _ _
  · split
    · exact trans (setEntry s _ _) (answerPhaseDeferred _ _ _)
    · exact trans (trans (setEntry s _ _) (freeBlocks _ _)) (answerPhaseDeferred _ _ _)

theorem answerGood (s : State) (t : Tag) (x : Exchange) (h : Header) : Inner s (s.answerGood t x h) := by
  unfold State.answerGood
  split
  · split
    · split
      · exact answerAccepted s _ _ _ _
      · exact finishAnswer s _ _ _
    · exact answerDeferred s _ _
    all_goals exact finishAnswer s _ _ _
  · exact finishAnswer s _ _ _

theorem answerBad (s : State) (t : Tag) (x : Exchange) : Inner s (s.answerBad t x) :=
  trans (setPool_data s _ (by simp)) (failedAttempt _ _ _ _)

theorem answerFrameEnd (s : State) (t : Tag) (h : Option Header) : Inner s (s.answerFrameEnd t h) := by
  unfold State.answerFrameEnd
  split
  · split
    · exact answerGood s _ _ _
    · exact answerBad s _ _
  all_goals exact refl s

theorem answerExpired (s : State) (t : Tag) : Inner s (s.answerExpired t) := by
  unfold State.answerExpired
  split
  · exact failedAttempt s _ _ _
  all_goals exact refl s

theorem entryCollided (s : State) (t : Tag) : Inner s (s.entryCollided t) := by
  unfold State.entryCollided
  split
  · exact failedAttempt s _ _ _
  all_goals exact refl s

theorem ownerCut (s : State) (x : Send) : Inner s (s.ownerCut x) := by
  cases x with
  | request k t st => exact entryCollided s t
  | notice k => exact launcherNoticeCut s k

theorem recallDecision_data (s : State) (t : Tag) (x : Exchange) (n : Nat) :
    (s.recallDecision t x n).2.data = s.pool.data := by
  unfold State.recallDecision
  split
  · rfl
  · split
    · rfl
    · split
      · simp
      · rfl

theorem recallHeader (s : State) (h : Header) : Inner s (s.recallHeader h) := by
  unfold State.recallHeader
  split
  · split
    · exact trans (setPool_data s _ (recallDecision_data s _ _ _)) (setEntry _ _ _)
    · exact refl s
  all_goals exact refl s

theorem headerHanded (s : State) (o : Origin) (h : Header) : Inner s (s.headerHanded o h) := by
  unfold State.headerHanded
  split
  · split
    · exact setEntry s _ _
    all_goals exact refl s
  · split
    · exact recallHeader s h
    · exact refl s
  · exact refl s

theorem storePayload (s : State) (o : Origin) (h : Header) (i : Nat) (v : Byte) : Inner s (s.storePayload o h i v) := by
  unfold State.storePayload
  split
  · split
    · exact setPool s _ fun w => Pool.fill_wf _ _ _ _ _ w
    all_goals exact refl s
  · split
    · split
      · exact setPool s _ fun w => Pool.fill_wf _ _ _ _ _ w
      all_goals exact refl s
    · exact refl s
  · exact refl s

theorem recallBad (s : State) (t : Tag) : Inner s (s.recallBad t) := by
  unfold State.recallBad
  split
  · split
    · exact trans (finishDeferred s _ _ _) (reevaluate _)
    · split
      · have base := fun x d bs => trans (setEntry s t (.deferred x d)) (freeBlocks _ bs)
        dsimp only
        split
        · exact base _ _ _
        · exact trans (base _ _ _) (reevaluate _)
      · exact trans (setPool_data s _ (by simp)) (setEntry _ _ _)
      all_goals exact setEntry s _ _
  all_goals exact refl s

theorem recallDisowned (s : State) (t : Tag) (i : StationId) : Inner s (s.recallDisowned t i) := by
  have base := count s .strayFrames
  unfold State.recallDisowned
  dsimp only
  split
  · split
    · exact trans base (trans (setEntry _ _ _) (reevaluate _))
    · exact base
  · split
    · exact trans base (setEntry _ _ _)
    · exact base
  all_goals exact base

theorem recallGood (s : State) (h : Header) : Inner s (s.recallGood h).2 := by
  unfold State.recallGood
  split
  · split
    · exact trans (finishDeferred s _ _ _) (reevaluate _)
    · exact trans (finishDeferred s _ _ _) (reevaluate _)
    · exact trans (finishDeferred s _ _ _) (reevaluate _)
    · dsimp only
      split
      · exact trans (count s _) (trans (finishDeferred _ _ _ _) (reevaluate _))
      · exact trans (count s _) (setEntry _ _ _)
  all_goals exact recallDisowned s _ _

theorem deadlineTick (s : State) (t : Tag) : Inner s (s.deadlineTick t) := by
  unfold State.deadlineTick
  split
  · split
    · exact trans (finishDeferred s _ _ _) (reevaluate _)
    · exact setEntry s _ _
  · exact setEntry s _ _
  all_goals exact refl s

theorem restTick (s : State) (t : Tag) : Inner s (s.restTick t) := by
  unfold State.restTick
  split
  · split
    · exact trans (setEntry s _ _) (reevaluate _)
    · exact setEntry s _ _
  all_goals exact refl s

theorem withdrawTag (s : State) (t : Tag) : Inner s (s.withdrawTag t).2 := by
  unfold State.withdrawTag
  split
  · exact trans (finishDeferred s _ _ _) (reevaluate _)
  all_goals exact refl s

theorem exchangePopped (s : State) (t : Tag) : Inner s (s.exchangePopped t) := by
  unfold State.exchangePopped
  split
  · exact trans (setPool_data s _ (by simp)) (setEntry _ _ _)
  all_goals exact refl s

theorem popEffects (s : State) (r : Report) : Inner s (s.popEffects r) := by
  unfold State.popEffects
  split
  · split
    · exact exchangePopped s _
    · exact refl s
  · split
    · exact attentionPopped s _
    · exact refl s
  all_goals exact refl s

theorem undoEntry (s : State) (t : Tag) (x : Exchange) : Inner s (s.undoEntry t x) :=
  trans (trans (setEntry s _ _) (freeBlocks _ _)) (lowerOutstanding _ _)

theorem undoSend (s : State) : Inner s s.undoSend := by
  unfold State.undoSend
  split
  · split
    · exact undoEntry s _ _
    all_goals exact refl s
  all_goals exact refl s

theorem entryTrunkReset (s : State) (t : Tag) : Inner s (s.entryTrunkReset t) := by
  unfold State.entryTrunkReset
  split
  · exact refl s
  · split
    · exact undoEntry s _ _
    · exact finishAnswer s _ _ _
  · exact finishAnswer s _ _ _
  · exact finishAnswer s _ _ _
  · exact finishDeferred s _ _ _
  · exact finishDeferred s _ _ _
  · exact refl s
  · exact setEntry s _ _

/-- A walk over a list of tags keeps what each visit keeps. -/
theorem foldl {f : State → Tag → State} (h : ∀ s t, Inner s (f s t)) (ts : List Tag) (s : State) : Inner s (ts.foldl f s) := by
  induction ts generalizing s with
  | nil => exact refl s
  | cons t ts ih => exact trans (h s t) (ih _)

theorem entriesTrunkReset (s : State) : Inner s s.entriesTrunkReset := foldl entryTrunkReset _ s
theorem deadlinesTick (s : State) : Inner s s.deadlinesTick := foldl deadlineTick _ s
theorem restsTick (s : State) : Inner s s.restsTick := foldl restTick _ s

theorem trunkResetDelivered (s : State) : Inner s s.trunkResetDelivered := by
  have table := fun s : State => trans (trans (entriesTrunkReset s) (launcherTrunkReset _)) (stationsTrunkReset _)
  unfold State.trunkResetDelivered
  split
  · dsimp only
    refine trans (nextChoice s) ?_
    split
    · exact trans (trans (launcherTrunkReset _) (entriesTrunkReset _)) (stationsTrunkReset _)
    · exact table _
  all_goals exact table s

theorem tableTick (s : State) (b : Bool) : Inner s (s.tableTick b) := by
  unfold State.tableTick
  split
  · exact trans (restsTick s) (deadlinesTick _)
  · exact trans (deadlinesTick s) (restsTick _)

theorem reportsTick (s : State) : Inner s s.reportsTick := by
  refine setReports s _ ?_ fun h => ?_
  · unfold Reports.tick
    split
    · rfl
    · split <;> rfl
  · unfold Reports.tick
    split
    · exact h
    · split <;> exact h

end Inner

end Sys2Proof.Machine
end

