-- ==== Sys2Proof/Laws/Kept.lean ====
section
/-! SUPPORT. What every event of the line, every window access, every command and every bit time keeps: the configuration's ranges, the
mask, the queue's bound, the pending flags' rule, the memory's form, the controller's counts, and TrunkEnable's agreement with Offline.
One lemma for each operation. -/

namespace Sys2Proof.Machine

open Sys2Proof

/-- `t` meets each of the rules that `s` meets. -/
structure Kept (s t : State) : Prop where
  config : s.config.inRange → t.config.inRange
  mask : maskClean s.reports.mask → maskClean t.reports.mask
  queue : s.reports.bounded → t.reports.bounded
  flags : s.launcher.exclusive → t.launcher.exclusive
  memory : Memory.wf s.pool.data = true → Memory.wf t.pool.data = true
  trunk : s.config.inRange → s.trunk.bounded → t.trunk.bounded
  enable : s.enableAgrees → t.enableAgrees

namespace Kept

theorem refl (s : State) : Kept s s := ⟨id, id, id, id, id, fun _ => id, id⟩

theorem trans {s t u : State} (h : Kept s t) (k : Kept t u) : Kept s u :=
  ⟨fun x => k.config (h.config x), fun x => k.mask (h.mask x), fun x => k.queue (h.queue x), fun x => k.flags (h.flags x),
    fun x => k.memory (h.memory x), fun c x => k.trunk (h.config c) (h.trunk c x), fun x => k.enable (h.enable x)⟩

theorem inner {s t : State} (h : Inner s t) : Kept s t where
  config := by rw [h.config]; exact id
  mask := by rw [h.mask]; exact id
  queue := h.queue
  flags := h.flags
  memory := h.memory
  trunk := by rw [h.trunk]; exact fun _ => id
  enable := by
    unfold State.enableAgrees
    rw [h.nreset, h.config, h.trunk]
    exact id

/-- Work inside the part does not move the controller's state. -/
theorem state_of_inner {s t : State} (h : Inner s t) : t.trunk.state = s.trunk.state := by rw [h.trunk]

/-- An event that may not exist keeps the rules when its state does. -/
theorem getD {s u : State} {o : Option State} (h : ∀ t, o = some t → Kept s t) (k : Kept s u) : Kept s (o.getD u) := by
  cases o with
  | none => exact k
  | some t => exact h t rfl

/-! ## Setters -/

theorem setPort (s : State) (p : Port) : Kept s (s.setPort p) := ⟨id, id, id, id, id, fun _ => id, id⟩
theorem setSel (s : State) (x : Selectors) : Kept s (s.setSel x) := ⟨id, id, id, id, id, fun _ => id, id⟩
theorem setBus (s : State) (b : Byte) : Kept s (s.setBus b) := ⟨id, id, id, id, id, fun _ => id, id⟩
theorem dropInput (s : State) : Kept s s.dropInput := ⟨id, id, id, id, id, fun _ => id, id⟩
theorem setLatches (s : State) (l : Latches) : Kept s (s.setLatches l) := inner (Inner.setLatches s l)
theorem windowFault (s : State) (c : WindowFault) : Kept s (s.windowFault c) := trans (setPort s _) (setLatches _ _)
theorem complete (s : State) (r : CmdResult) (d : Byte) : Kept s (s.complete r d) := trans (setPort s _) (setLatches _ _)

/-- A new value of the controller, inside its bounds, Offline if and only if it was. -/
theorem setTrunk (s : State) (t : Trunk) (hb : s.config.inRange → s.trunk.bounded → t.bounded)
    (ho : t.state = .offline ↔ s.trunk.state = .offline) : Kept s (s.setTrunk t) :=
  ⟨id, id, id, id, id, hb, fun h r => (h r).trans ho.symm⟩

theorem setTrunkState (s : State) (t : TrunkState) (h0 : s.trunk.state ≠ .offline) (h1 : t ≠ .offline)
    (ha : ∀ g st limit n, t = .answerWait g st limit n → s.config.inRange → s.trunk.bounded → limit ≤ 10) :
    Kept s (s.setTrunkState t) :=
  setTrunk s _ (fun c b => ⟨b.1, b.2.1, b.2.2.1, fun g st limit n e => ha g st limit n e c b⟩)
    ⟨fun e => absurd e h1, fun e => absurd e h0⟩

theorem settle (s : State) (q : Nat) (h0 : s.trunk.state ≠ .offline) (hq : s.config.inRange → s.trunk.bounded → q ≤ 12) :
    Kept s (s.settle q) :=
  setTrunk s _ (fun c b => ⟨hq c b, b.2.1, b.2.2.1, by simp⟩) ⟨by simp, fun e => absurd e h0⟩

/-! ## Receptions -/

theorem follow (s : State) (n : Nat) (h0 : s.trunk.state ≠ .offline) : Kept s (s.follow n) :=
  setTrunkState s _ h0 (by simp) (by simp)

theorem setReception (s : State) (r : Reception) (h0 : s.trunk.state ≠ .offline) : Kept s (s.setReception r) :=
  setTrunkState s _ h0 (by simp) (by simp)

theorem startBitSeen (s t : State) (h : s.startBitSeen = some t) : Kept s t := by
  unfold State.startBitSeen at h
  split at h <;> rename_i e
  · cases h; exact setReception s _ (by simp [e])
  · split at h
    · cases h
      exact setTrunk s _ (fun _ b => ⟨by simp, b.2.1, b.2.2.1, b.2.2.2⟩) Iff.rfl
    · cases h
      exact setTrunk s _ (fun _ b => ⟨by simp, b.2.1, b.2.2.1, by simp⟩) ⟨by simp, fun x => by simp [e] at x⟩
  · split at h
    · cases h
    · cases h; exact setReception s _ (by simp [e])
  all_goals cases h

theorem handHeader (s t : State) (h : s.handHeader = some t) : Kept s t := by
  unfold State.handHeader at h
  split at h <;> rename_i e
  · split at h
    · cases h
      exact trans (setReception s _ (by simp [e])) (inner (Inner.headerHanded _ _ _))
    · cases h
  all_goals cases h

theorem handPayload (s t : State) (h : s.handPayload = some t) : Kept s t := by
  unfold State.handPayload at h
  split at h <;> rename_i e
  · split at h
    · cases h
      exact trans (setReception s _ (by simp [e])) (inner (Inner.storePayload _ _ _ _ _))
    all_goals cases h
  all_goals cases h

theorem handDue (s : State) : Kept s s.handDue := by
  have h := getD (handHeader s) (refl s)
  exact getD (fun t e => trans h (handPayload _ t e)) h

theorem characterIn (s t : State) (v : Byte) (b : Bool) (h : s.characterIn v b = some t) : Kept s t := by
  unfold State.characterIn at h
  split at h <;> rename_i e
  · split at h
    · cases h
    · cases h; exact trans (handDue s) (setReception _ _ (by simp [e]))
  all_goals cases h

theorem arbitrationGood (s : State) (h : Header) (h0 : s.trunk.state ≠ .offline) : Kept s (s.arbitrationGood h) := by
  unfold State.arbitrationGood
  split
  · have k := Inner.recallGood s h
    exact trans (inner k) (setTrunkState _ _ (by rw [state_of_inner k]; exact h0) (by simp) (by simp))
  · have k := Inner.attention s h.source h.code
    exact trans (inner k) (setTrunkState _ _ (by rw [state_of_inner k]; exact h0) (by simp) (by simp))
  all_goals exact inner (Inner.count s _)

theorem routeGood (s : State) (o : Origin) (h : Header) (h0 : s.trunk.state ≠ .offline) : Kept s (s.routeGood o h) := by
  unfold State.routeGood
  split
  · exact inner (Inner.answerFrameEnd s _ _)
  · exact arbitrationGood s h h0
  · exact inner (Inner.count s _)

theorem routeBad (s : State) (r : Reception) : Inner s (s.routeBad r) := by
  unfold State.routeBad
  split
  · exact Inner.answerFrameEnd s _ _
  · split
    · split
      · exact Inner.recallBad s _
      · exact Inner.refl s
    · exact Inner.refl s
  · exact Inner.refl s

theorem endReception (s : State) (r : Reception) (c : FrameClass) (h0 : s.trunk.state ≠ .offline) :
    Kept s (s.endReception r c) := by
  have base : Kept s ((s.count c.counter).settle 0) := trans (inner (Inner.count s _)) (settle _ 0 h0 (by simp))
  unfold State.endReception
  dsimp only
  split
  · split
    · have k := Inner.goodFrame ((s.count FrameClass.good.counter).settle 0)
      exact trans base (trans (inner (k _)) (routeGood _ _ _ (by rw [state_of_inner (k _)]; simp [settle_eq])))
    · exact base
  all_goals exact trans base (inner (routeBad _ _))

/-- While a reception is in progress the controller is not Offline. -/
theorem receptionOf_state (s : State) (r : Reception) (h : s.receptionOf = some r) : s.handDue.trunk.state ≠ .offline := by
  unfold State.receptionOf at h
  split at h <;> rename_i e
  · simp [e]
  all_goals cases h

theorem frameEnded (s t : State) (h : s.frameEnded = some t) : Kept s t := by
  unfold State.frameEnded at h
  split at h
  · rename_i r e
    split at h
    · cases h; exact trans (handDue s) (endReception _ _ _ (receptionOf_state s r e))
    · cases h
  · cases h

theorem gapExpired (s t : State) (h : s.gapExpired = some t) : Kept s t := by
  unfold State.gapExpired at h
  split at h
  · rename_i r e
    split at h
    · cases h
    · cases h; exact trans (handDue s) (endReception _ _ _ (receptionOf_state s r e))
  · cases h

theorem malformedEnded (s t : State) (h : s.malformedEnded = some t) : Kept s t := by
  unfold State.malformedEnded at h
  split at h
  · rename_i r e
    split at h
    · cases h; exact trans (handDue s) (endReception _ _ _ (receptionOf_state s r e))
    · cases h
  · cases h

/-! ## The line -/

theorem claim (s t : State) (h : s.claim = some t) : Kept s t := by
  unfold State.claim at h
  split at h
  · rename_i e _
    cases h; exact setTrunkState s _ (by simp [e]) (by simp) (by simp)
  · cases h

theorem foreignClaim (s t : State) (h : s.foreignClaim = some t) : Kept s t := by
  unfold State.foreignClaim at h
  split at h
  · rename_i e _
    cases h; exact follow s _ (by simp [e])
  · cases h

theorem togglePhase (s : State) (c : Contention) : Kept s (s.togglePhase c) := by
  unfold State.togglePhase
  split
  · exact setTrunk s _ (fun _ b => b) Iff.rfl
  · exact refl s

theorem togglePhase_state (s : State) (c : Contention) : (s.togglePhase c).trunk.state = s.trunk.state := by
  unfold State.togglePhase
  split <;> rfl

theorem win (s t : State) (h : s.win = some t) : Kept s t := by
  unfold State.win at h
  split at h
  · rename_i c send e _
    cases h
    have k := Inner.trans (Inner.trans (Inner.setPendingSend (s.togglePhase c) none) (Inner.launcherWon _))
      (Inner.entryOfSendWon _ send)
    refine trans (trans (togglePhase s c) (inner k)) (setTrunkState _ _ ?_ (by simp) (by simp))
    rw [state_of_inner k, togglePhase_state, e]
    simp
  · cases h

theorem lose (s t : State) (cause : LossCause) (h : s.lose cause = some t) : Kept s t := by
  unfold State.lose at h
  split at h <;> rename_i e
  · split at h
    · cases h
      refine trans (trans (togglePhase s _) (inner (Inner.count _ _))) (follow _ _ ?_)
      rw [state_of_inner (Inner.count _ _), togglePhase_state, e]
      simp
    · cases h
  all_goals cases h

theorem requestOut (s t : State) (h : s.requestOut = some t) : Kept s t := by
  unfold State.requestOut at h
  split at h <;> rename_i e
  · split at h
    · cases h
      rename_i g st _
      have k := Inner.trans (Inner.count s .framesSent) (Inner.entrySent _ g)
      refine trans (inner k) (setTrunkState _ _ (by rw [state_of_inner k, e]; simp) (by simp) ?_)
      intro _ _ limit _ e2 c _
      cases e2
      rw [k.config] at c
      exact c.2.1.2
    · cases h
  all_goals cases h

theorem noticeOut (s t : State) (h : s.noticeOut = some t) : Kept s t := by
  unfold State.noticeOut at h
  split at h <;> rename_i e
  · split at h
    · cases h
      exact trans (trans (inner (Inner.count s _)) (settle _ 0 (by rw [state_of_inner (Inner.count s _), e]; simp) (by simp)))
        (inner (Inner.launcherNoticeSent _ _))
    · cases h
  all_goals cases h

theorem frameCut (s t : State) (h : s.frameCut = some t) : Kept s t := by
  unfold State.frameCut at h
  split at h <;> rename_i e
  · cases h
    exact trans (trans (inner (Inner.count s _)) (settle _ 0 (by rw [state_of_inner (Inner.count s _), e]; simp) (by simp)))
      (inner (Inner.ownerCut _ _))
  all_goals cases h

theorem answerWindowExpired (s t : State) (b : Bool) (h : s.answerWindowExpired b = some t) : Kept s t := by
  unfold State.answerWindowExpired at h
  split at h <;> rename_i e
  · cases h
    rename_i limit _
    have base : Kept s ((s.count .answerTimeouts).settle limit) := by
      refine trans (inner (Inner.count s _)) (settle _ limit (by rw [state_of_inner (Inner.count s _), e]; simp) fun _ b => ?_)
      have := b.2.2.2 _ _ _ _ e
      omega
    refine trans base ?_
    · split
      · exact inner (Inner.trans (Inner.missedAnswer _ _) (Inner.answerExpired _ _))
      · exact inner (Inner.trans (Inner.answerExpired _ _) (Inner.missedAnswer _ _))
  all_goals cases h

theorem replyStarts (s t : State) (h : s.replyStarts = some t) : Kept s t := by
  unfold State.replyStarts at h
  split at h <;> rename_i e
  · cases h; exact setTrunkState s _ (by simp [e]) (by simp) (by simp)
  all_goals cases h

theorem replyOut (s t : State) (h : s.replyOut = some t) : Kept s t := by
  unfold State.replyOut at h
  split at h <;> rename_i e
  · cases h
    exact trans (inner (Inner.count s _)) (settle _ 0 (by rw [state_of_inner (Inner.count s _), e]; simp) (by simp))
  all_goals cases h

theorem replyCut (s t : State) (h : s.replyCut = some t) : Kept s t := by
  unfold State.replyCut at h
  split at h <;> rename_i e
  · cases h
    exact trans (inner (Inner.count s _)) (settle _ 0 (by rw [state_of_inner (Inner.count s _), e]; simp) (by simp))
  all_goals cases h

theorem enterLineIdle (s : State) (h0 : s.trunk.state ≠ .offline) : Kept s s.enterLineIdle :=
  trans (setTrunk s { s.trunk with state := .idle, quiet := 0, skip := false }
    (fun _ b => ⟨by simp, b.2.1, b.2.2.1, by simp⟩) ⟨by simp, fun e => absurd e h0⟩) (setPort _ _)

theorem lineFallsIdle (s t : State) (h : s.lineFallsIdle = some t) : Kept s t := by
  unfold State.lineFallsIdle at h
  split at h
  · rename_i e
    cases h; exact enterLineIdle s (by simp [e])
  · cases h

theorem faultClears (s t : State) (h : s.faultClears = some t) : Kept s t := by
  unfold State.faultClears at h
  split at h
  · rename_i e
    cases h
    exact trans (setTrunk s { s.trunk with stuck := 0 } (fun _ b => ⟨b.1, by simp, b.2.2.1, b.2.2.2⟩) Iff.rfl)
      (enterLineIdle _ (by simp [e]))
  · cases h

theorem enterFault (s : State) (h0 : s.trunk.state ≠ .offline) : Kept s s.enterFault :=
  trans (trans (setTrunk s { s.trunk with state := .fault, quiet := 0, stuck := 2048 }
    (fun _ b => ⟨by simp, by simp, b.2.2.1, by simp⟩) ⟨by simp, fun e => absurd e h0⟩) (setLatches _ _))
    (inner (Inner.count _ .trunkFaults))

theorem endReception_state (s : State) (r : Reception) : (s.endReception r .truncated).trunk.state = .settling := by
  show (((s.count .truncated).settle 0).routeBad r).trunk.state = _
  rw [state_of_inner (routeBad _ _)]
  rfl

theorem sticks (s t : State) (h : s.sticks = some t) : Kept s t := by
  unfold State.sticks at h
  split at h <;> rename_i e
  · split at h
    · rename_i r e2
      cases h
      exact trans (trans (handDue s) (endReception _ _ _ (receptionOf_state s r e2)))
        (enterFault _ (by rw [endReception_state]; simp))
    · cases h
  · cases h; exact enterFault s (by simp [e])
  · cases h; exact setTrunk s _ (fun _ b => ⟨b.1, by simp, b.2.2.1, b.2.2.2⟩) Iff.rfl
  all_goals cases h

theorem markEnds (s t : State) (h : s.markEnds = some t) : Kept s t := by
  unfold State.markEnds at h
  split at h <;> rename_i e
  · cases h; exact settle s 0 (by simp [e]) (by simp)
  all_goals cases h

theorem trunkResetCompletes (s t : State) (h : s.trunkResetCompletes = some t) : Kept s t := by
  unfold State.trunkResetCompletes at h
  split at h
  · cases h; exact complete s _ _
  · cases h

theorem softResetCompletes (s t : State) (h : s.softResetCompletes = some t) : Kept s t := by
  unfold State.softResetCompletes at h
  split at h
  · cases h; exact trans (setLatches s _) (complete _ _ _)
  · cases h

theorem beginTrunkReset (s : State) (h0 : s.trunk.state ≠ .offline) : Kept s s.beginTrunkReset :=
  trans (setTrunk s { s.trunk with
      state := .resetting 0, quiet := 0, skip := false, phase := false, pendingSend := none, stuck := 0 }
    (fun _ b => ⟨by simp, by simp, b.2.2.1, by simp⟩) ⟨by simp, fun e => absurd e h0⟩)
    (inner (Inner.trunkResetDelivered _))

theorem withdrawSend (s : State) : Kept s s.withdrawSend := by
  unfold State.withdrawSend
  split <;> rename_i e
  · exact trans (inner (Inner.setPendingSend s _)) (follow _ _ (by simp [setPendingSend_eq, e]))
  all_goals exact inner (Inner.setPendingSend s _)

/-! ## TrunkEnable -/

theorem enableTrunk (s : State) : Kept s s.enableTrunk :=
  ⟨id, id, id, id, id, fun _ b => ⟨by simp [State.enableTrunk], by simp [State.enableTrunk], b.2.2.1, by
    simp [State.enableTrunk]⟩, fun _ _ => by simp [State.enableTrunk]⟩

theorem disableTrunk (s : State) : Kept s s.disableTrunk := by
  have base : Kept s ((s.setConfig { s.config with trunkEnable := false }).setTrunk
      { s.trunk with state := .offline, quiet := 0, stuck := 0 }) :=
    ⟨id, id, id, id, id, fun _ b => ⟨by simp, by simp, b.2.2.1, by simp⟩, fun _ _ => by simp⟩
  unfold State.disableTrunk
  dsimp only
  split
  · exact trans base (complete _ _ _)
  · exact base

theorem acceptTrunkEnable (s : State) (b : Bool) : Kept s (s.acceptTrunkEnable b) := by
  unfold State.acceptTrunkEnable
  split
  · split
    · exact enableTrunk s
    · exact refl s
  all_goals first
    | exact refl s
    | (split
       · exact refl s
       · exact disableTrunk s)

/-! ## Commands -/

theorem setContinue (s : State) (h0 : ∀ p, s.launcher.phase ≠ .held p) (h1 : s.launcher.phase ≠ .idle) : Kept s s.setContinue :=
  inner (Inner.setLauncher s _ fun _ => ⟨by simp, fun e => absurd e h1, fun p e => absurd e (h0 p)⟩)

theorem setHalt (s : State) (h0 : ∀ p, s.launcher.phase ≠ .held p) (h1 : s.launcher.phase ≠ .idle) : Kept s s.setHalt :=
  inner (Inner.setLauncher s _ fun _ => ⟨by simp, fun e => absurd e h1, fun p e => absurd e (h0 p)⟩)

theorem undoLaunch (s : State) (k : SlotId) : Kept s (s.undoLaunch k) :=
  trans (trans (trans (inner (Inner.undoSend s)) (withdrawSend _)) (inner (Inner.undoOutbound _ _)))
    (inner (Inner.heldAtReopened _ _))

theorem commandStart (s : State) : Kept s s.commandStart := by
  unfold State.commandStart
  split
  · exact complete s _ _
  · split
    · exact trans (inner (Inner.take _ s)) (complete _ _ _)
    · exact trans (inner (Inner.take _ s)) (complete _ _ _)
    all_goals exact complete s _ _

theorem commandContinue (s : State) : Kept s s.commandContinue := by
  unfold State.commandContinue
  split <;> rename_i e
  · exact trans (inner (Inner.take _ s)) (complete _ _ _)
  · exact complete s _ _
  all_goals exact trans (setContinue s (by simp [e]) (by simp [e])) (complete _ _ _)

theorem commandHalt (s : State) : Kept s s.commandHalt := by
  unfold State.commandHalt
  split <;> rename_i e
  · exact complete s _ _
  · exact complete s _ _
  · exact trans (inner (Inner.enterHeld s _)) (complete _ _ _)
  · exact trans (inner (Inner.heldAtReopened s _)) (complete _ _ _)
  · exact trans (inner (Inner.heldAtReopened s _)) (complete _ _ _)
  · exact trans (inner (Inner.heldAtReopened s _)) (complete _ _ _)
  · split
    · exact trans (setHalt s (by simp [e]) (by simp [e])) (complete _ _ _)
    · exact trans (inner (Inner.heldAtReopened s _)) (complete _ _ _)
  · exact trans (undoLaunch s _) (complete _ _ _)
  · exact trans (setHalt s (by simp [e]) (by simp [e])) (complete _ _ _)

theorem commandWithdraw (s : State) : Kept s s.commandWithdraw := by
  unfold State.commandWithdraw
  split
  · exact complete s _ _
  · exact trans (inner (Inner.withdrawTag s _)) (complete _ _ _)

theorem commandTakeBlock (s : State) : Kept s s.commandTakeBlock := by
  unfold State.commandTakeBlock
  split
  · split
    · exact complete s _ _
    · exact trans (inner (Inner.setPool_data s _ (by simp))) (complete _ _ _)
  · exact complete s _ _

theorem commandFreeChain (s : State) : Kept s s.commandFreeChain := by
  unfold State.commandFreeChain
  split
  · exact complete s _ _
  · split
    · exact trans (inner (Inner.trans (Inner.freeBlocks s _) (Inner.reevaluate _))) (complete _ _ _)
    · exact complete s _ _

theorem commandFence (s : State) : Kept s s.commandFence := by
  unfold State.commandFence
  split
  · exact complete s _ _
  · exact trans (inner (Inner.updateStation s _ _)) (complete _ _ _)

theorem commandAdmit (s : State) : Kept s s.commandAdmit := by
  unfold State.commandAdmit
  split
  · exact complete s _ _
  · split
    · exact trans (inner (Inner.updateStation s _ _)) (complete _ _ _)
    · exact complete s _ _

theorem commandClearCounters (s : State) : Kept s s.commandClearCounters := by
  unfold State.commandClearCounters
  split
  · exact trans (inner (Inner.setCounters s _)) (complete _ _ _)
  · exact complete s _ _

theorem commandTrunkReset (s : State) : Kept s s.commandTrunkReset := by
  unfold State.commandTrunkReset
  split <;> rename_i e
  · exact complete s _ _
  all_goals exact beginTrunkReset s (by simp [e])

theorem commandSoftReset (s : State) : Kept s s.commandSoftReset where
  config := id
  mask := id
  queue := fun _ => by simp [State.commandSoftReset, Reports.bounded, Reports.reset]
  flags := fun _ => by simp [State.commandSoftReset, Launcher.exclusive, Launcher.reset]
  memory := fun _ => rfl
  trunk := fun _ _ => by
    simp only [State.commandSoftReset, Settings.softTrunk, Trunk.bounded]
    refine ⟨by simp, by simp, by simp, ?_⟩
    intro g st limit n
    split <;> simp
  enable := fun _ _ => by
    simp only [State.commandSoftReset, Settings.softTrunk]
    cases s.config.trunkEnable <;> simp

/-- The queue with its head removed, refilled from the backlog, is inside its bound again (R135, R137). -/
theorem refill_bounded (r : Reports) (x : Report) (rest : List Report) (h : r.bounded) (e : r.queue = x :: rest) (q : Reports)
    (hq : q.queue = rest) (hb : q.backlog = r.backlog) : q.refill.settle.bounded := by
  have step : q.refill.bounded := by
    unfold Reports.refill
    split
    · rename_i hn
      refine ⟨?_, fun c => absurd hn c⟩
      have := h.1
      rw [e, List.length_cons] at this
      rw [hq]
      omega
    · rename_i y ys hn
      have h32 : r.queue.length = 32 := h.2 (by rw [← hb, hn]; simp)
      rw [e, List.length_cons] at h32
      refine ⟨?_, fun _ => ?_⟩ <;> simp only [List.length_append, List.length_singleton, hq] <;> omega
  unfold Reports.settle
  split
  · exact step
  · exact step

theorem refill_mask (r : Reports) : r.refill.settle.mask = r.mask := by
  have h : r.refill.mask = r.mask := by
    unfold Reports.refill
    split <;> rfl
  unfold Reports.settle
  split
  · exact h
  · exact h

/-- The effects of a POP leave the Report Queue alone (R138). -/
theorem popEffects_reports (s : State) (r : Report) : (s.popEffects r).reports = s.reports := by
  unfold State.popEffects
  split
  · split
    · unfold State.exchangePopped
      split <;> rfl
    · rfl
  · split <;> rfl
  · rfl
  · rfl

theorem commandPop (s : State) : Kept s s.commandPop := by
  unfold State.commandPop
  split
  · exact complete s _ _
  · rename_i r rest e
    dsimp only
    refine trans (trans ?_ (complete _ _ _)) (inner (Inner.reevaluate _))
    have hi := Inner.popEffects (s.setReports { s.reports with queue := rest }) r
    have hr := popEffects_reports (s.setReports { s.reports with queue := rest }) r
    refine ⟨?_, ?_, ?_, ?_, ?_, ?_, ?_⟩
    · simp only [setReports_config, hi.config]; exact id
    · simp only [setReports_reports, refill_mask, hr]; exact id
    · intro h
      exact refill_bounded s.reports r rest h e _ (by rw [hr]; rfl) (by rw [hr]; rfl)
    · exact hi.flags
    · exact hi.memory
    · simp only [setReports_trunk]
      rw [hi.trunk]
      exact fun _ => id
    · intro h hn
      have h2 := h (hi.nreset.symm.trans hn)
      simp only [setReports_trunk, setReports_config]
      rw [hi.config, hi.trunk]
      exact h2

theorem dispatch (s : State) (code : Byte) : Kept s (s.dispatch code) := by
  unfold State.dispatch
  split
  · exact commandStart s
  · exact commandContinue s
  · exact commandHalt s
  · exact commandWithdraw s
  · exact commandPop s
  · exact commandTakeBlock s
  · exact commandFreeChain s
  · exact commandFence s
  · exact commandAdmit s
  · exact commandTrunkReset s
  · exact commandClearCounters s
  · exact commandSoftReset s
  · exact complete s _ _

theorem writeCommand (s : State) (code : Byte) : Kept s (s.writeCommand code) := by
  unfold State.writeCommand
  split
  · exact setLatches s _
  · exact trans (setPort s _) (dispatch _ code)

/-! ## The window -/

theorem writeSlotSelect (s : State) (v : Byte) : Kept s (s.writeSlotSelect v) := by
  unfold State.writeSlotSelect
  split
  · exact setSel s _
  · exact windowFault s _

theorem writeSlotIndex (s : State) (v : Byte) : Kept s (s.writeSlotIndex v) := by
  unfold State.writeSlotIndex
  split
  · exact setSel s _
  · exact windowFault s _

theorem writeSlotData (s : State) (v : Byte) : Kept s (s.writeSlotData v) := by
  unfold State.writeSlotData
  split
  · exact trans (inner (Inner.setSlot s _ _)) (setSel _ _)
  · exact trans (windowFault s _) (setSel _ _)

theorem writeReportIndex (s : State) (v : Byte) : Kept s (s.writeReportIndex v) := by
  unfold State.writeReportIndex
  split
  · exact setSel s _
  · exact windowFault s _

theorem writeStationSelect (s : State) (v : Byte) : Kept s (s.writeStationSelect v) := by
  unfold State.writeStationSelect
  split
  · exact setSel s _
  · exact windowFault s _

theorem writeStationIndex (s : State) (v : Byte) : Kept s (s.writeStationIndex v) := by
  unfold State.writeStationIndex
  split
  · exact setSel s _
  · exact windowFault s _

theorem writeBlockSelect (s : State) (v : Byte) : Kept s (s.writeBlockSelect v) := by
  unfold State.writeBlockSelect
  split
  · exact setSel s _
  · exact windowFault s _

theorem writeBlockOffset (s : State) (v : Byte) : Kept s (s.writeBlockOffset v) := by
  unfold State.writeBlockOffset
  split
  · exact setSel s _
  · exact windowFault s _

theorem readBlockData (s : State) : Kept s s.readBlockData := by
  unfold State.readBlockData
  split
  · exact setSel s _
  · exact trans (windowFault s _) (setSel _ _)

theorem writeBlockData (s : State) (v : Byte) : Kept s (s.writeBlockData v) := by
  unfold State.writeBlockData
  split
  · exact trans (inner (Inner.setPool s _ fun w => Pool.store_wf _ _ _ _ w)) (setSel _ _)
  · exact trans (windowFault s _) (setSel _ _)

theorem writeBlockLink (s : State) (v : Byte) : Kept s (s.writeBlockLink v) := by
  unfold State.writeBlockLink
  split
  · split
    · exact inner (Inner.setPool_data s _ rfl)
    · split
      · exact inner (Inner.setPool_data s _ rfl)
      · exact windowFault s _
  · exact windowFault s _

theorem writeConfigIndex (s : State) (v : Byte) : Kept s (s.writeConfigIndex v) := by
  unfold State.writeConfigIndex
  split
  · exact setSel s _
  · exact windowFault s _

/-- A configuration in range that leaves TrunkEnable as it was. -/
theorem setConfig (s : State) (c : Settings) (h : s.config.inRange → c.inRange) (he : c.trunkEnable = s.config.trunkEnable) :
    Kept s (s.setConfig c) :=
  ⟨h, id, id, id, id, fun _ => id, fun k r => by simp only [setConfig_config, he]; exact k r⟩

theorem writeDividerLow (s : State) (v : Byte) : Kept s (s.writeDividerLow v) := by
  unfold State.writeDividerLow
  split
  · exact windowFault s _
  · exact setPort s _

theorem writeDividerHigh (s : State) (v : Byte) : Kept s (s.writeDividerHigh v) := by
  unfold State.writeDividerHigh
  dsimp only
  split
  · exact windowFault s _
  · rename_i h
    split
    · exact windowFault s _
    · exact setConfig s _ (fun c => ⟨⟨by simp only; omega, by simp only; omega⟩, c.2⟩) rfl

theorem writeTrunkEnable (s : State) (v : Byte) : Kept s (s.writeTrunkEnable v) := by
  unfold State.writeTrunkEnable
  split
  · exact windowFault s _
  · split
    · exact windowFault s _
    · exact acceptTrunkEnable s _

/-- An accepted item leaves the configuration in range and TrunkEnable as it was (R158). -/
theorem writeItem_range (c d : Settings) (i : Fin 12) (v : Byte) (h : c.writeItem i v = some d) :
    (c.inRange → d.inRange) ∧ d.trunkEnable = c.trunkEnable := by
  have hv := v.isLt
  unfold Settings.writeItem at h
  dsimp only at h
  split at h
  · cases e : ClaimPolicy.ofCode v.toNat with
    | none => simp [e] at h
    | some p =>
      simp only [e, Option.map_some, Option.some.injEq] at h
      subst h
      exact ⟨id, rfl⟩
  all_goals first
    | (split at h
       · cases h
         refine ⟨fun r => ?_, rfl⟩
         unfold Settings.inRange at r ⊢
         simp only at r ⊢
         omega
       · cases h)
    | (cases h
       refine ⟨fun r => ?_, rfl⟩
       unfold Settings.inRange at r ⊢
       simp only at r ⊢
       omega)
    | cases h

theorem writeItem (s : State) (i : Fin 12) (v : Byte) : Kept s (s.writeItem i v) := by
  unfold State.writeItem
  split
  · rename_i c e
    exact setConfig s c (writeItem_range _ _ _ _ e).1 (writeItem_range _ _ _ _ e).2
  · exact windowFault s _

theorem writeConfigData (s : State) (v : Byte) : Kept s (s.writeConfigData v) := by
  unfold State.writeConfigData
  split
  · exact writeDividerLow s v
  · exact writeDividerHigh s v
  · exact writeTrunkEnable s v
  · exact writeItem s _ v

theorem writeMask (s : State) (v : Byte) : Kept s (s.writeMask v) := by
  unfold State.writeMask
  split
  · exact windowFault s _
  · rename_i h
    simp only [Bool.or_eq_true, not_or, Bool.not_eq_true] at h
    exact ⟨id, fun _ => h, id, id, id, fun _ => id, id⟩

theorem writeCounterIndex (s : State) (v : Byte) : Kept s (s.writeCounterIndex v) := by
  unfold State.writeCounterIndex
  split
  · exact trans (setSel s _) (inner (Inner.setCounters _ _))
  · exact windowFault s _

theorem readCounter (s : State) : Kept s s.readCounter := by
  unfold State.readCounter
  split <;> exact inner (Inner.setCounters s _)

theorem writeWindow (s : State) (a : BitVec 5) (v : Byte) : Kept s (s.writeWindow a v) := by
  unfold State.writeWindow
  split
  · exact setLatches s _
  · exact writeMask s v
  · exact writeCommand s v
  · exact setPort s _
  · exact setPort s _
  · exact writeSlotSelect s v
  · exact writeSlotIndex s v
  · exact writeSlotData s v
  · exact writeReportIndex s v
  · exact writeStationSelect s v
  · exact writeStationIndex s v
  · exact writeBlockSelect s v
  · exact writeBlockOffset s v
  · exact writeBlockData s v
  · exact writeBlockLink s v
  · exact writeConfigIndex s v
  · exact writeConfigData s v
  · exact writeCounterIndex s v
  · exact refl s
  · exact refl s
  · exact refl s
  · exact windowFault s _

/-! ## Ticks -/

theorem tick (s : State) (o : TickOrder) : Kept s (s.tick o) := by
  have base : Kept s (s.setTrunk { s.trunk with heartbeat := 0 }) :=
    setTrunk s _ (fun _ b => ⟨b.1, b.2.1, by simp, b.2.2.2⟩) Iff.rfl
  unfold State.tick
  dsimp only
  split
  · exact trans base (inner (Inner.trans (Inner.reportsTick _) (Inner.tableTick _ _)))
  · exact trans base (inner (Inner.trans (Inner.tableTick _ _) (Inner.reportsTick _)))

theorem deadlineExpires (s t : State) (g : Tag) (h : s.deadlineExpires g = some t) : Kept s t := by
  unfold State.deadlineExpires at h
  split at h
  · split at h
    · cases h; exact inner (Inner.deadlineTick s g)
    · cases h
  · split at h
    · cases h; exact inner (Inner.deadlineTick s g)
    · cases h
  all_goals cases h

theorem restEnds (s t : State) (g : Tag) (h : s.restEnds g = some t) : Kept s t := by
  unfold State.restEnds at h
  split at h
  · split at h
    · cases h; exact inner (Inner.restTick s g)
    · cases h
  all_goals cases h

theorem coalescingExpires (s t : State) (h : s.coalescingExpires = some t) : Kept s t := by
  unfold State.coalescingExpires at h
  split at h
  · split at h
    · cases h; exact inner (Inner.reportsTick s)
    · cases h
  · cases h

/-! ## The shells of the rows -/

/-- A bus write keeps what its effect keeps. -/
theorem busWrite {f : State → State} (h : ∀ s, Kept s (f s)) (s t : State) (e : Machine.busWrite f s = .next t) : Kept s t := by
  unfold Machine.busWrite at e
  cases e
  split
  · exact h s
  · exact refl s

/-- A bus read keeps what its effect keeps. -/
theorem busRead {value : State → Byte} {f : State → State} (h : ∀ s, Kept s (f s)) (s t : State)
    (e : Machine.busRead value f s = .next t) : Kept s t := by
  unfold Machine.busRead at e
  cases e
  refine trans ?_ (setBus _ _)
  split
  · exact h s
  · exact refl s

/-- An event row keeps what its effect keeps. -/
theorem occurs {name : String} {f : State → Option State} (h : ∀ s t, f s = some t → Kept s t) (s t : State)
    (e : Machine.occurs name f s = .next t) : Kept s t := by
  unfold Machine.occurs at e
  split at e
  · split at e
    · rename_i u hu
      cases e
      exact h s _ hu
    · cases e
  · cases e

end Kept

end Sys2Proof.Machine
end

