-- ==== Sys2Proof/Laws/BitTime.lean ====
section
/-! SUPPORT. What each part of a bit time keeps. -/

namespace Sys2Proof.Machine

open Sys2Proof

namespace Kept

theorem settlingBit (s : State) (b : Bool) (e : s.trunk.state = .settling) :
    Kept s (s.settlingBit b) := by
  unfold State.settlingBit
  split
  · exact getD (startBitSeen s) (refl s)
  · dsimp only
    split
    · rename_i h
      have h2 : (s.setTrunk { s.trunk with quiet := s.trunk.quiet + 1 }).lineFallsIdle =
          some (s.setTrunk { s.trunk with quiet := s.trunk.quiet + 1 }).enterLineIdle := by
        simp [State.lineFallsIdle, e]
      rw [h2]
      exact trans (setTrunk s { s.trunk with state := .idle, quiet := 0, skip := false }
        (fun _ b => ⟨by simp, b.2.1, b.2.2.1, by simp⟩) ⟨by simp, fun x => by simp [e] at x⟩) (setPort _ _)
    · rename_i h
      simp only [setTrunk_trunk, Nat.not_le] at h
      exact setTrunk s _ (fun _ b => ⟨by simp only; omega, b.2.1, b.2.2.1, b.2.2.2⟩) Iff.rfl

theorem faultBit (s : State) (b : Bool) (e : s.trunk.state = .fault) : Kept s (s.faultBit b) := by
  unfold State.faultBit
  split
  · exact setTrunk s _ (fun _ b => ⟨by simp, b.2.1, b.2.2.1, b.2.2.2⟩) Iff.rfl
  · dsimp only
    split
    · have h2 : (s.setTrunk { s.trunk with quiet := s.trunk.quiet + 1 }).faultClears =
          some ((s.setTrunk { s.trunk with quiet := s.trunk.quiet + 1 }).setTrunk
            { s.trunk with quiet := s.trunk.quiet + 1, stuck := 0 }).enterLineIdle := by
        simp [State.faultClears, e]
      rw [h2]
      exact trans (setTrunk s { s.trunk with state := .idle, quiet := 0, skip := false, stuck := 0 }
        (fun _ b => ⟨by simp, by simp, b.2.2.1, by simp⟩) ⟨by simp, fun x => by simp [e] at x⟩) (setPort _ _)
    · rename_i h
      simp only [setTrunk_trunk, Nat.not_le] at h
      exact setTrunk s _ (fun _ b => ⟨by simp only; omega, b.2.1, b.2.2.1, b.2.2.2⟩) Iff.rfl

theorem idleBit (s : State) (b : Bool) (h0 : s.trunk.state ≠ .offline) : Kept s (s.idleBit b) := by
  unfold State.idleBit
  split
  · exact follow s _ h0
  · exact refl s

theorem arbitrationBit (s : State) (c : Contention) (b : Bool) (h0 : s.trunk.state ≠ .offline) :
    Kept s (s.arbitrationBit c b) := by
  unfold State.arbitrationBit
  split
  · exact getD (fun t => lose s t _) (refl s)
  · split
    · exact getD (fun t => lose s t _) (refl s)
    · split
      · exact getD (win s) (refl s)
      · exact setTrunkState s _ h0 (by simp) (by simp)

theorem transmitBit (s : State) (f : Outgoing) (p : Nat) (d b : Bool) (h0 : s.trunk.state ≠ .offline) :
    Kept s (s.transmitBit f p d b) := by
  unfold State.transmitBit
  split
  · exact getD (frameCut s) (refl s)
  · split
    · exact setTrunkState s _ h0 (by simp) (by simp)
    · split
      · exact getD (requestOut s) (refl s)
      · exact getD (noticeOut s) (refl s)

theorem answerBit (s : State) (g : Tag) (st : StationId) (limit n : Nat) (b : Bool)
    (e : s.trunk.state = .answerWait g st limit n) : Kept s (s.answerBit g st limit n b) := by
  have base : Kept s (s.setTrunkState (.answerWait g st limit (n + 1))) :=
    setTrunkState s _ (by simp [e]) (by simp) fun _ _ l _ x _ y => by
      cases x
      exact y.2.2.2 _ _ _ _ e
  unfold State.answerBit
  split
  · exact getD (startBitSeen s) (refl s)
  · dsimp only
    split
    · exact getD (fun t h => trans base (trans (inner (Inner.nextChoice _)) (answerWindowExpired _ t _ h))) base
    · exact base

theorem replyBit (s : State) (r : Reply) (p : ReplyProgress) (d b : Bool) (h0 : s.trunk.state ≠ .offline) :
    Kept s (s.replyBit r p d b) := by
  unfold State.replyBit
  split
  · split
    · exact getD (replyStarts s) (refl s)
    · exact setTrunkState s _ h0 (by simp) (by simp)
  · split
    · exact getD (replyCut s) (refl s)
    · split
      · exact setTrunkState s _ h0 (by simp) (by simp)
      · exact getD (replyOut s) (refl s)

theorem markBit (s : State) (n : Nat) (h0 : s.trunk.state ≠ .offline) : Kept s (s.markBit n) := by
  unfold State.markBit
  split
  · exact setTrunkState s _ h0 (by simp) (by simp)
  · exact getD (markEnds s) (refl s)

theorem receptionSettled (s : State) (r : Reception) : Kept s (s.receptionSettled r) := by
  unfold State.receptionSettled
  split
  · split
    · exact getD (malformedEnded s) (refl s)
    · exact refl s
  · split
    · exact getD (frameEnded s) (refl s)
    · exact refl s

theorem characterBitIn (s : State) (r : Reception) (n : Nat) (v : Byte) (b : Bool) (h0 : s.trunk.state ≠ .offline) :
    Kept s (s.characterBitIn r n v b) := by
  unfold State.characterBitIn
  split
  · exact setReception s _ h0
  · cases h : s.characterIn v (!b) with
    | none => exact refl s
    | some t =>
      have base := trans (characterIn s t v _ h) (handDue t)
      simp only [Option.map_some]
      split
      · exact trans base (receptionSettled _ _)
      all_goals exact base

theorem gapBit (s : State) (r : Reception) (b : Bool) (h0 : s.trunk.state ≠ .offline) : Kept s (s.gapBit r b) := by
  have base := setReception s { r with gap := r.gap + 1 } h0
  unfold State.gapBit
  split
  · exact getD (startBitSeen s) (refl s)
  · dsimp only
    split
    · exact getD (fun t h => trans base (gapExpired _ t h)) base
    · exact base

theorem receivingBit (s : State) (r : Reception) (b : Bool) (h0 : s.trunk.state ≠ .offline) : Kept s (s.receivingBit r b) := by
  have base := fun r => setReception s r h0
  have h1 : ∀ r, (s.setReception r).trunk.state ≠ .offline := fun r => by simp [setReception_eq]
  unfold State.receivingBit
  dsimp only
  split
  · exact trans (base _) (setReception _ _ (h1 _))
  · split
    · exact trans (base _) (receptionSettled _ _)
    · split
      · exact trans (base _) (characterBitIn _ _ _ _ _ (h1 _))
      · exact trans (base _) (gapBit _ _ _ (h1 _))

theorem stateBit (s : State) (d b : Bool) : Kept s (s.stateBit d b) := by
  unfold State.stateBit
  split <;> rename_i e
  · exact refl s
  · exact settlingBit s b e
  · exact idleBit s b (by simp [e])
  · exact arbitrationBit s _ b (by simp [e])
  · exact transmitBit s _ _ d b (by simp [e])
  · exact answerBit s _ _ _ _ b e
  · exact receivingBit s _ b (by simp [e])
  · exact replyBit s _ _ d b (by simp [e])
  · exact markBit s _ (by simp [e])
  · exact faultBit s b e

theorem stuckBit (s : State) (c b : Bool) : Kept s (s.stuckBit c b) := by
  have base : Kept s (s.setTrunk { s.trunk with stuck := stuckAfter s.trunk.stuck b }) :=
    setTrunk s _ (fun _ h => ⟨h.1, by
      simp only [stuckAfter]
      split
      · split <;> omega
      · omega, h.2.2.1, h.2.2.2⟩) Iff.rfl
  unfold State.stuckBit
  split
  · dsimp only
    split
    · exact getD (fun t h => trans base (sticks _ t h)) base
    · exact base
  · exact refl s

theorem boundary (s : State) : Kept s s.boundary := getD (claim s) (refl s)

theorem lineEvents (s : State) (c d b : Bool) : Kept s (s.lineEvents c d b) := by
  unfold State.lineEvents
  have base := trans (stateBit s d b) (stuckBit _ c b)
  exact getD (fun t h => trans base (trunkResetCompletes _ t h)) base

theorem lineBitWith {f : State → State} (h : ∀ s, Kept s (f s)) (s : State) : Kept s (s.lineBitWith f) := by
  unfold State.lineBitWith
  exact trans (boundary s) (trans (dropInput _) (trans (h _) (lineEvents _ _ _ _)))

theorem lineBit (s : State) : Kept s s.lineBit := lineBitWith refl s

theorem beat (s : State) (h : s.trunk.heartbeat < 4095) : Kept s s.beat :=
  setTrunk s _ (fun _ b => ⟨b.1, b.2.1, by simp only; omega, b.2.2.2⟩) Iff.rfl

theorem tickBit (s : State) : Kept s s.tickBit := by
  have base : Kept s s.nextChoice.nextChoice.nextChoice :=
    inner (Inner.trans (Inner.trans (Inner.nextChoice s) (Inner.nextChoice _)) (Inner.nextChoice _))
  unfold State.tickBit
  dsimp only
  split
  · exact trans base (lineBitWith (fun s => tick s _) _)
  · exact trans base (trans (lineBit _) (tick _ _))

end Kept

end Sys2Proof.Machine
end

