-- ==== Sys2Proof/Laws/Pool.lean ====
section
/-! SUPPORT. The Block Pool: what its operations do to ownership and links, and what the walks along a chain find. -/

namespace Sys2Proof.Machine

open Sys2Proof

/-- Reading a vector after setting one place of it. -/
theorem getElem_setFin {α : Type} {n : Nat} (v : Vector α n) (i j : Fin n) (x : α) :
    (v.set i x)[j] = if j = i then x else v[j] := by
  simp only [Fin.getElem_fin, Vector.getElem_set]
  by_cases h : j = i
  · subst h; simp
  · rw [if_neg h, if_neg fun e => h (Fin.ext e.symm)]

namespace Pool

variable (p : Pool)

theorem setOwner_owner (b c : BlockId) (o : Owner) : (p.setOwner b o).owner[c] = if c = b then o else p.owner[c] :=
  getElem_setFin p.owner b c o

theorem setLink_link (b c : BlockId) (l : Option BlockId) : (p.setLink b l).link[c] = if c = b then l else p.link[c] :=
  getElem_setFin p.link b c l

theorem setOwners_owner (bs : List BlockId) (o : Owner) (c : BlockId) :
    (p.setOwners bs o).owner[c] = if c ∈ bs then o else p.owner[c] := by
  induction bs generalizing p with
  | nil => simp [setOwners]
  | cons b bs ih =>
    rw [setOwners, ih, setOwner_owner]
    by_cases h : c ∈ bs <;> by_cases g : c = b <;> simp [h, g]

theorem appendFree_owner (b c : BlockId) : (p.appendFree b).owner[c] = if c = b then .free else p.owner[c] :=
  setOwner_owner p b c .free

theorem appendFree_link (b c : BlockId) : (p.appendFree b).link[c] = if c = b then none else p.link[c] :=
  setLink_link (p.setOwner b .free) b c none

/-- Freed blocks are FREE (R103). -/
theorem appendAll_owner (bs : List BlockId) (c : BlockId) :
    (p.appendAll bs).owner[c] = if c ∈ bs then .free else p.owner[c] := by
  induction bs generalizing p with
  | nil => simp [appendAll]
  | cons b bs ih =>
    rw [appendAll, ih, appendFree_owner]
    by_cases h : c ∈ bs <;> by_cases g : c = b <;> simp [h, g]

/-- Freed blocks link to END (R103). -/
theorem appendAll_link (bs : List BlockId) (c : BlockId) :
    (p.appendAll bs).link[c] = if c ∈ bs then none else p.link[c] := by
  induction bs generalizing p with
  | nil => simp [appendAll]
  | cons b bs ih =>
    rw [appendAll, ih, appendFree_link]
    by_cases h : c ∈ bs <;> by_cases g : c = b <;> simp [h, g]

theorem linkChain_link_other (bs : List BlockId) (c : BlockId) (h : c ∉ bs) : (p.linkChain bs).link[c] = p.link[c] := by
  induction bs generalizing p with
  | nil => rfl
  | cons b bs ih =>
    have hb : c ≠ b := fun e => h (by simp [e])
    cases bs with
    | nil => rw [linkChain, setLink_link, if_neg hb]
    | cons d bs => rw [linkChain, ih _ fun m => h (List.mem_cons_of_mem _ m), setLink_link, if_neg hb]

/-- Blocks linked in order follow one another, and the last links to END. -/
theorem linkChain_chained (bs : List BlockId) (h : bs.Nodup) :
    (p.linkChain bs).chained bs ∧ ∀ b, bs.getLast? = some b → (p.linkChain bs).link[b] = none := by
  induction bs generalizing p with
  | nil => exact ⟨trivial, fun _ e => by simp at e⟩
  | cons b bs ih =>
    cases bs with
    | nil =>
      refine ⟨trivial, fun c e => ?_⟩
      simp only [List.getLast?_singleton, Option.some.injEq] at e
      subst e
      rw [linkChain, setLink_link, if_pos rfl]
    | cons c bs =>
      obtain ⟨hb, hn⟩ := List.nodup_cons.mp h
      refine ⟨⟨?_, (ih _ hn).1⟩, fun d e => (ih _ hn).2 d (by simpa using e)⟩
      rw [linkChain, linkChain_link_other _ _ _ hb, setLink_link, if_pos rfl]

/-- A take of the head of the free list: owners, links, chain (R103, R113). -/
theorem take_owner (n : Nat) (o : Owner) (b : BlockId) :
    (p.take n o).owner[b] = if b ∈ p.freeList.take n then o else p.owner[b] := by
  unfold take
  rw [linkChain_owner, setOwners_owner]

theorem take_link_other (n : Nat) (o : Owner) (b : BlockId) (h : b ∉ p.freeList.take n) :
    (p.take n o).link[b] = p.link[b] := by
  unfold take
  rw [linkChain_link_other _ _ _ h, setOwners_link]

theorem take_chained (n : Nat) (o : Owner) (h : p.freeList.Nodup) :
    (p.take n o).chained (p.freeList.take n) ∧
    ∀ b, (p.freeList.take n).getLast? = some b → (p.take n o).link[b] = none :=
  linkChain_chained _ _ (h.sublist (List.take_sublist n _))

/-! ## Walks -/

/-- The first `n` blocks from `b`, when they follow one another by their links. -/
theorem chain_of_chained (n : Nat) (b : BlockId) (bs : List BlockId) (hl : bs.length = n + 1) (hh : bs.head? = some b)
    (hc : p.chained bs) : p.chain (n + 1) b = bs := by
  induction n generalizing b bs with
  | zero =>
    match bs, hl with
    | [c], _ =>
      cases hh
      unfold chain
      split <;> rfl
  | succ n ih =>
    match bs, hl with
    | c :: d :: ds, hl =>
      cases hh
      unfold chain
      rw [hc.1]
      show b :: p.chain (n + 1) d = _
      rw [ih d (d :: ds) (by simpa using hl) rfl hc.2]

/-- The validity walk passes exactly when a chain of that many blocks starts there: linked, the processor's, none met twice
(R80). -/
theorem walkValid_iff (n : Nat) (b : BlockId) (seen : List BlockId) :
    p.walkValid (n + 1) b seen = true ↔
      ∃ bs, bs.length = n + 1 ∧ bs.head? = some b ∧ p.chained bs ∧ p.processorHolds bs ∧ bs.Nodup ∧ ∀ c ∈ bs, c ∉ seen := by
  induction n generalizing b seen with
  | zero =>
    simp only [walkValid, Bool.and_eq_true, beq_iff_eq, Bool.not_eq_true', List.contains_eq_mem, decide_eq_false_iff_not,
      beq_self_eq_true, Bool.true_or, and_true]
    constructor
    · rintro ⟨ho, hs⟩
      exact ⟨[b], rfl, rfl, trivial, by simpa [processorHolds] using ho, by simp, by simpa using hs⟩
    · rintro ⟨bs, hl, hh, _, ho, _, hs⟩
      match bs, hl with
      | [c], _ =>
        cases hh
        exact ⟨ho b (by simp), hs b (by simp)⟩
  | succ n ih =>
    rw [walkValid]
    simp only [Bool.and_eq_true, beq_iff_eq, Bool.not_eq_true', List.contains_eq_mem, decide_eq_false_iff_not]
    have hz : (n + 1 == 0) = false := rfl
    rw [hz, Bool.false_or]
    constructor
    · rintro ⟨⟨ho, hs⟩, h⟩
      cases e : p.link[b] with
      | none => rw [e] at h; simp at h
      | some c =>
        rw [e] at h
        obtain ⟨bs, hl, hh, hc, hp, hn, hd⟩ := (ih c (b :: seen)).mp h
        match bs, hh with
        | d :: ds, hh =>
          cases hh
          refine ⟨b :: c :: ds, by simpa using hl, rfl, ⟨e, hc⟩, ?_, ?_, ?_⟩
          · intro x hx
            rcases List.mem_cons.mp hx with rfl | hx
            · exact ho
            · exact hp x hx
          · refine List.nodup_cons.mpr ⟨fun hx => ?_, hn⟩
            exact hd b hx (by simp)
          · intro x hx
            rcases List.mem_cons.mp hx with rfl | hx
            · exact hs
            · exact fun m => hd x hx (List.mem_cons_of_mem _ m)
    · rintro ⟨bs, hl, hh, hc, hp, hn, hd⟩
      match bs, hl with
      | x :: c :: ds, hl =>
        cases hh
        refine ⟨⟨hp b (by simp), hd b (by simp)⟩, ?_⟩
        rw [hc.1]
        show p.walkValid (n + 1) c (b :: seen) = true
        refine (ih c (b :: seen)).mpr
          ⟨c :: ds, by simpa using hl, rfl, hc.2, fun x hx => hp x (List.mem_cons_of_mem _ hx), (List.nodup_cons.mp hn).2, ?_⟩
        intro x hx m
        rcases List.mem_cons.mp m with rfl | m
        · exact (List.nodup_cons.mp hn).1 hx
        · exact hd x (List.mem_cons_of_mem _ hx) m

/-! ## FREE CHAIN's walk (R107) -/

/-- The walk frees a whole chain of the processor's that ends within the visits left. -/
theorem freeWalk_ok (n : Nat) (b last : BlockId) (bs : List BlockId) (hh : bs.head? = some b) (hL : bs.getLast? = some last)
    (hc : p.chained bs) (hp : p.processorHolds bs) (hn : bs.length ≤ n) (he : p.link[last] = none) : p.freeWalk n b = .ok bs := by
  induction bs generalizing n b with
  | nil => cases hh
  | cons c bs ih =>
    cases hh
    match n, hn with
    | n + 1, hn =>
      rw [freeWalk, if_pos (hp c (by simp))]
      cases bs with
      | nil =>
        simp only [List.getLast?_singleton, Option.some.injEq] at hL
        subst hL
        rw [he]
      | cons d ds =>
        rw [hc.1]
        dsimp only
        have : n ≠ 0 := by simp at hn; omega
        rw [if_neg this, ih n d rfl (by simpa using hL) hc.2 (fun x hx => hp x (List.mem_cons_of_mem _ hx)) (by simpa using hn) he]

/-- The walk stops at the last block it may visit when that one does not end the chain. -/
theorem freeWalk_long (n : Nat) (b last : BlockId) (bs : List BlockId) (hh : bs.head? = some b) (hL : bs.getLast? = some last)
    (hc : p.chained bs) (hp : p.processorHolds bs) (hn : bs.length = n) (he : p.link[last] ≠ none) :
    p.freeWalk n b = .error (.chainTooLong, last) := by
  induction bs generalizing n b with
  | nil => cases hh
  | cons c bs ih =>
    cases hh
    match n, hn with
    | n + 1, hn =>
      rw [freeWalk, if_pos (hp c (by simp))]
      cases bs with
      | nil =>
        simp only [List.getLast?_singleton, Option.some.injEq] at hL
        subst hL
        cases e : p.link[c] with
        | none => exact absurd e he
        | some x =>
          have : n = 0 := by simpa using hn.symm
          simp [this]
      | cons d ds =>
        rw [hc.1]
        dsimp only
        have : n ≠ 0 := by simp at hn; omega
        rw [if_neg this, ih n d rfl (by simpa using hL) hc.2 (fun x hx => hp x (List.mem_cons_of_mem _ hx)) (by simpa using hn) he]

/-- The walk stops at the first block that is not the processor's. -/
theorem freeWalk_not_processor (n : Nat) (b last : BlockId) (bs : List BlockId) (hh : (bs ++ [last]).head? = some b)
    (hc : p.chained (bs ++ [last])) (hp : p.processorHolds bs) (hn : bs.length < n) (ho : p.owner[last] ≠ .processor) :
    p.freeWalk n b = .error (.notProcessor, last) := by
  induction bs generalizing n b with
  | nil =>
    cases hh
    match n, hn with
    | n + 1, _ => rw [freeWalk, if_neg ho]
  | cons c bs ih =>
    cases hh
    match n, hn with
    | n + 1, hn =>
      rw [freeWalk, if_pos (hp c (by simp))]
      have next : ∃ d, (bs ++ [last]).head? = some d ∧ p.link[c] = some d ∧ p.chained (bs ++ [last]) := by
        cases bs with
        | nil => exact ⟨last, rfl, hc.1, hc.2⟩
        | cons d ds => exact ⟨d, rfl, hc.1, hc.2⟩
      obtain ⟨d, hd, hl, hcd⟩ := next
      rw [hl]
      dsimp only
      have : n ≠ 0 := by simp at hn; omega
      rw [if_neg this, ih n d hd hcd (fun x hx => hp x (List.mem_cons_of_mem _ hx)) (by simpa using hn) ho]

end Pool

end Sys2Proof.Machine
end

