-- ==== Sys2Proof/Laws/Launch.lean ====
section
/-! SUPPORT. The launch checks: what the look-ups find, when a slot is valid, and what taking a slot comes to. -/

namespace Sys2Proof.Machine

open Sys2Proof

/-! ## Look-ups -/

theorem stationOf_none {n : Nat} : stationOf n = none ↔ n = 0 ∨ 14 < n := by
  unfold stationOf
  split
  · simp only [reduceCtorEq, false_iff]
    omega
  · simp only [true_iff]
    omega

theorem stationOf_some {n : Nat} {i : StationId} : stationOf n = some i ↔ n = i.address := by
  have := i.isLt
  unfold stationOf StationId.address
  split
  · simp only [Option.some.injEq, Fin.ext_iff]
    omega
  · simp only [reduceCtorEq, false_iff]
    omega

theorem slotOf_none {n : Nat} : slotOf n = none ↔ 32 ≤ n := by
  unfold slotOf
  split
  · simp only [reduceCtorEq, false_iff]
    omega
  · simp only [true_iff]
    omega

theorem slotOf_some {n : Nat} {k : SlotId} : slotOf n = some k ↔ n = k.val := by
  have := k.isLt
  unfold slotOf
  split
  · simp only [Option.some.injEq, Fin.ext_iff]
  · simp only [reduceCtorEq, false_iff]
    omega

theorem tagOf_none {n : Nat} : tagOf n = none ↔ 16 ≤ n := by
  unfold tagOf
  split
  · simp only [reduceCtorEq, false_iff]
    omega
  · simp only [true_iff]
    omega

theorem tagOf_some {n : Nat} {t : Tag} : tagOf n = some t ↔ n = t.val := by
  have := t.isLt
  unfold tagOf
  split
  · simp only [Option.some.injEq, Fin.ext_iff]
  · simp only [reduceCtorEq, false_iff]
    omega

theorem blockOf_none {n : Nat} : blockOf n = none ↔ 64 ≤ n := by
  unfold blockOf
  split
  · simp only [reduceCtorEq, false_iff]
    omega
  · simp only [true_iff]
    omega

theorem blockOf_some {n : Nat} {b : BlockId} : blockOf n = some b ↔ n = b.val := by
  have := b.isLt
  unfold blockOf
  split
  · simp only [Option.some.injEq, Fin.ext_iff]
  · simp only [reduceCtorEq, false_iff]
    omega

theorem slotOp_ofCode_code (op : SlotOp) : SlotOp.ofCode op.code = some op := by cases op <;> rfl

theorem Entry.isFree_iff (e : Entry) : e.isFree = true ↔ e = .free := by cases e <;> simp [isFree]

/-- No tag is found exactly when none is Free. -/
theorem lowestFree_none (s : State) : s.lowestFree = none ↔ ∀ g, s.entry g ≠ .free := by
  unfold State.lowestFree
  rw [List.find?_eq_none]
  refine forall_congr' fun g => ?_
  simp only [List.mem_finRange, true_implies, Entry.isFree_iff]

/-- The tag found is the lowest-numbered Free one (R45). -/
theorem lowestFree_some (s : State) (g : Tag) : s.lowestFree = some g ↔ s.firstFree g := by
  unfold State.lowestFree State.firstFree
  rw [List.find?_eq_some_iff_getElem]
  simp only [Entry.isFree_iff, List.getElem_finRange]
  constructor
  · rintro ⟨h, i, hi, e, hj⟩
    refine ⟨h, fun u hu => ?_⟩
    have hiv : i = g.val := by
      have := congrArg Fin.val e
      simpa using this
    have h2 := hj u.val (by rw [hiv]; exact hu)
    intro e2
    simp [(Entry.isFree_iff _).mpr e2] at h2
  · rintro ⟨h, hu⟩
    refine ⟨h, g.val, by simp, by simp, fun j hj => ?_⟩
    have h2 := hu ⟨j, by omega⟩ (by simpa [Fin.lt_def] using hj)
    have h3 : ¬ (s.entry ⟨j, by omega⟩).isFree = true := fun c => h2 ((Entry.isFree_iff _).mp c)
    simpa using h3

/-! ## The validity check (R80) -/

theorem blocksFor_pos {n : Nat} (h : 0 < n) : ∃ m, blocksFor n = m + 1 := ⟨(n + 63) / 64 - 1, by unfold blocksFor; omega⟩

theorem walkValid_iff_chainSound (s : State) (k : SlotId) (h : 0 < (s.slot k).outLength.toNat) :
    s.pool.walkValid (blocksFor (s.slot k).outLength.toNat) (s.slot k).outFirst [] = true ↔ s.chainSound k := by
  obtain ⟨m, hm⟩ := blocksFor_pos h
  unfold State.chainSound
  rw [hm, Pool.walkValid_iff]
  simp

theorem slotValid_iff (s : State) (k : SlotId) : s.slotValid k = true ↔ s.slotSound k := by
  unfold State.slotValid State.slotSound
  have hs : (stationOf (s.slot k).station.toNat).isSome = true ↔
      1 ≤ (s.slot k).station.toNat ∧ (s.slot k).station.toNat ≤ 14 := by
    unfold stationOf
    split <;> simp_all
  have hc := walkValid_iff_chainSound s k
  simp only [Bool.and_eq_true, decide_eq_true_eq, Bool.or_eq_true, beq_iff_eq, Bool.not_eq_true', Bool.and_eq_false_iff,
    bne_eq_false_iff_eq, beq_eq_false_iff_ne, hs]
  by_cases hz : (s.slot k).outLength.toNat = 0
  · simp only [hz]
    simp
    omega
  · rw [hc (by omega)]
    constructor
    · rintro ⟨⟨⟨⟨⟨a, b⟩, c⟩, d⟩, e⟩, f⟩
      exact ⟨a, fun _ => by omega, c, d, by omega, fun _ => by simpa [hz] using f⟩
    · rintro ⟨a, b, c, d, e, f⟩
      exact ⟨⟨⟨⟨⟨a, by omega⟩, c⟩, d⟩, by omega⟩, .inr (f (by omega))⟩

/-! ## Taking a slot (R78, R79) -/

theorem slot_activate (s : State) (k : SlotId) : (s.activateSlot k).slot k = (s.slot k).taken := by
  show (s.slots.set k (s.slot k).taken)[k] = _
  rw [getElem_setFin, if_pos rfl]

theorem slotSound_activate (s : State) (k : SlotId) : (s.activateSlot k).slotSound k ↔ s.slotSound k := by
  unfold State.slotSound State.chainSound
  rw [slot_activate]
  exact Iff.rfl

theorem exchangeLimit_eq (sl : Slot) (op : SlotOp) (h : sl.op.toNat = op.code) : exchangeLimit op sl = sl.limit := by
  unfold exchangeLimit Slot.limit
  have : sl.op = 4 ↔ op = .probe := by
    rw [← BitVec.toNat_inj, h]
    cases op <;> simp [SlotOp.code]
  by_cases hh : op = .probe
  · rw [if_pos hh, if_pos (this.mpr hh)]
  · rw [if_neg hh, if_neg fun e => hh (this.mp e)]

/-- The checks of a sound slot whose op makes an exchange. -/
theorem launchChecks_sound (s : State) (k : SlotId) (op : SlotOp) (st : StationId) (hs : s.slotSound k)
    (ho : (s.slot k).op.toNat = op.code) (ht : (s.slot k).station.toNat = st.address) :
    (s.activateSlot k).launchChecks k =
      if (s.station st).presence = .fenced then .slotOnly .fenced (some st)
      else if (s.station st).depth ≤ (s.station st).outstanding then .wait .depth
      else match s.lowestFree with
        | none => .wait .tag
        | some t => if s.pool.freeCount < blocksFor (s.slot k).limit then .wait .blocks else .exchange op st t := by
  unfold State.launchChecks
  have hv : (s.activateSlot k).slotValid k = true := (slotValid_iff _ _).mpr ((slotSound_activate s k).mpr hs)
  have e1 : SlotOp.ofCode (s.slot k).taken.op.toNat = some op := by
    have : (s.slot k).taken.op.toNat = op.code := ho
    rw [this, slotOp_ofCode_code]
  have e2 : stationOf (s.slot k).taken.station.toNat = some st := stationOf_some.mpr ht
  have e3 : exchangeLimit op (s.slot k).taken = (s.slot k).limit := exchangeLimit_eq (s.slot k).taken op ho
  simp only [hv, slot_activate, e1, e2, e3, if_true]
  rfl

/-- The checks of a slot that is not sound. -/
theorem launchChecks_bad (s : State) (k : SlotId) (hs : ¬ s.slotSound k) :
    (s.activateSlot k).launchChecks k = .slotOnly .badSlot none := by
  have hv : ¬ (s.activateSlot k).slotValid k = true := fun h => hs ((slotSound_activate s k).mp ((slotValid_iff _ _).mp h))
  unfold State.launchChecks
  dsimp only
  rw [if_neg hv]

/-- The checks of a sound NOTICE slot. -/
theorem launchChecks_notice (s : State) (k : SlotId) (hs : s.slotSound k) (ho : (s.slot k).op = 5) :
    (s.activateSlot k).launchChecks k = .notice := by
  have hv : (s.activateSlot k).slotValid k = true := (slotValid_iff _ _).mpr ((slotSound_activate s k).mpr hs)
  have e : ((s.activateSlot k).slot k).op = 5 := by
    rw [slot_activate]
    exact ho
  unfold State.launchChecks
  dsimp only
  rw [if_pos hv, e]
  rfl

/-- A slot-only outcome uses one place of the queue; the walk on has one less. -/
theorem takeSlot_step (room : Nat) (k : SlotId) (s : State) :
    takeSlot room k s = takeWith (fun j u => if 0 < room then takeSlot (room - 1) j u else u) k s := by
  cases room with
  | zero => rfl
  | succ n => rfl

theorem take_active (s : State) (k : SlotId) (h : (s.slot k).state = .active) :
    State.take k s = s.setPhase (.waiting k .slotBusy) := by
  unfold State.take
  rw [takeSlot_step]
  unfold takeWith
  rw [if_pos h]

theorem take_inactive (s : State) (k : SlotId) (h : (s.slot k).state ≠ .active) :
    State.take k s = checkWith
      (fun j u => if 0 < queueRoom s.reports then takeSlot (queueRoom s.reports - 1) j u else u) k (s.activateSlot k) := by
  unfold State.take
  rw [takeSlot_step]
  unfold takeWith
  rw [if_neg h]

/-- A set slot reads back. -/
theorem slots_set_self (s : State) (k : SlotId) : s.slots.set k (s.slot k) = s.slots := by
  show s.slots.set k s.slots[k] = _
  exact Vector.set_getElem_self _

/-- The places left after a record has been put in the queue. -/
theorem queueRoom_enqueue (r : Reports) (c : Nat) (x : Report) : queueRoom (r.enqueue c x) = queueRoom r - 1 := by
  unfold queueRoom Reports.enqueue
  simp only [List.length_append, List.length_singleton]
  omega

/-- The checks of a slot are the same with the walk bounded by the places of the queue as without. -/
theorem checkWith_room (s : State) (k : SlotId) :
    checkWith (fun j u => if 0 < queueRoom s.reports then takeSlot (queueRoom s.reports - 1) j u else u) k s =
      checkWith State.take k s := by
  unfold checkWith
  split
  · unfold reportWith
    split
    · rename_i o st _ hq
      have hroom : 0 < queueRoom s.reports := by unfold queueRoom; omega
      dsimp only
      split
      · rfl
      · unfold moveOnWith State.take
        have e : queueRoom ((s.postQueue (slotReport s k o st)).closeSlot k ((slotReport s k o st).outcome.getD .ok)).reports =
            queueRoom s.reports - 1 := queueRoom_enqueue s.reports s.config.coalesceTime _
        dsimp only
        rw [e]
        split
        · rfl
        · split
          · rfl
          · split
            · split
              · show _ = takeSlot (queueRoom ((s.postQueue (slotReport s k o st)).closeSlot k
                  ((slotReport s k o st).outcome.getD .ok)).reports) _ _
                rw [e]
              · rfl
            · rfl
    · rfl
  · rfl
  · rfl
  · rfl

/-- A Launcher that waits for DEPTH, TAG or BLOCKS re-evaluates as it took the slot (R78, R83). -/
theorem checkWith_eq_take (s : State) (k : SlotId) (ha : (s.slot k).state = .active) (ht : (s.slot k).lastTag = none)
    (hn : (s.slot k).attempts = 0) :
    checkWith State.take k s = State.take k { s with slots := s.slots.set k { s.slot k with state := .openSlot } } := by
  have hk : State.slot { s with slots := s.slots.set k { s.slot k with state := .openSlot } } k =
      { s.slot k with state := .openSlot } := by
    show (s.slots.set k _)[k] = _
    rw [getElem_setFin, if_pos rfl]
  rw [take_inactive _ k (by rw [hk]; exact nofun)]
  have e : State.activateSlot { s with slots := s.slots.set k { s.slot k with state := .openSlot } } k = s := by
    unfold State.activateSlot State.setSlot
    rw [hk]
    have f : ({ s.slot k with state := .active, lastTag := none, attempts := 0 } : Slot) = s.slot k := by
      rw [← ha, ← ht, ← hn]
    dsimp only
    rw [Vector.set_set, f, slots_set_self]
  rw [e]
  exact (checkWith_room s k).symm

end Sys2Proof.Machine
end

