-- ==== Sys2Proof/Laws/Port.lean ====
section
/-! SUPPORT. Work inside the part neither reads nor changes the command port (R163): it commutes with setting the port. And the shells of the
rows: what an open bus, a free port and a high nRESET make of them. -/

namespace Sys2Proof.Machine

open Sys2Proof

/-- `f` does the same whatever the port holds, and leaves it. -/
def IgnoresPort (f : State → State) : Prop := ∀ s p, f (s.setPort p) = (f s).setPort p

namespace IgnoresPort

theorem port_eq {f : State → State} (h : IgnoresPort f) (s : State) : (f s).port = s.port := by
  have e := h s s.port
  have same : s.setPort s.port = s := rfl
  rw [same] at e
  rw [e]
  rfl

theorem comp {f g : State → State} (hf : IgnoresPort f) (hg : IgnoresPort g) : IgnoresPort fun s => g (f s) := by
  intro s p
  show g (f (s.setPort p)) = _
  rw [hf s p, hg (f s) p]

/-! ## The Launcher -/

def Takes (take : SlotId → State → State) : Prop := ∀ k, IgnoresPort (take k)

theorem moveOnWith {take : SlotId → State → State} (h : Takes take) (k : SlotId) : IgnoresPort (Machine.moveOnWith take k) := by
  intro s p
  unfold Machine.moveOnWith
  dsimp only
  show (if (s.slot k).isEnd then _ else if s.launcher.haltPending then _ else if (s.slot k).hold then
    if s.launcher.pendingContinue then
      take (s.slot k).link ((s.setLauncher { s.launcher with pendingContinue := false }).setPort p) else _
    else take (s.slot k).link (s.setPort p)) = _
  rw [h, h]
  split
  · rfl
  · split
    · rfl
    · split
      · split <;> rfl
      · rfl

theorem reportWith {take : SlotId → State → State} (h : Takes take) (k : SlotId) (r : Report) :
    IgnoresPort (Machine.reportWith take k r) := by
  intro s p
  unfold Machine.reportWith
  dsimp only
  show (if s.reports.queue.length < 32 then
      if r.kind = .notice ∧ r.outcome = some .trunkReset then _
      else Machine.moveOnWith take k (((s.postQueue r).closeSlot k (r.outcome.getD .ok)).setPort p)
    else _) = _
  rw [moveOnWith h]
  split
  · split <;> rfl
  · rfl

theorem launchChecks (s : State) (p : Port) (k : SlotId) : (s.setPort p).launchChecks k = s.launchChecks k := rfl

theorem checkWith {take : SlotId → State → State} (h : Takes take) (k : SlotId) : IgnoresPort (Machine.checkWith take k) := by
  intro s p
  unfold Machine.checkWith
  rw [launchChecks]
  split
  · exact reportWith h k _ s p
  all_goals rfl

theorem takeWith {take : SlotId → State → State} (h : Takes take) (k : SlotId) : IgnoresPort (Machine.takeWith take k) := by
  intro s p
  unfold Machine.takeWith
  show (if (s.slot k).state = .active then _ else Machine.checkWith take k ((s.activateSlot k).setPort p)) = _
  rw [checkWith h]
  split <;> rfl

theorem takeSlot (room : Nat) : Takes (Machine.takeSlot room) := by
  induction room with
  | zero => exact fun k => takeWith (fun _ _ _ => rfl) k
  | succ n ih => exact fun k => takeWith ih k

theorem take : Takes State.take := fun k s p => takeSlot (queueRoom s.reports) k s p
theorem moveOn (k : SlotId) : IgnoresPort (State.moveOn k) := moveOnWith take k
theorem report (k : SlotId) (r : Report) : IgnoresPort (State.report k r) := reportWith take k r

theorem reevaluate : IgnoresPort State.reevaluate := by
  intro s p
  unfold State.reevaluate
  rw [setPort_launcher]
  cases s.launcher.phase with
  | waiting k w =>
    cases w with
    | reportSpace r => exact report k r s p
    | slotBusy => exact take k s p
    | depth => exact checkWith take k s p
    | tag => exact checkWith take k s p
    | blocks => exact checkWith take k s p
  | idle => rfl
  | contending _ _ => rfl
  | launching _ _ => rfl
  | held _ => rfl

/-! ## The tables -/

theorem updateStation (i : StationId) (r : Station) : IgnoresPort fun s => s.updateStation i r := by
  intro s p
  show (s.setPort p).updateStation i r = (s.updateStation i r).setPort p
  unfold State.updateStation
  dsimp only
  show (if (s.station i).presence = r.presence ∧ (s.station i).depth = r.depth ∧ (s.station i).outstanding = r.outstanding then _
    else ((s.setStation i r).setPort p).reevaluate) = _
  rw [reevaluate]
  split <;> rfl

theorem reachDone (t : Tag) (x : Exchange) (f : Finish) : IgnoresPort fun s => s.reachDone t x f := by
  intro s p
  show (s.setPort p).reachDone t x f = (s.reachDone t x f).setPort p
  unfold State.reachDone
  dsimp only
  split <;> rfl

theorem finishDeferred (t : Tag) (x : Exchange) (f : Finish) : IgnoresPort fun s => s.finishDeferred t x f := by
  intro s p
  show (s.setPort p).finishDeferred t x f = (s.finishDeferred t x f).setPort p
  unfold State.finishDeferred
  have e : (s.setPort p).reachDone t x f = (s.reachDone t x f).setPort p := reachDone t x f s p
  rw [e]
  rfl

theorem withdrawTag (t : Tag) : IgnoresPort fun s => (s.withdrawTag t).2 := by
  intro s p
  show ((s.setPort p).withdrawTag t).2 = ((s.withdrawTag t).2).setPort p
  unfold State.withdrawTag
  have e : (s.setPort p).entry t = s.entry t := rfl
  rw [e]
  cases s.entry t with
  | deferred x d =>
    show ((s.setPort p).finishDeferred t x _).reevaluate = _
    have f : ∀ k, (s.setPort p).finishDeferred t x k = (s.finishDeferred t x k).setPort p := fun k => finishDeferred t x k s p
    rw [f, reevaluate]
  | _ => rfl

theorem withdrawTag_result (s : State) (p : Port) (t : Tag) : ((s.setPort p).withdrawTag t).1 = (s.withdrawTag t).1 := by
  unfold State.withdrawTag
  have e : (s.setPort p).entry t = s.entry t := rfl
  rw [e]
  cases s.entry t <;> rfl

theorem popEffects (r : Report) : IgnoresPort fun s => s.popEffects r := by
  intro s p
  show (s.setPort p).popEffects r = (s.popEffects r).setPort p
  unfold State.popEffects
  split
  · split
    · rename_i t _
      unfold State.exchangePopped
      have e : (s.setPort p).entry t = s.entry t := rfl
      rw [e]
      cases s.entry t <;> rfl
    · rfl
  · split <;> rfl
  all_goals rfl

end IgnoresPort

/-! ## The shells of the rows -/

/-- A command that does `f` and completes, as the bus write that takes it leaves the state (R161). -/
theorem complete_eq_commandDone (s : State) (code : Byte) (r : CmdResult) (data : Byte) :
    (s.setPort { s.port with command := code, busy := true }).complete r data = s.commandDone code r data := rfl

theorem complete_after {f : State → State} (h : IgnoresPort f) (s : State) (code : Byte) (r : CmdResult) (data : Byte) :
    (f (s.setPort { s.port with command := code, busy := true })).complete r data = (f s).commandDone code r data := by
  rw [h]
  have e := h.port_eq s
  show ((f s).setPort { s.port with command := code, busy := true }).complete r data = _
  rw [← e]
  rfl

theorem windowFault_eq_faulted (s : State) (c : WindowFault) : s.windowFault c = s.faulted c := rfl

theorem busWrite_open {f : State → State} {s : State} (h : s.windowOpen) : busWrite f s = .next (f s) := by
  unfold busWrite
  rw [h.1, h.2]
  rfl

theorem busWrite_closed {f : State → State} {s : State} (h : ¬ s.windowOpen) : busWrite f s = .next s := by
  unfold busWrite
  split
  · rename_i c
    exact absurd (by simpa [State.windowOpen] using c) h
  · rfl

theorem portFree_open {s : State} (h : s.portFree) : s.windowOpen := ⟨h.1, by simp [State.softResetting, h.2]⟩

theorem writeCommand_free {s : State} (h : s.portFree) (code : Byte) :
    busWrite (·.writeCommand code) s = .next ((s.setPort { s.port with command := code, busy := true }).dispatch code) := by
  rw [busWrite_open (portFree_open h)]
  show Host.Outcome.next (if s.port.busy then _ else s.takeCommand code) = _
  rw [h.2]
  rfl

theorem occurs_some {event : String} {effect : State → Option State} {s t : State} (h : s.nreset = true)
    (e : effect s = some t) : occurs event effect s = .next t := by
  unfold occurs
  rw [h, e]
  rfl

/-- Every row that is a bus write is `busWrite` of some effect. -/
theorem exec_busWrite (c : Instr) (h : isBusWrite c = true) : ∃ f, ∀ s, exec c s = busWrite f s := by
  cases c <;> first | cases h | skip
  case blockDataAccess a =>
    cases a with
    | read => cases h
    | write v => exact ⟨(·.writeBlockData v), fun _ => rfl⟩
  all_goals exact ⟨_, fun _ => rfl⟩

/-- Every row that is a COMMAND write is the write of its code. -/
theorem exec_writeCommand (c : Instr) (code : Byte) (h : commandCode c = some code) (s : State) :
    exec c s = busWrite (·.writeCommand code) s := by
  cases c <;> cases h
  all_goals rfl

/-- The inputs of a bit time with nothing listed. -/
theorem nextInput_nil {s : State} (h : s.lineIn = []) : s.nextInput = .released := by
  unfold State.nextInput
  rw [h]
  rfl

theorem dropInput_nil {s : State} (h : s.lineIn = []) : s.dropInput = s := by
  have e : s.lineIn.tail = s.lineIn := by rw [h]; rfl
  unfold State.dropInput
  rw [e]

end Sys2Proof.Machine
end

