-- ==== Sys2Proof/Laws/Endings.lean ====
section
/-! SUPPORT. What the shared endings come to: a posting, an entry reaching Done, a tick at one deadline, POP's queue, the end of a
launch phase, a withdrawn send, the counters cleared, and a reception with nothing due. -/

namespace Sys2Proof.Machine

open Sys2Proof

theorem post_eq (s : State) (x : Report) : s.post x = s.setReports (s.reports.posted s.config.coalesceTime x) := by
  unfold State.post Reports.posted Reports.enqueue
  split
  · cases h : s.reports.queue <;> simp
  · rfl

/-- Reaching Done is steps 1 to 4 of R57. -/
theorem reachDone_eq (s : State) (t : Tag) (x : Exchange) (f : Finish) :
    s.reachDone t x f = s.ended t x f.outcome f.length f.status f.reason f.chain f.frees := by
  unfold State.reachDone State.ended
  dsimp only
  rw [post_eq]
  split
  · rfl
  · rfl

theorem closeSlot_eq (s : State) (k : SlotId) (o : OutcomeCode) : s.closeSlot k o = s.closed k o := rfl

theorem finishDeferred_eq (s : State) (t : Tag) (x : Exchange) (f : Finish) :
    s.finishDeferred t x f =
      (s.ended t x f.outcome f.length f.status f.reason f.chain f.frees).closed x.slot f.outcome := by
  unfold State.finishDeferred
  rw [reachDone_eq]
  rfl

/-- A tick at one deadline, in the terms of Done (R59). -/
theorem deadlineTick_eq (s : State) (t : Tag) : s.deadlineTick t = match s.entry t with
    | .deferred x d =>
      if d ≤ 1 then ((s.ended t x .expired none none none [] x.reservedChain).closed x.slot .expired).reevaluate
      else { s with entries := s.entries.set t (.deferred x (d - 1)) }
    | .receiving x d p c => { s with entries := s.entries.set t (.receiving x (d - 1) (p || decide (d ≤ 1)) c) }
    | _ => s := by
  unfold State.deadlineTick
  split <;> rename_i e <;> rw [e] <;> try rfl
  rw [finishDeferred_eq]
  rfl

/-- The queue after a POP of the head record (R137). -/
theorem popped_eq (r : Reports) (x : Report) (rest : List Report) (h : r.queue = x :: rest) :
    ({ r with queue := rest } : Reports).refill.settle = r.popped := by
  unfold Reports.popped Reports.refill Reports.settle
  cases hb : r.backlog
  · cases rest <;> simp [h]
  · simp [h]

/-! ## The end of a launch phase -/

theorem launchEnded_eq (s : State) (k : SlotId) (o : OutcomeCode) (n : Nat) :
    ((s.returnOutbound k).setAttempts k n).closeSlot k o = s.launchEnded k o n := by
  unfold State.returnOutbound State.launchEnded State.closeSlot State.setAttempts State.setSlot State.slot
  split <;> simp [State.freeBlocks, State.setPool]

/-- "Answer phase ended" with an outcome other than TRUNK RESET moves the Launcher on (R89, R91). -/
theorem answerPhaseEnded_eq (s : State) (k : SlotId) (m : Option Nat) (o : OutcomeCode) (n : Nat)
    (h : s.launcher.phase = .launching k m) (ho : o ≠ .trunkReset) :
    s.answerPhaseEnded k o n = State.moveOn k (s.launchEnded k o n) := by
  unfold State.answerPhaseEnded
  rw [h]
  dsimp only
  rw [if_pos rfl, if_neg ho, launchEnded_eq]

theorem finishAnswer_eq (s : State) (t : Tag) (x : Exchange) (f : Finish) (m : Option Nat)
    (h : s.launcher.phase = .launching x.slot m) (ho : f.outcome ≠ .trunkReset) :
    s.finishAnswer t x f =
      State.moveOn x.slot ((s.ended t x f.outcome f.length f.status f.reason f.chain f.frees).launchEnded
        x.slot f.outcome x.attempts) := by
  unfold State.finishAnswer
  rw [reachDone_eq]
  exact answerPhaseEnded_eq _ _ m _ _ h ho

/-- A waiting Launcher alone re-evaluates (R83). -/
theorem reevaluate_not_waiting (s : State) (h : ∀ k w, s.launcher.phase ≠ .waiting k w) : s.reevaluate = s := by
  unfold State.reevaluate
  cases e : s.launcher.phase with
  | waiting k w => exact absurd e (h k w)
  | idle => rfl
  | contending _ _ => rfl
  | launching _ _ => rfl
  | held _ => rfl

theorem goodFrame_eq (s : State) (i : StationId) : s.goodFrame i = s.heardFrom i := by
  unfold State.goodFrame State.updateStation State.heardFrom
  dsimp only [Station.heard]
  simp only [and_true]
  rfl

/-- A withdrawn send (R27). -/
theorem withdrawSend_eq (s : State) : s.withdrawSend = s.setTrunk { s.trunk with
    state := match s.trunk.state with
      | .arbitrating c => .receiving (newReception .arbitration s.config.gapTime (6 - c.bit) none)
      | other => other
    pendingSend := none } := by
  unfold State.withdrawSend State.setPendingSend
  split <;> simp_all [State.setTrunk, State.follow, State.setTrunkState]

/-! ## Receptions -/

/-- With nothing due there is nothing to hand on. -/
theorem handDue_nothing (s : State) (r : Reception) (e : s.trunk.state = .receiving r) (h : r.nothingDue) : s.handDue = s := by
  have h1 : s.handHeader = none := by
    unfold State.handHeader
    rw [e]
    dsimp only
    rw [h.1]
  have h2 : s.handPayload = none := by
    unfold State.handPayload
    rw [e]
    dsimp only
    rw [h.2]
  unfold State.handDue
  rw [h1]
  dsimp only [Option.getD]
  rw [h2]

theorem receptionOf_nothing (s : State) (r : Reception) (e : s.trunk.state = .receiving r) (h : r.nothingDue) :
    s.receptionOf = some r := by
  unfold State.receptionOf
  rw [handDue_nothing s r e h, e]

/-! ## Counters -/

/-- CLEAR COUNTERS clears the counters of the mask and keeps the others (R164). -/
theorem clear_bank (c : Counters) (selected : Fin 12 → Bool) :
    (c.clear selected).bank = Vector.ofFn fun i : Fin 12 => if selected i then 0 else c.bank[i] := by
  have key : ∀ (l : List (Fin 12)) (bank : Vector Half 12) (j : Fin 12),
      (l.foldl (fun bank i => if selected i then bank.set i 0 else bank) bank)[j] =
        if j ∈ l ∧ selected j = true then 0 else bank[j] := by
    intro l
    induction l with
    | nil =>
      intro bank j
      simp
    | cons a l ih =>
      intro bank j
      rw [List.foldl_cons, ih]
      by_cases ha : selected a = true
      · rw [if_pos ha, getElem_setFin]
        by_cases hj : j = a
        · subst hj
          simp [ha]
        · simp [hj]
      · rw [if_neg ha]
        by_cases hj : j = a
        · subst hj
          simp [ha]
        · simp [hj]
  refine Vector.ext fun j hj => ?_
  have := key (List.finRange 12) c.bank ⟨j, hj⟩
  simp only [List.mem_finRange, true_and] at this
  simp only [Counters.clear, Vector.getElem_ofFn]
  exact this

end Sys2Proof.Machine
end

