-- ==== Sys2Proof/Laws/Outstanding.lean ====
section
/-! SUPPORT. Outstanding in step with the live entries (R46): one lemma for each operation that touches an entry or a record. -/

namespace Sys2Proof.Machine

open Sys2Proof

/-- `t` meets the rule of R46 where `s` does. -/
def Out (s t : State) : Prop := s.outstandingAgrees → t.outstandingAgrees

/-- Whether two lists of tags of one list's length differ in one tag's membership. -/
theorem filter_length_change (l : List Tag) (t : Tag) (f g : Tag → Bool) (hn : l.Nodup) (ht : t ∈ l) (h : ∀ u, u ≠ t → f u = g u) :
    (l.filter f).length + (if g t then 1 else 0) = (l.filter g).length + (if f t then 1 else 0) := by
  induction l with
  | nil => cases ht
  | cons a l ih =>
    rw [List.nodup_cons] at hn
    by_cases e : a = t
    · subst e
      have same : l.filter f = l.filter g := List.filter_congr fun u hu => h u fun c => hn.1 (c ▸ hu)
      simp only [List.filter_cons, same]
      cases f a <;> cases g a <;> simp
    · have hm : t ∈ l := by
        cases ht with
        | head => exact absurd rfl e
        | tail _ x => exact x
      have step := ih hn.2 hm
      simp only [List.filter_cons, h a e]
      cases g a <;> simp only [if_true, if_false, Bool.false_eq_true, List.length_cons] <;> omega

/-- The live entries of a station after one entry is written. -/
theorem liveCount_setEntry (s : State) (t : Tag) (e : Entry) (i : StationId) :
    (s.setEntry t e).liveCount i + (if (s.entry t).liveFor i then 1 else 0) =
      s.liveCount i + (if e.liveFor i then 1 else 0) := by
  have h := filter_length_change (List.finRange 16) t (fun u => ((s.setEntry t e).entry u).liveFor i)
    (fun u => (s.entry u).liveFor i) (List.nodup_finRange 16) (List.mem_finRange t) fun u hu => by
      rw [entry_setEntry, if_neg fun c => hu c.symm]
  rw [entry_setEntry_self] at h
  exact h

/-- The rule speaks of the entries and the records alone. -/
theorem out_of_tables {s t : State} (he : t.entries = s.entries) (hs : t.stations = s.stations) : Out s t := by
  intro h i
  have := h i
  simp only [State.liveCount, State.station, State.entry, he, hs] at this ⊢
  exact this

/-- The same tables. -/
def SameTables (s t : State) : Prop := t.entries = s.entries ∧ t.stations = s.stations

/-- An entry replaced by one that is live for the same stations. -/
theorem out_setEntry (s : State) (t : Tag) (e : Entry) (h : ∀ i, e.liveFor i = (s.entry t).liveFor i) :
    Out s (s.setEntry t e) := by
  intro k i
  have c := liveCount_setEntry s t e i
  rw [h i] at c
  have := k i
  show (s.station i).outstanding = (s.setEntry t e).liveCount i ∧ _
  refine ⟨?_, this.2⟩
  omega

/-- A record changed in neither Outstanding nor Depth's range. -/
theorem out_setStation (s : State) (i : StationId) (r : Station) (ho : r.outstanding = (s.station i).outstanding)
    (hd : s.outstandingAgrees → 1 ≤ r.depth ∧ r.depth ≤ 4) : Out s (s.setStation i r) := by
  intro k j
  show ((s.setStation i r).station j).outstanding = s.liveCount j ∧ _
  rw [station_setStation]
  have := k j
  split
  · rename_i e
    subst e
    rw [ho]
    exact ⟨this.1, this.2.1, hd k⟩
  · exact this

/-- An entry leaves the live states and its station's Outstanding falls by 1 (R46). -/
theorem out_leaves {s t : State} (g : Tag) (st : StationId) (e : Entry) (hl : ∀ i, (s.entry g).liveFor i = (st == i))
    (hn : ∀ i, e.liveFor i = false) (he : t.entries = s.entries.set g e)
    (hs : t.stations = s.stations.set st { s.station st with outstanding := (s.station st).outstanding - 1 }) : Out s t := by
  refine fun k => out_of_tables (s := (s.setEntry g e).setStation st
    { s.station st with outstanding := (s.station st).outstanding - 1 }) he hs ?_
  intro i
  have c := liveCount_setEntry s g e i
  rw [hl i, hn i] at c
  have ki := k i
  show (((s.setEntry g e).setStation st _).station i).outstanding = (s.setEntry g e).liveCount i ∧ _
  rw [station_setStation]
  split
  · rename_i es
    subst es
    simp only [beq_self_eq_true, if_true, Bool.false_eq_true, if_false] at c ⊢
    omega
  · rename_i es
    have hb : (st == i) = false := by simpa using es
    rw [hb] at c
    simp only [Bool.false_eq_true, if_false] at c
    have same : (s.setEntry g e).station i = s.station i := rfl
    rw [same]
    omega

/-! ## The Launcher -/

/-- What the Launcher's work does to the tables: the rule is kept, and an entry that is not Free is left alone. -/
structure Launches (s t : State) : Prop where
  out : Out s t
  kept : ∀ g, (s.entry g).isFree = false → t.entry g = s.entry g

namespace Launches

theorem tables {s t : State} (he : t.entries = s.entries) (hs : t.stations = s.stations) : Launches s t :=
  ⟨out_of_tables he hs, fun g _ => by simp only [State.entry, he]⟩

theorem refl (s : State) : Launches s s := tables rfl rfl

theorem trans {s t u : State} (h : Launches s t) (k : Launches t u) : Launches s u where
  out := fun x => k.out (h.out x)
  kept := fun g x => by
    have e := h.kept g x
    rw [← e]
    exact k.kept g (by rw [e]; exact x)

/-- What an operation that takes a slot has to satisfy for the walk along a chain. -/
def Takes (take : SlotId → State → State) : Prop := ∀ k s, Launches s (take k s)

theorem moveOnWith {take : SlotId → State → State} (h : Takes take) (k : SlotId) (s : State) :
    Launches s (Machine.moveOnWith take k s) := by
  unfold Machine.moveOnWith
  dsimp only
  split
  · exact tables rfl rfl
  · split
    · exact tables rfl rfl
    · split
      · split
        · exact trans (t := s.setLauncher { s.launcher with pendingContinue := false }) (tables rfl rfl) (h _ _)
        · exact tables rfl rfl
      · exact h _ _

theorem reportWith {take : SlotId → State → State} (h : Takes take) (k : SlotId) (r : Report) (s : State) :
    Launches s (Machine.reportWith take k r s) := by
  unfold Machine.reportWith
  split
  · have base : Launches s ((s.postQueue r).closeSlot k (r.outcome.getD .ok)) := tables rfl rfl
    dsimp only
    split
    · exact trans base (tables rfl rfl)
    · exact trans base (moveOnWith h _ _)
  · exact tables rfl rfl

/-- The lowest Free tag is Free. -/
theorem lowestFree_free (s : State) (t : Tag) (h : s.lowestFree = some t) : s.entry t = .free := by
  have := List.find?_some h
  cases e : s.entry t <;> simp_all [Entry.isFree]

/-- A reservation for a station with room under its Depth (R84). -/
theorem reserve (s : State) (k : SlotId) (op : SlotOp) (st : StationId) (t : Tag) (hf : s.entry t = .free)
    (hd : (s.station st).outstanding < (s.station st).depth) : Launches s (s.reserve k op st t) := by
  have he : (s.reserve k op st t).entries = s.entries.set t (.reserved false (newExchange s k op st)) := rfl
  have hs : (s.reserve k op st t).stations =
      s.stations.set st { s.station st with outstanding := (s.station st).outstanding + 1 } := rfl
  refine ⟨?_, fun g x => ?_⟩
  · refine fun a => out_of_tables (s := (s.setEntry t (.reserved false (newExchange s k op st))).setStation st
      { s.station st with outstanding := (s.station st).outstanding + 1 }) he hs ?_
    intro i
    have c := liveCount_setEntry s t (.reserved false (newExchange s k op st)) i
    rw [hf] at c
    have hx : Entry.liveFor i (.reserved false (newExchange s k op st)) = (st == i) := rfl
    rw [hx] at c
    have ai := a i
    show (((s.setEntry t _).setStation st _).station i).outstanding = (s.setEntry t _).liveCount i ∧ _
    rw [station_setStation]
    split
    · rename_i es
      subst es
      simp only [beq_self_eq_true, if_true, Entry.liveFor, Bool.false_eq_true, if_false] at c ⊢
      omega
    · rename_i es
      have hb : (st == i) = false := by simpa using es
      rw [hb] at c
      simp only [Entry.liveFor, Bool.false_eq_true, if_false] at c
      have same : (s.setEntry t (.reserved false (newExchange s k op st))).station i = s.station i := rfl
      rw [same]
      omega
  · have hne : t ≠ g := fun e => by rw [← e, hf] at x; cases x
    simp only [State.entry, he]
    exact Vector.getElem_set_ne _ _ fun c => hne (Fin.ext c)

theorem checkWith {take : SlotId → State → State} (h : Takes take) (k : SlotId) (s : State) :
    Launches s (Machine.checkWith take k s) := by
  unfold Machine.checkWith
  split
  · exact reportWith h _ _ _
  · exact tables rfl rfl
  · rename_i op st t e
    unfold State.launchChecks at e
    dsimp only at e
    split at e
    · split at e
      · cases e
      · cases e
      · split at e
        · cases e
        · split at e
          · cases e
          · rename_i hd
            split at e
            · cases e
            · rename_i hl
              split at e
              · cases e
              · cases e
                exact reserve s k _ _ _ (lowestFree_free s _ hl) (by omega)
    · cases e
  · exact tables rfl rfl

theorem takeWith {take : SlotId → State → State} (h : Takes take) (k : SlotId) (s : State) :
    Launches s (Machine.takeWith take k s) := by
  unfold Machine.takeWith
  split
  · exact tables rfl rfl
  · exact trans (t := s.activateSlot k) (tables rfl rfl) (checkWith h _ _)

theorem takeSlot (room : Nat) : Takes (Machine.takeSlot room) := by
  induction room with
  | zero => exact fun k s => takeWith (fun _ s => refl s) k s
  | succ n ih => exact fun k s => takeWith ih k s

theorem take : Takes State.take := fun k s => takeSlot _ k s
theorem moveOn (k : SlotId) (s : State) : Launches s (s.moveOn k) := moveOnWith take k s
theorem report (k : SlotId) (r : Report) (s : State) : Launches s (s.report k r) := reportWith take k r s

theorem reevaluate (s : State) : Launches s s.reevaluate := by
  unfold State.reevaluate
  split
  · exact report _ _ s
  · exact take _ s
  · exact checkWith take _ s
  · exact checkWith take _ s
  · exact checkWith take _ s
  all_goals exact refl s

theorem returnOutbound (s : State) (k : SlotId) : Launches s (s.returnOutbound k) := by
  unfold State.returnOutbound
  split <;> exact tables rfl rfl

theorem enterHeld (s : State) (p : SlotId) : Launches s (s.enterHeld p) := tables rfl rfl

theorem answerPhaseEnded (s : State) (k : SlotId) (o : OutcomeCode) (n : Nat) : Launches s (s.answerPhaseEnded k o n) := by
  unfold State.answerPhaseEnded
  split
  · split
    · have base : Launches s (((s.returnOutbound k).setAttempts k n).closeSlot k o) :=
        trans (t := s.returnOutbound k) (returnOutbound s k) (tables rfl rfl)
      dsimp only
      split
      · exact trans base (enterHeld _ _)
      · exact trans base (moveOn _ _)
    · exact refl s
  all_goals exact refl s

theorem answerPhaseDeferred (s : State) (k : SlotId) (n : Nat) : Launches s (s.answerPhaseDeferred k n) := by
  unfold State.answerPhaseDeferred
  split
  · split
    · exact trans (t := (s.returnOutbound k).setAttempts k n)
        (trans (t := s.returnOutbound k) (returnOutbound s k) (tables rfl rfl)) (moveOn _ _)
    · exact refl s
  all_goals exact refl s

theorem noticeEnded (s : State) (k : SlotId) (n : Nat) (o : OutcomeCode) : Launches s (s.noticeEnded k n o) := by
  unfold State.noticeEnded
  exact trans (t := (s.returnOutbound k).setAttempts k n)
    (trans (t := s.returnOutbound k) (returnOutbound s k) (tables rfl rfl)) (report _ _ _)

theorem launcherTrunkReset (s : State) : Launches s s.launcherTrunkReset := by
  unfold State.launcherTrunkReset
  split
  · exact refl s
  · exact refl s
  · split
    · exact refl s
    · exact tables rfl rfl
  · exact tables rfl rfl
  · exact tables rfl rfl
  · exact tables rfl rfl
  · exact tables rfl rfl
  · exact tables rfl rfl
  · exact noticeEnded s _ _ _
  · exact refl s

theorem launcherWon (s : State) : Launches s s.launcherWon := by
  unfold State.launcherWon
  split <;> exact tables rfl rfl

theorem launcherNoticeSent (s : State) (k : SlotId) : Launches s (s.launcherNoticeSent k) := by
  unfold State.launcherNoticeSent
  split
  · split
    · exact noticeEnded s _ _ _
    · exact refl s
  all_goals exact refl s

theorem launcherNoticeCut (s : State) (k : SlotId) : Launches s (s.launcherNoticeCut k) := by
  unfold State.launcherNoticeCut
  split
  · split
    · split
      · exact tables rfl rfl
      · exact noticeEnded s _ _ _
    · exact refl s
  all_goals exact refl s

/-! ## The Station Table -/

theorem setStation (s : State) (i : StationId) (r : Station) (ho : r.outstanding = (s.station i).outstanding)
    (hd : s.outstandingAgrees → 1 ≤ r.depth ∧ r.depth ≤ 4) : Launches s (s.setStation i r) :=
  ⟨out_setStation s i r ho hd, fun _ _ => rfl⟩

theorem updateStation (s : State) (i : StationId) (r : Station) (ho : r.outstanding = (s.station i).outstanding)
    (hd : s.outstandingAgrees → 1 ≤ r.depth ∧ r.depth ≤ 4) : Launches s (s.updateStation i r) := by
  unfold State.updateStation
  dsimp only
  split
  · exact setStation s i r ho hd
  · exact trans (setStation s i r ho hd) (reevaluate _)

theorem goodFrame (s : State) (i : StationId) : Launches s (s.goodFrame i) :=
  updateStation s i _ rfl fun h => (h i).2.2
theorem missedAnswer (s : State) (i : StationId) : Launches s (s.missedAnswer i) :=
  updateStation s i _ rfl fun h => (h i).2.2
theorem fence (s : State) (i : StationId) : Launches s (s.updateStation i (s.station i).fence) :=
  updateStation s i _ rfl fun h => (h i).2.2
theorem admitted (s : State) (i : StationId) : Launches s (s.updateStation i (s.station i).admitted) :=
  updateStation s i _ rfl fun h => (h i).2.2

theorem post (s : State) (x : Report) : Launches s (s.post x) := tables rfl rfl

theorem attention (s : State) (i : StationId) (c : Nibble) : Launches s (s.attention i c) := by
  unfold State.attention
  dsimp only
  split
  · exact setStation s i _ rfl fun h => (h i).2.2
  · exact trans (t := s.setStation i { s.station i with attnPending := true, attnCount := 1, lastCause := c })
      (setStation s i _ rfl fun h => (h i).2.2) (post _ _)

theorem attentionPopped (s : State) (i : StationId) : Launches s (s.attentionPopped i) :=
  setStation s i _ rfl fun h => (h i).2.2

theorem stationsTrunkReset (s : State) : Launches s s.stationsTrunkReset := by
  refine ⟨fun h i => ?_, fun _ _ => rfl⟩
  have e : s.stationsTrunkReset.station i = (s.station i).trunkReset := by
    simp [State.stationsTrunkReset, State.station]
  show (s.stationsTrunkReset.station i).outstanding = s.liveCount i ∧ _
  rw [e]
  have := h i
  unfold Station.trunkReset
  split
  · exact this
  · exact ⟨this.1, this.2.1, by simp, by simp⟩

end Launches

/-! ## The Exchange Table -/

namespace Out

theorem refl (s : State) : Out s s := id
theorem trans {s t u : State} (h : Out s t) (k : Out t u) : Out s u := fun x => k (h x)
theorem tables {s t : State} (he : t.entries = s.entries) (hs : t.stations = s.stations) : Out s t := out_of_tables he hs
theorem launches {s t : State} (h : Launches s t) : Out s t := h.out

/-- An entry that is live with an exchange. -/
def Holds (e : Entry) (x : Exchange) : Prop := ∀ i, e.liveFor i = (x.station == i)

theorem reachDone (s : State) (t : Tag) (x : Exchange) (f : Finish) (h : Holds (s.entry t) x) : Out s (s.reachDone t x f) := by
  refine out_leaves t x.station (.done { x with reservedChain := [] }
    ⟨f.outcome, false, f.chain, f.length, f.status, f.reason⟩) h (fun _ => rfl) ?_ ?_
  · unfold State.reachDone
    dsimp only
    split <;> rfl
  · unfold State.reachDone
    dsimp only
    split <;> rfl

theorem finishAnswer (s : State) (t : Tag) (x : Exchange) (f : Finish) (h : Holds (s.entry t) x) :
    Out s (s.finishAnswer t x f) :=
  trans (reachDone s t x f h) (launches (Launches.answerPhaseEnded _ _ _ _))
theorem finishDeferred (s : State) (t : Tag) (x : Exchange) (f : Finish) (h : Holds (s.entry t) x) :
    Out s (s.finishDeferred t x f) :=
  trans (reachDone s t x f h) (tables rfl rfl)
theorem finishDeferred_reevaluate (s : State) (t : Tag) (x : Exchange) (f : Finish) (h : Holds (s.entry t) x) :
    Out s (s.finishDeferred t x f).reevaluate :=
  trans (finishDeferred s t x f h) (launches (Launches.reevaluate _))

theorem entryWon (s : State) (t : Tag) : Out s (s.entryWon t) := by
  unfold State.entryWon
  split <;> rename_i e
  · exact out_setEntry s _ _ (by simp [e, Entry.liveFor])
  all_goals exact refl s

theorem entrySent (s : State) (t : Tag) : Out s (s.entrySent t) := by
  unfold State.entrySent
  split <;> rename_i e
  · exact out_setEntry s _ _ (by simp [e, Entry.liveFor])
  all_goals exact refl s

theorem entryOfSendWon (s : State) (x : Send) : Out s (s.entryOfSendWon x) := by
  cases x with
  | request k t st => exact entryWon s t
  | notice k => exact refl s

theorem failedAttempt (s : State) (t : Tag) (x : Exchange) (o : OutcomeCode) (h : Holds (s.entry t) x) :
    Out s (s.failedAttempt t x o) := by
  unfold State.failedAttempt
  split
  · exact trans (out_setEntry s t (.reserved false { x with attempts := x.attempts + 1 }) fun i => (h i).symm) (tables rfl rfl)
  · exact finishAnswer s t x _ h

/-- Work of the Launcher leaves a live entry with its exchange. -/
theorem holds_launches {s t : State} (k : Launches s t) (g : Tag) (x : Exchange) (h : Holds (s.entry g) x) :
    Holds (t.entry g) x := by
  have hf : (s.entry g).isFree = false := by
    have hl := h x.station
    cases e : s.entry g <;> simp_all [Entry.isFree, Entry.liveFor]
  rw [k.kept g hf]
  exact h

theorem answerAccepted (s : State) (t : Tag) (x : Exchange) (n : Nat) (c : Nibble) (h : Holds (s.entry t) x) :
    Out s (s.answerAccepted t x n c) := by
  unfold State.answerAccepted
  dsimp only
  split
  · split
    · exact finishAnswer s _ _ _ h
    · split
      · rename_i b _ _ hp
        have hd : 1 ≤ (s.blockByte b 0).toNat ∧ (s.blockByte b 0).toNat ≤ 4 := by
          simp only [probeAccepted, Bool.and_eq_true, decide_eq_true_eq] at hp
          exact hp.2
        have k : Launches s (s.updateStation x.station ((s.station x.station).probedWith (s.blockByte b 0)
            (s.blockByte b 1) (s.blockByte b 2) (s.blockByte b 3))) :=
          Launches.updateStation s x.station _ rfl fun _ => hd
        exact trans (launches k) (finishAnswer _ _ _ _ (holds_launches k t x h))
      · exact finishAnswer s _ _ _ h
  · exact finishAnswer s _ _ _ h

theorem answerDeferred (s : State) (t : Tag) (x : Exchange) (h : Holds (s.entry t) x) : Out s (s.answerDeferred t x) := by
  unfold State.answerDeferred
  split
  · exact finishAnswer s _ _ _ h
  · split
    · have kept := out_setEntry s t (.deferred x (s.patienceOf x.slot)) fun i => (h i).symm
      exact trans kept (launches (Launches.answerPhaseDeferred _ _ _))
    · have kept := out_setEntry s t (.deferred { x with reservedChain := [] } (s.patienceOf x.slot)) fun i => (h i).symm
      refine trans (t := (s.setEntry t (.deferred { x with reservedChain := [] } (s.patienceOf x.slot))).freeBlocks
        x.reservedChain) (trans kept (tables rfl rfl)) (launches (Launches.answerPhaseDeferred _ _ _))

theorem answerGood (s : State) (t : Tag) (x : Exchange) (g : Header) (h : Holds (s.entry t) x) : Out s (s.answerGood t x g) := by
  unfold State.answerGood
  split
  · split
    · split
      · exact answerAccepted s _ _ _ _ h
      · exact finishAnswer s _ _ _ h
    · exact answerDeferred s _ _ h
    all_goals exact finishAnswer s _ _ _ h
  · exact finishAnswer s _ _ _ h

theorem answerFrameEnd (s : State) (t : Tag) (g : Option Header) : Out s (s.answerFrameEnd t g) := by
  unfold State.answerFrameEnd
  split <;> rename_i e
  · split
    · exact answerGood s _ _ _ fun i => by simp [e, Entry.liveFor]
    · rename_i x _ _
      refine trans (t := s.setPool (s.pool.setOwners x.reservedChain (.reserved t))) (tables rfl rfl)
        (failedAttempt _ t x .damaged fun i => ?_)
      show Entry.liveFor i (s.entry t) = _
      simp [e, Entry.liveFor]
  all_goals exact refl s

theorem answerExpired (s : State) (t : Tag) : Out s (s.answerExpired t) := by
  unfold State.answerExpired
  split <;> rename_i e
  · exact failedAttempt s _ _ _ fun i => by simp [e, Entry.liveFor]
  all_goals exact refl s

theorem ownerCut (s : State) (x : Send) : Out s (s.ownerCut x) := by
  cases x with
  | request k t st =>
    show Out s (s.entryCollided t)
    unfold State.entryCollided
    split <;> rename_i e
    · exact failedAttempt s _ _ _ fun i => by simp [e, Entry.liveFor]
    all_goals exact refl s
  | notice k => exact launches (Launches.launcherNoticeCut s k)

theorem recallHeader (s : State) (g : Header) : Out s (s.recallHeader g) := by
  unfold State.recallHeader
  split <;> rename_i e
  · split
    · refine trans (t := s.setPool (s.recallDecision g.tag _ g.length).2) (tables rfl rfl) (out_setEntry _ _ _ fun i => ?_)
      show _ = Entry.liveFor i (s.entry g.tag)
      simp [e, Entry.liveFor]
    · exact refl s
  all_goals exact refl s

theorem headerHanded (s : State) (o : Origin) (g : Header) : Out s (s.headerHanded o g) := by
  unfold State.headerHanded
  split
  · split <;> rename_i e
    · exact out_setEntry s _ _ (by simp [e, Entry.liveFor])
    all_goals exact refl s
  · split
    · exact recallHeader s g
    · exact refl s
  · exact refl s

theorem storePayload (s : State) (o : Origin) (g : Header) (i : Nat) (v : Byte) : Out s (s.storePayload o g i v) := by
  unfold State.storePayload
  split
  · split <;> exact tables rfl rfl
  · split
    · split <;> exact tables rfl rfl
    · exact refl s
  · exact refl s

theorem recallBad (s : State) (t : Tag) : Out s (s.recallBad t) := by
  unfold State.recallBad
  split <;> rename_i e
  · split
    · exact finishDeferred_reevaluate s t _ _ fun i => by simp [e, Entry.liveFor]
    · split
      · rename_i x d _ _ _ bs
        have base : Out s ((s.setEntry t (.deferred x d)).freeBlocks bs) :=
          trans (t := s.setEntry t (.deferred x d)) (out_setEntry s t _ fun i => by simp [e, Entry.liveFor]) (tables rfl rfl)
        dsimp only
        split
        · exact base
        · exact trans base (launches (Launches.reevaluate _))
      · refine trans (t := s.setPool _) (tables rfl rfl) (out_setEntry _ _ _ fun i => ?_)
        show _ = Entry.liveFor i (s.entry t)
        simp [e, Entry.liveFor]
      all_goals exact out_setEntry s _ _ fun i => by simp [e, Entry.liveFor]
  all_goals exact refl s

theorem recallDisowned (s : State) (t : Tag) (i : StationId) : Out s (s.recallDisowned t i) := by
  have base : Out s (s.count .strayFrames) := tables rfl rfl
  unfold State.recallDisowned
  dsimp only
  split <;> rename_i e
  · split
    · refine trans base (trans (out_setEntry _ t .free fun j => ?_) (launches (Launches.reevaluate _)))
      show _ = Entry.liveFor j (s.entry t)
      simp [e, Entry.liveFor]
    · exact base
  · split
    · refine trans base (out_setEntry _ _ _ fun j => ?_)
      show _ = Entry.liveFor j (s.entry t)
      simp [e, Entry.liveFor]
    · exact base
  all_goals exact base

theorem recallGood (s : State) (g : Header) : Out s (s.recallGood g).2 := by
  unfold State.recallGood
  split <;> rename_i e
  · split
    · exact finishDeferred_reevaluate s _ _ _ fun i => by simp [e, Entry.liveFor]
    · exact finishDeferred_reevaluate s _ _ _ fun i => by simp [e, Entry.liveFor]
    · exact finishDeferred_reevaluate s _ _ _ fun i => by simp [e, Entry.liveFor]
    · dsimp only
      split
      · refine trans (t := s.count .busyBacks) (tables rfl rfl) (finishDeferred_reevaluate _ _ _ _ fun i => ?_)
        show Entry.liveFor i (s.entry g.tag) = _
        simp [e, Entry.liveFor, Exchange.busied]
      · refine trans (t := s.count .busyBacks) (tables rfl rfl) (out_setEntry _ _ _ fun i => ?_)
        show _ = Entry.liveFor i (s.entry g.tag)
        simp [e, Entry.liveFor, Exchange.busied]
  all_goals exact recallDisowned s _ _

theorem deadlineTick (s : State) (t : Tag) : Out s (s.deadlineTick t) := by
  unfold State.deadlineTick
  split <;> rename_i e
  · split
    · exact finishDeferred_reevaluate s _ _ _ fun i => by simp [e, Entry.liveFor]
    · exact out_setEntry s _ _ fun i => by simp [e, Entry.liveFor]
  · exact out_setEntry s _ _ fun i => by simp [e, Entry.liveFor]
  all_goals exact refl s

theorem restTick (s : State) (t : Tag) : Out s (s.restTick t) := by
  unfold State.restTick
  split <;> rename_i e
  · split
    · exact trans (out_setEntry s _ _ fun i => by simp [e, Entry.liveFor]) (launches (Launches.reevaluate _))
    · exact out_setEntry s _ _ fun i => by simp [e, Entry.liveFor]
  all_goals exact refl s

theorem withdrawTag (s : State) (t : Tag) : Out s (s.withdrawTag t).2 := by
  unfold State.withdrawTag
  split <;> rename_i e
  · exact finishDeferred_reevaluate s _ _ _ fun i => by simp [e, Entry.liveFor]
  all_goals exact refl s

theorem exchangePopped (s : State) (t : Tag) : Out s (s.exchangePopped t) := by
  unfold State.exchangePopped
  split <;> rename_i e
  · refine trans (t := s.setPool _) (tables rfl rfl) (out_setEntry _ _ _ fun i => ?_)
    show _ = Entry.liveFor i (s.entry t)
    unfold afterPop
    split <;> simp [e, Entry.liveFor]
  all_goals exact refl s

theorem popEffects (s : State) (r : Report) : Out s (s.popEffects r) := by
  unfold State.popEffects
  split
  · split
    · exact exchangePopped s _
    · exact refl s
  · split
    · exact launches (Launches.attentionPopped s _)
    · exact refl s
  all_goals exact refl s

theorem undoEntry (s : State) (t : Tag) (x : Exchange) (h : Holds (s.entry t) x) : Out s (s.undoEntry t x) :=
  out_leaves t x.station .free h (fun _ => rfl) rfl rfl

theorem undoSend (s : State) : Out s s.undoSend := by
  unfold State.undoSend
  split
  · split <;> rename_i e
    · exact undoEntry s _ _ fun i => by simp [e, Entry.liveFor]
    all_goals exact refl s
  all_goals exact refl s

theorem entryTrunkReset (s : State) (t : Tag) : Out s (s.entryTrunkReset t) := by
  unfold State.entryTrunkReset
  split <;> rename_i e
  · exact refl s
  · split
    · exact undoEntry s _ _ fun i => by simp [e, Entry.liveFor]
    · exact finishAnswer s _ _ _ fun i => by simp [e, Entry.liveFor]
  · exact finishAnswer s _ _ _ fun i => by simp [e, Entry.liveFor]
  · exact finishAnswer s _ _ _ fun i => by simp [e, Entry.liveFor]
  · exact finishDeferred s _ _ _ fun i => by simp [e, Entry.liveFor]
  · exact finishDeferred s _ _ _ fun i => by simp [e, Entry.liveFor]
  · exact refl s
  · exact out_setEntry s _ _ fun i => by simp [e, Entry.liveFor]

theorem foldl {f : State → Tag → State} (h : ∀ s t, Out s (f s t)) (ts : List Tag) (s : State) : Out s (ts.foldl f s) := by
  induction ts generalizing s with
  | nil => exact refl s
  | cons t ts ih => exact trans (h s t) (ih _)

theorem trunkResetDelivered (s : State) : Out s s.trunkResetDelivered := by
  have table := fun s : State => trans (trans (foldl entryTrunkReset (List.finRange 16) s)
    (launches (Launches.launcherTrunkReset _))) (launches (Launches.stationsTrunkReset _))
  unfold State.trunkResetDelivered
  split
  · dsimp only
    refine trans (t := s.nextChoice) (tables rfl rfl) ?_
    split
    · exact trans (trans (launches (Launches.launcherTrunkReset _)) (foldl entryTrunkReset (List.finRange 16) _))
        (launches (Launches.stationsTrunkReset _))
    · exact table _
  all_goals exact table s

theorem tableTick (s : State) (b : Bool) : Out s (s.tableTick b) := by
  unfold State.tableTick
  split
  · exact trans (foldl restTick _ s) (foldl deadlineTick _ _)
  · exact trans (foldl deadlineTick _ s) (foldl restTick _ _)

theorem tick (s : State) (o : TickOrder) : Out s (s.tick o) := by
  unfold State.tick
  dsimp only
  split
  · exact trans (t := (s.setTrunk { s.trunk with heartbeat := 0 }).reportsTick) (tables rfl rfl) (tableTick _ _)
  · exact trans (t := s.setTrunk { s.trunk with heartbeat := 0 }) (tables rfl rfl)
      (trans (tableTick _ _) (tables rfl rfl))

end Out

end Sys2Proof.Machine
end

