-- ==== Sys2Proof/Laws/Blocks.lean ====
section
/-! SUPPORT. The owners of the pool's blocks (R102, R103): what each move of blocks does to the agreement between the pool and those that
name its blocks. -/

namespace Sys2Proof.Machine

open Sys2Proof

namespace Pool

/-- Pools are equal when their owners and links are, block by block. -/
theorem ext_of {p q : Pool} (ho : ∀ b : BlockId, p.owner[b] = q.owner[b]) (hl : ∀ b : BlockId, p.link[b] = q.link[b])
    (hf : p.freeList = q.freeList) (hd : p.data = q.data) : p = q := by
  obtain ⟨po, pl, pf, pd⟩ := p
  obtain ⟨qo, ql, qf, qd⟩ := q
  dsimp only at ho hl hf hd
  have eo : po = qo := Vector.ext fun i h => ho ⟨i, h⟩
  have el : pl = ql := Vector.ext fun i h => hl ⟨i, h⟩
  rw [eo, el, hf, hd]

/-- Freed blocks need not be of one owner before. -/
theorem appendAll_released (p : Pool) (bs : List BlockId) (o : Owner) : (p.setOwners bs o).appendAll bs = p.appendAll bs := by
  refine ext_of (fun b => ?_) (fun b => ?_) (by simp) (by simp)
  · rw [appendAll_owner, appendAll_owner, setOwners_owner]
    by_cases h : b ∈ bs <;> simp [h]
  · rw [appendAll_link, appendAll_link, setOwners_link]

theorem linkChain_link_congr (p q : Pool) (bs : List BlockId) (h : p.link = q.link) :
    (p.linkChain bs).link = (q.linkChain bs).link := by
  induction bs generalizing p q with
  | nil => exact h
  | cons b bs ih =>
    cases bs with
    | nil => simp [linkChain, setLink, h]
    | cons c bs => exact ih _ _ (by simp [setLink, h])

/-- A take for an ownership is a take by the processor, passed on. -/
theorem take_passed (p : Pool) (n : Nat) (o : Owner) :
    p.take n o = (p.take n .processor).setOwners (p.freeList.take n) o := by
  refine ext_of (fun b => ?_) (fun b => ?_) (by simp) (by simp)
  · rw [setOwners_owner, take_owner, take_owner]
    by_cases h : b ∈ p.freeList.take n <;> simp [h]
  · rw [setOwners_link]
    unfold take
    exact congrArg (fun v : Vector (Option BlockId) 64 => v[b]) (linkChain_link_congr _ _ _ (by simp))

/-- A chain depends on the links of its own blocks alone. -/
theorem chain_congr (p q : Pool) (n : Nat) (b : BlockId) (h : ∀ c ∈ p.chain n b, q.link[c] = p.link[c]) :
    q.chain n b = p.chain n b := by
  induction n generalizing b with
  | zero => rfl
  | succ n ih =>
    have hb : q.link[b] = p.link[b] := h b (by
      unfold chain
      split <;> simp)
    unfold chain at h ⊢
    rw [hb]
    cases e : p.link[b] with
    | none => rfl
    | some c =>
      rw [e] at h
      dsimp only at h ⊢
      rw [ih c fun x hx => h x (List.mem_cons_of_mem _ hx)]

namespace owned

variable {p : Pool} {H R : Tag → List BlockId} {o : Option SlotId} {C : List BlockId}

/-- The links and the data play no part. -/
theorem congr {q : Pool} (h : p.owned H R o C) (ho : q.owner = p.owner) (hf : q.freeList = p.freeList) : q.owned H R o C := by
  obtain ⟨a, b, c, d, e, f, g⟩ := h
  exact ⟨by rw [ho, hf]; exact a, by rw [hf]; exact b, by rw [ho]; exact c, d, by rw [ho]; exact e, by rw [ho]; exact f, g⟩

theorem rename {H' R' : Tag → List BlockId} {C' : List BlockId} (h : p.owned H R o C) (hH : H' = H) (hR : R' = R) (hC : C' = C) :
    p.owned H' R' o C' := by
  rw [hH, hR, hC]
  exact h

/-- The processor's blocks are freed (R103). -/
theorem append (h : p.owned H R o C) (F : List BlockId) (hn : F.Nodup) (hF : ∀ b ∈ F, p.owner[b] = .processor) :
    (p.appendAll F).owned H R o C := by
  refine ⟨fun b => ?_, ?_, fun g b => ?_, h.heldOnce, fun g b => ?_, fun k b => ?_, h.lentOnce⟩
  · rw [appendAll_owner, appendAll_freeList, List.mem_append, ← h.free b]
    split <;> rename_i m <;> simp [m]
  · rw [appendAll_freeList, List.nodup_append]
    refine ⟨h.freeOnce, hn, fun a ha b hb e => ?_⟩
    have := (h.free a).mpr ha
    rw [e, hF b hb] at this
    cases this
  · rw [appendAll_owner, ← h.held g b]
    split
    · rename_i m
      rw [hF b m]
      simp
    · exact Iff.rfl
  · rw [appendAll_owner, ← h.reported g b]
    split
    · rename_i m
      rw [hF b m]
      simp
    · exact Iff.rfl
  · rw [appendAll_owner, ← h.lent k b]
    split
    · rename_i m
      rw [hF b m]
      simp
    · exact Iff.rfl

/-- Blocks that are not FREE pass to one owner: who names them changes with them. -/
theorem moved {H' R' : Tag → List BlockId} {o' : Option SlotId} {C' : List BlockId} (h : p.owned H R o C) (F : List BlockId) (w : Owner)
    (hw : w ≠ .free) (hF : ∀ b ∈ F, p.owner[b] ≠ .free)
    (hH : ∀ g b, b ∈ H' g ↔ if b ∈ F then w = .reserved g ∨ w = .inbound g else b ∈ H g)
    (hR : ∀ g b, b ∈ R' g ↔ if b ∈ F then w = .reported g else b ∈ R g)
    (hC : ∀ k b, (o' = some k ∧ b ∈ C') ↔ if b ∈ F then w = .outbound k else o = some k ∧ b ∈ C)
    (nH : ∀ g, (H' g).Nodup) (nC : C'.Nodup) : (p.setOwners F w).owned H' R' o' C' := by
  refine ⟨fun b => ?_, by rw [setOwners_freeList]; exact h.freeOnce, fun g b => ?_, nH, fun g b => ?_, fun k b => ?_, nC⟩
  · rw [setOwners_owner, setOwners_freeList, ← h.free b]
    split
    · exact ⟨fun e => absurd e hw, fun e => absurd e (hF b ‹_›)⟩
    · exact Iff.rfl
  · rw [setOwners_owner, hH]
    split
    · exact Iff.rfl
    · exact h.held g b
  · rw [setOwners_owner, hR]
    split
    · exact Iff.rfl
    · exact h.reported g b
  · rw [setOwners_owner, hC]
    split
    · exact Iff.rfl
    · exact h.lent k b

/-- Blocks move between an entry and the processor, or stay with the entry as RESERVED or INBOUND: nothing else is named anew. -/
theorem entry {H' : Tag → List BlockId} (h : p.owned H R o C) (g : Tag) (F : List BlockId) (w : Owner)
    (hw : w = .processor ∨ w = .reserved g ∨ w = .inbound g) (hF : ∀ b ∈ F, b ∈ H g ∨ p.owner[b] = .processor)
    (same : ∀ u, u ≠ g → H' u = H u) (hg : ∀ b, b ∈ H' g ↔ if b ∈ F then w ≠ .processor else b ∈ H g) (hn : (H' g).Nodup) :
    (p.setOwners F w).owned H' R o C := by
  have was : ∀ b ∈ F, p.owner[b] = .processor ∨ p.owner[b] = .reserved g ∨ p.owner[b] = .inbound g := fun b m =>
    (hF b m).elim (fun e => .inr ((h.held g b).mpr e)) .inl
  refine h.moved F w (by rcases hw with rfl | rfl | rfl <;> nofun)
    (fun b m => by rcases was b m with e | e | e <;> rw [e] <;> nofun) (fun u b => ?_) (fun u b => ?_) (fun k b => ?_) (fun u => ?_)
    h.lentOnce
  · by_cases e : u = g
    · subst e
      rw [hg]
      split
      · rcases hw with rfl | rfl | rfl <;> simp
      · exact Iff.rfl
    · rw [same u e]
      split
      · rename_i m
        rw [← h.held u b]
        have e' : g ≠ u := fun c => e c.symm
        rcases hw with rfl | rfl | rfl <;> rcases was b m with x | x | x <;> rw [x] <;> simp [e']
      · exact Iff.rfl
  · split
    · rename_i m
      rw [← h.reported u b]
      rcases hw with rfl | rfl | rfl <;> rcases was b m with x | x | x <;> rw [x] <;> simp
    · exact Iff.rfl
  · split
    · rename_i m
      rw [← h.lent k b]
      rcases hw with rfl | rfl | rfl <;> rcases was b m with x | x | x <;> rw [x] <;> simp
    · exact Iff.rfl
  · by_cases e : u = g
    · rw [e]
      exact hn
    · rw [same u e]
      exact h.heldOnce u

/-- Blocks an entry holds stay its own, RESERVED or INBOUND (R113). -/
theorem hold (h : p.owned H R o C) (g : Tag) (w : Owner) (hw : w = .reserved g ∨ w = .inbound g) (F : List BlockId)
    (hF : ∀ b ∈ F, b ∈ H g) : (p.setOwners F w).owned H R o C := by
  refine h.entry g F w (.inr hw) (fun b m => .inl (hF b m)) (fun _ _ => rfl) (fun b => ?_) (h.heldOnce g)
  split
  · rename_i m
    refine ⟨fun _ => ?_, fun _ => hF b m⟩
    rcases hw with rfl | rfl <;> nofun
  · exact Iff.rfl

/-- All an entry holds passes to its report (R116). -/
theorem report {H' R' : Tag → List BlockId} (h : p.owned H R o C) (g : Tag) (F : List BlockId) (hF : ∀ b, b ∈ F ↔ b ∈ H g)
    (hr : R g = []) (same : ∀ u, u ≠ g → H' u = H u ∧ R' u = R u) (hH : H' g = []) (hR : R' g = F) :
    (p.setOwners F (.reported g)).owned H' R' o C := by
  have was : ∀ b ∈ F, p.owner[b] = .reserved g ∨ p.owner[b] = .inbound g := fun b m => (h.held g b).mpr ((hF b).mp m)
  refine h.moved F _ nofun (fun b m => by rcases was b m with e | e <;> rw [e] <;> nofun) (fun u b => ?_) (fun u b => ?_)
    (fun k b => ?_) (fun u => ?_) h.lentOnce
  · by_cases e : u = g
    · subst e
      rw [hH]
      split
      · simp
      · rename_i m
        simpa using fun c => m ((hF b).mpr c)
    · rw [(same u e).1]
      split
      · rename_i m
        rw [← h.held u b]
        have e' : g ≠ u := fun c => e c.symm
        rcases was b m with x | x <;> rw [x] <;> simp [e']
      · exact Iff.rfl
  · by_cases e : u = g
    · subst e
      rw [hR, hr]
      split
      · rename_i m
        simpa using m
      · rename_i m
        simpa using m
    · rw [(same u e).2]
      split
      · rename_i m
        rw [← h.reported u b]
        have e' : g ≠ u := fun c => e c.symm
        rcases was b m with x | x <;> rw [x] <;> simp [e']
      · exact Iff.rfl
  · split
    · rename_i m
      rw [← h.lent k b]
      rcases was b m with x | x <;> rw [x] <;> simp
    · exact Iff.rfl
  · by_cases e : u = g
    · rw [e, hH]
      exact List.nodup_nil
    · rw [(same u e).1]
      exact h.heldOnce u

/-- A report's blocks pass to the processor (R116). -/
theorem popped {R' : Tag → List BlockId} (h : p.owned H R o C) (g : Tag) (same : ∀ u, u ≠ g → R' u = R u) (hR : R' g = []) :
    (p.setOwners (R g) .processor).owned H R' o C := by
  have was : ∀ b ∈ R g, p.owner[b] = .reported g := fun b m => (h.reported g b).mpr m
  refine h.moved (R g) _ nofun (fun b m => by rw [was b m]; nofun) (fun u b => ?_) (fun u b => ?_) (fun k b => ?_) h.heldOnce
    h.lentOnce
  · split
    · rename_i m
      rw [← h.held u b, was b m]
      simp
    · exact Iff.rfl
  · by_cases e : u = g
    · subst e
      rw [hR]
      split
      · simp
      · rename_i m
        simpa using m
    · rw [same u e]
      split
      · rename_i m
        have e' : g ≠ u := fun c => e c.symm
        rw [← h.reported u b, was b m]
        simp [e']
      · exact Iff.rfl
  · split
    · rename_i m
      rw [← h.lent k b, was b m]
      simp
    · exact Iff.rfl

/-- The processor's blocks are lent to the Launcher (R84, R85). -/
theorem lend (h : p.owned H R none C) (k : SlotId) (F : List BlockId) (hn : F.Nodup) (hF : ∀ b ∈ F, p.owner[b] = .processor) :
    (p.setOwners F (.outbound k)).owned H R (some k) F := by
  refine h.moved F _ nofun (fun b m => by rw [hF b m]; nofun) (fun u b => ?_) (fun u b => ?_) (fun j b => ?_) h.heldOnce hn
  · split
    · rename_i m
      rw [← h.held u b, hF b m]
      simp
    · exact Iff.rfl
  · split
    · rename_i m
      rw [← h.reported u b, hF b m]
      simp
    · exact Iff.rfl
  · split <;> rename_i m <;> simp [m]

/-- The chain lent goes back to the processor (R112). -/
theorem back {k : SlotId} (h : p.owned H R (some k) C) : (p.setOwners C .processor).owned H R none [] := by
  have was : ∀ b ∈ C, p.owner[b] = .outbound k := fun b m => (h.lent k b).mpr ⟨rfl, m⟩
  refine h.moved C _ nofun (fun b m => by rw [was b m]; nofun) (fun u b => ?_) (fun u b => ?_) (fun j b => ?_) h.heldOnce
    List.nodup_nil
  · split
    · rename_i m
      rw [← h.held u b, was b m]
      simp
    · exact Iff.rfl
  · split
    · rename_i m
      rw [← h.reported u b, was b m]
      simp
    · exact Iff.rfl
  · split <;> rename_i m <;> simp [m]

/-- A take by the processor (R103, R106). -/
theorem taken (h : p.owned H R o C) (n : Nat) : (p.take n .processor).owned H R o C := by
  have was : ∀ b ∈ p.freeList.take n, p.owner[b] = .free := fun b m => (h.free b).mpr (List.mem_of_mem_take m)
  refine ⟨fun b => ?_, ?_, fun g b => ?_, h.heldOnce, fun g b => ?_, fun k b => ?_, h.lentOnce⟩
  · rw [take_owner, take_freeList]
    have parted : b ∈ p.freeList ↔ b ∈ p.freeList.take n ∨ b ∈ p.freeList.drop n := by
      rw [← List.mem_append, List.take_append_drop]
    have apart : b ∈ p.freeList.take n → b ∉ p.freeList.drop n := fun x y => by
      have := h.freeOnce
      rw [← List.take_append_drop n p.freeList, List.nodup_append] at this
      exact this.2.2 b x b y rfl
    split
    · rename_i m
      exact ⟨nofun, fun c => absurd c (apart m)⟩
    · rename_i m
      rw [h.free b, parted]
      exact ⟨fun c => c.resolve_left m, .inr⟩
  · rw [take_freeList]
    exact h.freeOnce.sublist (List.drop_sublist n _)
  · rw [take_owner, ← h.held g b]
    split
    · rename_i m
      rw [was b m]
      simp
    · exact Iff.rfl
  · rw [take_owner, ← h.reported g b]
    split
    · rename_i m
      rw [was b m]
      simp
    · exact Iff.rfl
  · rw [take_owner, ← h.lent k b]
    split
    · rename_i m
      rw [was b m]
      simp
    · exact Iff.rfl

end owned
end Pool

/-! ## States that agree -/

/-- The agreement of the pool, the slots and the sends with the table and the Launcher (R20, R75, R102, R103). -/
structure Agrees (s : State) : Prop where
  blocks : s.blocksAgree
  slots : s.slotsAgree
  sends : s.sendsAgree

/-- What the agreement speaks of is the same in both, but for the Launcher. -/
structure Same (s t : State) : Prop where
  pool : t.pool = s.pool
  entries : t.entries = s.entries
  slots : t.slots = s.slots
  trunk : t.trunk = s.trunk

namespace Same

theorem entry {s t : State} (h : Same s t) (g : Tag) : t.entry g = s.entry g := by simp only [State.entry, h.entries]
theorem slot {s t : State} (h : Same s t) (k : SlotId) : t.slot k = s.slot k := by simp only [State.slot, h.slots]
theorem outChain {s t : State} (h : Same s t) (k : SlotId) : t.outChain k = s.outChain k := by
  unfold State.outChain
  rw [h.pool, h.slot]

end Same

theorem lent_eq {s : State} {k : SlotId} (h : s.launcher.phase.lender = some k) : s.lent = s.outChain k := by
  unfold State.lent
  rw [h]

theorem lent_none {s : State} (h : s.launcher.phase.lender = none) : s.lent = [] := by
  unfold State.lent
  rw [h]

/-- A block of a chain lent is named by no entry and is not FREE. -/
theorem lent_owner {s : State} (h : s.blocksAgree) (b : BlockId) (hb : b ∈ s.lent) :
    ∃ k, s.launcher.phase.lender = some k ∧ s.pool.owner[b] = .outbound k := by
  cases e : s.launcher.phase.lender with
  | none =>
    rw [lent_none e] at hb
    cases hb
  | some k => exact ⟨k, rfl, (h.owned.lent k b).mpr ⟨e, hb⟩⟩

/-- The chain lent stands while its slot's fields and its blocks' links do. -/
theorem lent_kept {s t : State} (hp : t.launcher.phase.lender = s.launcher.phase.lender)
    (hs : ∀ k, s.launcher.phase.lender = some k →
      (t.slot k).outLength = (s.slot k).outLength ∧ (t.slot k).outFirst = (s.slot k).outFirst)
    (hl : ∀ b ∈ s.lent, t.pool.link[b] = s.pool.link[b]) : t.lent = s.lent := by
  cases e : s.launcher.phase.lender with
  | none => rw [lent_none e, lent_none (hp.trans e)]
  | some k =>
    rw [lent_eq e] at hl ⊢
    rw [lent_eq (hp.trans e)]
    unfold State.outChain at hl ⊢
    rw [(hs k e).1, (hs k e).2]
    exact Pool.chain_congr _ _ _ _ hl

/-- The same owners, free list, links of the chain lent, entries and chain fields. -/
theorem blocks_same {s t : State} (h : s.blocksAgree) (hp : t.pool = s.pool) (he : ∀ g, (t.entry g).holds = (s.entry g).holds)
    (hr : ∀ g, (t.entry g).reported = (s.entry g).reported) (ha : ∀ g, (t.entry g).apart)
    (hl : t.launcher.phase.lender = s.launcher.phase.lender)
    (hs : ∀ k, s.launcher.phase.lender = some k →
      (t.slot k).outLength = (s.slot k).outLength ∧ (t.slot k).outFirst = (s.slot k).outFirst) : t.blocksAgree where
  owned := by
    rw [hp, hl]
    exact h.owned.rename (funext he) (funext hr) (lent_kept hl hs fun b _ => by rw [hp])
  apart := ha

/-- An away slot stays Active and its own entry's alone, and so does the current one. -/
theorem slots_same {s t : State} (h : s.slotsAgree)
    (he : ∀ g, (t.entry g).awaySlot = none ∨ (t.entry g).awaySlot = (s.entry g).awaySlot)
    (hs : ∀ k, (∃ g, (t.entry g).awaySlot = some k) ∨ t.launcher.phase.current = some k → (t.slot k).state = (s.slot k).state)
    (hc : t.launcher.phase.current = none ∨ t.launcher.phase.current = s.launcher.phase.current) : t.slotsAgree where
  current k e := by
    have e' : s.launcher.phase.current = some k := by
      rcases hc with x | x
      · rw [x] at e
        cases e
      · rw [← x]
        exact e
    refine ⟨by rw [hs k (.inr e)]; exact (h.current k e').1, fun g x => ?_⟩
    rcases he g with y | y
    · rw [y] at x
      cases x
    · exact (h.current k e').2 g (by rw [← y]; exact x)
  away g k e := by
    have was : ∀ u, (t.entry u).awaySlot = some k → (s.entry u).awaySlot = some k := fun u x => by
      rcases he u with y | y
      · rw [y] at x
        cases x
      · rw [← y]
        exact x
    exact ⟨by rw [hs k (.inl ⟨g, e⟩)]; exact (h.away g k (was g e)).1, fun u x => (h.away g k (was g e)).2 u (was u x)⟩

/-- Nothing answers, nothing is asked and nothing is sent. -/
theorem sends_quiet {s : State} (ha : ∀ g, (s.entry g).answering = none) (hp : s.trunk.pendingSend = none)
    (ht : ∀ f n, s.trunk.state ≠ .transmitting f n) : s.sendsAgree where
  answering g x e := by
    rw [ha g] at e
    cases e
  pending p e := by
    rw [hp] at e
    cases e
  sending f n e := absurd e (ht f n)

/-- The Launcher's phase and the send stand; an entry that is asked for or sent stands. -/
theorem sends_same {s t : State} (h : s.sendsAgree) (hl : t.launcher.phase = s.launcher.phase)
    (hp : t.trunk.pendingSend = s.trunk.pendingSend)
    (ht : t.trunk.state = s.trunk.state ∨ ∀ f n, t.trunk.state ≠ .transmitting f n)
    (ha : ∀ g, (t.entry g).answering = none ∨ (t.entry g).answering = (s.entry g).answering)
    (hq : ∀ g x, s.entry g = .reserved false x → s.trunk.pendingSend = none ∨ t.entry g = s.entry g)
    (hf : ∀ g x, s.entry g = .reserved true x → (∀ f n, t.trunk.state ≠ .transmitting f n) ∨ t.entry g = s.entry g) :
    t.sendsAgree where
  answering g x e := by
    have was : ∀ u y, (t.entry u).answering = some y → (s.entry u).answering = some y := fun u y e => by
      rcases ha u with c | c
      · rw [c] at e
        cases e
      · rw [← c]
        exact e
    have k := h.answering g x (was g x e)
    exact ⟨hl.trans k.1, fun u y c => k.2 u y (was u y c)⟩
  pending p e := by
    rw [hp] at e
    have k := h.pending p e
    refine ⟨fun g => ?_, ?_⟩
    · rcases ha g with c | c
      · exact c
      · rw [c]
        exact k.1 g
    · unfold State.asks
      rw [hl]
      cases p with
      | notice j => exact k.2
      | request j g st =>
        obtain ⟨⟨x, hx, hk⟩, c⟩ := k.2
        refine ⟨⟨x, ?_, hk⟩, c⟩
        rcases hq g x hx with n | n
        · rw [n] at e
          cases e
        · rw [n]
          exact hx
  sending f n e := by
    have e' : s.trunk.state = .transmitting f n := by
      rcases ht with c | c
      · rw [← c]
        exact e
      · exact absurd e (c f n)
    have k := h.sending f n e'
    refine ⟨hp.trans k.1, ?_⟩
    have ks := k.2
    cases hf' : f.send with
    | notice j =>
      rw [hf'] at ks
      unfold State.sends
      dsimp only
      rw [hl]
      exact ks
    | request j g st =>
      rw [hf'] at ks
      obtain ⟨x, hx, hk⟩ := ks
      refine ⟨x, ?_, hk⟩
      rcases hf g x hx with c | c
      · exact absurd e (c f n)
      · rw [c]
        exact hx

namespace Agrees

/-- The tables, the phase and the trunk's part stand. -/
theorem same {s t : State} (h : Agrees s) (k : Same s t) (hl : t.launcher.phase = s.launcher.phase) : Agrees t where
  blocks := blocks_same h.blocks k.pool (fun g => by rw [k.entry]) (fun g => by rw [k.entry])
    (fun g => by rw [k.entry]; exact h.blocks.apart g) (by rw [hl]) fun j _ => by rw [k.slot]; exact ⟨rfl, rfl⟩
  slots := slots_same h.slots (fun g => .inr (by rw [k.entry])) (fun j _ => by rw [k.slot]) (.inr (by rw [hl]))
  sends := sends_same h.sends hl (by rw [k.trunk]) (.inl (by rw [k.trunk])) (fun g => .inr (by rw [k.entry]))
    (fun g _ _ => .inr (k.entry g)) fun g _ _ => .inr (k.entry g)

/-- The controller changes its state, to no frame of the Launcher's. -/
theorem trunk {s t : State} (h : Agrees s) (hp : t.pool = s.pool) (he : t.entries = s.entries) (hs : t.slots = s.slots)
    (hl : t.launcher.phase = s.launcher.phase) (hq : t.trunk.pendingSend = s.trunk.pendingSend)
    (ht : t.trunk.state = s.trunk.state ∨ ∀ f n, t.trunk.state ≠ .transmitting f n) : Agrees t := by
  have entry : ∀ g, t.entry g = s.entry g := fun g => by simp only [State.entry, he]
  have slot : ∀ k, t.slot k = s.slot k := fun k => by simp only [State.slot, hs]
  exact ⟨blocks_same h.blocks hp (fun g => by rw [entry]) (fun g => by rw [entry])
      (fun g => by rw [entry]; exact h.blocks.apart g) (by rw [hl]) fun j _ => by rw [slot]; exact ⟨rfl, rfl⟩,
    slots_same h.slots (fun g => .inr (by rw [entry])) (fun j _ => by rw [slot]) (.inr (by rw [hl])),
    sends_same h.sends hl hq ht (fun g => .inr (by rw [entry])) (fun g _ _ => .inr (entry g)) fun g _ _ => .inr (entry g)⟩

end Agrees

/-! ## The Launcher between two slots -/

/-- The Launcher has no chain and nothing of it is asked for or on the line. -/
structure Between (s : State) : Prop where
  owned : s.pool.owned (fun g => (s.entry g).holds) (fun g => (s.entry g).reported) none []
  apart : ∀ g, (s.entry g).apart
  away : ∀ g k, (s.entry g).awaySlot = some k → (s.slot k).state = .active ∧ ∀ u, (s.entry u).awaySlot = some k → u = g
  answering : ∀ g, (s.entry g).answering = none
  pending : s.trunk.pendingSend = none
  sending : ∀ f n, s.trunk.state ≠ .transmitting f n

/-- A slot the Launcher looks at: its own, Active. -/
structure Looks (k : SlotId) (s : State) : Prop extends Between s where
  active : (s.slot k).state = .active
  own : ∀ g, (s.entry g).awaySlot ≠ some k

namespace Between

theorem same {s t : State} (h : Between s) (k : Same s t) : Between t where
  owned := by
    rw [k.pool]
    exact h.owned.rename (funext fun g => by rw [k.entry]) (funext fun g => by rw [k.entry]) rfl
  apart g := by
    rw [k.entry]
    exact h.apart g
  away g j := by
    rw [k.entry, k.slot]
    intro e
    refine ⟨(h.away g j e).1, fun u => ?_⟩
    rw [k.entry]
    exact (h.away g j e).2 u
  answering g := by
    rw [k.entry]
    exact h.answering g
  pending := by
    rw [k.trunk]
    exact h.pending
  sending := by
    rw [k.trunk]
    exact h.sending

/-- The Launcher stops or waits with no slot of its own. -/
theorem stops {s t : State} (h : Between s) (k : Same s t) (hl : t.launcher.phase.lender = none)
    (hc : t.launcher.phase.current = none) : Agrees t := by
  have b := h.same k
  refine ⟨⟨?_, b.apart⟩, ⟨fun j e => ?_, b.away⟩, sends_quiet b.answering b.pending b.sending⟩
  · rw [hl, lent_none hl]
    exact b.owned
  · rw [hc] at e
    cases e

/-- A slot that no deferred exchange has changes. -/
theorem setSlot {s : State} (h : Between s) (k : SlotId) (sl : Slot) (hk : ∀ g, (s.entry g).awaySlot ≠ some k) :
    Between (s.setSlot k sl) where
  owned := h.owned
  apart := h.apart
  away g j e := by
    rw [slot_setSlot, if_neg fun c => hk g (by rw [c]; exact e)]
    exact h.away g j e
  answering := h.answering
  pending := h.pending
  sending := h.sending

/-- A Launcher that is Idle, Held or Waiting is between two slots. -/
theorem ofAgrees {s : State} (h : Agrees s) (hl : s.launcher.phase.lender = none) : Between s where
  owned := by
    have := h.blocks.owned
    rw [hl, lent_none hl] at this
    exact this
  apart := h.blocks.apart
  away := h.slots.away
  answering g := by
    cases e : (s.entry g).answering with
    | none => rfl
    | some x =>
      rw [(h.sends.answering g x e).1] at hl
      cases hl
  pending := by
    cases e : s.trunk.pendingSend with
    | none => rfl
    | some p =>
      have k := (h.sends.pending p e).2
      cases p with
      | request j g st => rcases k.2 with c | c <;> (rw [c] at hl; cases hl)
      | notice j => obtain ⟨n, c | c⟩ := k <;> (rw [c] at hl; cases hl)
  sending f n e := by
    have k := (h.sends.sending f n e).2
    cases hf : f.send with
    | request j g st =>
      rw [hf] at k
      obtain ⟨x, hx, -⟩ := k
      rw [(h.sends.answering g x (by rw [hx]; rfl)).1] at hl
      cases hl
    | notice j =>
      rw [hf] at k
      obtain ⟨m, c⟩ := k
      rw [c] at hl
      cases hl

end Between

namespace Looks

theorem same {k : SlotId} {s t : State} (h : Looks k s) (e : Same s t) : Looks k t where
  toBetween := h.toBetween.same e
  active := by
    rw [e.slot]
    exact h.active
  own g := by
    rw [e.entry]
    exact h.own g

/-- The Launcher waits at the slot. -/
theorem waits {k : SlotId} {s t : State} (h : Looks k s) (e : Same s t) (hl : t.launcher.phase.lender = none)
    (hc : t.launcher.phase.current = none ∨ t.launcher.phase.current = some k) : Agrees t := by
  have b := h.same e
  refine ⟨⟨?_, b.apart⟩, ⟨fun j x => ?_, b.away⟩, sends_quiet b.answering b.pending b.sending⟩
  · rw [hl, lent_none hl]
    exact b.owned
  · rcases hc with c | c
    · rw [c] at x
      cases x
    · rw [c] at x
      cases x
      exact ⟨b.active, b.own⟩

/-- A Launcher that waits at a slot it made Active looks at it. -/
theorem ofAgrees {k : SlotId} {s : State} (h : Agrees s) (hl : s.launcher.phase.lender = none)
    (hc : s.launcher.phase.current = some k) : Looks k s where
  toBetween := Between.ofAgrees h hl
  active := (h.slots.current k hc).1
  own := (h.slots.current k hc).2

end Looks

/-! ## Chains that may be lent -/

/-- The chain of a valid slot is the processor's, each block once (R80). -/
theorem outChain_sound (s : State) (k : SlotId) (h : s.slotValid k = true) :
    (s.outChain k).Nodup ∧ ∀ b ∈ s.outChain k, s.pool.owner[b] = .processor := by
  by_cases hz : 0 < (s.slot k).outLength.toNat
  · obtain ⟨bs, hl, hh, hc, hp, hn⟩ := ((slotValid_iff s k).mp h).2.2.2.2.2 hz
    have e : s.outChain k = bs := by
      unfold State.outChain
      obtain ⟨m, hm⟩ := blocksFor_pos hz
      rw [hm] at hl ⊢
      exact Pool.chain_of_chained s.pool m _ bs hl hh hc
    rw [e]
    exact ⟨hn, hp⟩
  · have e : s.outChain k = [] := by
      unfold State.outChain
      have : (s.slot k).outLength.toNat = 0 := by omega
      rw [this]
      rfl
    rw [e]
    exact ⟨List.nodup_nil, fun _ m => absurd m List.not_mem_nil⟩

/-! ## Reservation and launch (R84, R85) -/

/-- The lowest Free tag is Free. -/
theorem launchChecks_exchange {s : State} {k : SlotId} {op : SlotOp} {st : StationId} {t : Tag}
    (h : s.launchChecks k = .exchange op st t) : s.slotValid k = true ∧ s.entry t = .free := by
  unfold State.launchChecks at h
  dsimp only at h
  split at h
  · rename_i hv
    refine ⟨hv, ?_⟩
    split at h
    · cases h
    · cases h
    · split at h
      · cases h
      · split at h
        · cases h
        · split at h
          · cases h
          · rename_i hl
            split at h
            · cases h
            · cases h
              exact Launches.lowestFree_free s _ hl
  · cases h

theorem launchChecks_valid {s : State} {k : SlotId} (h : s.launchChecks k = .notice) : s.slotValid k = true := by
  unfold State.launchChecks at h
  dsimp only at h
  split at h
  · assumption
  · cases h

theorem agrees_launchNotice (s : State) (k : SlotId) (h : Looks k s) (hv : s.slotValid k = true) : Agrees (s.launchNotice k) := by
  obtain ⟨hn, hp⟩ := outChain_sound s k hv
  have lent : (s.launchNotice k).lent = s.outChain k := by
    show Pool.chain (s.pool.setOwners _ _) _ _ = _
    exact Pool.chain_congr _ _ _ _ fun b _ => by rw [Pool.setOwners_link]
  refine ⟨⟨?_, h.apart⟩, ⟨fun j e => ?_, h.away⟩, ⟨fun g x e => ?_, fun p e => ⟨h.answering, ?_⟩, fun f n e => absurd e (h.sending f n)⟩⟩
  · rw [lent]
    exact h.owned.lend k _ hn hp
  · cases e
    exact ⟨h.active, h.own⟩
  · have := h.answering g
    rw [show s.entry g = (s.launchNotice k).entry g from rfl, e] at this
    cases this
  · cases e
    exact ⟨1, .inl rfl⟩

/-- The state a reservation leaves, by its parts (R84). -/
theorem agrees_reserved {s u : State} {k : SlotId} {t : Tag} {st : StationId} {x : Exchange} {n : Nat} (h : Looks k s)
    (hv : s.slotValid k = true) (hf : s.entry t = .free)
    (pool : u.pool = (s.pool.take n (.reserved t)).setOwners (s.outChain k) (.outbound k))
    (entry : ∀ g, u.entry g = if t = g then .reserved false x else s.entry g)
    (slot : ∀ j, u.slot j = if k = j then { s.slot k with lastTag := some t } else s.slot j)
    (phase : u.launcher.phase = .contending k none) (pending : u.trunk.pendingSend = some (.request k t st))
    (state : u.trunk.state = s.trunk.state) (chain : x.reservedChain = s.pool.freeList.take n) (its : x.slot = k) : Agrees u := by
  obtain ⟨hn, hp⟩ := outChain_sound s k hv
  have free : ∀ b ∈ s.pool.freeList.take n, s.pool.owner[b] = .free := fun b m =>
    (h.owned.free b).mpr (List.mem_of_mem_take m)
  have lent : u.lent = s.outChain k := by
    rw [lent_eq (k := k) (by rw [phase]; rfl)]
    unfold State.outChain
    rw [slot, if_pos rfl, pool]
    refine Pool.chain_congr _ _ _ _ fun b m => ?_
    rw [Pool.setOwners_link, Pool.take_link_other]
    intro c
    have := free b c
    rw [hp b m] at this
    cases this
  have reported : (fun g => (u.entry g).reported) = fun g => (s.entry g).reported := funext fun g => by
    rw [entry]
    split
    · rename_i e
      rw [← e, hf]
      rfl
    · rfl
  have own : u.pool.owned (fun g => (u.entry g).holds) (fun g => (u.entry g).reported) (some k) (s.outChain k) := by
    rw [reported, pool, Pool.take_passed]
    refine ((h.owned.taken n).entry (H' := fun g => (u.entry g).holds) t (s.pool.freeList.take n) (.reserved t)
      (.inr (.inl rfl)) (fun b m => .inr ?_) (fun v hu => ?_) (fun b => ?_) ?_).lend k _ hn fun b m => ?_
    · rw [Pool.take_owner, if_pos m]
    · rw [entry, if_neg fun c => hu c.symm]
    · rw [entry, if_pos rfl, hf]
      show b ∈ x.reservedChain ↔ _
      rw [chain]
      split
      · rename_i m
        exact ⟨fun _ => nofun, fun _ => m⟩
      · rename_i m
        exact ⟨fun c => absurd c m, fun c => absurd c List.not_mem_nil⟩
    · rw [entry, if_pos rfl]
      show x.reservedChain.Nodup
      rw [chain]
      exact h.owned.freeOnce.sublist (List.take_sublist n _)
    · have nf : b ∉ s.pool.freeList.take n := fun c => by
        have := free b c
        rw [hp b m] at this
        cases this
      rw [Pool.setOwners_owner, if_neg nf, Pool.take_owner, if_neg nf]
      exact hp b m
  refine ⟨⟨?_, fun g => ?_⟩, ⟨fun j e => ?_, fun g j e => ?_⟩, ⟨fun g y e => ?_, fun p e => ⟨fun g => ?_, ?_⟩, fun f m e => ?_⟩⟩
  · rw [lent, phase]
    exact own
  · rw [entry]
    split
    · trivial
    · exact h.apart g
  · rw [phase] at e
    cases e
    refine ⟨by rw [slot, if_pos rfl]; exact h.active, fun g => ?_⟩
    rw [entry]
    split
    · nofun
    · exact h.own g
  · have away : ∀ v i, (u.entry v).awaySlot = some i → (s.entry v).awaySlot = some i := fun v i => by
      rw [entry]
      split
      · nofun
      · exact id
    have a := h.away g j (away g j e)
    refine ⟨?_, fun v c => a.2 v (away v j c)⟩
    rw [slot]
    split
    · rename_i c
      rw [c]
      exact a.1
    · exact a.1
  · rw [entry] at e
    split at e
    · cases e
    · rw [h.answering g] at e
      cases e
  · rw [entry]
    split
    · rfl
    · exact h.answering g
  · rw [pending] at e
    cases e
    exact ⟨⟨x, by rw [entry, if_pos rfl], its⟩, .inl phase⟩
  · exact absurd (state ▸ e) (h.sending f m)

theorem agrees_reserve (s : State) (k : SlotId) (op : SlotOp) (st : StationId) (t : Tag) (h : Looks k s)
    (hv : s.slotValid k = true) (hf : s.entry t = .free) : Agrees (s.reserve k op st t) := by
  have entries : (s.reserve k op st t).entries = s.entries.set t (.reserved false (newExchange s k op st)) := rfl
  have slots : (s.reserve k op st t).slots = s.slots.set k { s.slot k with lastTag := some t } := rfl
  refine agrees_reserved (x := newExchange s k op st) (n := blocksFor (newExchange s k op st).inLimit) h hv hf rfl
    (fun g => ?_) (fun j => ?_) rfl rfl rfl rfl rfl
  · unfold State.entry
    rw [entries]
    exact entry_setEntry s t g _
  · unfold State.slot
    rw [slots]
    exact slot_setSlot s k j _

/-! ## Taking a slot (R78) and moving on (R91) -/

/-- What taking a slot has to come to while the queue has fewer than `n` places left. -/
def TakesUnder (n : Nat) (take : SlotId → State → State) : Prop :=
  ∀ k s, queueRoom s.reports < n → Between s → Agrees (take k s)

theorem agrees_moveOnWith {n : Nat} {take : SlotId → State → State} (h : TakesUnder n take) (k : SlotId) (s : State)
    (hn : queueRoom s.reports < n) (b : Between s) : Agrees (moveOnWith take k s) := by
  unfold moveOnWith
  dsimp only
  split
  · exact b.stops ⟨rfl, rfl, rfl, rfl⟩ rfl rfl
  · split
    · exact b.stops ⟨rfl, rfl, rfl, rfl⟩ rfl rfl
    · split
      · split
        · exact h _ _ hn (b.same ⟨rfl, rfl, rfl, rfl⟩)
        · exact b.stops ⟨rfl, rfl, rfl, rfl⟩ rfl rfl
      · exact h _ _ hn b

theorem agrees_reportWith {n : Nat} {take : SlotId → State → State} (h : TakesUnder n take) (k : SlotId) (r : Report) (s : State)
    (hn : queueRoom s.reports ≤ n) (b : Looks k s) : Agrees (reportWith take k r s) := by
  unfold reportWith
  split
  · rename_i hq
    have closed : Between ((s.postQueue r).closeSlot k (r.outcome.getD .ok)) :=
      Between.setSlot (Between.same b.toBetween ⟨rfl, rfl, rfl, rfl⟩ : Between (s.postQueue r)) k _ b.own
    dsimp only
    split
    · exact closed.stops ⟨rfl, rfl, rfl, rfl⟩ rfl rfl
    · refine agrees_moveOnWith h k _ ?_ closed
      show queueRoom (s.reports.enqueue s.config.coalesceTime r) < n
      rw [queueRoom_enqueue]
      unfold queueRoom at hn ⊢
      omega
  · exact b.waits ⟨rfl, rfl, rfl, rfl⟩ rfl (.inr rfl)

theorem agrees_checkWith {n : Nat} {take : SlotId → State → State} (h : TakesUnder n take) (k : SlotId) (s : State)
    (hn : queueRoom s.reports ≤ n) (b : Looks k s) : Agrees (checkWith take k s) := by
  unfold checkWith
  split
  · exact agrees_reportWith h _ _ _ hn b
  · rename_i w _
    refine b.waits ⟨rfl, rfl, rfl, rfl⟩ rfl ?_
    cases w
    · exact .inl rfl
    all_goals exact .inr rfl
  · rename_i e
    exact agrees_reserve s _ _ _ _ b (launchChecks_exchange e).1 (launchChecks_exchange e).2
  · rename_i e
    exact agrees_launchNotice s k b (launchChecks_valid e)

theorem agrees_takeWith {n : Nat} {take : SlotId → State → State} (h : TakesUnder n take) (k : SlotId) (s : State)
    (hn : queueRoom s.reports ≤ n) (b : Between s) : Agrees (takeWith take k s) := by
  unfold takeWith
  split
  · exact b.stops ⟨rfl, rfl, rfl, rfl⟩ rfl rfl
  · rename_i ha
    have own : ∀ g, (s.entry g).awaySlot ≠ some k := fun g e => ha (b.away g k e).1
    refine agrees_checkWith h k _ hn ⟨b.setSlot k _ own, ?_, own⟩
    unfold State.activateSlot
    rw [slot_setSlot_self]

theorem takesUnder_takeSlot (room : Nat) : TakesUnder (room + 1) (takeSlot room) := by
  induction room with
  | zero => exact fun k s hn b => agrees_takeWith (n := 0) (fun _ _ c _ => absurd c (Nat.not_lt_zero _)) k s (by omega) b
  | succ n ih => exact fun k s hn b => agrees_takeWith ih k s (by omega) b

theorem agrees_take (k : SlotId) (s : State) (b : Between s) : Agrees (State.take k s) :=
  takesUnder_takeSlot _ k s (Nat.lt_succ_self _) b

theorem takesUnder_take (n : Nat) : TakesUnder n State.take := fun k s _ b => agrees_take k s b

theorem agrees_moveOn (k : SlotId) (s : State) (b : Between s) : Agrees (s.moveOn k) :=
  agrees_moveOnWith (takesUnder_take _) k s (Nat.lt_succ_self _) b
theorem agrees_report (k : SlotId) (r : Report) (s : State) (b : Looks k s) : Agrees (s.report k r) :=
  agrees_reportWith (takesUnder_take _) k r s (Nat.le_refl _) b

theorem agrees_reevaluate (s : State) (h : Agrees s) : Agrees s.reevaluate := by
  unfold State.reevaluate
  split <;> rename_i e
  · exact agrees_report _ _ _ (Looks.ofAgrees h (by rw [e]; rfl) (by rw [e]; rfl))
  · exact agrees_take _ _ (Between.ofAgrees h (by rw [e]; rfl))
  · exact agrees_checkWith (takesUnder_take _) _ _ (Nat.le_refl _) (Looks.ofAgrees h (by rw [e]; rfl) (by rw [e]; rfl))
  · exact agrees_checkWith (takesUnder_take _) _ _ (Nat.le_refl _) (Looks.ofAgrees h (by rw [e]; rfl) (by rw [e]; rfl))
  · exact agrees_checkWith (takesUnder_take _) _ _ (Nat.le_refl _) (Looks.ofAgrees h (by rw [e]; rfl) (by rw [e]; rfl))
  all_goals exact h

/-! ## The end of a launch phase (R89, R112) -/

theorem lender_current {p : Phase} {k : SlotId} (h : p.lender = some k) : p.current = some k := by
  cases p <;> first | exact h | cases h

/-- The chain goes back, to the free list or the processor (R89, R97, R112). -/
theorem owned_back {s t : State} {k : SlotId} (h : s.blocksAgree) (hl : s.launcher.phase.lender = some k)
    (hp : t.pool = s.pool.setOwners (s.outChain k) .processor ∨ t.pool = s.pool.appendAll (s.outChain k))
    (he : t.entries = s.entries) :
    t.pool.owned (fun g => (t.entry g).holds) (fun g => (t.entry g).reported) none [] ∧ ∀ g, (t.entry g).apart := by
  have entry : ∀ g, t.entry g = s.entry g := fun g => by simp only [State.entry, he]
  have o := h.owned
  rw [hl, lent_eq hl] at o
  refine ⟨Pool.owned.rename (H := fun g => (s.entry g).holds) (R := fun g => (s.entry g).reported) (C := []) ?_
    (funext fun g => by rw [entry]) (funext fun g => by rw [entry]) rfl, fun g => by rw [entry]; exact h.apart g⟩
  rcases hp with e | e
  · rw [e]
    exact o.back
  · rw [e, ← Pool.appendAll_released _ _ .processor]
    exact o.back.append _ o.lentOnce fun b m => by rw [Pool.setOwners_owner, if_pos m]

/-- The chain goes back and the Launcher is between two slots. -/
theorem between_back {s t : State} {k : SlotId} (h : s.blocksAgree) (hl : s.launcher.phase.lender = some k)
    (hp : t.pool = s.pool.setOwners (s.outChain k) .processor ∨ t.pool = s.pool.appendAll (s.outChain k))
    (he : t.entries = s.entries)
    (away : ∀ g j, (s.entry g).awaySlot = some j → (t.slot j).state = .active ∧ ∀ u, (s.entry u).awaySlot = some j → u = g)
    (ha : ∀ g, (s.entry g).answering = none) (hq : t.trunk.pendingSend = none) (ht : ∀ f n, t.trunk.state ≠ .transmitting f n) :
    Between t := by
  have entry : ∀ g, t.entry g = s.entry g := fun g => by simp only [State.entry, he]
  have own := owned_back h hl hp he
  refine ⟨own.1, own.2, fun g j => ?_, fun g => by rw [entry]; exact ha g, hq, ht⟩
  rw [entry]
  intro e
  refine ⟨(away g j e).1, fun u => ?_⟩
  rw [entry]
  exact (away g j e).2 u

/-- An away slot is not the current one. -/
theorem away_ne {s : State} (h : s.slotsAgree) {k j : SlotId} {g : Tag} (hc : s.launcher.phase.current = some k)
    (e : (s.entry g).awaySlot = some j) : j ≠ k := fun c => (h.current k hc).2 g (by rw [← c]; exact e)

theorem returnOutbound_parts (s : State) (k : SlotId) :
    ((s.returnOutbound k).pool = s.pool.setOwners (s.outChain k) .processor ∨
      (s.returnOutbound k).pool = s.pool.appendAll (s.outChain k)) ∧ (s.returnOutbound k).entries = s.entries ∧
    (s.returnOutbound k).slots = s.slots ∧ (s.returnOutbound k).trunk = s.trunk ∧
    (s.returnOutbound k).launcher = s.launcher := by
  unfold State.returnOutbound
  split
  · exact ⟨.inr rfl, rfl, rfl, rfl, rfl⟩
  · exact ⟨.inl rfl, rfl, rfl, rfl, rfl⟩

/-- A launch phase ends at a state in which nothing answers, is asked for or is sent. -/
theorem between_ended (s : State) (k : SlotId) (sl : Slot) (h : Agrees s) (hl : s.launcher.phase.lender = some k)
    (ha : ∀ g, (s.entry g).answering = none) (hq : s.trunk.pendingSend = none) (ht : ∀ f n, s.trunk.state ≠ .transmitting f n) :
    Between ((s.returnOutbound k).setSlot k sl) := by
  obtain ⟨hp, he, hs, hk, -⟩ := returnOutbound_parts s k
  have trunk : ((s.returnOutbound k).setSlot k sl).trunk = s.trunk := hk
  refine between_back h.blocks hl hp he (fun g j e => ⟨?_, (h.slots.away g j e).2⟩) ha (by rw [trunk]; exact hq)
    (by rw [trunk]; exact ht)
  rw [slot_setSlot, if_neg fun c => away_ne h.slots (lender_current hl) e c.symm]
  unfold State.slot
  rw [hs]
  exact (h.slots.away g j e).1

theorem setSlot_setSlot (s : State) (k : SlotId) (a b : Slot) : (s.setSlot k a).setSlot k b = s.setSlot k b := by
  unfold State.setSlot
  dsimp only
  rw [Vector.set_set]

theorem agrees_answerPhaseEnded (s : State) (k : SlotId) (o : OutcomeCode) (n : Nat) (h : Agrees s)
    (ha : ∀ g, (s.entry g).answering = none) (hq : s.trunk.pendingSend = none) (ht : ∀ f n, s.trunk.state ≠ .transmitting f n) :
    Agrees (s.answerPhaseEnded k o n) := by
  unfold State.answerPhaseEnded
  split
  · rename_i j m e
    split
    · rename_i hj
      subst hj
      have b : Between (((s.returnOutbound j).setAttempts j n).closeSlot j o) := by
        unfold State.closeSlot State.setAttempts
        rw [setSlot_setSlot]
        exact between_ended s j _ h (by rw [e]; rfl) ha hq ht
      dsimp only
      split
      · exact b.stops ⟨rfl, rfl, rfl, rfl⟩ rfl rfl
      · exact agrees_moveOn _ _ b
    · exact h
  all_goals exact h

/-- The launch phase of a NOTICE ends (R89, R90). -/
theorem agrees_noticeEnded (s : State) (k : SlotId) (n : Nat) (o : OutcomeCode) (m : Option Nat) (h : Agrees s)
    (hl : s.launcher.phase = .launching k m)
    (ha : ∀ g, (s.entry g).answering = none) (hq : s.trunk.pendingSend = none) (ht : ∀ f n, s.trunk.state ≠ .transmitting f n) :
    Agrees (s.noticeEnded k n o) := by
  have current : s.launcher.phase.current = some k := by rw [hl]; rfl
  unfold State.noticeEnded
  refine agrees_report _ _ _ ⟨between_ended s k _ h (by rw [hl]; rfl) ha hq ht, ?_, fun g => ?_⟩
  · unfold State.setAttempts
    rw [slot_setSlot_self]
    have : (s.returnOutbound k).slot k = s.slot k := by
      unfold State.slot
      rw [(returnOutbound_parts s k).2.2.1]
    rw [this]
    exact (h.slots.current k current).1
  · have : ((s.returnOutbound k).setAttempts k n).entry g = s.entry g := by
      unfold State.entry State.setAttempts
      rw [setSlot_entries, (returnOutbound_parts s k).2.1]
    rw [this]
    exact (h.slots.current k current).2 g

/-! ## The blocks of an entry -/

/-- What an entry holds falls into a chain and the blocks freed. -/
structure Parts (held chain frees : List BlockId) : Prop where
  all : ∀ b, b ∈ held ↔ b ∈ chain ∨ b ∈ frees
  apart : ∀ b ∈ chain, b ∉ frees
  chainOnce : chain.Nodup
  freesOnce : frees.Nodup

namespace Parts

theorem allFreed {l : List BlockId} (h : l.Nodup) : Parts l [] l := ⟨by simp, by simp, List.nodup_nil, h⟩

theorem split {l : List BlockId} (h : l.Nodup) (n : Nat) : Parts l (l.take n) (l.drop n) := by
  have h' := h
  rw [← List.take_append_drop n l, List.nodup_append] at h'
  exact ⟨fun b => by rw [← List.mem_append, List.take_append_drop], fun b x y => h'.2.2 b x b y rfl, h'.1, h'.2.1⟩

end Parts

/-- A block an entry holds is not lent. -/
theorem held_not_lent {s : State} (h : s.blocksAgree) {g : Tag} {b : BlockId} (hb : b ∈ (s.entry g).holds) : b ∉ s.lent := fun c => by
  obtain ⟨k, -, e⟩ := lent_owner h b c
  rcases (h.owned.held g b).mpr hb with x | x <;> (rw [x] at e; cases e)

/-- An entry comes to hold nothing: a part of its blocks is freed, the rest goes to its report (R57, R116). -/
theorem blocks_settled {s t : State} (h : s.blocksAgree) (g : Tag) (e : Entry) {chain frees : List BlockId}
    (parts : Parts (s.entry g).holds chain frees) (hr : (s.entry g).reported = [])
    (te : ∀ u, t.entry u = if g = u then e else s.entry u) (hh : e.holds = []) (he : e.reported = chain) (ha : e.apart)
    (tp : t.pool = ((s.pool.appendAll frees).setOwners chain (.reported g)).linkChain chain)
    (hl : t.launcher.phase.lender = s.launcher.phase.lender)
    (hs : ∀ k, s.launcher.phase.lender = some k →
      (t.slot k).outLength = (s.slot k).outLength ∧ (t.slot k).outFirst = (s.slot k).outFirst) : t.blocksAgree := by
  have lent : t.lent = s.lent := lent_kept hl hs fun b m => by
    have out : b ∉ (s.entry g).holds := fun c => held_not_lent h c m
    rw [tp, Pool.linkChain_link_other _ _ _ fun c => out ((parts.all b).mpr (.inl c)), Pool.setOwners_link, Pool.appendAll_link,
      if_neg fun c => out ((parts.all b).mpr (.inr c))]
  refine ⟨?_, fun u => ?_⟩
  · rw [hl, lent, tp, ← Pool.appendAll_released s.pool frees .processor]
    have freed := (h.owned.entry (H' := fun u => if g = u then chain else (s.entry u).holds) g frees .processor (.inl rfl)
      (fun b m => .inl ((parts.all b).mpr (.inr m))) (fun u hu => if_neg fun c => hu c.symm) (fun b => by
        rw [if_pos rfl]
        split
        · rename_i m
          exact ⟨fun c => absurd m (parts.apart b c), fun c => absurd rfl c⟩
        · rename_i m
          rw [parts.all b]
          exact ⟨.inl, fun c => c.resolve_right m⟩) (by rw [if_pos rfl]; exact parts.chainOnce)).append frees parts.freesOnce
      fun b m => by rw [Pool.setOwners_owner, if_pos m]
    refine Pool.owned.congr (freed.report g chain (fun b => by rw [if_pos rfl]) hr (fun u hu => ⟨?_, ?_⟩) ?_ ?_) (by simp) (by simp)
    · rw [te, if_neg fun c => hu c.symm, if_neg fun c => hu c.symm]
    · rw [te, if_neg fun c => hu c.symm]
    · rw [te, if_pos rfl]
      exact hh
    · rw [te, if_pos rfl]
      exact he
  · rw [te]
    split
    · exact ha
    · exact h.apart u

/-- Blocks an entry holds change between RESERVED and INBOUND, or take a byte (R113). -/
theorem blocks_held {s t : State} (h : s.blocksAgree) (g : Tag) (w : Owner) (hw : w = .reserved g ∨ w = .inbound g)
    (bs : List BlockId) (hb : ∀ b ∈ bs, b ∈ (s.entry g).holds) (owners : t.pool.owner = (s.pool.setOwners bs w).owner)
    (tf : t.pool.freeList = s.pool.freeList) (tk : t.pool.link = s.pool.link)
    (hh : ∀ u, (t.entry u).holds = (s.entry u).holds) (hr : ∀ u, (t.entry u).reported = (s.entry u).reported)
    (ha : ∀ u, (t.entry u).apart) (hl : t.launcher.phase.lender = s.launcher.phase.lender) (hs : t.slots = s.slots) :
    t.blocksAgree := by
  have lent : t.lent = s.lent := lent_kept hl (fun k _ => by simp only [State.slot, hs, and_self]) fun b _ => by rw [tk]
  refine ⟨?_, ha⟩
  rw [hl, lent]
  exact ((h.owned.hold g w hw bs hb).congr owners (by rw [tf, Pool.setOwners_freeList])).rename (funext hh) (funext hr) rfl

end Sys2Proof.Machine
end

