-- ==== Sys2Proof/Laws/BlocksTable.lean ====
section
/-! SUPPORT. The agreement on blocks, slots and sends (R20, R75, R102, R103), continued: the Station Table and the Exchange Table. -/

namespace Sys2Proof.Machine

open Sys2Proof

/-! ## The Station Table -/

theorem agrees_updateStation (s : State) (i : StationId) (r : Station) (h : Agrees s) : Agrees (s.updateStation i r) := by
  unfold State.updateStation
  dsimp only
  have set : Agrees (s.setStation i r) := h.same ⟨rfl, rfl, rfl, rfl⟩ rfl
  split
  · exact set
  · exact agrees_reevaluate _ set

/-- With an exchange or a NOTICE in Launching a record's new value re-evaluates nothing. -/
theorem updateStation_launching (s : State) (i : StationId) (r : Station) (k : SlotId) (m : Option Nat)
    (h : s.launcher.phase = .launching k m) : s.updateStation i r = s.setStation i r := by
  unfold State.updateStation
  dsimp only
  split
  · rfl
  · refine reevaluate_not_waiting _ fun j w => ?_
    rw [show (s.setStation i r).launcher = s.launcher from rfl, h]
    nofun

theorem agrees_post (s : State) (x : Report) (h : Agrees s) : Agrees (s.post x) := h.same ⟨rfl, rfl, rfl, rfl⟩ rfl

theorem agrees_attention (s : State) (i : StationId) (c : Nibble) (h : Agrees s) : Agrees (s.attention i c) := by
  unfold State.attention
  dsimp only
  split
  · exact h.same ⟨rfl, rfl, rfl, rfl⟩ rfl
  · exact h.same ⟨rfl, rfl, rfl, rfl⟩ rfl

/-! ## Reaching Done (R57) -/

theorem reachDone_parts (s : State) (t : Tag) (x : Exchange) (f : Finish) :
    (s.reachDone t x f).entries = s.entries.set t (.done { x with reservedChain := [] }
      ⟨f.outcome, false, f.chain, f.length, f.status, f.reason⟩) ∧
    (s.reachDone t x f).pool = ((s.pool.appendAll f.frees).setOwners f.chain (.reported t)).linkChain f.chain ∧
    (s.reachDone t x f).slots = s.slots ∧ (s.reachDone t x f).trunk = s.trunk ∧ (s.reachDone t x f).launcher = s.launcher := by
  rw [reachDone_eq]
  exact ⟨rfl, rfl, rfl, rfl, rfl⟩

/-- The agreement on blocks and slots alone, which a trunk reset keeps on its way. -/
structure Tables (s : State) : Prop where
  blocks : s.blocksAgree
  slots : s.slotsAgree

theorem Agrees.tables {s : State} (h : Agrees s) : Tables s := ⟨h.blocks, h.slots⟩

theorem reachDone_entry (s : State) (t : Tag) (x : Exchange) (f : Finish) (u : Tag) :
    (s.reachDone t x f).entry u = if t = u then .done { x with reservedChain := [] }
      ⟨f.outcome, false, f.chain, f.length, f.status, f.reason⟩ else s.entry u := by
  unfold State.entry
  rw [(reachDone_parts s t x f).1]
  exact entry_setEntry s t u _

/-- An entry that reaches Done gives up what it holds (R57). -/
theorem tables_reachDone (s : State) (t : Tag) (x : Exchange) (f : Finish) (h : Tables s)
    (parts : Parts (s.entry t).holds f.chain f.frees) (hr : (s.entry t).reported = []) : Tables (s.reachDone t x f) := by
  obtain ⟨-, hp, hs, -, hl⟩ := reachDone_parts s t x f
  have entry := reachDone_entry s t x f
  have slot : ∀ k, (s.reachDone t x f).slot k = s.slot k := fun k => by simp only [State.slot, hs]
  generalize s.reachDone t x f = v at *
  refine ⟨blocks_settled h.blocks t _ parts hr entry rfl rfl trivial hp (by rw [hl]) fun k _ => by rw [slot]; exact ⟨rfl, rfl⟩,
    slots_same h.slots (fun u => ?_) (fun k _ => by rw [slot]) (.inr (by rw [hl]))⟩
  rw [entry]
  split
  · exact .inl rfl
  · exact .inr rfl

theorem agrees_reachDone (s : State) (t : Tag) (x : Exchange) (f : Finish) (h : Agrees s)
    (parts : Parts (s.entry t).holds f.chain f.frees) (hr : (s.entry t).reported = [])
    (hq : ∀ y, s.entry t = .reserved false y → s.trunk.pendingSend = none)
    (hf : ∀ y, s.entry t = .reserved true y → ∀ g n, s.trunk.state ≠ .transmitting g n) : Agrees (s.reachDone t x f) := by
  have tables := tables_reachDone s t x f h.tables parts hr
  obtain ⟨-, -, -, hk, hl⟩ := reachDone_parts s t x f
  have entry := reachDone_entry s t x f
  generalize s.reachDone t x f = v at *
  refine ⟨tables.blocks, tables.slots, sends_same h.sends (by rw [hl]) (by rw [hk]) (.inl (by rw [hk])) (fun u => ?_)
    (fun u y e => ?_) fun u y e => ?_⟩
  · rw [entry]
    split
    · exact .inl rfl
    · exact .inr rfl
  · rw [entry]
    split
    · rename_i c
      subst c
      exact .inl (hq y e)
    · exact .inr rfl
  · rw [entry]
    split
    · rename_i c
      subst c
      exact .inl (by rw [hk]; exact hf y e)
    · exact .inr rfl

/-- The slot of a deferred exchange closes as its entry settles (R57, R75). -/
theorem tables_closeSlot (s : State) (k : SlotId) (o : OutcomeCode) (h : Tables s) (ha : ∀ g, (s.entry g).awaySlot ≠ some k)
    (hc : s.launcher.phase.current ≠ some k) : Tables (s.closeSlot k o) := by
  have slot : ∀ j, (s.closeSlot k o).slot j = if k = j then { s.slot k with state := .closed, lastOutcome := o } else s.slot j :=
    fun j => slot_setSlot s k j _
  refine ⟨blocks_same h.blocks rfl (fun _ => rfl) (fun _ => rfl) h.blocks.apart rfl fun j _ => ?_,
    slots_same h.slots (fun _ => .inr rfl) (fun j e => ?_) (.inr rfl)⟩
  · rw [slot]
    split
    · rename_i c
      rw [c]
      exact ⟨rfl, rfl⟩
    · exact ⟨rfl, rfl⟩
  · rw [slot, if_neg]
    intro c
    rcases e with ⟨g, e⟩ | e
    · exact ha g (by rw [c]; exact e)
    · exact hc (by rw [c]; exact e)

theorem tables_finishDeferred (s : State) (t : Tag) (x : Exchange) (f : Finish) (h : Tables s)
    (parts : Parts (s.entry t).holds f.chain f.frees) (ha : (s.entry t).awaySlot = some x.slot) :
    Tables (s.finishDeferred t x f) := by
  have live : (s.entry t).reported = [] := by
    cases e : s.entry t <;> rw [e] at ha <;> first | cases ha | rfl
  refine tables_closeSlot _ _ _ (tables_reachDone s t x f h parts live) (fun g e => ?_) fun e => ?_
  · rw [reachDone_entry] at e
    split at e
    · cases e
    · rename_i c
      exact c ((h.slots.away t _ ha).2 g e).symm
  · rw [(reachDone_parts s t x f).2.2.2.2] at e
    exact (h.slots.current _ e).2 t ha

/-- An entry in Deferred or Receiving settles (R57). -/
theorem agrees_finishDeferred (s : State) (t : Tag) (x : Exchange) (f : Finish) (h : Agrees s)
    (parts : Parts (s.entry t).holds f.chain f.frees) (ha : (s.entry t).awaySlot = some x.slot) :
    Agrees (s.finishDeferred t x f) := by
  have live : (∀ b y, s.entry t ≠ .reserved b y) ∧ (s.entry t).reported = [] := by
    cases e : s.entry t <;> rw [e] at ha <;> first | cases ha | exact ⟨nofun, rfl⟩
  have tables := tables_finishDeferred s t x f h.tables parts ha
  have done := agrees_reachDone s t x f h parts live.2 (fun y e => absurd e (live.1 _ _)) fun y e => absurd e (live.1 _ _)
  exact ⟨tables.blocks, tables.slots, sends_same done.sends rfl rfl (.inl rfl) (fun _ => .inr rfl) (fun _ _ _ => .inr rfl)
    fun _ _ _ => .inr rfl⟩

theorem agrees_finishDeferred_reevaluate (s : State) (t : Tag) (x : Exchange) (f : Finish) (h : Agrees s)
    (parts : Parts (s.entry t).holds f.chain f.frees) (ha : (s.entry t).awaySlot = some x.slot) :
    Agrees (s.finishDeferred t x f).reevaluate := agrees_reevaluate _ (agrees_finishDeferred s t x f h parts ha)

/-! ## The answer phase -/

/-- The entry in Launching with its exchange, nothing pending and nothing on the line. -/
structure Answers (s : State) (t : Tag) (x : Exchange) : Prop extends Agrees s where
  entry : (s.entry t).answering = some x
  quiet : ∀ f n, s.trunk.state ≠ .transmitting f n

namespace Answers

theorem holds {s : State} {t : Tag} {x : Exchange} (h : Answers s t x) : (s.entry t).holds = x.reservedChain := by
  have := h.entry
  cases e : s.entry t with
  | reserved b y =>
    rw [e] at this
    cases b <;> cases this
    rfl
  | awaiting y c =>
    rw [e] at this
    cases this
    rfl
  | _ =>
    rw [e] at this
    cases this

theorem live {s : State} {t : Tag} {x : Exchange} (h : Answers s t x) :
    (s.entry t).reported = [] ∧ (s.entry t).awaySlot = none ∧ ∀ y, s.entry t ≠ .reserved false y := by
  have := h.entry
  cases e : s.entry t with
  | reserved b y =>
    rw [e] at this
    cases b
    · cases this
    · exact ⟨rfl, rfl, nofun⟩
  | awaiting y c => exact ⟨rfl, rfl, nofun⟩
  | _ =>
    rw [e] at this
    cases this

theorem phase {s : State} {t : Tag} {x : Exchange} (h : Answers s t x) : s.launcher.phase = .launching x.slot none :=
  (h.sends.answering t x h.entry).1

theorem pending {s : State} {t : Tag} {x : Exchange} (h : Answers s t x) : s.trunk.pendingSend = none := by
  cases e : s.trunk.pendingSend with
  | none => rfl
  | some p =>
    have := (h.sends.pending p e).1 t
    rw [h.entry] at this
    cases this

theorem once {s : State} {t : Tag} {x : Exchange} (h : Answers s t x) : x.reservedChain.Nodup := by
  rw [← h.holds]
  exact h.blocks.owned.heldOnce t

theorem alone {s : State} {t : Tag} {x : Exchange} (h : Answers s t x) (u : Tag) (hu : u ≠ t) : (s.entry u).answering = none := by
  cases e : (s.entry u).answering with
  | none => rfl
  | some y => exact absurd ((h.sends.answering t x h.entry).2 u y e) hu

/-- The tables, the phase and the trunk's part stand. -/
theorem same {s u : State} {t : Tag} {x : Exchange} (h : Answers s t x) (k : Same s u)
    (hl : u.launcher.phase = s.launcher.phase) : Answers u t x where
  toAgrees := h.toAgrees.same k hl
  entry := by
    rw [k.entry]
    exact h.entry
  quiet := by
    rw [k.trunk]
    exact h.quiet

/-- An entry that awaits its answer does so with nothing on the line. -/
theorem ofAwaiting {s : State} {t : Tag} {x : Exchange} {c : Option AnswerStore} (h : Agrees s)
    (e : s.entry t = .awaiting x c) : Answers s t x where
  toAgrees := h
  entry := by
    rw [e]
    rfl
  quiet f n y := by
    have a := h.sends.answering t x (by rw [e]; rfl)
    have k := (h.sends.sending f n y).2
    cases hf : f.send with
    | request j g st =>
      rw [hf] at k
      obtain ⟨z, hz, -⟩ := k
      have := a.2 g z (by rw [hz]; rfl)
      rw [this, e] at hz
      cases hz
    | notice j =>
      rw [hf] at k
      obtain ⟨m, hm⟩ := k
      rw [a.1] at hm
      cases hm

theorem finishAnswer {s : State} {t : Tag} {x : Exchange} (h : Answers s t x) (f : Finish)
    (parts : Parts x.reservedChain f.chain f.frees) : Agrees (s.finishAnswer t x f) := by
  have done := agrees_reachDone s t x f h.toAgrees (by rw [h.holds]; exact parts) h.live.1
    (fun y e => absurd e (h.live.2.2 y)) fun _ _ => h.quiet
  obtain ⟨-, -, -, hk, -⟩ := reachDone_parts s t x f
  refine agrees_answerPhaseEnded _ _ _ _ done (fun u => ?_) (by rw [hk]; exact h.pending) (by rw [hk]; exact h.quiet)
  rw [reachDone_entry]
  split
  · rfl
  · rename_i c
    exact h.alone u fun e => c e.symm

theorem finishFreed {s : State} {t : Tag} {x : Exchange} (h : Answers s t x) (o : OutcomeCode) (l : Option Nat)
    (st r : Option Nibble) : Agrees (s.finishAnswer t x ⟨o, l, st, r, [], x.reservedChain⟩) :=
  h.finishAnswer _ (Parts.allFreed h.once)

/-- A retry (R56). -/
theorem retry {s : State} {t : Tag} {x : Exchange} (h : Answers s t x) : Agrees (s.retry t x) := by
  have entry : ∀ u, (s.retry t x).entry u = if t = u then .reserved false { x with attempts := x.attempts + 1 } else s.entry u :=
    fun u => entry_setEntry s t u _
  have none_answer : ∀ u, ((s.retry t x).entry u).answering = none := fun u => by
    rw [entry]
    split
    · rfl
    · exact h.alone u fun c => ‹¬ t = u› c.symm
  refine ⟨blocks_same h.blocks rfl (fun u => ?_) (fun u => ?_) (fun u => ?_) rfl fun _ _ => ⟨rfl, rfl⟩,
    slots_same h.slots (fun u => ?_) (fun _ _ => rfl) (.inr rfl),
    ⟨fun u y e => ?_, fun p e => ⟨none_answer, ?_⟩, fun f n e => absurd e (h.quiet f n)⟩⟩
  · rw [entry]
    split
    · rename_i c
      rw [← c, h.holds]
      rfl
    · rfl
  · rw [entry]
    split
    · rename_i c
      rw [← c, h.live.1]
      rfl
    · rfl
  · rw [entry]
    split
    · trivial
    · exact h.blocks.apart u
  · rw [entry]
    split
    · exact .inl rfl
    · exact .inr rfl
  · rw [none_answer u] at e
    cases e
  · cases e
    exact ⟨⟨{ x with attempts := x.attempts + 1 }, by rw [entry, if_pos rfl], rfl⟩, .inr h.phase⟩

theorem failedAttempt {s : State} {t : Tag} {x : Exchange} (h : Answers s t x) (o : OutcomeCode) :
    Agrees (s.failedAttempt t x o) := by
  unfold State.failedAttempt
  split
  · exact h.retry
  · exact h.finishFreed _ _ _ _

theorem answerAccepted {s : State} {t : Tag} {x : Exchange} (h : Answers s t x) (n : Nat) (c : Nibble) :
    Agrees (s.answerAccepted t x n c) := by
  unfold State.answerAccepted
  dsimp only
  split
  · split
    · exact h.finishFreed _ _ _ _
    · split
      · rw [updateStation_launching s _ _ _ _ h.phase]
        refine Answers.finishAnswer (s := s.setStation x.station _) (h.same ⟨rfl, rfl, rfl, rfl⟩ rfl) _ ?_
        exact Parts.split h.once _
      · exact h.finishFreed _ _ _ _
  · exact h.finishAnswer _ (Parts.split h.once _)

/-- The end of a launch phase by a deferral: the entry goes away with the current slot (R51, R89). -/
theorem deferred {s u : State} {t : Tag} {x y : Exchange} {d : Nat} (h : Answers s t x)
    (te : ∀ g, u.entry g = if t = g then .deferred y d else s.entry g) (hy : y.slot = x.slot)
    (blocks : u.blocksAgree) (ts : u.slots = s.slots) (tt : u.trunk = s.trunk)
    (tl : u.launcher = s.launcher) (n : Nat) : Agrees (u.answerPhaseDeferred x.slot n) := by
  have phase : u.launcher.phase = .launching x.slot none := by
    rw [tl]
    exact h.phase
  have current : s.launcher.phase.current = some x.slot := by
    rw [h.phase]
    rfl
  unfold State.answerPhaseDeferred
  rw [phase]
  dsimp only
  rw [if_pos rfl]
  obtain ⟨hp, he, hs, ht, -⟩ := returnOutbound_parts u x.slot
  have slot : ∀ j, ((u.returnOutbound x.slot).setAttempts x.slot n).slot j =
      if x.slot = j then { s.slot x.slot with attempts := n } else s.slot j := fun j => by
    have : ∀ i, (u.returnOutbound x.slot).slot i = s.slot i := fun i => by
      unfold State.slot
      rw [hs, ts]
    unfold State.setAttempts
    rw [slot_setSlot, this, this]
  refine agrees_moveOn _ _ (between_back blocks (by rw [phase]; rfl) hp he (fun g j e => ?_) (fun g => ?_) ?_ ?_)
  · rw [te] at e
    split at e
    · rename_i c
      have hj : x.slot = j := hy ▸ Option.some.inj e
      refine ⟨by rw [slot, if_pos hj]; exact (h.slots.current _ current).1, fun v => ?_⟩
      rw [te]
      split
      · rename_i c'
        exact fun _ => c'.symm.trans c
      · exact fun e' => absurd (hj ▸ e') ((h.slots.current _ current).2 v)
    · have ne := away_ne h.slots current e
      refine ⟨by rw [slot, if_neg fun c => ne c.symm]; exact (h.slots.away g j e).1, fun v => ?_⟩
      rw [te]
      split
      · intro e'
        have hj : x.slot = j := hy ▸ Option.some.inj e'
        exact absurd hj.symm ne
      · exact (h.slots.away g j e).2 v
  · rw [te]
    split
    · rfl
    · exact h.alone g fun c => ‹¬ t = g› c.symm
  · show (u.returnOutbound x.slot).trunk.pendingSend = none
    rw [ht, tt]
    exact h.pending
  · show ∀ f n, (u.returnOutbound x.slot).trunk.state ≠ .transmitting f n
    rw [ht, tt]
    exact h.quiet

theorem answerDeferred {s : State} {t : Tag} {x : Exchange} (h : Answers s t x) : Agrees (s.answerDeferred t x) := by
  unfold State.answerDeferred
  split
  · exact h.finishFreed _ _ _ _
  · split
    · rename_i hk
      have te : ∀ g, (s.setEntry t (.deferred x (s.patienceOf x.slot))).entry g =
          if t = g then .deferred x (s.patienceOf x.slot) else s.entry g := fun g => entry_setEntry s t g _
      refine h.deferred te rfl ?_ rfl rfl rfl _
      refine blocks_same h.blocks rfl (fun u => ?_) (fun u => ?_) (fun u => ?_) rfl fun _ _ => ⟨rfl, rfl⟩
      · rw [te]
        split
        · rename_i c
          rw [← c, h.holds]
          rfl
        · rfl
      · rw [te]
        split
        · rename_i c
          rw [← c, h.live.1]
          rfl
        · rfl
      · rw [te]
        split
        · exact fun c => by rw [hk] at c; cases c
        · exact h.blocks.apart u
    · have te : ∀ g, ((s.setEntry t (.deferred { x with reservedChain := [] } (s.patienceOf x.slot))).freeBlocks
          x.reservedChain).entry g = if t = g then .deferred { x with reservedChain := [] } (s.patienceOf x.slot) else s.entry g :=
        fun g => entry_setEntry s t g _
      refine h.deferred te rfl ?_ rfl rfl rfl _
      exact blocks_settled h.blocks t _ (by rw [h.holds]; exact Parts.allFreed h.once) h.live.1 te rfl rfl (fun _ => rfl) rfl rfl
        fun _ _ => ⟨rfl, rfl⟩

theorem answerGood {s : State} {t : Tag} {x : Exchange} (h : Answers s t x) (g : Header) : Agrees (s.answerGood t x g) := by
  unfold State.answerGood
  split
  · split
    · split
      · exact h.answerAccepted _ _
      · exact h.finishFreed _ _ _ _
    · exact h.answerDeferred
    all_goals exact h.finishFreed _ _ _ _
  · exact h.finishFreed _ _ _ _

theorem answerBad {s : State} {t : Tag} {x : Exchange} (h : Answers s t x) : Agrees (s.answerBad t x) := by
  unfold State.answerBad
  refine Answers.failedAttempt (s := s.setPool (s.pool.setOwners x.reservedChain (.reserved t))) (x := x) (t := t)
    ⟨⟨?_, ?_, ?_⟩, h.entry, h.quiet⟩ _
  · exact blocks_held h.blocks t _ (.inl rfl) x.reservedChain (fun b m => by rw [h.holds]; exact m) rfl
      (Pool.setOwners_freeList _ _ _) (Pool.setOwners_link _ _ _) (fun _ => rfl) (fun _ => rfl) h.blocks.apart rfl rfl
  · exact slots_same h.slots (fun _ => .inr rfl) (fun _ _ => rfl) (.inr rfl)
  · exact sends_same h.sends rfl rfl (.inl rfl) (fun _ => .inr rfl) (fun _ _ _ => .inr rfl) fun _ _ _ => .inr rfl

end Answers

theorem agrees_answerFrameEnd (s : State) (t : Tag) (g : Option Header) (h : Agrees s) : Agrees (s.answerFrameEnd t g) := by
  unfold State.answerFrameEnd
  split <;> rename_i e
  · split
    · exact (Answers.ofAwaiting h e).answerGood _
    · exact (Answers.ofAwaiting h e).answerBad
  all_goals exact h

theorem agrees_answerExpired (s : State) (t : Tag) (h : Agrees s) : Agrees (s.answerExpired t) := by
  unfold State.answerExpired
  split <;> rename_i e
  · exact (Answers.ofAwaiting h e).failedAttempt _
  all_goals exact h

theorem agrees_entryCollided (s : State) (t : Tag) (h : Agrees s) (ht : ∀ f n, s.trunk.state ≠ .transmitting f n) :
    Agrees (s.entryCollided t) := by
  unfold State.entryCollided
  split <;> rename_i e
  · exact Answers.failedAttempt ⟨h, by rw [e]; rfl, ht⟩ _
  all_goals exact h

/-- The collision of a frame reaches its owner; a NOTICE's goes out again or ends (R29, R88). -/
theorem agrees_launcherNoticeCut (s : State) (k : SlotId) (h : Agrees s) (hq : s.trunk.pendingSend = none)
    (ht : ∀ f n, s.trunk.state ≠ .transmitting f n) : Agrees (s.launcherNoticeCut k) := by
  unfold State.launcherNoticeCut
  split
  · rename_i j n e
    have none_answer : ∀ g, (s.entry g).answering = none := fun g => by
      cases c : (s.entry g).answering with
      | none => rfl
      | some x =>
        have := (h.sends.answering g x c).1
        rw [e] at this
        cases this
    split
    · rename_i hj
      subst hj
      split
      · refine ⟨blocks_same h.blocks rfl (fun _ => rfl) (fun _ => rfl) h.blocks.apart ?_ fun _ _ => ⟨rfl, rfl⟩,
          slots_same h.slots (fun _ => .inr rfl) (fun _ _ => rfl) (.inr ?_),
          ⟨fun g x c => ?_, fun p c => ⟨none_answer, ?_⟩, fun f m c => absurd c (ht f m)⟩⟩
        · rw [e]
          rfl
        · rw [e]
          rfl
        · have := none_answer g
          rw [show s.entry g = ((s.setPhase (.launching j (some (n + 1)))).setPendingSend (some (.notice j))).entry g from rfl,
            c] at this
          cases this
        · cases c
          exact ⟨n + 1, .inr rfl⟩
      · exact agrees_noticeEnded s j n _ _ h e none_answer hq ht
    · exact h
  all_goals exact h

theorem agrees_launcherNoticeSent (s : State) (k : SlotId) (h : Agrees s) (hq : s.trunk.pendingSend = none)
    (ht : ∀ f n, s.trunk.state ≠ .transmitting f n) : Agrees (s.launcherNoticeSent k) := by
  unfold State.launcherNoticeSent
  split
  · rename_i j n e
    split
    · rename_i hj
      subst hj
      refine agrees_noticeEnded s j n _ _ h e (fun g => ?_) hq ht
      cases c : (s.entry g).answering with
      | none => rfl
      | some x =>
        have := (h.sends.answering g x c).1
        rw [e] at this
        cases this
    · exact h
  all_goals exact h

/-! ## An entry's next state, with what it holds -/

/-- An entry in no answer phase moves on, with the same blocks and the same slot away, or none. -/
theorem agrees_setEntry (s : State) (t : Tag) (e : Entry) (h : Agrees s) (hr : ∀ b x, s.entry t ≠ .reserved b x)
    (hh : e.holds = (s.entry t).holds) (hp : e.reported = (s.entry t).reported) (ha : e.apart)
    (hw : e.awaySlot = none ∨ e.awaySlot = (s.entry t).awaySlot)
    (hs : e.answering = none ∨ e.answering = (s.entry t).answering) : Agrees (s.setEntry t e) := by
  have entry : ∀ u, (s.setEntry t e).entry u = if t = u then e else s.entry u := fun u => entry_setEntry s t u e
  refine ⟨blocks_same h.blocks rfl (fun u => ?_) (fun u => ?_) (fun u => ?_) rfl fun _ _ => ⟨rfl, rfl⟩,
    slots_same h.slots (fun u => ?_) (fun _ _ => rfl) (.inr rfl),
    sends_same h.sends rfl rfl (.inl rfl) (fun u => ?_) (fun u x c => ?_) fun u x c => ?_⟩
  · rw [entry]
    split
    · rename_i c
      rw [← c]
      exact hh
    · rfl
  · rw [entry]
    split
    · rename_i c
      rw [← c]
      exact hp
    · rfl
  · rw [entry]
    split
    · exact ha
    · exact h.blocks.apart u
  · rw [entry]
    split
    · rename_i c
      rw [← c]
      exact hw
    · exact .inr rfl
  · rw [entry]
    split
    · rename_i c
      rw [← c]
      exact hs
    · exact .inr rfl
  · rw [entry, if_neg fun d : t = u => hr false x (d ▸ c)]
    exact .inr rfl
  · rw [entry, if_neg fun d : t = u => hr true x (d ▸ c)]
    exact .inr rfl

/-! ## Recalls (R61 to R65) -/

/-- An entry in Receiving holds its reserved chain and the blocks taken for the recall. -/
theorem receiving_holds (x : Exchange) (d : Nat) (p : Bool) (c : RecallStore) :
    (Entry.receiving x d p c).holds = receivingBlocks x c := by cases c <;> rfl

/-- The blocks a recall is stored in are the entry's (R62). -/
theorem recallChain_mem (x : Exchange) (d : Nat) (p : Bool) (c : RecallStore) (b : BlockId) (h : b ∈ recallChain x c) :
    b ∈ (Entry.receiving x d p c).holds := by
  cases c with
  | reserved => exact h
  | taken bs => exact List.mem_append_right _ h
  | overrun => cases h
  | busy => cases h

theorem agrees_recallHeader (s : State) (g : Header) (h : Agrees s) : Agrees (s.recallHeader g) := by
  unfold State.recallHeader
  split
  · rename_i x d e
    split
    · have apart : x.keep = false → x.reservedChain = [] := by
        have := h.blocks.apart g.tag
        rw [e] at this
        exact this
      have stays : ∀ c, (c = .reserved ∨ c = .overrun ∨ c = .busy) →
          Agrees ((s.setPool s.pool).setEntry g.tag (.receiving x d false c)) := fun c hc =>
        agrees_setEntry (s.setPool s.pool) g.tag _ (h.same ⟨rfl, rfl, rfl, rfl⟩ rfl) (fun b y => by
          show s.entry g.tag ≠ _
          rw [e]
          nofun) (by
          show _ = (s.entry g.tag).holds
          rw [e]
          rcases hc with rfl | rfl | rfl <;> rfl) (by
          show _ = (s.entry g.tag).reported
          rw [e]
          rfl) (by rcases hc with rfl | rfl | rfl <;> exact apart) (.inr (by
          show _ = (s.entry g.tag).awaySlot
          rw [e]
          rfl)) (.inl rfl)
      unfold State.recallDecision
      split
      · exact stays _ (.inr (.inl rfl))
      · split
        · exact stays _ (.inl rfl)
        · rename_i hk
          split
          · have hk : x.keep = false := by simpa using hk
            have chain : x.reservedChain = [] := apart hk
            dsimp only
            generalize blocksFor g.length = n
            have entry : ∀ u, ((s.setPool (s.pool.take n (.inbound g.tag))).setEntry g.tag
                (.receiving x d false (.taken (s.pool.head n)))).entry u =
                if g.tag = u then .receiving x d false (.taken (s.pool.head n)) else s.entry u := fun u =>
              entry_setEntry (s.setPool (s.pool.take n (.inbound g.tag))) g.tag u _
            have free : ∀ b ∈ s.pool.freeList.take n, s.pool.owner[b] = .free := fun b m =>
              (h.blocks.owned.free b).mpr (List.mem_of_mem_take m)
            have pool : ((s.setPool (s.pool.take n (.inbound g.tag))).setEntry g.tag
                (.receiving x d false (.taken (s.pool.head n)))).pool = s.pool.take n (.inbound g.tag) := rfl
            have slots : ((s.setPool (s.pool.take n (.inbound g.tag))).setEntry g.tag
                (.receiving x d false (.taken (s.pool.head n)))).slots = s.slots := rfl
            have launcher : ((s.setPool (s.pool.take n (.inbound g.tag))).setEntry g.tag
                (.receiving x d false (.taken (s.pool.head n)))).launcher = s.launcher := rfl
            have trunk : ((s.setPool (s.pool.take n (.inbound g.tag))).setEntry g.tag
                (.receiving x d false (.taken (s.pool.head n)))).trunk = s.trunk := rfl
            generalize (s.setPool (s.pool.take n (.inbound g.tag))).setEntry g.tag
                (.receiving x d false (.taken (s.pool.head n))) = v at *
            have slot : ∀ k, v.slot k = s.slot k := fun k => by simp only [State.slot, slots]
            have holds : (Entry.receiving x d false (.taken (s.pool.head n))).holds = s.pool.freeList.take n := by
              show x.reservedChain ++ s.pool.freeList.take n = _
              rw [chain]
              rfl
            have lent : v.lent = s.lent := lent_kept (by rw [launcher]) (fun k _ => by rw [slot]; exact ⟨rfl, rfl⟩)
              fun b m => by
                rw [pool, Pool.take_link_other]
                intro c
                obtain ⟨k, -, ho⟩ := lent_owner h.blocks b m
                rw [free b c] at ho
                cases ho
            refine ⟨⟨?_, fun u => ?_⟩, slots_same h.slots (fun u => .inr ?_) (fun k _ => by rw [slot]) (.inr (by rw [launcher])),
              sends_same h.sends (by rw [launcher]) (by rw [trunk]) (.inl (by rw [trunk])) (fun u => ?_) (fun u y c => ?_)
                fun u y c => ?_⟩
            · rw [launcher, lent, pool, Pool.take_passed]
              refine Pool.owned.rename (H := fun u => (v.entry u).holds) (R := fun u => (s.entry u).reported) (C := s.lent)
                ((h.blocks.owned.taken n).entry g.tag _ _ (.inr (.inr rfl)) (fun b m => .inr ?_) (fun u hu => ?_)
                  (fun b => ?_) ?_) rfl (funext fun u => ?_) rfl
              · rw [Pool.take_owner, if_pos m]
              · rw [entry, if_neg fun c => hu c.symm]
              · rw [entry, if_pos rfl, holds, e]
                show _ ↔ if b ∈ s.pool.freeList.take n then _ else b ∈ x.reservedChain
                rw [chain]
                split
                · rename_i m
                  exact ⟨fun _ => nofun, fun _ => m⟩
                · rename_i m
                  exact ⟨fun c => absurd c m, fun c => absurd c List.not_mem_nil⟩
              · rw [entry, if_pos rfl, holds]
                exact h.blocks.owned.freeOnce.sublist (List.take_sublist n _)
              · rw [entry]
                split
                · rename_i c
                  rw [← c, e]
                  rfl
                · rfl
            · rw [entry]
              split
              · exact ⟨hk, chain⟩
              · exact h.blocks.apart u
            · rw [entry]
              split
              · rename_i c
                rw [← c, e]
                rfl
              · rfl
            · rw [entry]
              split
              · exact .inl rfl
              · exact .inr rfl
            · rw [entry, if_neg fun d' => by rw [← d', e] at c; cases c]
              exact .inr rfl
            · rw [entry, if_neg fun d' => by rw [← d', e] at c; cases c]
              exact .inr rfl
          · exact stays _ (.inr (.inr rfl))
    · exact h
  all_goals exact h

theorem agrees_headerHanded (s : State) (o : Origin) (g : Header) (h : Agrees s) : Agrees (s.headerHanded o g) := by
  unfold State.headerHanded
  split
  · split
    · rename_i x c e
      refine agrees_setEntry s _ _ h (fun b y => by rw [e]; nofun) ?_ ?_ trivial (.inl rfl) (.inr ?_) <;>
        (rw [e]; rfl)
    all_goals exact h
  · split
    · exact agrees_recallHeader s g h
    · exact h
  · exact h

/-- A payload byte stored in a block the entry holds (R113). -/
theorem agrees_fill (s : State) (t : Tag) (chain : List BlockId) (i : Nat) (v : Byte) (h : Agrees s)
    (hc : ∀ b ∈ chain, b ∈ (s.entry t).holds) : Agrees (s.setPool (s.pool.fill chain t i v)) := by
  unfold Pool.fill
  split
  · exact h.same ⟨rfl, rfl, rfl, rfl⟩ rfl
  · rename_i b e
    have hb : b ∈ chain := List.mem_of_getElem? e
    refine ⟨blocks_held h.blocks t _ (.inr rfl) [b] (fun c m => ?_) rfl rfl rfl (fun _ => rfl) (fun _ => rfl) h.blocks.apart rfl
      rfl, slots_same h.slots (fun _ => .inr rfl) (fun _ _ => rfl) (.inr rfl),
      sends_same h.sends rfl rfl (.inl rfl) (fun _ => .inr rfl) (fun _ _ _ => .inr rfl) fun _ _ _ => .inr rfl⟩
    rw [List.mem_singleton.mp m]
    exact hc b hb

theorem agrees_storePayload (s : State) (o : Origin) (g : Header) (i : Nat) (v : Byte) (h : Agrees s) :
    Agrees (s.storePayload o g i v) := by
  unfold State.storePayload
  split
  · split
    · rename_i e
      refine agrees_fill s _ _ _ _ h fun b m => ?_
      rw [e]
      exact m
    all_goals exact h
  · split
    · split
      · rename_i e
        refine agrees_fill s _ _ _ _ h fun b m => ?_
        rw [e]
        exact recallChain_mem _ _ _ _ _ m
      all_goals exact h
    · exact h
  · exact h

theorem holds_once {s : State} (h : Agrees s) (t : Tag) {e : Entry} (he : s.entry t = e) : e.holds.Nodup := by
  rw [← he]
  exact h.blocks.owned.heldOnce t

theorem agrees_recallBad (s : State) (t : Tag) (h : Agrees s) : Agrees (s.recallBad t) := by
  unfold State.recallBad
  split
  · rename_i x d pending dec e
    have once := holds_once h t e
    have apart := h.blocks.apart t
    rw [e] at apart
    rw [receiving_holds] at once
    split
    · refine agrees_finishDeferred_reevaluate s t x _ h ?_ (by rw [e]; rfl)
      rw [e, receiving_holds]
      exact Parts.allFreed once
    · split
      · rename_i bs
        have chain : x.reservedChain = [] := apart.2
        have te : ∀ u, ((s.setEntry t (.deferred x d)).freeBlocks bs).entry u =
            if t = u then .deferred x d else s.entry u := fun u => entry_setEntry s t u _
        have base : Agrees ((s.setEntry t (.deferred x d)).freeBlocks bs) := by
          have parts : Parts (s.entry t).holds [] bs := by
            rw [e, receiving_holds]
            unfold receivingBlocks at once ⊢
            dsimp only at once ⊢
            rw [chain] at once ⊢
            exact Parts.allFreed once
          refine ⟨blocks_settled h.blocks t (.deferred x d) parts (by rw [e]; rfl) te chain rfl (fun _ => chain) rfl rfl
              fun _ _ => ⟨rfl, rfl⟩, slots_same h.slots (fun u => .inr ?_) (fun _ _ => rfl) (.inr rfl),
            sends_same h.sends rfl rfl (.inl rfl) (fun u => ?_) (fun u y c => ?_) fun u y c => ?_⟩
          · rw [te]
            split
            · rename_i c
              rw [← c, e]
              rfl
            · rfl
          · rw [te]
            split
            · exact .inl rfl
            · exact .inr rfl
          · rw [te, if_neg fun d' => by rw [← d', e] at c; cases c]
            exact .inr rfl
          · rw [te, if_neg fun d' => by rw [← d', e] at c; cases c]
            exact .inr rfl
        dsimp only
        split
        · exact base
        · exact agrees_reevaluate _ base
      · have held : Agrees (s.setPool (s.pool.setOwners x.reservedChain (.reserved t))) :=
          ⟨blocks_held h.blocks t _ (.inl rfl) x.reservedChain (fun b m => by rw [e]; exact m) rfl
            (Pool.setOwners_freeList _ _ _) (Pool.setOwners_link _ _ _) (fun _ => rfl) (fun _ => rfl) h.blocks.apart rfl rfl,
          slots_same h.slots (fun _ => .inr rfl) (fun _ _ => rfl) (.inr rfl),
          sends_same h.sends rfl rfl (.inl rfl) (fun _ => .inr rfl) (fun _ _ _ => .inr rfl) fun _ _ _ => .inr rfl⟩
        have e' : (s.setPool (s.pool.setOwners x.reservedChain (.reserved t))).entry t = .receiving x d pending .reserved := e
        exact agrees_setEntry _ t _ held (fun b y => by rw [e']; nofun) (by rw [e']; rfl) (by rw [e']; rfl) apart
          (.inr (by rw [e']; rfl)) (.inl rfl)
      all_goals
        exact agrees_setEntry s t (.deferred x d) h (fun b y => by rw [e]; nofun) (by rw [e]; rfl) (by rw [e]; rfl) apart
          (.inr (by rw [e]; rfl)) (.inl rfl)
  all_goals exact h

theorem agrees_recallDisowned (s : State) (t : Tag) (i : StationId) (h : Agrees s) : Agrees (s.recallDisowned t i) := by
  have base : Agrees (s.count .strayFrames) := h.same ⟨rfl, rfl, rfl, rfl⟩ rfl
  unfold State.recallDisowned
  dsimp only
  split
  · rename_i st m e
    have e' : (s.count .strayFrames).entry t = .resting st m := e
    split
    · exact agrees_reevaluate _ (agrees_setEntry _ t .free base (fun b y => by rw [e']; nofun) (by rw [e']; rfl) (by rw [e']; rfl)
        trivial (.inl rfl) (.inl rfl))
    · exact base
  · rename_i x d e
    have e' : (s.count .strayFrames).entry t = .done x d := e
    split
    · exact agrees_setEntry _ t _ base (fun b y => by rw [e']; nofun) (by rw [e']; rfl) (by rw [e']; rfl) trivial (.inl rfl)
        (.inl rfl)
    · exact base
  all_goals exact base

theorem agrees_recallGood (s : State) (g : Header) (h : Agrees s) : Agrees (s.recallGood g).2 := by
  unfold State.recallGood
  split
  · rename_i x d pending dec e
    have once := holds_once h g.tag e
    have apart := h.blocks.apart g.tag
    rw [e] at apart
    split
    · refine agrees_finishDeferred_reevaluate s _ x _ h ?_ (by rw [e]; rfl)
      rw [e]
      exact Parts.split once _
    · rename_i bs
      have chain : x.reservedChain = [] := apart.2
      refine agrees_finishDeferred_reevaluate s _ x _ h ?_ (by rw [e]; rfl)
      rw [e]
      have holds : (Entry.receiving x d pending (.taken bs)).holds = bs := by
        show x.reservedChain ++ bs = bs
        rw [chain]
        rfl
      rw [holds] at once ⊢
      exact Parts.split once _
    · refine agrees_finishDeferred_reevaluate s _ x _ h ?_ (by rw [e]; rfl)
      rw [e]
      exact Parts.allFreed once
    · have base : Agrees (s.count .busyBacks) := h.same ⟨rfl, rfl, rfl, rfl⟩ rfl
      have e' : (s.count .busyBacks).entry g.tag = .receiving x d pending .busy := e
      dsimp only
      split
      · refine agrees_finishDeferred_reevaluate _ _ x.busied _ base ?_ (by rw [e']; rfl)
        rw [e']
        exact Parts.allFreed once
      · exact agrees_setEntry _ _ _ base (fun b y => by rw [e']; nofun) (by rw [e']; rfl) (by rw [e']; rfl) apart
          (.inr (by rw [e']; rfl)) (.inl rfl)
  all_goals exact agrees_recallDisowned s _ _ h

/-! ## Ticks, WITHDRAW, POP (R59, R66, R68, R69) -/

theorem agrees_deadlineTick (s : State) (t : Tag) (h : Agrees s) : Agrees (s.deadlineTick t) := by
  unfold State.deadlineTick
  split
  · rename_i x d e
    have apart := h.blocks.apart t
    rw [e] at apart
    split
    · refine agrees_finishDeferred_reevaluate s _ x _ h ?_ (by rw [e]; rfl)
      have once := holds_once h t e
      rw [e]
      exact Parts.allFreed once
    · exact agrees_setEntry s t _ h (fun b y => by rw [e]; nofun) (by rw [e]; rfl) (by rw [e]; rfl) apart
        (.inr (by rw [e]; rfl)) (.inl rfl)
  · rename_i x d p c e
    have apart := h.blocks.apart t
    rw [e] at apart
    exact agrees_setEntry s t _ h (fun b y => by rw [e]; nofun) (by rw [e]; cases c <;> rfl) (by rw [e]; rfl)
      (by cases c <;> exact apart) (.inr (by rw [e]; rfl)) (.inl rfl)
  all_goals exact h

theorem agrees_restTick (s : State) (t : Tag) (h : Agrees s) : Agrees (s.restTick t) := by
  unfold State.restTick
  split
  · rename_i st r e
    split
    · exact agrees_reevaluate _ (agrees_setEntry s t _ h (fun b y => by rw [e]; nofun) (by rw [e]; rfl) (by rw [e]; rfl) trivial
        (.inl rfl) (.inl rfl))
    · exact agrees_setEntry s t _ h (fun b y => by rw [e]; nofun) (by rw [e]; rfl) (by rw [e]; rfl) trivial (.inl rfl) (.inl rfl)
  all_goals exact h

theorem agrees_withdrawTag (s : State) (t : Tag) (h : Agrees s) : Agrees (s.withdrawTag t).2 := by
  unfold State.withdrawTag
  split
  · rename_i x d e
    refine agrees_finishDeferred_reevaluate s _ x _ h ?_ (by rw [e]; rfl)
    have once := holds_once h t e
    rw [e]
    exact Parts.allFreed once
  all_goals exact h

theorem agrees_exchangePopped (s : State) (t : Tag) (h : Agrees s) : Agrees (s.exchangePopped t) := by
  unfold State.exchangePopped
  split
  · rename_i x d e
    have te : ∀ u, ((s.setPool (s.pool.setOwners d.receivedChain .processor)).setEntry t (afterPop x d s.config.restTime)).entry u =
        if t = u then afterPop x d s.config.restTime else s.entry u := fun u =>
      entry_setEntry (s.setPool (s.pool.setOwners d.receivedChain .processor)) t u _
    have after : (afterPop x d s.config.restTime).holds = [] ∧ (afterPop x d s.config.restTime).reported = [] ∧
        (afterPop x d s.config.restTime).apart ∧ (afterPop x d s.config.restTime).awaySlot = none ∧
        (afterPop x d s.config.restTime).answering = none := by
      unfold afterPop
      split <;> exact ⟨rfl, rfl, trivial, rfl, rfl⟩
    have lent : ((s.setPool (s.pool.setOwners d.receivedChain .processor)).setEntry t (afterPop x d s.config.restTime)).lent =
        s.lent := lent_kept rfl (fun _ _ => ⟨rfl, rfl⟩) fun b _ => by
      show (s.pool.setOwners d.receivedChain .processor).link[b] = _
      rw [Pool.setOwners_link]
    refine ⟨⟨?_, fun u => ?_⟩, slots_same h.slots (fun u => ?_) (fun _ _ => rfl) (.inr rfl),
      sends_same h.sends rfl rfl (.inl rfl) (fun u => ?_) (fun u y c => ?_) fun u y c => ?_⟩
    · rw [lent]
      have chain : (s.entry t).reported = d.receivedChain := by rw [e]; rfl
      have := h.blocks.owned.popped (R' := fun u => if t = u then [] else (s.entry u).reported) t
        (fun u hu => if_neg fun c => hu c.symm) (if_pos rfl)
      rw [chain] at this
      refine this.rename (funext fun u => ?_) (funext fun u => ?_) rfl
      · rw [te]
        split
        · rename_i c
          rw [← c, e, after.1]
          rfl
        · rfl
      · rw [te]
        split
        · exact after.2.1
        · rfl
    · rw [te]
      split
      · exact after.2.2.1
      · exact h.blocks.apart u
    · rw [te]
      split
      · exact .inl after.2.2.2.1
      · exact .inr rfl
    · rw [te]
      split
      · exact .inl after.2.2.2.2
      · exact .inr rfl
    · rw [te, if_neg fun d' => by rw [← d', e] at c; cases c]
      exact .inr rfl
    · rw [te, if_neg fun d' => by rw [← d', e] at c; cases c]
      exact .inr rfl
  all_goals exact h

theorem agrees_popEffects (s : State) (r : Report) (h : Agrees s) : Agrees (s.popEffects r) := by
  unfold State.popEffects
  split
  · split
    · exact agrees_exchangePopped s _ h
    · exact h
  · split
    · exact h.same ⟨rfl, rfl, rfl, rfl⟩ rfl
    · exact h
  all_goals exact h

end Sys2Proof.Machine
end

