-- ==== Sys2Proof/Laws/OutstandingEvents.lean ====
section
/-! SUPPORT. Outstanding in step with the live entries (R46), continued: the events of the line, the commands and the
bit time. -/

namespace Sys2Proof.Machine

open Sys2Proof

namespace Out

theorem getD {s u : State} {o : Option State} (h : ∀ t, o = some t → Out s t) (k : Out s u) : Out s (o.getD u) := by
  cases o with
  | none => exact k
  | some t => exact h t rfl

/-! ## Receptions -/

theorem setReception (s : State) (r : Reception) : Out s (s.setReception r) := tables rfl rfl
theorem settle (s : State) (q : Nat) : Out s (s.settle q) := tables rfl rfl
theorem count (s : State) (c : Counter) : Out s (s.count c) := tables rfl rfl

theorem startBitSeen (s t : State) (h : s.startBitSeen = some t) : Out s t := by
  unfold State.startBitSeen at h
  split at h
  · cases h; exact tables rfl rfl
  · split at h <;> cases h <;> exact tables rfl rfl
  · split at h
    · cases h
    · cases h; exact tables rfl rfl
  all_goals cases h

theorem handHeader (s t : State) (h : s.handHeader = some t) : Out s t := by
  unfold State.handHeader at h
  split at h
  · split at h
    · rename_i r _ _ _ _
      cases h
      exact trans (setReception s { r with handed := true }) (headerHanded _ _ _)
    · cases h
  all_goals cases h

theorem handPayload (s t : State) (h : s.handPayload = some t) : Out s t := by
  unfold State.handPayload at h
  split at h
  · split at h
    · rename_i r _ _ _ _ _ _ _
      cases h
      exact trans (setReception s { r with due := none }) (storePayload _ _ _ _ _)
    all_goals cases h
  all_goals cases h

theorem handDue (s : State) : Out s s.handDue := by
  unfold State.handDue
  have h := getD (handHeader s) (refl s)
  exact getD (fun t k => trans h (handPayload _ t k)) h

theorem characterIn (s t : State) (v : Byte) (b : Bool) (h : s.characterIn v b = some t) : Out s t := by
  unfold State.characterIn at h
  split at h
  · split at h
    · cases h
    · cases h
      exact trans (handDue s) (setReception _ _)
  all_goals cases h

theorem arbitrationGood (s : State) (h : Header) : Out s (s.arbitrationGood h) := by
  unfold State.arbitrationGood
  split
  · exact trans (recallGood s h) (tables rfl rfl)
  · exact trans (launches (Launches.attention s _ _)) (tables rfl rfl)
  all_goals exact count s _

theorem routeGood (s : State) (o : Origin) (h : Header) : Out s (s.routeGood o h) := by
  unfold State.routeGood
  split
  · exact answerFrameEnd s _ _
  · exact arbitrationGood s h
  · exact count s _

theorem routeBad (s : State) (r : Reception) : Out s (s.routeBad r) := by
  unfold State.routeBad
  split
  · exact answerFrameEnd s _ _
  · split
    · split
      · exact recallBad s _
      · exact refl s
    · exact refl s
  · exact refl s

theorem endReception (s : State) (r : Reception) (c : FrameClass) : Out s (s.endReception r c) := by
  have base : Out s ((s.count c.counter).settle 0) := tables rfl rfl
  unfold State.endReception
  dsimp only
  split
  · split
    · exact trans base (trans (launches (Launches.goodFrame _ _)) (routeGood _ _ _))
    · exact base
  all_goals exact trans base (routeBad _ _)

theorem frameEnded (s t : State) (h : s.frameEnded = some t) : Out s t := by
  unfold State.frameEnded at h
  split at h
  · split at h
    · cases h
      exact trans (handDue s) (endReception _ _ _)
    · cases h
  · cases h

theorem gapExpired (s t : State) (h : s.gapExpired = some t) : Out s t := by
  unfold State.gapExpired at h
  split at h
  · split at h
    · cases h
    · cases h
      exact trans (handDue s) (endReception _ _ _)
  · cases h

theorem malformedEnded (s t : State) (h : s.malformedEnded = some t) : Out s t := by
  unfold State.malformedEnded at h
  split at h
  · split at h
    · cases h
      exact trans (handDue s) (endReception _ _ _)
    · cases h
  · cases h

/-! ## The trunk's other events -/

theorem claim (s t : State) (h : s.claim = some t) : Out s t := by
  unfold State.claim at h
  split at h
  · cases h; exact tables rfl rfl
  · cases h

theorem foreignClaim (s t : State) (h : s.foreignClaim = some t) : Out s t := by
  unfold State.foreignClaim at h
  split at h
  · cases h; exact tables rfl rfl
  · cases h

theorem togglePhase (s : State) (c : Contention) : Out s (s.togglePhase c) := by
  unfold State.togglePhase
  split <;> exact tables rfl rfl

theorem win (s t : State) (h : s.win = some t) : Out s t := by
  unfold State.win at h
  split at h
  · rename_i c send _ _
    cases h
    have toggled := togglePhase s c
    have consumed : Out (s.togglePhase c) ((s.togglePhase c).setPendingSend none) := tables rfl rfl
    have launcher := launches (Launches.launcherWon ((s.togglePhase c).setPendingSend none))
    have entry := entryOfSendWon ((s.togglePhase c).setPendingSend none).launcherWon send
    exact trans (trans (trans (trans toggled consumed) launcher) entry) (tables rfl rfl)
  · cases h

theorem lose (s t : State) (cause : LossCause) (h : s.lose cause = some t) : Out s t := by
  unfold State.lose at h
  split at h
  · split at h
    · rename_i c _ _
      cases h
      exact trans (togglePhase s c) (tables rfl rfl)
    · cases h
  all_goals cases h

theorem requestOut (s t : State) (h : s.requestOut = some t) : Out s t := by
  unfold State.requestOut at h
  split at h
  · split at h
    · cases h
      exact trans (count s .framesSent) (trans (entrySent (s.count .framesSent) _) (tables rfl rfl))
    · cases h
  all_goals cases h

theorem noticeOut (s t : State) (h : s.noticeOut = some t) : Out s t := by
  unfold State.noticeOut at h
  split at h
  · split at h
    · cases h
      exact trans (t := (s.count .framesSent).settle 0) (tables rfl rfl) (launches (Launches.launcherNoticeSent _ _))
    · cases h
  all_goals cases h

theorem frameCut (s t : State) (h : s.frameCut = some t) : Out s t := by
  unfold State.frameCut at h
  split at h
  · cases h
    exact trans (t := (s.count .collisions).settle 0) (tables rfl rfl) (ownerCut _ _)
  all_goals cases h

theorem answerWindowExpired (s t : State) (b : Bool) (h : s.answerWindowExpired b = some t) : Out s t := by
  unfold State.answerWindowExpired at h
  split at h
  · rename_i g st limit _ _
    dsimp only at h
    cases h
    have base : Out s ((s.count .answerTimeouts).settle limit) := tables rfl rfl
    split
    · exact trans base (trans (launches (Launches.missedAnswer _ _)) (answerExpired _ _))
    · exact trans base (trans (answerExpired _ _) (launches (Launches.missedAnswer _ _)))
  all_goals cases h

theorem replyStarts (s t : State) (h : s.replyStarts = some t) : Out s t := by
  unfold State.replyStarts at h
  split at h <;> cases h
  exact tables rfl rfl

theorem replyOut (s t : State) (h : s.replyOut = some t) : Out s t := by
  unfold State.replyOut at h
  split at h <;> cases h
  exact tables rfl rfl

theorem replyCut (s t : State) (h : s.replyCut = some t) : Out s t := by
  unfold State.replyCut at h
  split at h <;> cases h
  exact tables rfl rfl

theorem lineFallsIdle (s t : State) (h : s.lineFallsIdle = some t) : Out s t := by
  unfold State.lineFallsIdle at h
  split at h <;> cases h
  exact tables rfl rfl

theorem faultClears (s t : State) (h : s.faultClears = some t) : Out s t := by
  unfold State.faultClears at h
  split at h <;> cases h
  exact tables rfl rfl

theorem enterFault (s : State) : Out s s.enterFault := tables rfl rfl

theorem sticks (s t : State) (h : s.sticks = some t) : Out s t := by
  unfold State.sticks at h
  split at h
  · split at h
    · cases h
      exact trans (handDue s) (trans (endReception _ _ _) (enterFault _))
    · cases h
  · cases h; exact enterFault s
  · cases h; exact tables rfl rfl
  all_goals cases h

theorem markEnds (s t : State) (h : s.markEnds = some t) : Out s t := by
  unfold State.markEnds at h
  split at h <;> cases h
  exact tables rfl rfl

theorem complete (s : State) (r : CmdResult) (d : Byte) : Out s (s.complete r d) := tables rfl rfl
theorem windowFault (s : State) (c : WindowFault) : Out s (s.windowFault c) := tables rfl rfl

theorem trunkResetCompletes (s t : State) (h : s.trunkResetCompletes = some t) : Out s t := by
  unfold State.trunkResetCompletes at h
  split at h <;> cases h
  exact complete s _ _

theorem softResetCompletes (s t : State) (h : s.softResetCompletes = some t) : Out s t := by
  unfold State.softResetCompletes at h
  split at h <;> cases h
  exact tables rfl rfl

theorem beginTrunkReset (s : State) : Out s s.beginTrunkReset := by
  unfold State.beginTrunkReset
  refine trans ?_ (trunkResetDelivered _)
  exact tables rfl rfl

theorem withdrawSend (s : State) : Out s s.withdrawSend := by
  unfold State.withdrawSend
  split <;> exact tables rfl rfl

theorem acceptTrunkEnable (s : State) (b : Bool) : Out s (s.acceptTrunkEnable b) := by
  have on : Out s s.enableTrunk := tables rfl rfl
  have off : Out s s.disableTrunk := by
    unfold State.disableTrunk
    dsimp only
    split <;> exact tables rfl rfl
  unfold State.acceptTrunkEnable
  split
  · split
    · exact on
    · exact refl s
  all_goals first
    | exact refl s
    | (split
       · exact refl s
       · exact off)

/-! ## The commands -/

/-- A command's work followed by its completion. -/
theorem thenComplete {s t : State} (h : Out s t) (r : CmdResult) (d : Byte) : Out s (t.complete r d) :=
  trans h (complete t r d)

theorem heldAtReopened (s : State) (k : SlotId) : Out s (s.heldAtReopened k) := tables rfl rfl
theorem setContinue (s : State) : Out s s.setContinue := tables rfl rfl
theorem setHalt (s : State) : Out s s.setHalt := tables rfl rfl

theorem undoLaunch (s : State) (k : SlotId) : Out s (s.undoLaunch k) := by
  unfold State.undoLaunch
  exact trans (trans (undoSend s) (withdrawSend _)) (tables rfl rfl)

theorem commandStart (s : State) : Out s s.commandStart := by
  unfold State.commandStart
  split
  · exact complete s _ _
  · split
    · exact thenComplete (launches (Launches.take _ s)) _ _
    · exact thenComplete (launches (Launches.take _ s)) _ _
    all_goals exact complete s _ _

theorem commandContinue (s : State) : Out s s.commandContinue := by
  unfold State.commandContinue
  split
  · exact thenComplete (launches (Launches.take _ s)) _ _
  · exact complete s _ _
  all_goals exact thenComplete (setContinue s) _ _

theorem commandHalt (s : State) : Out s s.commandHalt := by
  unfold State.commandHalt
  split
  · exact complete s _ _
  · exact complete s _ _
  · exact tables rfl rfl
  · exact thenComplete (heldAtReopened s _) _ _
  · exact thenComplete (heldAtReopened s _) _ _
  · exact thenComplete (heldAtReopened s _) _ _
  · split
    · exact thenComplete (setHalt s) _ _
    · exact thenComplete (heldAtReopened s _) _ _
  · exact thenComplete (undoLaunch s _) _ _
  · exact thenComplete (setHalt s) _ _

theorem commandWithdraw (s : State) : Out s s.commandWithdraw := by
  unfold State.commandWithdraw
  split
  · exact complete s _ _
  · exact thenComplete (withdrawTag s _) _ _

theorem commandPop (s : State) : Out s s.commandPop := by
  unfold State.commandPop
  split
  · exact complete s _ _
  · rename_i r rest _
    dsimp only
    have removed : Out s (s.setReports { s.reports with queue := rest }) := tables rfl rfl
    have effects := trans removed (popEffects _ r)
    refine trans (trans effects ?_) (launches (Launches.reevaluate _))
    exact tables rfl rfl

theorem commandTakeBlock (s : State) : Out s s.commandTakeBlock := by
  unfold State.commandTakeBlock
  split
  · split <;> exact tables rfl rfl
  · exact complete s _ _

theorem commandFreeChain (s : State) : Out s s.commandFreeChain := by
  unfold State.commandFreeChain
  split
  · exact complete s _ _
  · split
    · rename_i bs _
      have freed : Out s (s.freeBlocks bs) := tables rfl rfl
      exact thenComplete (trans freed (launches (Launches.reevaluate _))) _ _
    · exact complete s _ _

theorem commandFence (s : State) : Out s s.commandFence := by
  unfold State.commandFence
  split
  · exact complete s _ _
  · exact thenComplete (launches (Launches.fence s _)) _ _

theorem commandAdmit (s : State) : Out s s.commandAdmit := by
  unfold State.commandAdmit
  split
  · exact complete s _ _
  · split
    · exact thenComplete (launches (Launches.admitted s _)) _ _
    · exact complete s _ _

theorem commandTrunkReset (s : State) : Out s s.commandTrunkReset := by
  unfold State.commandTrunkReset
  split
  · exact complete s _ _
  all_goals exact beginTrunkReset s

theorem commandClearCounters (s : State) : Out s s.commandClearCounters := by
  unfold State.commandClearCounters
  split <;> exact tables rfl rfl

/-- All records and entries at their reset values (R44, R119). -/
theorem ofReset {s t : State} (he : t.entries = Vector.replicate 16 .free) (hs : t.stations = Vector.replicate 14 Station.reset) :
    Out s t := by
  intro _ i
  have hst : t.station i = Station.reset := by simp [State.station, hs]
  have hen : ∀ g, t.entry g = .free := fun g => by simp [State.entry, he]
  rw [hst]
  have h0 : t.liveCount i = 0 := by
    have e : (fun g => (t.entry g).liveFor i) = fun _ => false := funext fun g => by rw [hen g]; rfl
    simp only [State.liveCount, e]
    rfl
  rw [h0]
  simp [Station.reset]

theorem commandSoftReset (s : State) : Out s s.commandSoftReset := ofReset rfl rfl

theorem dispatch (s : State) (code : Byte) : Out s (s.dispatch code) := by
  unfold State.dispatch
  split
  · exact commandStart s
  · exact commandContinue s
  · exact commandHalt s
  · exact commandWithdraw s
  · exact commandPop s
  · exact commandTakeBlock s
  · exact commandFreeChain s
  · exact commandFence s
  · exact commandAdmit s
  · exact commandTrunkReset s
  · exact commandClearCounters s
  · exact commandSoftReset s
  · exact complete s _ _

theorem writeCommand (s : State) (code : Byte) : Out s (s.writeCommand code) := by
  unfold State.writeCommand
  split
  · exact tables rfl rfl
  · unfold State.takeCommand
    refine trans ?_ (dispatch _ _)
    exact tables rfl rfl

/-! ## The window -/

theorem writeSlotData (s : State) (v : Byte) : Out s (s.writeSlotData v) := by
  unfold State.writeSlotData
  split <;> exact tables rfl rfl

theorem readBlockData (s : State) : Out s s.readBlockData := by
  unfold State.readBlockData
  split <;> exact tables rfl rfl

theorem writeBlockData (s : State) (v : Byte) : Out s (s.writeBlockData v) := by
  unfold State.writeBlockData
  split <;> exact tables rfl rfl

theorem writeBlockLink (s : State) (v : Byte) : Out s (s.writeBlockLink v) := by
  unfold State.writeBlockLink
  split
  · split
    · exact tables rfl rfl
    · split <;> exact tables rfl rfl
  · exact tables rfl rfl

theorem writeSlotSelect (s : State) (v : Byte) : Out s (s.writeSlotSelect v) := by
  unfold State.writeSlotSelect
  split <;> exact tables rfl rfl
theorem writeSlotIndex (s : State) (v : Byte) : Out s (s.writeSlotIndex v) := by
  unfold State.writeSlotIndex
  split <;> exact tables rfl rfl
theorem writeReportIndex (s : State) (v : Byte) : Out s (s.writeReportIndex v) := by
  unfold State.writeReportIndex
  split <;> exact tables rfl rfl
theorem writeStationSelect (s : State) (v : Byte) : Out s (s.writeStationSelect v) := by
  unfold State.writeStationSelect
  split <;> exact tables rfl rfl
theorem writeStationIndex (s : State) (v : Byte) : Out s (s.writeStationIndex v) := by
  unfold State.writeStationIndex
  split <;> exact tables rfl rfl
theorem writeBlockSelect (s : State) (v : Byte) : Out s (s.writeBlockSelect v) := by
  unfold State.writeBlockSelect
  split <;> exact tables rfl rfl
theorem writeBlockOffset (s : State) (v : Byte) : Out s (s.writeBlockOffset v) := by
  unfold State.writeBlockOffset
  split <;> exact tables rfl rfl
theorem writeConfigIndex (s : State) (v : Byte) : Out s (s.writeConfigIndex v) := by
  unfold State.writeConfigIndex
  split <;> exact tables rfl rfl
theorem writeDividerLow (s : State) (v : Byte) : Out s (s.writeDividerLow v) := by
  unfold State.writeDividerLow
  split <;> exact tables rfl rfl
theorem writeDividerHigh (s : State) (v : Byte) : Out s (s.writeDividerHigh v) := by
  unfold State.writeDividerHigh
  dsimp only
  split
  · exact tables rfl rfl
  · split <;> exact tables rfl rfl
theorem writeTrunkEnable (s : State) (v : Byte) : Out s (s.writeTrunkEnable v) := by
  unfold State.writeTrunkEnable
  split
  · exact tables rfl rfl
  · split
    · exact tables rfl rfl
    · exact acceptTrunkEnable s _
theorem writeItem (s : State) (i : Fin 12) (v : Byte) : Out s (s.writeItem i v) := by
  unfold State.writeItem
  split <;> exact tables rfl rfl
theorem writeConfigData (s : State) (v : Byte) : Out s (s.writeConfigData v) := by
  unfold State.writeConfigData
  split
  · exact writeDividerLow s v
  · exact writeDividerHigh s v
  · exact writeTrunkEnable s v
  · exact writeItem s _ v
theorem writeEvents (s : State) (v : Byte) : Out s (s.writeEvents v) := tables rfl rfl
theorem writeMask (s : State) (v : Byte) : Out s (s.writeMask v) := by
  unfold State.writeMask
  split <;> exact tables rfl rfl
theorem writeCounterIndex (s : State) (v : Byte) : Out s (s.writeCounterIndex v) := by
  unfold State.writeCounterIndex
  split <;> exact tables rfl rfl
theorem readCounter (s : State) : Out s s.readCounter := by
  unfold State.readCounter
  split <;> exact tables rfl rfl

theorem writeWindow (s : State) (a : BitVec 5) (v : Byte) : Out s (s.writeWindow a v) := by
  unfold State.writeWindow
  split
  · exact writeEvents s v
  · exact writeMask s v
  · exact writeCommand s v
  · exact tables rfl rfl
  · exact tables rfl rfl
  · exact writeSlotSelect s v
  · exact writeSlotIndex s v
  · exact writeSlotData s v
  · exact writeReportIndex s v
  · exact writeStationSelect s v
  · exact writeStationIndex s v
  · exact writeBlockSelect s v
  · exact writeBlockOffset s v
  · exact writeBlockData s v
  · exact writeBlockLink s v
  · exact writeConfigIndex s v
  · exact writeConfigData s v
  · exact writeCounterIndex s v
  · exact refl s
  · exact refl s
  · exact refl s
  · exact windowFault s _

/-! ## Time -/

theorem deadlineExpires (s t : State) (g : Tag) (h : s.deadlineExpires g = some t) : Out s t := by
  unfold State.deadlineExpires at h
  split at h
  · split at h <;> cases h
    exact deadlineTick s g
  · split at h <;> cases h
    exact deadlineTick s g
  all_goals cases h

theorem restEnds (s t : State) (g : Tag) (h : s.restEnds g = some t) : Out s t := by
  unfold State.restEnds at h
  split at h
  · split at h <;> cases h
    exact restTick s g
  all_goals cases h

theorem coalescingExpires (s t : State) (h : s.coalescingExpires = some t) : Out s t := by
  unfold State.coalescingExpires at h
  split at h
  · split at h <;> cases h
    exact tables rfl rfl
  · cases h

/-! ## The bit time -/

theorem settlingBit (s : State) (b : Bool) : Out s (s.settlingBit b) := by
  unfold State.settlingBit
  split
  · exact getD (startBitSeen s) (refl s)
  · dsimp only
    have base : Out s (s.setTrunk { s.trunk with quiet := s.trunk.quiet + 1 }) := tables rfl rfl
    split
    · exact getD (fun t h => trans base (lineFallsIdle _ t h)) base
    · exact base

theorem faultBit (s : State) (b : Bool) : Out s (s.faultBit b) := by
  unfold State.faultBit
  split
  · exact tables rfl rfl
  · dsimp only
    have base : Out s (s.setTrunk { s.trunk with quiet := s.trunk.quiet + 1 }) := tables rfl rfl
    split
    · exact getD (fun t h => trans base (faultClears _ t h)) base
    · exact base

theorem idleBit (s : State) (b : Bool) : Out s (s.idleBit b) := by
  unfold State.idleBit
  split
  · exact tables rfl rfl
  · exact refl s

theorem arbitrationBit (s : State) (c : Contention) (b : Bool) : Out s (s.arbitrationBit c b) := by
  unfold State.arbitrationBit
  split
  · exact getD (fun t h => lose s t _ h) (refl s)
  · split
    · exact getD (fun t h => lose s t _ h) (refl s)
    · split
      · exact getD (win s) (refl s)
      · exact tables rfl rfl

theorem transmitBit (s : State) (f : Outgoing) (p : Nat) (d b : Bool) : Out s (s.transmitBit f p d b) := by
  unfold State.transmitBit
  split
  · exact getD (frameCut s) (refl s)
  · split
    · exact tables rfl rfl
    · split
      · exact getD (requestOut s) (refl s)
      · exact getD (noticeOut s) (refl s)

theorem answerBit (s : State) (g : Tag) (st : StationId) (limit n : Nat) (b : Bool) : Out s (s.answerBit g st limit n b) := by
  unfold State.answerBit
  split
  · exact getD (startBitSeen s) (refl s)
  · dsimp only
    have base : Out s (s.setTrunkState (.answerWait g st limit (n + 1))) := tables rfl rfl
    have chosen : Out s (s.setTrunkState (.answerWait g st limit (n + 1))).nextChoice := tables rfl rfl
    split
    · exact getD (fun t h => trans chosen (answerWindowExpired _ t _ h)) base
    · exact base

theorem replyBit (s : State) (r : Reply) (p : ReplyProgress) (d b : Bool) : Out s (s.replyBit r p d b) := by
  unfold State.replyBit
  split
  · split
    · exact getD (replyStarts s) (refl s)
    · exact tables rfl rfl
  · split
    · exact getD (replyCut s) (refl s)
    · split
      · exact tables rfl rfl
      · exact getD (replyOut s) (refl s)

theorem markBit (s : State) (n : Nat) : Out s (s.markBit n) := by
  unfold State.markBit
  split
  · exact tables rfl rfl
  · exact getD (markEnds s) (refl s)

theorem receptionSettled (s : State) (r : Reception) : Out s (s.receptionSettled r) := by
  unfold State.receptionSettled
  split
  · split
    · exact getD (malformedEnded s) (refl s)
    · exact refl s
  · split
    · exact getD (frameEnded s) (refl s)
    · exact refl s

theorem characterBitIn (s : State) (r : Reception) (n : Nat) (v : Byte) (b : Bool) : Out s (s.characterBitIn r n v b) := by
  unfold State.characterBitIn
  split
  · exact tables rfl rfl
  · split
    · exact refl s
    · rename_i s1 e
      obtain ⟨u, hu, rfl⟩ := Option.map_eq_some_iff.mp e
      have base := trans (characterIn s u v _ hu) (handDue u)
      split
      · exact trans base (receptionSettled _ _)
      all_goals exact base

theorem gapBit (s : State) (r : Reception) (b : Bool) : Out s (s.gapBit r b) := by
  unfold State.gapBit
  split
  · exact getD (startBitSeen s) (refl s)
  · dsimp only
    have base : Out s (s.setReception { r with gap := r.gap + 1 }) := tables rfl rfl
    split
    · exact getD (fun t h => trans base (gapExpired _ t h)) base
    · exact base

theorem receivingBit (s : State) (r : Reception) (b : Bool) : Out s (s.receivingBit r b) := by
  unfold State.receivingBit
  dsimp only
  have base : Out s (s.setReception { r with run := if b then 0 else r.run + 1 }) := tables rfl rfl
  split
  · exact tables rfl rfl
  · split
    · exact trans base (receptionSettled _ _)
    · split
      · exact trans base (characterBitIn _ _ _ _ _)
      · exact trans base (gapBit _ _ _)

theorem stateBit (s : State) (d b : Bool) : Out s (s.stateBit d b) := by
  unfold State.stateBit
  split
  · exact refl s
  · exact settlingBit s b
  · exact idleBit s b
  · exact arbitrationBit s _ b
  · exact transmitBit s _ _ d b
  · exact answerBit s _ _ _ _ b
  · exact receivingBit s _ b
  · exact replyBit s _ _ d b
  · exact markBit s _
  · exact faultBit s b

theorem stuckBit (s : State) (c b : Bool) : Out s (s.stuckBit c b) := by
  unfold State.stuckBit
  split
  · dsimp only
    have base : Out s (s.setTrunk { s.trunk with stuck := stuckAfter s.trunk.stuck b }) := tables rfl rfl
    split
    · exact getD (fun t h => trans base (sticks _ t h)) base
    · exact base
  · exact refl s

theorem lineEvents (s : State) (c d b : Bool) : Out s (s.lineEvents c d b) := by
  unfold State.lineEvents
  have base := trans (stateBit s d b) (stuckBit _ c b)
  exact getD (fun t h => trans base (trunkResetCompletes _ t h)) base

theorem lineBitWith {f : State → State} (h : ∀ s, Out s (f s)) (s : State) : Out s (s.lineBitWith f) := by
  unfold State.lineBitWith
  have claimed : Out s s.boundary := getD (claim s) (refl s)
  have dropped : Out s.boundary s.boundary.dropInput := tables rfl rfl
  exact trans (trans (trans claimed dropped) (h _)) (lineEvents _ _ _ _)

theorem lineBit (s : State) : Out s s.lineBit := lineBitWith refl s

theorem beat (s : State) : Out s s.beat := tables rfl rfl

theorem tickBit (s : State) : Out s s.tickBit := by
  unfold State.tickBit
  dsimp only
  have base : Out s s.nextChoice.nextChoice.nextChoice := tables rfl rfl
  split
  · exact trans base (lineBitWith (fun s => tick s _) _)
  · exact trans base (trans (lineBit _) (tick _ _))

/-! ## The shells of the rows -/

theorem busWrite {f : State → State} (h : ∀ s, Out s (f s)) (s t : State) (e : Machine.busWrite f s = .next t) : Out s t := by
  unfold Machine.busWrite at e
  cases e
  split
  · exact h s
  · exact refl s

theorem busRead {value : State → Byte} {f : State → State} (h : ∀ s, Out s (f s)) (s t : State)
    (e : Machine.busRead value f s = .next t) : Out s t := by
  unfold Machine.busRead at e
  cases e
  split
  · exact trans (h s) (tables rfl rfl)
  · exact tables rfl rfl

theorem occurs {name : String} {f : State → Option State} (h : ∀ s t, f s = some t → Out s t) (s t : State)
    (e : Machine.occurs name f s = .next t) : Out s t := by
  unfold Machine.occurs at e
  split at e
  · split at e
    · rename_i u hu
      cases e
      exact h s t hu
    · cases e
  · cases e

end Out

end Sys2Proof.Machine
end

