-- ==== Sys2Proof/Laws/BlocksEvents.lean ====
section
/-! SUPPORT. The agreement on blocks, slots and sends (R20, R75, R102, R103), continued: the trunk reset, the events of the line, the
commands, the window and the bit time. -/

namespace Sys2Proof.Machine

open Sys2Proof

/-! ## The trunk reset (R71, R97, R100, R101) -/

theorem tables_same {s t : State} (h : Tables s) (hp : t.pool = s.pool) (he : t.entries = s.entries) (hs : t.slots = s.slots)
    (hl : t.launcher.phase = s.launcher.phase) : Tables t := by
  have entry : ∀ g, t.entry g = s.entry g := fun g => by simp only [State.entry, he]
  have slot : ∀ k, t.slot k = s.slot k := fun k => by simp only [State.slot, hs]
  exact ⟨blocks_same h.blocks hp (fun g => by rw [entry]) (fun g => by rw [entry])
      (fun g => by rw [entry]; exact h.blocks.apart g) (by rw [hl]) fun j _ => by rw [slot]; exact ⟨rfl, rfl⟩,
    slots_same h.slots (fun g => .inr (by rw [entry])) (fun j _ => by rw [slot]) (.inr (by rw [hl]))⟩

/-- The Launcher's slot and chain are given up, or the chain alone; `r` is the state with the chain gone back. -/
theorem tables_given {s t : State} (r : State) {k : SlotId} (h : Tables s) (hc : s.launcher.phase.current = some k)
    (own : r.pool.owned (fun g => (r.entry g).holds) (fun g => (r.entry g).reported) none [] ∧ ∀ g, (r.entry g).apart)
    (hr : r.entries = s.entries) (hp : t.pool = r.pool) (he : t.entries = r.entries) (hs : ∀ j, j ≠ k → t.slot j = s.slot j)
    (hl : t.launcher.phase.lender = none)
    (hn : t.launcher.phase.current = none ∨ (t.launcher.phase.current = some k ∧ (t.slot k).state = .active)) : Tables t := by
  have was : ∀ g, t.entry g = r.entry g := fun g => by simp only [State.entry, he]
  have entry : ∀ g, t.entry g = s.entry g := fun g => by simp only [State.entry, he, hr]
  refine ⟨⟨?_, fun g => by rw [was]; exact own.2 g⟩, ⟨fun j e => ?_, fun g j e => ?_⟩⟩
  · rw [hl, lent_none hl, hp]
    exact own.1.rename (funext fun g => by rw [was]) (funext fun g => by rw [was]) rfl
  · rcases hn with n | n
    · rw [n] at e
      cases e
    · rw [n.1] at e
      cases e
      refine ⟨n.2, fun g => ?_⟩
      rw [entry]
      exact (h.slots.current k hc).2 g
  · rw [entry] at e
    refine ⟨?_, fun u => ?_⟩
    · rw [hs j (away_ne h.slots hc e)]
      exact (h.slots.away g j e).1
    · rw [entry]
      exact (h.slots.away g j e).2 u

theorem tables_owned {s : State} (h : Tables s) (hl : s.launcher.phase.lender = none) :
    s.pool.owned (fun g => (s.entry g).holds) (fun g => (s.entry g).reported) none [] ∧ ∀ g, (s.entry g).apart := by
  have := h.blocks.owned
  rw [hl, lent_none hl] at this
  exact ⟨this, h.blocks.apart⟩

/-- The Launcher, which has no chain, stops with no slot of its own. -/
theorem tables_stops {s t : State} (h : Tables s) (hs : s.launcher.phase.lender = none) (k : Same s t)
    (hl : t.launcher.phase.lender = none) (hc : t.launcher.phase.current = none) : Tables t := by
  obtain ⟨own, apart⟩ := tables_owned h hs
  refine ⟨⟨?_, fun g => by rw [k.entry]; exact apart g⟩, ⟨fun j e => ?_, fun g j e => ?_⟩⟩
  · rw [hl, lent_none hl, k.pool]
    exact own.rename (funext fun g => by rw [k.entry]) (funext fun g => by rw [k.entry]) rfl
  · rw [hc] at e
    cases e
  · rw [k.entry] at e
    rw [k.slot]
    refine ⟨(h.slots.away g j e).1, fun u => ?_⟩
    rw [k.entry]
    exact (h.slots.away g j e).2 u

theorem tables_answerPhaseEnded (s : State) (k : SlotId) (n : Nat) (h : Tables s) :
    Tables (s.answerPhaseEnded k .trunkReset n) ∧ (s.answerPhaseEnded k .trunkReset n).entries = s.entries ∧
      (s.answerPhaseEnded k .trunkReset n).trunk = s.trunk := by
  unfold State.answerPhaseEnded
  split
  · rename_i j m e
    split
    · rename_i hj
      subst hj
      obtain ⟨hp, he, hs, hk, -⟩ := returnOutbound_parts s j
      dsimp only
      rw [if_pos rfl]
      generalize s.returnOutbound j = r at *
      refine ⟨tables_given r h (by rw [e]; rfl) (owned_back h.blocks (by rw [e]; rfl) hp he) he rfl rfl (fun i hi => ?_) rfl
        (.inl rfl), he, hk⟩
      show State.slot ((r.setAttempts j n).closeSlot j .trunkReset) i = _
      unfold State.closeSlot State.setAttempts
      rw [setSlot_setSlot, slot_setSlot, if_neg fun c => hi c.symm]
      unfold State.slot
      rw [hs]
    · exact ⟨h, rfl, rfl⟩
  all_goals exact ⟨h, rfl, rfl⟩

theorem tables_finishAnswer (s : State) (t : Tag) (x y : Exchange) (h : Tables s) (hh : (s.entry t).holds = y.reservedChain)
    (hr : (s.entry t).reported = []) :
    Tables (s.finishAnswer t x (endWith .trunkReset y.reservedChain)) ∧
      (s.finishAnswer t x (endWith .trunkReset y.reservedChain)).trunk = s.trunk ∧
      ∀ u, ((s.finishAnswer t x (endWith .trunkReset y.reservedChain)).entry u).answering =
        if t = u then none else (s.entry u).answering := by
  have once : y.reservedChain.Nodup := by
    rw [← hh]
    exact h.blocks.owned.heldOnce t
  have done := tables_reachDone s t x (endWith .trunkReset y.reservedChain) h (by rw [hh]; exact Parts.allFreed once) hr
  obtain ⟨tables, he, hk⟩ := tables_answerPhaseEnded (s.reachDone t x (endWith .trunkReset y.reservedChain)) x.slot x.attempts done
  refine ⟨tables, hk.trans (reachDone_parts s t x _).2.2.2.1, fun u => ?_⟩
  have : (s.finishAnswer t x (endWith .trunkReset y.reservedChain)).entry u =
      (s.reachDone t x (endWith .trunkReset y.reservedChain)).entry u := by
    unfold State.entry
    exact congrArg (fun v : Vector Entry 16 => v[u]) he
  rw [this, reachDone_entry]
  split <;> rfl

theorem tables_undoEntry (s : State) (t : Tag) (x : Exchange) (h : Tables s) (e : s.entry t = .reserved false x) :
    Tables (s.undoEntry t x) ∧ ∀ u, (s.undoEntry t x).entry u = if t = u then .free else s.entry u := by
  have te : ∀ u, (s.undoEntry t x).entry u = if t = u then .free else s.entry u := fun u => entry_setEntry s t u .free
  have parts : Parts (s.entry t).holds [] x.reservedChain := by
    have once := h.blocks.owned.heldOnce t
    rw [e] at once ⊢
    exact Parts.allFreed once
  refine ⟨⟨blocks_settled h.blocks t .free parts (by rw [e]; rfl) te rfl rfl trivial rfl rfl fun _ _ => ⟨rfl, rfl⟩,
    slots_same h.slots (fun u => ?_) (fun _ _ => rfl) (.inr rfl)⟩, te⟩
  rw [te]
  split
  · exact .inl rfl
  · exact .inr rfl

/-- A trunk reset reaches one entry (R71). -/
theorem tables_entryTrunkReset (s : State) (t : Tag) (h : Tables s) :
    Tables (s.entryTrunkReset t) ∧ (s.entryTrunkReset t).trunk = s.trunk ∧
      ∀ u, ((s.entryTrunkReset t).entry u).answering = if t = u then none else (s.entry u).answering := by
  have stays : (s.entry t).answering = none → Tables s ∧ s.trunk = s.trunk ∧
      ∀ u, (s.entry u).answering = if t = u then none else (s.entry u).answering := fun a => by
    refine ⟨h, rfl, fun u => ?_⟩
    split
    · rename_i c
      rw [← c]
      exact a
    · rfl
  have away : ∀ (x : Exchange) (frees : List BlockId), (s.entry t).awaySlot = some x.slot → (s.entry t).holds = frees →
      Tables (s.finishDeferred t x (endWith .trunkReset frees)) ∧
      (s.finishDeferred t x (endWith .trunkReset frees)).trunk = s.trunk ∧
      ∀ u, ((s.finishDeferred t x (endWith .trunkReset frees)).entry u).answering =
        if t = u then none else (s.entry u).answering := fun x frees ha hh => by
    have once : frees.Nodup := by
      rw [← hh]
      exact h.blocks.owned.heldOnce t
    refine ⟨tables_finishDeferred s t x _ h (by rw [hh]; exact Parts.allFreed once) ha, (reachDone_parts s t x _).2.2.2.1,
      fun u => ?_⟩
    show ((s.reachDone t x (endWith .trunkReset frees)).entry u).answering = _
    rw [reachDone_entry]
    split <;> rfl
  unfold State.entryTrunkReset
  split <;> rename_i e
  · exact stays (by rw [e]; rfl)
  · rename_i x
    split
    · obtain ⟨tables, te⟩ := tables_undoEntry s t x h e
      refine ⟨tables, rfl, fun u => ?_⟩
      rw [te]
      split <;> rfl
    · exact tables_finishAnswer s t { x with attempts := x.attempts - 1 } x h (by rw [e]; rfl) (by rw [e]; rfl)
  · exact tables_finishAnswer s t _ _ h (by rw [e]; rfl) (by rw [e]; rfl)
  · exact tables_finishAnswer s t _ _ h (by rw [e]; rfl) (by rw [e]; rfl)
  · exact away _ _ (by rw [e]; rfl) (by rw [e]; rfl)
  · exact away _ _ (by rw [e]; rfl) (by rw [e]; exact receiving_holds _ _ _ _)
  · exact stays (by rw [e]; rfl)
  · have te : ∀ u, (s.setEntry t .free).entry u = if t = u then .free else s.entry u := fun u => entry_setEntry s t u .free
    refine ⟨⟨blocks_same h.blocks rfl (fun u => ?_) (fun u => ?_) (fun u => ?_) rfl fun _ _ => ⟨rfl, rfl⟩,
      slots_same h.slots (fun u => ?_) (fun _ _ => rfl) (.inr rfl)⟩, rfl, fun u => ?_⟩
    · rw [te]
      split
      · rename_i c
        rw [← c, e]
        rfl
      · rfl
    · rw [te]
      split
      · rename_i c
        rw [← c, e]
        rfl
      · rfl
    · rw [te]
      split
      · trivial
      · exact h.blocks.apart u
    · rw [te]
      split
      · exact .inl rfl
      · exact .inr rfl
    · rw [te]
      split <;> rfl

theorem tables_entriesTrunkReset (s : State) (h : Tables s) :
    Tables s.entriesTrunkReset ∧ s.entriesTrunkReset.trunk = s.trunk ∧ ∀ u, (s.entriesTrunkReset.entry u).answering = none := by
  have walk : ∀ (ts : List Tag) (v : State), Tables v → Tables (ts.foldl State.entryTrunkReset v) ∧
      (ts.foldl State.entryTrunkReset v).trunk = v.trunk ∧
      ∀ u, u ∈ ts ∨ (v.entry u).answering = none → ((ts.foldl State.entryTrunkReset v).entry u).answering = none := by
    intro ts
    induction ts with
    | nil => exact fun v hv => ⟨hv, rfl, fun u hu => hu.resolve_left List.not_mem_nil⟩
    | cons t ts ih =>
      intro v hv
      obtain ⟨tables, trunk, answering⟩ := tables_entryTrunkReset v t hv
      obtain ⟨a, b, c⟩ := ih _ tables
      refine ⟨a, b.trans trunk, fun u hu => c u ?_⟩
      rw [answering]
      split
      · exact .inr rfl
      · rename_i n
        rcases hu with hu | hu
        · exact .inl ((List.mem_cons.mp hu).resolve_left fun d => n d.symm)
        · exact .inr hu
  obtain ⟨a, b, c⟩ := walk (List.finRange 16) s h
  exact ⟨a, b, fun u => c u (.inl (List.mem_finRange u))⟩

/-- The Launcher's own part of the trunk reset (R97, R100). -/
theorem tables_launcherTrunkReset (s : State) (h : Tables s) :
    Tables s.launcherTrunkReset ∧ s.launcherTrunkReset.trunk = s.trunk ∧ s.launcherTrunkReset.entries = s.entries := by
  have reopened : ∀ k, s.launcher.phase.current = some k → s.launcher.phase.lender = none →
      Tables (s.heldAtReopened k) ∧ (s.heldAtReopened k).trunk = s.trunk ∧ (s.heldAtReopened k).entries = s.entries :=
    fun k hc hl => by
      refine ⟨tables_given s h hc (tables_owned h hl) rfl rfl rfl (fun j hj => ?_) rfl (.inl rfl), rfl, rfl⟩
      show (s.setSlot k _).slot j = _
      rw [slot_setSlot, if_neg fun c => hj c.symm]
  unfold State.launcherTrunkReset
  split <;> rename_i e
  · exact ⟨h, rfl, rfl⟩
  · exact ⟨h, rfl, rfl⟩
  · split
    · exact ⟨h, rfl, rfl⟩
    · exact reopened _ (by rw [e]; rfl) (by rw [e]; rfl)
  · exact ⟨tables_stops h (by rw [e]; rfl) ⟨rfl, rfl, rfl, rfl⟩ rfl rfl, rfl, rfl⟩
  · exact reopened _ (by rw [e]; rfl) (by rw [e]; rfl)
  · exact reopened _ (by rw [e]; rfl) (by rw [e]; rfl)
  · exact reopened _ (by rw [e]; rfl) (by rw [e]; rfl)
  · rename_i k n
    have own := owned_back (t := s.undoOutbound k) h.blocks (by rw [e]; rfl) (.inl rfl) rfl
    refine ⟨tables_given (s.undoOutbound k) h (by rw [e]; rfl) own rfl rfl rfl (fun j hj => ?_) rfl (.inl rfl), rfl, rfl⟩
    show (s.setSlot k _).slot j = _
    rw [slot_setSlot, if_neg fun c => hj c.symm]
  · rename_i k n
    obtain ⟨hp, he, hs, hk, -⟩ := returnOutbound_parts s k
    unfold State.noticeEnded
    dsimp only
    generalize s.returnOutbound k = r at *
    have own := owned_back (t := r) h.blocks (by rw [e]; rfl) hp he
    have slots : ∀ sl j, j ≠ k → (r.setSlot k sl).slot j = s.slot j := fun sl j hj => by
      rw [slot_setSlot, if_neg fun c => hj c.symm]
      unfold State.slot
      rw [hs]
    have self : r.slot k = s.slot k := by
      unfold State.slot
      rw [hs]
    unfold State.report reportWith
    split
    · dsimp only
      rw [if_pos ⟨rfl, rfl⟩]
      refine ⟨tables_given r h (by rw [e]; rfl) own he rfl rfl (fun j hj => ?_) rfl (.inl rfl), hk, he⟩
      show State.slot ((r.setSlot k _).setSlot k _) j = _
      rw [setSlot_setSlot]
      exact slots _ j hj
    · refine ⟨tables_given r h (by rw [e]; rfl) own he rfl rfl (fun j hj => slots _ j hj) rfl (.inr ⟨rfl, ?_⟩), hk, he⟩
      show ((r.setSlot k _).slot k).state = _
      rw [slot_setSlot_self, self]
      exact (h.slots.current k (by rw [e]; rfl)).1
  · exact ⟨h, rfl, rfl⟩

theorem agrees_trunkResetDelivered (s : State) (h : Tables s) (hq : s.trunk.pendingSend = none)
    (ht : ∀ f n, s.trunk.state ≠ .transmitting f n) : Agrees s.trunkResetDelivered := by
  have ends : ∀ v : State, Tables v → v.trunk = s.trunk → (∀ u, (v.entry u).answering = none) → Agrees v.stationsTrunkReset :=
    fun v tables trunk quiet =>
      have t := tables_same (t := v.stationsTrunkReset) tables rfl rfl rfl rfl
      ⟨t.blocks, t.slots, sends_quiet quiet (by
        show v.trunk.pendingSend = none
        rw [trunk]
        exact hq) (by
        show ∀ f n, v.trunk.state ≠ .transmitting f n
        rw [trunk]
        exact ht)⟩
  have table : ∀ v : State, Tables v → v.trunk = s.trunk → Agrees v.entriesTrunkReset.launcherTrunkReset.stationsTrunkReset :=
    fun v hv trunk => by
      obtain ⟨a, b, c⟩ := tables_entriesTrunkReset v hv
      obtain ⟨d, e, f⟩ := tables_launcherTrunkReset _ a
      refine ends _ d (e.trans (b.trans trunk)) fun u => ?_
      unfold State.entry
      rw [f]
      exact c u
  unfold State.trunkResetDelivered
  split
  · have chosen := tables_same (t := s.nextChoice) h rfl rfl rfl rfl
    dsimp only
    split
    · obtain ⟨d, e, -⟩ := tables_launcherTrunkReset _ chosen
      obtain ⟨a, b, c⟩ := tables_entriesTrunkReset _ d
      exact ends _ a (b.trans e) c
    · exact table _ chosen rfl
  all_goals exact table s h rfl

theorem agrees_beginTrunkReset (s : State) (h : Agrees s) : Agrees s.beginTrunkReset := by
  unfold State.beginTrunkReset
  exact agrees_trunkResetDelivered _ (tables_same h.tables rfl rfl rfl rfl) rfl (fun _ _ => nofun)

/-! ## Keeping the agreement -/

/-- `t` agrees where `s` does. -/
def Agr (s t : State) : Prop := Agrees s → Agrees t

namespace Agr

theorem refl (s : State) : Agr s s := id
theorem trans {s t u : State} (h : Agr s t) (k : Agr t u) : Agr s u := fun x => k (h x)
theorem getD {s u : State} {o : Option State} (h : ∀ t, o = some t → Agr s t) (k : Agr s u) : Agr s (o.getD u) := by
  cases o with
  | none => exact k
  | some t => exact h t rfl

/-- Nothing the agreement speaks of has changed. -/
theorem idle {s t : State} (hp : t.pool = s.pool) (he : t.entries = s.entries) (hs : t.slots = s.slots)
    (hl : t.launcher.phase = s.launcher.phase) (hq : t.trunk.pendingSend = s.trunk.pendingSend)
    (ht : t.trunk.state = s.trunk.state) : Agr s t := fun h => h.trunk hp he hs hl hq (.inl ht)

/-- The controller has come to a state in which it sends no frame of the Launcher's. -/
theorem moved {s t : State} (hp : t.pool = s.pool) (he : t.entries = s.entries) (hs : t.slots = s.slots)
    (hl : t.launcher.phase = s.launcher.phase) (hq : t.trunk.pendingSend = s.trunk.pendingSend)
    (ht : ∀ f n, t.trunk.state ≠ .transmitting f n) : Agr s t := fun h => h.trunk hp he hs hl hq (.inr ht)

theorem count (s : State) (c : Counter) : Agr s (s.count c) := idle rfl rfl rfl rfl rfl rfl
theorem settle (s : State) (n : Nat) : Agr s (s.settle n) := moved rfl rfl rfl rfl rfl (fun _ _ => nofun)
theorem complete (s : State) (r : CmdResult) (d : Byte) : Agr s (s.complete r d) := idle rfl rfl rfl rfl rfl rfl
theorem windowFault (s : State) (c : WindowFault) : Agr s (s.windowFault c) := idle rfl rfl rfl rfl rfl rfl

/-! ## Receptions -/

theorem setReception (s : State) (r : Reception) : Agr s (s.setReception r) := moved rfl rfl rfl rfl rfl (fun _ _ => nofun)

theorem startBitSeen (s t : State) (h : s.startBitSeen = some t) : Agr s t := by
  unfold State.startBitSeen at h
  split at h
  · cases h; exact setReception s _
  · rename_i e
    split at h <;> cases h
    · exact idle rfl rfl rfl rfl rfl rfl
    · exact moved rfl rfl rfl rfl rfl (fun _ _ => nofun)
  · split at h
    · cases h
    · cases h; exact setReception s _
  all_goals cases h

theorem handHeader (s t : State) (h : s.handHeader = some t) : Agr s t := by
  unfold State.handHeader at h
  split at h
  · split at h
    · rename_i r _ _ _ _
      cases h
      exact trans (setReception s { r with handed := true }) (agrees_headerHanded _ _ _)
    · cases h
  all_goals cases h

theorem handPayload (s t : State) (h : s.handPayload = some t) : Agr s t := by
  unfold State.handPayload at h
  split at h
  · split at h
    · rename_i r _ _ _ _ _ _ _
      cases h
      exact trans (setReception s { r with due := none }) (agrees_storePayload _ _ _ _ _)
    all_goals cases h
  all_goals cases h

theorem handDue (s : State) : Agr s s.handDue := by
  unfold State.handDue
  have h := getD (handHeader s) (refl s)
  exact getD (fun t k => trans h (handPayload _ t k)) h

theorem characterIn (s t : State) (v : Byte) (b : Bool) (h : s.characterIn v b = some t) : Agr s t := by
  unfold State.characterIn at h
  split at h
  · split at h
    · cases h
    · cases h
      exact trans (handDue s) (setReception _ _)
  all_goals cases h

theorem arbitrationGood (s : State) (h : Header) : Agr s (s.arbitrationGood h) := by
  unfold State.arbitrationGood
  split
  · exact trans (agrees_recallGood s h) (moved rfl rfl rfl rfl rfl (fun _ _ => nofun))
  · exact trans (agrees_attention s _ _) (moved rfl rfl rfl rfl rfl (fun _ _ => nofun))
  all_goals exact count s _

theorem routeGood (s : State) (o : Origin) (h : Header) : Agr s (s.routeGood o h) := by
  unfold State.routeGood
  split
  · exact agrees_answerFrameEnd s _ _
  · exact arbitrationGood s h
  · exact count s _

theorem routeBad (s : State) (r : Reception) : Agr s (s.routeBad r) := by
  unfold State.routeBad
  split
  · exact agrees_answerFrameEnd s _ _
  · split
    · split
      · exact agrees_recallBad s _
      · exact refl s
    · exact refl s
  · exact refl s

theorem endReception (s : State) (r : Reception) (c : FrameClass) : Agr s (s.endReception r c) := by
  have base : Agr s ((s.count c.counter).settle 0) := trans (count s _) (settle _ _)
  unfold State.endReception
  dsimp only
  split
  · split
    · exact trans base (trans (agrees_updateStation _ _ _) (routeGood _ _ _))
    · exact base
  all_goals exact trans base (routeBad _ _)

theorem frameEnded (s t : State) (h : s.frameEnded = some t) : Agr s t := by
  unfold State.frameEnded at h
  split at h
  · split at h
    · cases h
      exact trans (handDue s) (endReception _ _ _)
    · cases h
  · cases h

theorem gapExpired (s t : State) (h : s.gapExpired = some t) : Agr s t := by
  unfold State.gapExpired at h
  split at h
  · split at h
    · cases h
    · cases h
      exact trans (handDue s) (endReception _ _ _)
  · cases h

theorem malformedEnded (s t : State) (h : s.malformedEnded = some t) : Agr s t := by
  unfold State.malformedEnded at h
  split at h
  · split at h
    · cases h
      exact trans (handDue s) (endReception _ _ _)
    · cases h
  · cases h

/-! ## The trunk's other events -/

theorem claim (s t : State) (h : s.claim = some t) : Agr s t := by
  unfold State.claim at h
  split at h
  · cases h; exact moved rfl rfl rfl rfl rfl (fun _ _ => nofun)
  · cases h

theorem foreignClaim (s t : State) (h : s.foreignClaim = some t) : Agr s t := by
  unfold State.foreignClaim at h
  split at h
  · cases h; exact moved rfl rfl rfl rfl rfl (fun _ _ => nofun)
  · cases h

theorem togglePhase (s : State) (c : Contention) : Agr s (s.togglePhase c) := by
  unfold State.togglePhase
  split <;> exact idle rfl rfl rfl rfl rfl rfl

theorem togglePhase_trunk (s : State) (c : Contention) : (s.togglePhase c).trunk.pendingSend = s.trunk.pendingSend ∧
    (s.togglePhase c).trunk.state = s.trunk.state := by
  unfold State.togglePhase
  split <;> exact ⟨rfl, rfl⟩

/-- A contention won (R26, R47, R86): the entry sends, or the NOTICE launches, and the frame is on the line. -/
theorem won (s : State) (p : Send) (f : Outgoing) (hf : f.send = p) (h : Agrees s) (e : s.trunk.pendingSend = some p) :
    Agrees ((((s.setPendingSend none).launcherWon).entryOfSendWon p).setTrunkState (.transmitting f 0)) := by
  obtain ⟨quiet, asks⟩ := h.sends.pending p e
  cases p with
  | notice k =>
    obtain ⟨n, phase⟩ := asks
    have parts : (s.setPendingSend none).launcherWon.pool = s.pool ∧ (s.setPendingSend none).launcherWon.entries = s.entries ∧
        (s.setPendingSend none).launcherWon.slots = s.slots ∧
        (s.setPendingSend none).launcherWon.launcher.phase = .launching k (some n) ∧
        (s.setPendingSend none).launcherWon.trunk.pendingSend = none := by
      unfold State.launcherWon
      rcases phase with c | c
      · rw [show (s.setPendingSend none).launcher = s.launcher from rfl, c]
        exact ⟨rfl, rfl, rfl, rfl, rfl⟩
      · rw [show (s.setPendingSend none).launcher = s.launcher from rfl, c]
        exact ⟨rfl, rfl, rfl, c, rfl⟩
    show Agrees ((s.setPendingSend none).launcherWon.setTrunkState _)
    generalize (s.setPendingSend none).launcherWon = v at *
    obtain ⟨hp, he, hs, hl, hq⟩ := parts
    have entry : ∀ g, (v.setTrunkState (.transmitting f 0)).entry g = s.entry g := fun g => by
      show v.entries[g] = _
      rw [he]
      rfl
    have slot : ∀ j, (v.setTrunkState (.transmitting f 0)).slot j = s.slot j := fun j => by
      show v.slots[j] = _
      rw [hs]
      rfl
    have same : (v.setTrunkState (.transmitting f 0)).launcher.phase.lender = s.launcher.phase.lender ∧
        (v.setTrunkState (.transmitting f 0)).launcher.phase.current = s.launcher.phase.current := by
      rw [show (v.setTrunkState (.transmitting f 0)).launcher = v.launcher from rfl, hl]
      rcases phase with c | c <;> rw [c] <;> exact ⟨rfl, rfl⟩
    refine ⟨blocks_same h.blocks hp (fun g => by rw [entry]) (fun g => by rw [entry])
        (fun g => by rw [entry]; exact h.blocks.apart g) same.1 fun j _ => by rw [slot]; exact ⟨rfl, rfl⟩,
      slots_same h.slots (fun g => .inr (by rw [entry])) (fun j _ => by rw [slot]) (.inr same.2),
      ⟨fun g x c => ?_, fun p c => ?_, fun f' m c => ⟨hq, ?_⟩⟩⟩
    · rw [entry, quiet g] at c
      cases c
    · rw [show (v.setTrunkState (.transmitting f 0)).trunk.pendingSend = v.trunk.pendingSend from rfl, hq] at c
      cases c
    · cases c
      rw [hf]
      exact ⟨n, hl⟩
  | request k g st =>
    obtain ⟨⟨x, hx, hk⟩, phase⟩ := asks
    have parts : (s.setPendingSend none).launcherWon.pool = s.pool ∧ (s.setPendingSend none).launcherWon.entries = s.entries ∧
        (s.setPendingSend none).launcherWon.slots = s.slots ∧
        (s.setPendingSend none).launcherWon.launcher.phase = .launching k none ∧
        (s.setPendingSend none).launcherWon.trunk.pendingSend = none := by
      unfold State.launcherWon
      rcases phase with c | c
      · rw [show (s.setPendingSend none).launcher = s.launcher from rfl, c]
        exact ⟨rfl, rfl, rfl, rfl, rfl⟩
      · rw [show (s.setPendingSend none).launcher = s.launcher from rfl, c]
        exact ⟨rfl, rfl, rfl, c, rfl⟩
    show Agrees (((s.setPendingSend none).launcherWon.entryWon g).setTrunkState _)
    generalize (s.setPendingSend none).launcherWon = v at *
    obtain ⟨hp, he, hs, hl, hq⟩ := parts
    have ve : ∀ u, v.entry u = s.entry u := fun u => by
      show v.entries[u] = _
      rw [he]
      rfl
    have step : v.entryWon g = v.setEntry g (.reserved true x) := by
      unfold State.entryWon
      rw [ve, hx]
    rw [step]
    have entry : ∀ u, ((v.setEntry g (.reserved true x)).setTrunkState (.transmitting f 0)).entry u =
        if g = u then .reserved true x else s.entry u := fun u => by
      rw [← ve]
      exact entry_setEntry v g u _
    have slot : ∀ j, ((v.setEntry g (.reserved true x)).setTrunkState (.transmitting f 0)).slot j = s.slot j := fun j => by
      show v.slots[j] = _
      rw [hs]
      rfl
    have launcher : ((v.setEntry g (.reserved true x)).setTrunkState (.transmitting f 0)).launcher = v.launcher := rfl
    have pending : ((v.setEntry g (.reserved true x)).setTrunkState (.transmitting f 0)).trunk.pendingSend = none := hq
    have pool : ((v.setEntry g (.reserved true x)).setTrunkState (.transmitting f 0)).pool = s.pool := hp
    have same : v.launcher.phase.lender = s.launcher.phase.lender ∧ v.launcher.phase.current = s.launcher.phase.current := by
      rw [hl]
      rcases phase with c | c <;> rw [c] <;> exact ⟨rfl, rfl⟩
    refine ⟨blocks_same h.blocks pool (fun u => ?_) (fun u => ?_) (fun u => ?_) same.1 fun j _ => by rw [slot]; exact ⟨rfl, rfl⟩,
      slots_same h.slots (fun u => ?_) (fun j _ => by rw [slot]) (.inr same.2),
      ⟨fun u y c => ⟨?_, fun w z d => ?_⟩, fun p c => ?_, fun f' m c => ⟨pending, ?_⟩⟩⟩
    · rw [entry]
      split
      · rename_i c
        rw [← c, hx]
        rfl
      · rfl
    · rw [entry]
      split
      · rename_i c
        rw [← c, hx]
        rfl
      · rfl
    · rw [entry]
      split
      · trivial
      · exact h.blocks.apart u
    · rw [entry]
      split
      · exact .inl rfl
      · exact .inr rfl
    · rw [entry] at c
      split at c
      · cases c
        rw [launcher, hl, hk]
      · rw [quiet u] at c
        cases c
    · rw [entry] at c d
      split at c
      · rename_i e1
        split at d
        · rename_i e2
          rw [← e1, ← e2]
        · rw [quiet w] at d
          cases d
      · rw [quiet u] at c
        cases c
    · rw [pending] at c
      cases c
    · cases c
      rw [hf]
      exact ⟨x, by rw [entry, if_pos rfl], hk⟩

theorem win (s t : State) (h : s.win = some t) : Agr s t := by
  unfold State.win at h
  split at h
  · rename_i c send _ e
    cases h
    exact fun a => won (s.togglePhase c) send _ (by cases send <;> rfl) (togglePhase s c a) ((togglePhase_trunk s c).1.trans e)
  · cases h

theorem lose (s t : State) (cause : LossCause) (h : s.lose cause = some t) : Agr s t := by
  unfold State.lose at h
  split at h
  · split at h
    · rename_i c _ _
      cases h
      exact trans (togglePhase s c) (moved rfl rfl rfl rfl rfl (fun _ _ => nofun))
    · cases h
  all_goals cases h

/-- A REQUEST has been sent and awaits its answer (R28, R47). -/
theorem requestOut (s t : State) (h : s.requestOut = some t) : Agr s t := by
  unfold State.requestOut at h
  split at h
  · rename_i f n e
    split at h
    · rename_i k g st hf
      cases h
      intro a
      have sends := (a.sends.sending f n e).2
      rw [hf] at sends
      obtain ⟨x, hx, hk⟩ := sends
      have ans := a.sends.answering g x (by rw [hx]; rfl)
      have step : (s.count .framesSent).entrySent g = (s.count .framesSent).setEntry g (.awaiting x none) := by
        unfold State.entrySent
        rw [show (s.count .framesSent).entry g = s.entry g from rfl, hx]
      rw [step]
      have entry : ∀ u, (((s.count .framesSent).setEntry g (.awaiting x none)).setTrunkState
          (.answerWait g st s.config.answerTime 0)).entry u = if g = u then .awaiting x none else s.entry u := fun u =>
        entry_setEntry (s.count .framesSent) g u _
      have other : ∀ u y, (s.entry u).answering = some y → u = g := ans.2
      refine ⟨blocks_same a.blocks rfl (fun u => ?_) (fun u => ?_) (fun u => ?_) rfl fun j _ => ⟨rfl, rfl⟩,
        slots_same a.slots (fun u => ?_) (fun j _ => rfl) (.inr rfl),
        ⟨fun u y c => ⟨?_, fun w z d => ?_⟩, fun p c => ?_, fun f' m c => by cases c⟩⟩
      · rw [entry]
        split
        · rename_i c
          rw [← c, hx]
          rfl
        · rfl
      · rw [entry]
        split
        · rename_i c
          rw [← c, hx]
          rfl
        · rfl
      · rw [entry]
        split
        · trivial
        · exact a.blocks.apart u
      · rw [entry]
        split
        · exact .inl rfl
        · exact .inr rfl
      · rw [entry] at c
        split at c
        · cases c
          exact ans.1
        · rename_i n
          exact absurd (other u y c).symm n
      · have at_g : ∀ v y, ((((s.count .framesSent).setEntry g (.awaiting x none)).setTrunkState
            (.answerWait g st s.config.answerTime 0)).entry v).answering = some y → v = g := fun v y e => by
          rw [entry] at e
          split at e
          · rename_i e1
            exact e1.symm
          · exact other v y e
        rw [at_g u y c, at_g w z d]
      · have := (a.sends.sending f n e).1
        rw [show (((s.count .framesSent).setEntry g (.awaiting x none)).setTrunkState
          (.answerWait g st s.config.answerTime 0)).trunk.pendingSend = s.trunk.pendingSend from rfl, this] at c
        cases c
    · cases h
  all_goals cases h

theorem noticeOut (s t : State) (h : s.noticeOut = some t) : Agr s t := by
  unfold State.noticeOut at h
  split at h
  · rename_i f n e
    split at h
    · cases h
      exact fun a => agrees_launcherNoticeSent ((s.count .framesSent).settle 0) _
        (moved (s := s) rfl rfl rfl rfl rfl (fun _ _ => nofun) a) (a.sends.sending f n e).1 (fun _ _ => nofun)
    · cases h
  all_goals cases h

theorem frameCut (s t : State) (h : s.frameCut = some t) : Agr s t := by
  unfold State.frameCut at h
  split at h
  · rename_i f n e
    cases h
    intro a
    have base : Agrees ((s.count .collisions).settle 0)   := moved (s := s) rfl rfl rfl rfl rfl (fun _ _ => nofun) a
    unfold State.ownerCut
    split
    · exact agrees_entryCollided _ _ base (fun _ _ => nofun)
    · exact agrees_launcherNoticeCut _ _ base (a.sends.sending f n e).1 (fun _ _ => nofun)
  all_goals cases h

theorem answerWindowExpired (s t : State) (b : Bool) (h : s.answerWindowExpired b = some t) : Agr s t := by
  unfold State.answerWindowExpired at h
  split at h
  · rename_i g st limit _ _
    dsimp only at h
    cases h
    have base : Agr s ((s.count .answerTimeouts).settle limit) := trans (count s _) (settle _ _)
    split
    · exact trans base (trans (agrees_updateStation _ _ _) (agrees_answerExpired _ _))
    · exact trans base (trans (agrees_answerExpired _ _) (agrees_updateStation _ _ _))
  all_goals cases h

theorem replyStarts (s t : State) (h : s.replyStarts = some t) : Agr s t := by
  unfold State.replyStarts at h
  split at h <;> cases h
  exact moved rfl rfl rfl rfl rfl (fun _ _ => nofun)

theorem replyOut (s t : State) (h : s.replyOut = some t) : Agr s t := by
  unfold State.replyOut at h
  split at h <;> cases h
  exact moved rfl rfl rfl rfl rfl (fun _ _ => nofun)

theorem replyCut (s t : State) (h : s.replyCut = some t) : Agr s t := by
  unfold State.replyCut at h
  split at h <;> cases h
  exact moved rfl rfl rfl rfl rfl (fun _ _ => nofun)

theorem lineFallsIdle (s t : State) (h : s.lineFallsIdle = some t) : Agr s t := by
  unfold State.lineFallsIdle at h
  split at h <;> cases h
  exact moved rfl rfl rfl rfl rfl (fun _ _ => nofun)

theorem faultClears (s t : State) (h : s.faultClears = some t) : Agr s t := by
  unfold State.faultClears at h
  split at h <;> cases h
  exact moved rfl rfl rfl rfl rfl (fun _ _ => nofun)

theorem enterFault (s : State) : Agr s s.enterFault := moved rfl rfl rfl rfl rfl (fun _ _ => nofun)

theorem sticks (s t : State) (h : s.sticks = some t) : Agr s t := by
  unfold State.sticks at h
  split at h
  · split at h
    · cases h
      exact trans (handDue s) (trans (endReception _ _ _) (enterFault _))
    · cases h
  · cases h; exact enterFault s
  · cases h; exact idle rfl rfl rfl rfl rfl rfl
  all_goals cases h

theorem markEnds (s t : State) (h : s.markEnds = some t) : Agr s t := by
  unfold State.markEnds at h
  split at h <;> cases h
  exact settle s 0

theorem trunkResetCompletes (s t : State) (h : s.trunkResetCompletes = some t) : Agr s t := by
  unfold State.trunkResetCompletes at h
  split at h <;> cases h
  exact complete s _ _

theorem softResetCompletes (s t : State) (h : s.softResetCompletes = some t) : Agr s t := by
  unfold State.softResetCompletes at h
  split at h <;> cases h
  exact idle rfl rfl rfl rfl rfl rfl

theorem acceptTrunkEnable (s : State) (b : Bool) : Agr s (s.acceptTrunkEnable b) := by
  have on : Agr s s.enableTrunk := moved rfl rfl rfl rfl rfl (fun _ _ => nofun)
  have off : Agr s s.disableTrunk := by
    unfold State.disableTrunk
    dsimp only
    split <;> exact moved rfl rfl rfl rfl rfl (fun _ _ => nofun)
  unfold State.acceptTrunkEnable
  split
  · split
    · exact on
    · exact refl s
  all_goals first
    | exact refl s
    | (split
       · exact refl s
       · exact off)

/-! ## The commands -/

theorem thenComplete {s t : State} (h : Agr s t) (r : CmdResult) (d : Byte) : Agr s (t.complete r d) :=
  trans h (complete t r d)

/-- A slot taken from Idle or Held (R95, R96). -/
theorem take (s : State) (k : SlotId) (hl : s.launcher.phase.lender = none) : Agr s (State.take k s) := fun a =>
  agrees_take k s (Between.ofAgrees a hl)

theorem setContinue (s : State) : Agr s s.setContinue := idle rfl rfl rfl rfl rfl rfl
theorem setHalt (s : State) : Agr s s.setHalt := idle rfl rfl rfl rfl rfl rfl

/-- A Launcher that waits at a slot of its own is stopped there, the slot Open (R97). -/
theorem heldAtReopened (s : State) (k : SlotId) (hl : s.launcher.phase.lender = none) (hc : s.launcher.phase.current = some k) :
    Agr s (s.heldAtReopened k) := fun a =>
  have b := Looks.ofAgrees a hl hc
  Between.stops (b.toBetween.setSlot k _ b.own) ⟨rfl, rfl, rfl, rfl⟩ rfl rfl

/-- A launch undone in Contending (R27, R70, R97). -/
theorem undoLaunch (s : State) (k : SlotId) (n : Option Nat) (e : s.launcher.phase = .contending k n) : Agr s (s.undoLaunch k) := by
  intro a
  have quiet : ∀ g, (s.entry g).answering = none := fun g => by
    cases c : (s.entry g).answering with
    | none => rfl
    | some x =>
      have := (a.sends.answering g x c).1
      rw [e] at this
      cases this
  have undone : Tables s.undoSend ∧ (∀ g, (s.undoSend.entry g).answering = none) ∧ s.undoSend.launcher = s.launcher ∧
      s.undoSend.trunk = s.trunk := by
    unfold State.undoSend
    split
    · split <;> rename_i h
      · obtain ⟨tables, te⟩ := tables_undoEntry s _ _ a.tables h
        refine ⟨tables, fun g => ?_, rfl, rfl⟩
        rw [te]
        split
        · rfl
        · exact quiet g
      all_goals exact ⟨a.tables, quiet, rfl, rfl⟩
    all_goals exact ⟨a.tables, quiet, rfl, rfl⟩
  unfold State.undoLaunch
  generalize s.undoSend = v at *
  obtain ⟨tables, quiet, launcher, trunk⟩ := undone
  have phase : v.launcher.phase = .contending k n := by
    rw [launcher]
    exact e
  have sending : ∀ f m, v.trunk.state ≠ .transmitting f m := fun f m c => by
    rw [trunk] at c
    have := (a.sends.sending f m c).2
    cases hf : f.send with
    | request j g st =>
      rw [hf] at this
      obtain ⟨x, hx, -⟩ := this
      have := (a.sends.answering g x (by rw [hx]; rfl)).1
      rw [e] at this
      cases this
    | notice j =>
      rw [hf] at this
      obtain ⟨i, hi⟩ := this
      rw [e] at hi
      cases hi
  have chain : v.withdrawSend.outChain k = v.outChain k := by
    rw [withdrawSend_eq]
    rfl
  have b : Between ((v.withdrawSend.undoOutbound k).reopenSlot k) := by
    refine between_back (k := k) tables.blocks (by rw [phase]; rfl) (.inl ?_) ?_ (fun g j c => ⟨?_, (tables.slots.away g j c).2⟩)
      quiet ?_ ?_
    · show v.withdrawSend.pool.setOwners (v.withdrawSend.outChain k) .processor = _
      rw [chain, withdrawSend_eq]
      rfl
    · show v.withdrawSend.entries = _
      rw [withdrawSend_eq]
      rfl
    · have ne := away_ne tables.slots (k := k) (by rw [phase]; rfl) c
      show ((v.withdrawSend.undoOutbound k).setSlot k _ |>.slot j).state = _
      rw [slot_setSlot, if_neg fun d => ne d.symm]
      show (v.withdrawSend.slot j).state = _
      rw [withdrawSend_eq]
      exact (tables.slots.away g j c).1
    · show v.withdrawSend.trunk.pendingSend = _
      rw [withdrawSend_eq]
      rfl
    · show ∀ f m, v.withdrawSend.trunk.state ≠ _
      rw [withdrawSend_eq]
      intro f m c
      have c' : (match v.trunk.state with
        | .arbitrating c => TrunkState.receiving (newReception .arbitration v.config.gapTime (6 - c.bit) none)
        | other => other) = .transmitting f m := c
      split at c'
      · cases c'
      · exact sending f m c'
  exact b.stops ⟨rfl, rfl, rfl, rfl⟩ rfl rfl

theorem commandStart (s : State) : Agr s s.commandStart := by
  unfold State.commandStart
  split
  · exact complete s _ _
  · split <;> rename_i e
    · exact thenComplete (take s _ (by rw [e]; rfl)) _ _
    · exact thenComplete (take s _ (by rw [e]; rfl)) _ _
    all_goals exact complete s _ _

theorem commandContinue (s : State) : Agr s s.commandContinue := by
  unfold State.commandContinue
  split <;> rename_i e
  · exact thenComplete (take s _ (by rw [e]; rfl)) _ _
  · exact complete s _ _
  all_goals exact thenComplete (setContinue s) _ _

theorem commandHalt (s : State) : Agr s s.commandHalt := by
  unfold State.commandHalt
  split <;> rename_i e
  · exact complete s _ _
  · exact complete s _ _
  · exact thenComplete (s := s) (t := s.enterHeld _)
      (fun a => Between.stops (Between.ofAgrees a (by rw [e]; rfl)) ⟨rfl, rfl, rfl, rfl⟩ rfl rfl) _ _
  · exact thenComplete (heldAtReopened s _ (by rw [e]; rfl) (by rw [e]; rfl)) _ _
  · exact thenComplete (heldAtReopened s _ (by rw [e]; rfl) (by rw [e]; rfl)) _ _
  · exact thenComplete (heldAtReopened s _ (by rw [e]; rfl) (by rw [e]; rfl)) _ _
  · split
    · exact thenComplete (setHalt s) _ _
    · exact thenComplete (heldAtReopened s _ (by rw [e]; rfl) (by rw [e]; rfl)) _ _
  · exact thenComplete (undoLaunch s _ _ e) _ _
  · exact thenComplete (setHalt s) _ _

theorem commandWithdraw (s : State) : Agr s s.commandWithdraw := by
  unfold State.commandWithdraw
  split
  · exact complete s _ _
  · exact thenComplete (agrees_withdrawTag s _) _ _

theorem commandPop (s : State) : Agr s s.commandPop := by
  unfold State.commandPop
  split
  · exact complete s _ _
  · rename_i r rest _
    dsimp only
    have removed : Agr s (s.setReports { s.reports with queue := rest }) := idle rfl rfl rfl rfl rfl rfl
    have effects := trans removed (agrees_popEffects _ r)
    refine trans (trans effects ?_) (agrees_reevaluate _)
    exact idle rfl rfl rfl rfl rfl rfl

/-- TAKE BLOCK (R106). -/
theorem commandTakeBlock (s : State) : Agr s s.commandTakeBlock := by
  unfold State.commandTakeBlock
  split
  · split
    · exact complete s _ _
    · refine thenComplete (s := s) (t := s.setPool (s.pool.take 1 .processor))
        (fun a => ⟨⟨?_, a.blocks.apart⟩, slots_same a.slots (fun _ => .inr rfl) (fun _ _ => rfl) (.inr rfl),
        sends_same a.sends rfl rfl (.inl rfl) (fun _ => .inr rfl) (fun _ _ _ => .inr rfl) fun _ _ _ => .inr rfl⟩) _ _
      have lent : (s.setPool (s.pool.take 1 .processor)).lent = s.lent := lent_kept rfl (fun _ _ => ⟨rfl, rfl⟩) fun b m => by
        show (s.pool.take 1 .processor).link[b] = _
        rw [Pool.take_link_other]
        intro c
        obtain ⟨k, -, ho⟩ := lent_owner a.blocks b m
        rw [(a.blocks.owned.free b).mpr (List.mem_of_mem_take c)] at ho
        cases ho
      rw [lent]
      exact a.blocks.owned.taken 1
  · exact complete s _ _

/-- The blocks FREE CHAIN frees are the processor's, each visited once (R107). -/
theorem freeWalk_sound (p : Pool) (n : Nat) (b : BlockId) (bs : List BlockId) (h : p.freeWalk n b = .ok bs) :
    bs.head? = some b ∧ p.chained bs ∧ (∀ c ∈ bs, p.owner[c] = .processor) ∧ ∀ l, bs.getLast? = some l → p.link[l] = none := by
  induction n generalizing b bs with
  | zero => cases h
  | succ n ih =>
    unfold Pool.freeWalk at h
    split at h
    · rename_i ho
      split at h
      · rename_i hl
        cases h
        exact ⟨rfl, trivial, fun c m => by rw [List.mem_singleton.mp m]; exact ho, fun l e => by cases e; exact hl⟩
      · rename_i c hl
        split at h
        · cases h
        · cases e : p.freeWalk n c with
          | error x =>
            rw [e] at h
            cases h
          | ok cs =>
            rw [e] at h
            cases h
            obtain ⟨a, d, f, g⟩ := ih c cs e
            cases cs with
            | nil => cases a
            | cons x xs =>
              cases a
              refine ⟨rfl, ⟨hl, d⟩, fun y m => ?_, fun l e => g l (by simpa using e)⟩
              rcases List.mem_cons.mp m with rfl | m
              · exact ho
              · exact f y m
    · cases h

/-- The last block of a chain links to END. -/
def Ends (p : Pool) (bs : List BlockId) : Prop := p.chained bs ∧ ∀ l, bs.getLast? = some l → p.link[l] = none

theorem ends_tail {p : Pool} {b c : BlockId} {bs : List BlockId} (h : Ends p (b :: c :: bs)) : Ends p (c :: bs) :=
  ⟨h.1.2, fun l e => h.2 l (by simpa using e)⟩

theorem ends_suffix {p : Pool} (as : List BlockId) (b : BlockId) (bs : List BlockId) (h : Ends p (as ++ b :: bs)) : Ends p (b :: bs) := by
  induction as with
  | nil => exact h
  | cons a as ih =>
    refine ih ?_
    cases as with
    | nil => exact ends_tail h
    | cons c as => exact ends_tail h

/-- Chains that end are equal when they start at one block. -/
theorem ends_unique {p : Pool} (as bs : List BlockId) (b : BlockId) (ha : Ends p (b :: as)) (hb : Ends p (b :: bs)) : as = bs := by
  induction as generalizing b bs with
  | nil =>
    cases bs with
    | nil => rfl
    | cons c bs =>
      have := ha.2 b rfl
      rw [hb.1.1] at this
      cases this
  | cons a as ih =>
    cases bs with
    | nil =>
      have := hb.2 b rfl
      rw [ha.1.1] at this
      cases this
    | cons c bs =>
      have e : a = c := Option.some.inj (ha.1.1.symm.trans hb.1.1)
      subst e
      rw [ih bs a (ends_tail ha) (ends_tail hb)]

/-- A chain that ends meets no block twice. -/
theorem ends_nodup {p : Pool} (bs : List BlockId) (h : Ends p bs) : bs.Nodup := by
  induction bs with
  | nil => exact List.nodup_nil
  | cons b bs ih =>
    have tail : Ends p bs := by
      cases bs with
      | nil => exact ⟨trivial, nofun⟩
      | cons c bs => exact ends_tail h
    refine List.nodup_cons.mpr ⟨fun m => ?_, ih tail⟩
    obtain ⟨xs, ys, e⟩ := List.append_of_mem m
    have := ends_unique bs ys b h (ends_suffix xs b ys (e ▸ tail))
    rw [this] at e
    have := congrArg List.length e
    simp at this
    omega

theorem commandFreeChain (s : State) : Agr s s.commandFreeChain := by
  unfold State.commandFreeChain
  split
  · exact complete s _ _
  · split
    · rename_i b _ bs e
      obtain ⟨-, hc, ho, hl⟩ := freeWalk_sound _ _ _ _ e
      refine thenComplete (trans (s := s) (t := s.freeBlocks bs) (fun a => ⟨⟨?_, a.blocks.apart⟩,
        slots_same a.slots (fun _ => .inr rfl) (fun _ _ => rfl) (.inr rfl),
        sends_same a.sends rfl rfl (.inl rfl) (fun _ => .inr rfl) (fun _ _ _ => .inr rfl) fun _ _ _ => .inr rfl⟩)
        (agrees_reevaluate _)) _ _
      have lent : (s.freeBlocks bs).lent = s.lent := lent_kept rfl (fun _ _ => ⟨rfl, rfl⟩) fun b m => by
        show (s.pool.appendAll bs).link[b] = _
        rw [Pool.appendAll_link, if_neg]
        intro c
        obtain ⟨k, -, h⟩ := lent_owner a.blocks b m
        rw [ho b c] at h
        cases h
      rw [lent]
      exact a.blocks.owned.append bs (ends_nodup _ ⟨hc, hl⟩) ho
    · exact complete s _ _

theorem commandFence (s : State) : Agr s s.commandFence := by
  unfold State.commandFence
  split
  · exact complete s _ _
  · exact thenComplete (agrees_updateStation s _ _) _ _

theorem commandAdmit (s : State) : Agr s s.commandAdmit := by
  unfold State.commandAdmit
  split
  · exact complete s _ _
  · split
    · exact thenComplete (agrees_updateStation s _ _) _ _
    · exact complete s _ _

theorem commandTrunkReset (s : State) : Agr s s.commandTrunkReset := by
  unfold State.commandTrunkReset
  split
  · exact complete s _ _
  all_goals exact agrees_beginTrunkReset s

theorem commandClearCounters (s : State) : Agr s s.commandClearCounters := by
  unfold State.commandClearCounters
  split <;> exact idle rfl rfl rfl rfl rfl rfl

end Agr

/-- The pool, the table and the Launcher at their reset values (R44, R76, R104). -/
theorem agrees_reset {t : State} (hp : t.pool = Pool.reset) (he : t.entries = Vector.replicate 16 .free)
    (hl : t.launcher.phase = .idle) (hq : t.trunk.pendingSend = none) (ht : ∀ f n, t.trunk.state ≠ .transmitting f n) : Agrees t := by
  have free : ∀ g, t.entry g = .free := fun g => by simp [State.entry, he]
  have owner : ∀ b : BlockId, Pool.reset.owner[b] = .free := fun b => by simp [Pool.reset]
  refine ⟨⟨?_, fun g => by rw [free]; trivial⟩, ⟨fun k e => ?_, fun g k e => ?_⟩, sends_quiet (fun g => by rw [free]; rfl) hq ht⟩
  · rw [hl, lent_none (by rw [hl]; rfl), hp]
    refine ⟨fun b => ⟨fun _ => List.mem_finRange b, fun _ => owner b⟩, List.nodup_finRange 64, fun g b => ?_, fun g => ?_,
      fun g b => ?_, fun k b => ?_, List.nodup_nil⟩
    · rw [owner, free]
      simp [Entry.holds]
    · rw [free]
      exact List.nodup_nil
    · rw [owner, free]
      simp [Entry.reported]
    · rw [owner]
      simp [Phase.lender]
  · rw [hl] at e
    cases e
  · rw [free] at e
    cases e

namespace Agr

theorem commandSoftReset (s : State) : Agr s s.commandSoftReset := fun _ =>
  agrees_reset rfl rfl rfl rfl (by
    show ∀ f n, s.config.softTrunk.state ≠ _
    unfold Settings.softTrunk
    cases s.config.trunkEnable <;> exact fun _ _ => nofun)

theorem dispatch (s : State) (code : Byte) : Agr s (s.dispatch code) := by
  unfold State.dispatch
  split
  · exact commandStart s
  · exact commandContinue s
  · exact commandHalt s
  · exact commandWithdraw s
  · exact commandPop s
  · exact commandTakeBlock s
  · exact commandFreeChain s
  · exact commandFence s
  · exact commandAdmit s
  · exact commandTrunkReset s
  · exact commandClearCounters s
  · exact commandSoftReset s
  · exact complete s _ _

theorem writeCommand (s : State) (code : Byte) : Agr s (s.writeCommand code) := by
  unfold State.writeCommand
  split
  · exact idle rfl rfl rfl rfl rfl rfl
  · unfold State.takeCommand
    refine trans ?_ (dispatch _ _)
    exact idle rfl rfl rfl rfl rfl rfl

/-! ## The window -/

theorem writeSlotData (s : State) (v : Byte) : Agr s (s.writeSlotData v) := by
  unfold State.writeSlotData
  split
  · rename_i sl e
    intro a
    have inactive : (s.slot s.sel.slotSelect).state ≠ .active := fun c => by
      unfold Slot.processorWrite at e
      rw [if_pos c] at e
      cases e
    refine idle (s := s.setSlot s.sel.slotSelect sl) rfl rfl rfl rfl rfl rfl ?_
    have slot : ∀ j, s.sel.slotSelect ≠ j → (s.setSlot s.sel.slotSelect sl).slot j = s.slot j := fun j hj => by
      rw [slot_setSlot, if_neg hj]
    refine ⟨blocks_same a.blocks rfl (fun _ => rfl) (fun _ => rfl) a.blocks.apart rfl fun k hk => ?_,
      slots_same a.slots (fun _ => .inr rfl) (fun k hk => ?_) (.inr rfl),
      sends_same a.sends rfl rfl (.inl rfl) (fun _ => .inr rfl) (fun _ _ _ => .inr rfl) fun _ _ _ => .inr rfl⟩
    · rw [slot k fun c => inactive (c ▸ (a.slots.current k (lender_current hk)).1)]
      exact ⟨rfl, rfl⟩
    · rw [slot k fun c => inactive ?_]
      rcases hk with ⟨g, hk⟩ | hk
      · exact c ▸ (a.slots.away g k hk).1
      · exact c ▸ (a.slots.current k hk).1
  · exact idle rfl rfl rfl rfl rfl rfl

theorem readBlockData (s : State) : Agr s s.readBlockData := by
  unfold State.readBlockData
  split <;> exact idle rfl rfl rfl rfl rfl rfl

/-- A write to a block's data or link, where the processor owns it, changes no owner (R109, R110). -/
theorem blockWritten (s : State) (p : Pool) (b : BlockId) (ho : p.owner = s.pool.owner) (hf : p.freeList = s.pool.freeList)
    (hl : ∀ c, c ≠ b → p.link[c] = s.pool.link[c]) (hb : s.pool.owner[b] = .processor) : Agr s (s.setPool p) := by
  intro a
  have lent : (s.setPool p).lent = s.lent := lent_kept rfl (fun _ _ => ⟨rfl, rfl⟩) fun c m => hl c fun e => by
    obtain ⟨k, -, h⟩ := lent_owner a.blocks c m
    rw [e, hb] at h
    cases h
  refine ⟨⟨?_, a.blocks.apart⟩, slots_same a.slots (fun _ => .inr rfl) (fun _ _ => rfl) (.inr rfl),
    sends_same a.sends rfl rfl (.inl rfl) (fun _ => .inr rfl) (fun _ _ _ => .inr rfl) fun _ _ _ => .inr rfl⟩
  rw [lent]
  exact a.blocks.owned.congr ho hf

theorem writeBlockData (s : State) (v : Byte) : Agr s (s.writeBlockData v) := by
  unfold State.writeBlockData
  split
  · rename_i h
    exact trans (blockWritten s (s.pool.store s.sel.blockSelect s.sel.blockOffset.val v) s.sel.blockSelect rfl rfl (fun _ _ => rfl) h)
      (idle rfl rfl rfl rfl rfl rfl)
  · exact idle rfl rfl rfl rfl rfl rfl

theorem writeBlockLink (s : State) (v : Byte) : Agr s (s.writeBlockLink v) := by
  unfold State.writeBlockLink
  split
  · rename_i h
    have linked : ∀ l, Agr s (s.setPool (s.pool.setLink s.sel.blockSelect l)) := fun l =>
      blockWritten s _ s.sel.blockSelect rfl rfl (fun c hc => by rw [Pool.setLink_link, if_neg hc]) h
    split
    · exact linked _
    · split
      · exact linked _
      · exact windowFault s _
  · exact windowFault s _

theorem writeSlotSelect (s : State) (v : Byte) : Agr s (s.writeSlotSelect v) := by
  unfold State.writeSlotSelect
  split <;> exact idle rfl rfl rfl rfl rfl rfl
theorem writeSlotIndex (s : State) (v : Byte) : Agr s (s.writeSlotIndex v) := by
  unfold State.writeSlotIndex
  split <;> exact idle rfl rfl rfl rfl rfl rfl
theorem writeReportIndex (s : State) (v : Byte) : Agr s (s.writeReportIndex v) := by
  unfold State.writeReportIndex
  split <;> exact idle rfl rfl rfl rfl rfl rfl
theorem writeStationSelect (s : State) (v : Byte) : Agr s (s.writeStationSelect v) := by
  unfold State.writeStationSelect
  split <;> exact idle rfl rfl rfl rfl rfl rfl
theorem writeStationIndex (s : State) (v : Byte) : Agr s (s.writeStationIndex v) := by
  unfold State.writeStationIndex
  split <;> exact idle rfl rfl rfl rfl rfl rfl
theorem writeBlockSelect (s : State) (v : Byte) : Agr s (s.writeBlockSelect v) := by
  unfold State.writeBlockSelect
  split <;> exact idle rfl rfl rfl rfl rfl rfl
theorem writeBlockOffset (s : State) (v : Byte) : Agr s (s.writeBlockOffset v) := by
  unfold State.writeBlockOffset
  split <;> exact idle rfl rfl rfl rfl rfl rfl
theorem writeConfigIndex (s : State) (v : Byte) : Agr s (s.writeConfigIndex v) := by
  unfold State.writeConfigIndex
  split <;> exact idle rfl rfl rfl rfl rfl rfl
theorem writeDividerLow (s : State) (v : Byte) : Agr s (s.writeDividerLow v) := by
  unfold State.writeDividerLow
  split <;> exact idle rfl rfl rfl rfl rfl rfl
theorem writeDividerHigh (s : State) (v : Byte) : Agr s (s.writeDividerHigh v) := by
  unfold State.writeDividerHigh
  dsimp only
  split
  · exact idle rfl rfl rfl rfl rfl rfl
  · split <;> exact idle rfl rfl rfl rfl rfl rfl
theorem writeTrunkEnable (s : State) (v : Byte) : Agr s (s.writeTrunkEnable v) := by
  unfold State.writeTrunkEnable
  split
  · exact idle rfl rfl rfl rfl rfl rfl
  · split
    · exact idle rfl rfl rfl rfl rfl rfl
    · exact acceptTrunkEnable s _
theorem writeItem (s : State) (i : Fin 12) (v : Byte) : Agr s (s.writeItem i v) := by
  unfold State.writeItem
  split <;> exact idle rfl rfl rfl rfl rfl rfl
theorem writeConfigData (s : State) (v : Byte) : Agr s (s.writeConfigData v) := by
  unfold State.writeConfigData
  split
  · exact writeDividerLow s v
  · exact writeDividerHigh s v
  · exact writeTrunkEnable s v
  · exact writeItem s _ v
theorem writeEvents (s : State) (v : Byte) : Agr s (s.writeEvents v) := idle rfl rfl rfl rfl rfl rfl
theorem writeMask (s : State) (v : Byte) : Agr s (s.writeMask v) := by
  unfold State.writeMask
  split <;> exact idle rfl rfl rfl rfl rfl rfl
theorem writeCounterIndex (s : State) (v : Byte) : Agr s (s.writeCounterIndex v) := by
  unfold State.writeCounterIndex
  split <;> exact idle rfl rfl rfl rfl rfl rfl
theorem readCounter (s : State) : Agr s s.readCounter := by
  unfold State.readCounter
  split <;> exact idle rfl rfl rfl rfl rfl rfl

theorem writeWindow (s : State) (a : BitVec 5) (v : Byte) : Agr s (s.writeWindow a v) := by
  unfold State.writeWindow
  split
  · exact writeEvents s v
  · exact writeMask s v
  · exact writeCommand s v
  · exact idle rfl rfl rfl rfl rfl rfl
  · exact idle rfl rfl rfl rfl rfl rfl
  · exact writeSlotSelect s v
  · exact writeSlotIndex s v
  · exact writeSlotData s v
  · exact writeReportIndex s v
  · exact writeStationSelect s v
  · exact writeStationIndex s v
  · exact writeBlockSelect s v
  · exact writeBlockOffset s v
  · exact writeBlockData s v
  · exact writeBlockLink s v
  · exact writeConfigIndex s v
  · exact writeConfigData s v
  · exact writeCounterIndex s v
  · exact refl s
  · exact refl s
  · exact refl s
  · exact windowFault s _

/-! ## Time -/

theorem foldl {f : State → Tag → State} (h : ∀ s t, Agr s (f s t)) (ts : List Tag) (s : State) : Agr s (ts.foldl f s) := by
  induction ts generalizing s with
  | nil => exact refl s
  | cons t ts ih => exact trans (h s t) (ih _)

theorem tableTick (s : State) (b : Bool) : Agr s (s.tableTick b) := by
  unfold State.tableTick
  split
  · exact trans (foldl agrees_restTick _ s) (foldl agrees_deadlineTick _ _)
  · exact trans (foldl agrees_deadlineTick _ s) (foldl agrees_restTick _ _)

theorem tick (s : State) (o : TickOrder) : Agr s (s.tick o) := by
  unfold State.tick
  dsimp only
  split
  · exact trans (t := (s.setTrunk { s.trunk with heartbeat := 0 }).reportsTick) (idle rfl rfl rfl rfl rfl rfl) (tableTick _ _)
  · exact trans (t := s.setTrunk { s.trunk with heartbeat := 0 }) (idle rfl rfl rfl rfl rfl rfl)
      (trans (tableTick _ _) (idle rfl rfl rfl rfl rfl rfl))

theorem deadlineExpires (s t : State) (g : Tag) (h : s.deadlineExpires g = some t) : Agr s t := by
  unfold State.deadlineExpires at h
  split at h
  · split at h <;> cases h
    exact agrees_deadlineTick s g
  · split at h <;> cases h
    exact agrees_deadlineTick s g
  all_goals cases h

theorem restEnds (s t : State) (g : Tag) (h : s.restEnds g = some t) : Agr s t := by
  unfold State.restEnds at h
  split at h
  · split at h <;> cases h
    exact agrees_restTick s g
  all_goals cases h

theorem coalescingExpires (s t : State) (h : s.coalescingExpires = some t) : Agr s t := by
  unfold State.coalescingExpires at h
  split at h
  · split at h <;> cases h
    exact idle rfl rfl rfl rfl rfl rfl
  · cases h

/-! ## The bit time -/

theorem settlingBit (s : State) (b : Bool) : Agr s (s.settlingBit b) := by
  unfold State.settlingBit
  split
  · exact getD (startBitSeen s) (refl s)
  · dsimp only
    have base : Agr s (s.setTrunk { s.trunk with quiet := s.trunk.quiet + 1 }) := idle rfl rfl rfl rfl rfl rfl
    split
    · exact getD (fun t h => trans base (lineFallsIdle _ t h)) base
    · exact base

theorem faultBit (s : State) (b : Bool) : Agr s (s.faultBit b) := by
  unfold State.faultBit
  split
  · exact idle rfl rfl rfl rfl rfl rfl
  · dsimp only
    have base : Agr s (s.setTrunk { s.trunk with quiet := s.trunk.quiet + 1 }) := idle rfl rfl rfl rfl rfl rfl
    split
    · exact getD (fun t h => trans base (faultClears _ t h)) base
    · exact base

theorem idleBit (s : State) (b : Bool) : Agr s (s.idleBit b) := by
  unfold State.idleBit
  split
  · exact moved rfl rfl rfl rfl rfl (fun _ _ => nofun)
  · exact refl s

theorem arbitrationBit (s : State) (c : Contention) (b : Bool) : Agr s (s.arbitrationBit c b) := by
  unfold State.arbitrationBit
  split
  · exact getD (fun t h => lose s t _ h) (refl s)
  · split
    · exact getD (fun t h => lose s t _ h) (refl s)
    · split
      · exact getD (win s) (refl s)
      · exact moved rfl rfl rfl rfl rfl (fun _ _ => nofun)

/-- The frame on the line goes on by a bit. -/
theorem nextBit (s : State) (f : Outgoing) (p : Nat) (e : s.trunk.state = .transmitting f p) :
    Agr s (s.setTrunkState (.transmitting f (p + 1))) := fun a =>
  ⟨blocks_same a.blocks rfl (fun _ => rfl) (fun _ => rfl) a.blocks.apart rfl fun _ _ => ⟨rfl, rfl⟩,
    slots_same a.slots (fun _ => .inr rfl) (fun _ _ => rfl) (.inr rfl),
    ⟨a.sends.answering, a.sends.pending, fun f' n c => by cases c; exact a.sends.sending f p e⟩⟩

theorem transmitBit (s : State) (f : Outgoing) (p : Nat) (d b : Bool) (e : s.trunk.state = .transmitting f p) :
    Agr s (s.transmitBit f p d b) := by
  unfold State.transmitBit
  split
  · exact getD (frameCut s) (refl s)
  · split
    · exact nextBit s f p e
    · split
      · exact getD (requestOut s) (refl s)
      · exact getD (noticeOut s) (refl s)

theorem answerBit (s : State) (g : Tag) (st : StationId) (limit n : Nat) (b : Bool) : Agr s (s.answerBit g st limit n b) := by
  unfold State.answerBit
  split
  · exact getD (startBitSeen s) (refl s)
  · dsimp only
    have base : Agr s (s.setTrunkState (.answerWait g st limit (n + 1))) := moved rfl rfl rfl rfl rfl (fun _ _ => nofun)
    have chosen : Agr s (s.setTrunkState (.answerWait g st limit (n + 1))).nextChoice := moved rfl rfl rfl rfl rfl (fun _ _ => nofun)
    split
    · exact getD (fun t h => trans chosen (answerWindowExpired _ t _ h)) base
    · exact base

theorem replyBit (s : State) (r : Reply) (p : ReplyProgress) (d b : Bool) : Agr s (s.replyBit r p d b) := by
  unfold State.replyBit
  split
  · split
    · exact getD (replyStarts s) (refl s)
    · exact moved rfl rfl rfl rfl rfl (fun _ _ => nofun)
  · split
    · exact getD (replyCut s) (refl s)
    · split
      · exact moved rfl rfl rfl rfl rfl (fun _ _ => nofun)
      · exact getD (replyOut s) (refl s)

theorem markBit (s : State) (n : Nat) : Agr s (s.markBit n) := by
  unfold State.markBit
  split
  · exact moved rfl rfl rfl rfl rfl (fun _ _ => nofun)
  · exact getD (markEnds s) (refl s)

theorem receptionSettled (s : State) (r : Reception) : Agr s (s.receptionSettled r) := by
  unfold State.receptionSettled
  split
  · split
    · exact getD (malformedEnded s) (refl s)
    · exact refl s
  · split
    · exact getD (frameEnded s) (refl s)
    · exact refl s

theorem characterBitIn (s : State) (r : Reception) (n : Nat) (v : Byte) (b : Bool) : Agr s (s.characterBitIn r n v b) := by
  unfold State.characterBitIn
  split
  · exact moved rfl rfl rfl rfl rfl (fun _ _ => nofun)
  · split
    · exact refl s
    · rename_i s1 e
      obtain ⟨u, hu, rfl⟩ := Option.map_eq_some_iff.mp e
      have base := trans (characterIn s u v _ hu) (handDue u)
      split
      · exact trans base (receptionSettled _ _)
      all_goals exact base

theorem gapBit (s : State) (r : Reception) (b : Bool) : Agr s (s.gapBit r b) := by
  unfold State.gapBit
  split
  · exact getD (startBitSeen s) (refl s)
  · dsimp only
    have base : Agr s (s.setReception { r with gap := r.gap + 1 }) := moved rfl rfl rfl rfl rfl (fun _ _ => nofun)
    split
    · exact getD (fun t h => trans base (gapExpired _ t h)) base
    · exact base

theorem receivingBit (s : State) (r : Reception) (b : Bool) : Agr s (s.receivingBit r b) := by
  unfold State.receivingBit
  dsimp only
  have base : Agr s (s.setReception { r with run := if b then 0 else r.run + 1 }) := moved rfl rfl rfl rfl rfl (fun _ _ => nofun)
  split
  · exact moved rfl rfl rfl rfl rfl (fun _ _ => nofun)
  · split
    · exact trans base (receptionSettled _ _)
    · split
      · exact trans base (characterBitIn _ _ _ _ _)
      · exact trans base (gapBit _ _ _)

theorem stateBit (s : State) (d b : Bool) : Agr s (s.stateBit d b) := by
  unfold State.stateBit
  split <;> rename_i e
  · exact refl s
  · exact settlingBit s b
  · exact idleBit s b
  · exact arbitrationBit s _ b
  · exact transmitBit s _ _ d b e
  · exact answerBit s _ _ _ _ b
  · exact receivingBit s _ b
  · exact replyBit s _ _ d b
  · exact markBit s _
  · exact faultBit s b

theorem stuckBit (s : State) (c b : Bool) : Agr s (s.stuckBit c b) := by
  unfold State.stuckBit
  split
  · dsimp only
    have base : Agr s (s.setTrunk { s.trunk with stuck := stuckAfter s.trunk.stuck b }) := idle rfl rfl rfl rfl rfl rfl
    split
    · exact getD (fun t h => trans base (sticks _ t h)) base
    · exact base
  · exact refl s

theorem lineEvents (s : State) (c d b : Bool) : Agr s (s.lineEvents c d b) := by
  unfold State.lineEvents
  have base := trans (stateBit s d b) (stuckBit _ c b)
  exact getD (fun t h => trans base (trunkResetCompletes _ t h)) base

theorem lineBitWith {f : State → State} (h : ∀ s, Agr s (f s)) (s : State) : Agr s (s.lineBitWith f) := by
  unfold State.lineBitWith
  have claimed : Agr s s.boundary := getD (claim s) (refl s)
  have dropped : Agr s.boundary s.boundary.dropInput := idle rfl rfl rfl rfl rfl rfl
  exact trans (trans (trans claimed dropped) (h _)) (lineEvents _ _ _ _)

theorem lineBit (s : State) : Agr s s.lineBit := lineBitWith refl s

theorem beat (s : State) : Agr s s.beat := idle rfl rfl rfl rfl rfl rfl

theorem tickBit (s : State) : Agr s s.tickBit := by
  unfold State.tickBit
  dsimp only
  have base : Agr s s.nextChoice.nextChoice.nextChoice := idle rfl rfl rfl rfl rfl rfl
  split
  · exact trans base (lineBitWith (fun s => tick s _) _)
  · exact trans base (trans (lineBit _) (tick _ _))

/-! ## The shells of the rows -/

theorem busWrite {f : State → State} (h : ∀ s, Agr s (f s)) (s t : State) (e : Machine.busWrite f s = .next t) : Agr s t := by
  unfold Machine.busWrite at e
  cases e
  split
  · exact h s
  · exact refl s

theorem busRead {value : State → Byte} {f : State → State} (h : ∀ s, Agr s (f s)) (s t : State)
    (e : Machine.busRead value f s = .next t) : Agr s t := by
  unfold Machine.busRead at e
  cases e
  split
  · exact trans (h s) (idle rfl rfl rfl rfl rfl rfl)
  · exact idle rfl rfl rfl rfl rfl rfl

theorem occurs {name : String} {f : State → Option State} (h : ∀ s t, f s = some t → Agr s t) (s t : State)
    (e : Machine.occurs name f s = .next t) : Agr s t := by
  unfold Machine.occurs at e
  split at e
  · split at e
    · rename_i u hu
      cases e
      exact h s t hu
    · cases e
  · cases e

end Agr

end Sys2Proof.Machine
end

