-- ==== Sys2Proof/Laws/TrunkReset.lean ====
section
/-! SUPPORT. What a trunk reset does to the entries (R71): the walk over the tags is one change of the whole table, its records and its
blocks, and in Launching the Launcher's own part comes at the tag of its exchange. -/

namespace Sys2Proof.Machine

open Sys2Proof

/-! ## Vectors given by their elements -/

theorem ofFn_self {α : Type} {n : Nat} (v : Vector α n) : (Vector.ofFn fun i : Fin n => v[i]) = v := by
  apply Vector.ext
  intro i h
  rw [Vector.getElem_ofFn]
  rfl

theorem ofFn_set {α : Type} {n : Nat} (v : Vector α n) (k : Fin n) (a : α) :
    (Vector.ofFn fun i : Fin n => if i = k then a else v[i]) = v.set k a := by
  apply Vector.ext
  intro i h
  rw [Vector.getElem_ofFn]
  exact (getElem_setFin v k ⟨i, h⟩ a).symm

theorem appendAll_append (p : Pool) (bs cs : List BlockId) : p.appendAll (bs ++ cs) = (p.appendAll bs).appendAll cs := by
  induction bs generalizing p with
  | nil => rfl
  | cons b bs ih => exact ih _

theorem filterMap_eq_of_mem {α β : Type} {f g : α → Option β} {l : List α} (h : ∀ a ∈ l, f a = g a) :
    l.filterMap f = l.filterMap g := by
  induction l with
  | nil => rfl
  | cons a l ih =>
    rw [List.filterMap_cons, List.filterMap_cons, h a List.mem_cons_self, ih fun b hb => h b (List.mem_cons_of_mem _ hb)]

/-! ## The parts of `entriesReset` -/

section
variable (s : State) (tags : List Tag)

theorem entriesReset_entries : (s.entriesReset tags).entries =
    Vector.ofFn fun g => if g ∈ tags then (s.entry g).afterReset else s.entry g := rfl

theorem entriesReset_slots : (s.entriesReset tags).slots = Vector.ofFn fun k =>
    if ∃ g ∈ tags, (s.entry g).awaySlot = some k then { s.slot k with state := .closed, lastOutcome := .trunkReset }
    else s.slot k := rfl

theorem entriesReset_stations : (s.entriesReset tags).stations = Vector.ofFn fun i => { s.station i with
    outstanding := (s.station i).outstanding - (tags.filter fun g => (s.entry g).liveFor i).length } := rfl

theorem entriesReset_pool :
    (s.entriesReset tags).pool = s.pool.appendAll (tags.flatMap fun g => (s.entry g).holds) := rfl

theorem entriesReset_reports : (s.entriesReset tags).reports =
    (tags.filterMap fun g => (s.entry g).resetEnds.map fun x =>
      x.record (s.slot x.slot).notify g .trunkReset none none none none).foldl
      (fun r x => r.posted s.config.coalesceTime x) s.reports := rfl

theorem entriesReset_entry (g : Tag) :
    (s.entriesReset tags).entry g = if g ∈ tags then (s.entry g).afterReset else s.entry g := by
  show (Vector.ofFn _)[g] = _
  rw [Fin.getElem_fin, Vector.getElem_ofFn]

theorem entriesReset_slot (k : SlotId) : (s.entriesReset tags).slot k =
    if ∃ g ∈ tags, (s.entry g).awaySlot = some k then { s.slot k with state := .closed, lastOutcome := .trunkReset }
    else s.slot k := by
  show (Vector.ofFn _)[k] = _
  rw [Fin.getElem_fin, Vector.getElem_ofFn]

theorem entriesReset_station (i : StationId) : (s.entriesReset tags).station i = { s.station i with
    outstanding := (s.station i).outstanding - (tags.filter fun g => (s.entry g).liveFor i).length } := by
  show (Vector.ofFn _)[i] = _
  rw [Fin.getElem_fin, Vector.getElem_ofFn]

theorem entriesReset_notify (k : SlotId) : ((s.entriesReset tags).slot k).notify = (s.slot k).notify := by
  rw [entriesReset_slot]
  split <;> rfl

theorem entriesReset_link (k : SlotId) : ((s.entriesReset tags).slot k).link = (s.slot k).link := by
  rw [entriesReset_slot]
  split <;> rfl

end

theorem entriesReset_nil (s : State) : s.entriesReset [] = s := by
  unfold State.entriesReset
  have e : (Vector.ofFn fun g : Tag => if g ∈ ([] : List Tag) then (s.entry g).afterReset else s.entry g) = s.entries := by
    rw [show (fun g : Tag => if g ∈ ([] : List Tag) then (s.entry g).afterReset else s.entry g) = fun g => s.entries[g] from
      funext fun g => if_neg (List.not_mem_nil)]
    exact ofFn_self _
  have f : (Vector.ofFn fun k : SlotId => if ∃ g ∈ ([] : List Tag), (s.entry g).awaySlot = some k then
      { s.slot k with state := .closed, lastOutcome := .trunkReset } else s.slot k) = s.slots := by
    rw [show (fun k : SlotId => if ∃ g ∈ ([] : List Tag), (s.entry g).awaySlot = some k then
        { s.slot k with state := .closed, lastOutcome := .trunkReset } else s.slot k) = fun k => s.slots[k] from
      funext fun k => if_neg fun h => absurd h.choose_spec.1 List.not_mem_nil]
    exact ofFn_self _
  have g : (Vector.ofFn fun i : StationId => ({ s.station i with
      outstanding := (s.station i).outstanding - (([] : List Tag).filter fun g => (s.entry g).liveFor i).length } : Station)) =
      s.stations := ofFn_self _
  rw [e, f, g]
  rfl

section
variable {s u : State} {xs : List Tag} (ys : List Tag)

theorem entry_of_reset (hu : u = s.entriesReset xs) (g : Tag) (h : g ∉ xs) : u.entry g = s.entry g := by
  rw [hu, entriesReset_entry, if_neg h]

theorem append_entries (hu : u = s.entriesReset xs) (h : ∀ g ∈ ys, g ∉ xs) :
    (Vector.ofFn fun g : Tag => if g ∈ ys then (u.entry g).afterReset else u.entry g) =
      Vector.ofFn fun g => if g ∈ xs ++ ys then (s.entry g).afterReset else s.entry g := by
  congr 1
  funext g
  by_cases hy : g ∈ ys
  · rw [if_pos hy, if_pos (List.mem_append_right _ hy), entry_of_reset hu g (h g hy)]
  · rw [if_neg hy, hu, entriesReset_entry]
    by_cases hx : g ∈ xs
    · rw [if_pos hx, if_pos (List.mem_append_left _ hx)]
    · rw [if_neg hx, if_neg fun c => (List.mem_append.mp c).elim hx hy]

theorem append_slots (hu : u = s.entriesReset xs) (h : ∀ g ∈ ys, g ∉ xs) :
    (Vector.ofFn fun k : SlotId => if ∃ g ∈ ys, (u.entry g).awaySlot = some k then
        { u.slot k with state := .closed, lastOutcome := .trunkReset } else u.slot k) =
      Vector.ofFn fun k => if ∃ g ∈ xs ++ ys, (s.entry g).awaySlot = some k then
        { s.slot k with state := .closed, lastOutcome := .trunkReset } else s.slot k := by
  have hk : ∀ k, u.slot k = if ∃ g ∈ xs, (s.entry g).awaySlot = some k then
      { s.slot k with state := .closed, lastOutcome := .trunkReset } else s.slot k := fun k => by
    rw [hu, entriesReset_slot]
  congr 1
  funext k
  rw [hk]
  by_cases hy : ∃ g ∈ ys, (s.entry g).awaySlot = some k
  · obtain ⟨g, hg, hk⟩ := hy
    rw [if_pos ⟨g, hg, by rw [entry_of_reset hu g (h g hg)]; exact hk⟩]
    refine Eq.trans ?_ (if_pos ⟨g, List.mem_append_right _ hg, hk⟩).symm
    split <;> rfl
  · rw [if_neg fun c => hy ⟨c.choose, c.choose_spec.1, by
      rw [← entry_of_reset hu _ (h _ c.choose_spec.1)]; exact c.choose_spec.2⟩]
    by_cases hx : ∃ g ∈ xs, (s.entry g).awaySlot = some k
    · rw [if_pos hx, if_pos ⟨hx.choose, List.mem_append_left _ hx.choose_spec.1, hx.choose_spec.2⟩]
    · rw [if_neg hx, if_neg]
      rintro ⟨g, hg, hk⟩
      exact (List.mem_append.mp hg).elim (fun c => hx ⟨g, c, hk⟩) fun c => hy ⟨g, c, hk⟩

theorem append_stations (hu : u = s.entriesReset xs) (h : ∀ g ∈ ys, g ∉ xs) :
    (Vector.ofFn fun i : StationId => ({ u.station i with
        outstanding := (u.station i).outstanding - (ys.filter fun g => (u.entry g).liveFor i).length } : Station)) =
      Vector.ofFn fun i => { s.station i with
        outstanding := (s.station i).outstanding - ((xs ++ ys).filter fun g => (s.entry g).liveFor i).length } := by
  congr 1
  funext i
  have f : (ys.filter fun g => (u.entry g).liveFor i) = ys.filter fun g => (s.entry g).liveFor i :=
    List.filter_congr fun g hg => by rw [entry_of_reset hu g (h g hg)]
  have e : u.station i = { s.station i with
      outstanding := (s.station i).outstanding - (xs.filter fun g => (s.entry g).liveFor i).length } := by
    rw [hu, entriesReset_station]
  rw [f, e, List.filter_append, List.length_append, Nat.sub_add_eq]

theorem append_pool (hu : u = s.entriesReset xs) (h : ∀ g ∈ ys, g ∉ xs) :
    u.pool.appendAll (ys.flatMap fun g => (u.entry g).holds) =
      s.pool.appendAll ((xs ++ ys).flatMap fun g => (s.entry g).holds) := by
  have f : (ys.flatMap fun g => (u.entry g).holds) = ys.flatMap fun g => (s.entry g).holds := by
    rw [List.flatMap_def, List.flatMap_def]
    exact congrArg _ (List.map_congr_left fun g hg => by rw [entry_of_reset hu g (h g hg)])
  have e : u.pool = s.pool.appendAll (xs.flatMap fun g => (s.entry g).holds) := by
    subst hu
    exact entriesReset_pool s xs
  rw [f, e, List.flatMap_append, appendAll_append]

theorem append_reports (hu : u = s.entriesReset xs) (h : ∀ g ∈ ys, g ∉ xs) :
    (ys.filterMap fun g => (u.entry g).resetEnds.map fun x =>
        x.record (u.slot x.slot).notify g .trunkReset none none none none).foldl
        (fun r x => r.posted u.config.coalesceTime x) u.reports =
      ((xs ++ ys).filterMap fun g => (s.entry g).resetEnds.map fun x =>
        x.record (s.slot x.slot).notify g .trunkReset none none none none).foldl
        (fun r x => r.posted s.config.coalesceTime x) s.reports := by
  have notify : ∀ k, (u.slot k).notify = (s.slot k).notify := fun k => by rw [hu, entriesReset_notify]
  have f : (ys.filterMap fun g => (u.entry g).resetEnds.map fun x =>
        x.record (u.slot x.slot).notify g .trunkReset none none none none) =
      ys.filterMap fun g => (s.entry g).resetEnds.map fun x =>
        x.record (s.slot x.slot).notify g .trunkReset none none none none := by
    refine filterMap_eq_of_mem fun g hg => ?_
    rw [entry_of_reset hu g (h g hg)]
    exact congrFun (congrArg Option.map (funext fun x => by rw [notify])) _
  have c : u.config = s.config := by
    subst hu
    unfold State.entriesReset
    dsimp only
  have r : u.reports = (xs.filterMap fun g => (s.entry g).resetEnds.map fun x =>
        x.record (s.slot x.slot).notify g .trunkReset none none none none).foldl
        (fun r x => r.posted s.config.coalesceTime x) s.reports := by
    subst hu
    exact entriesReset_reports s xs
  rw [f, c, r, List.filterMap_append, List.foldl_append]

end

theorem state_parts (s u : State) (h : u = { s with
      entries := u.entries, slots := u.slots, stations := u.stations, pool := u.pool, reports := u.reports })
    {e e' : Vector Entry 16} {k k' : Vector Slot 32} {i i' : Vector Station 14} {p p' : Pool}
    {r r' : Reports} (he : e = e') (hk : k = k') (hi : i = i') (hp : p = p') (hr : r = r') :
    ({ u with entries := e, slots := k, stations := i, pool := p, reports := r } : State) =
      { s with entries := e', slots := k', stations := i', pool := p', reports := r' } := by
  rw [he, hk, hi, hp, hr, h]

/-- The trunk reset of some tags and then of others is that of all of them. -/
theorem entriesReset_append (s : State) (xs ys : List Tag) (h : ∀ g ∈ ys, g ∉ xs) :
    (s.entriesReset xs).entriesReset ys = s.entriesReset (xs ++ ys) := by
  have whole : ∀ v : State, v = s.entriesReset xs → v.entriesReset ys = s.entriesReset (xs ++ ys) := fun v hv =>
    state_parts s v (by subst hv; rfl) (append_entries ys hv h) (append_slots ys hv h) (append_stations ys hv h)
      (append_pool ys hv h) (append_reports ys hv h)
  exact whole _ rfl

/-! ## One entry -/

/-- The trunk reset of one tag, its parts written out. -/
theorem entriesReset_one (s : State) (g : Tag) : s.entriesReset [g] = { s with
    entries := s.entries.set g (s.entry g).afterReset
    slots := match (s.entry g).awaySlot with
      | some k => s.slots.set k { s.slot k with state := .closed, lastOutcome := .trunkReset }
      | none => s.slots
    stations := Vector.ofFn fun i => { s.station i with
      outstanding := (s.station i).outstanding - if (s.entry g).liveFor i then 1 else 0 }
    pool := s.pool.appendAll (s.entry g).holds
    reports := match (s.entry g).resetEnds with
      | some x => s.reports.posted s.config.coalesceTime (x.record (s.slot x.slot).notify g .trunkReset none none none none)
      | none => s.reports } := by
  have entries : (Vector.ofFn fun u : Tag => if u ∈ [g] then (s.entry u).afterReset else s.entry u) =
      s.entries.set g (s.entry g).afterReset := by
    rw [← ofFn_set]
    congr 1
    funext u
    by_cases h : u = g
    · rw [if_pos h, if_pos (List.mem_singleton.mpr h), h]
    · rw [if_neg h, if_neg fun c => h (List.mem_singleton.mp c)]
      rfl
  have slots : (Vector.ofFn fun k : SlotId => if ∃ u ∈ [g], (s.entry u).awaySlot = some k then
        { s.slot k with state := .closed, lastOutcome := .trunkReset } else s.slot k) =
      match (s.entry g).awaySlot with
      | some k => s.slots.set k { s.slot k with state := .closed, lastOutcome := .trunkReset }
      | none => s.slots := by
    simp only [List.mem_singleton, exists_eq_left]
    cases (s.entry g).awaySlot with
    | none =>
      rw [show (fun k : SlotId => if (none : Option SlotId) = some k then
        { s.slot k with state := .closed, lastOutcome := .trunkReset } else s.slot k) = fun k => s.slots[k] from
        funext fun k => if_neg nofun]
      exact ofFn_self _
    | some j =>
      dsimp only
      rw [← ofFn_set]
      congr 1
      funext k
      by_cases h : k = j
      · rw [if_pos h, if_pos (congrArg some h.symm), h]
      · rw [if_neg h, if_neg fun c => h (Option.some.inj c).symm]
        rfl
  have stations : (fun i : StationId => ({ s.station i with outstanding :=
        (s.station i).outstanding - ([g].filter fun u => (s.entry u).liveFor i).length } : Station)) =
      fun i => { s.station i with outstanding := (s.station i).outstanding - if (s.entry g).liveFor i then 1 else 0 } := by
    funext i
    rw [List.filter_cons]
    cases (s.entry g).liveFor i <;> rfl
  unfold State.entriesReset
  rw [entries, slots, stations]
  simp only [List.flatMap_cons, List.flatMap_nil, List.append_nil, List.filterMap_cons, List.filterMap_nil]
  cases (s.entry g).resetEnds <;> rfl

/-- A record lowered by the entry of its station. -/
theorem stations_lowered (s : State) (st : StationId) :
    (Vector.ofFn fun i : StationId => ({ s.station i with
      outstanding := (s.station i).outstanding - if (st == i) = true then 1 else 0 } : Station)) =
    s.stations.set st { s.station st with outstanding := (s.station st).outstanding - 1 } := by
  rw [← ofFn_set]
  congr 1
  funext i
  by_cases h : i = st
  · rw [if_pos h, h, beq_self_eq_true, if_pos rfl]
  · rw [if_neg h, if_neg fun c => h (eq_of_beq c).symm]
    rfl

theorem stations_kept (s : State) : (Vector.ofFn fun i : StationId => ({ s.station i with
    outstanding := (s.station i).outstanding - if (false = true) then 1 else 0 } : Station)) = s.stations := ofFn_self _

/-- An entry that is Free or Done is left as it is. -/
theorem entriesReset_unchanged (s : State) (g : Tag) (e : Entry) (h : s.entry g = e) (ha : e.afterReset = e)
    (hs : e.awaySlot = none) (hl : ∀ i, e.liveFor i = false) (hf : e.holds = []) (hr : e.resetEnds = none) :
    s.entriesReset [g] = s := by
  rw [entriesReset_one, h, ha, hs, hf, hr]
  simp only [hl]
  rw [stations_kept, ← h]
  have c : s.entries.set g (s.entry g) = s.entries := Vector.set_getElem_self _
  rw [c]
  rfl

/-- An entry ended TRUNK RESET, but for its slot and the Launcher (R57, R71). -/
theorem ended_trunkReset (s : State) (g : Tag) (x : Exchange) (frees : List BlockId) :
    s.ended g x .trunkReset none none none [] frees = { s with
      entries := s.entries.set g (.done { x with reservedChain := [] } ⟨.trunkReset, false, [], none, none, none⟩)
      stations := s.stations.set x.station { s.station x.station with outstanding := (s.station x.station).outstanding - 1 }
      pool := s.pool.appendAll frees
      reports := s.reports.posted s.config.coalesceTime
        (x.record (s.slot x.slot).notify g .trunkReset none none none none) } := by
  unfold State.ended
  rw [if_neg nofun]
  rfl

/-- An entry in its answer phase that reaches Done has its tag's part of the trunk reset. -/
theorem ended_eq_entriesReset (s : State) (g : Tag) (y : Exchange) (he : (s.entry g).resetEnds = some y)
    (hs : (s.entry g).awaySlot = none) (hl : ∀ i, (s.entry g).liveFor i = (y.station == i)) :
    s.ended g y .trunkReset none none none [] (s.entry g).holds = s.entriesReset [g] := by
  rw [ended_trunkReset, entriesReset_one, hs, he]
  unfold Entry.afterReset
  rw [he]
  simp only [hl]
  rw [stations_lowered]

/-- "Answer phase ended" changes nothing in a Launcher that is not Launching the slot (R87). -/
theorem answerPhaseEnded_other (s : State) (k : SlotId) (o : OutcomeCode) (n : Nat)
    (h : ∀ m, s.launcher.phase ≠ .launching k m) : s.answerPhaseEnded k o n = s := by
  unfold State.answerPhaseEnded
  split
  · rename_i j m hj
    exact if_neg fun c => h m (by rw [hj, c])
  all_goals rfl

/-- The trunk reset of an entry whose end is no end of a launch phase is that of its tag alone. -/
theorem entryTrunkReset_eq (s : State) (g : Tag)
    (h : ∀ x, (s.entry g).resetAnswers = some x → ∀ n, s.launcher.phase ≠ .launching x.slot n) :
    s.entryTrunkReset g = s.entriesReset [g] := by
  have answers : ∀ (y : Exchange), (s.entry g).resetAnswers = some y → (s.entry g).resetEnds = some y →
      (s.entry g).awaySlot = none → (∀ i, (s.entry g).liveFor i = (y.station == i)) →
      s.finishAnswer g y (endWith .trunkReset (s.entry g).holds) = s.entriesReset [g] := by
    intro y hy he hs hl
    have e : s.finishAnswer g y (endWith .trunkReset (s.entry g).holds) =
        s.ended g y .trunkReset none none none [] (s.entry g).holds := by
      unfold State.finishAnswer
      rw [reachDone_eq]
      exact answerPhaseEnded_other _ y.slot .trunkReset y.attempts (h y hy)
    rw [e]
    exact ended_eq_entriesReset s g y he hs hl
  have later : ∀ (y : Exchange), (s.entry g).resetEnds = some y →
      (s.entry g).awaySlot = some y.slot → (∀ i, (s.entry g).liveFor i = (y.station == i)) →
      s.finishDeferred g y (endWith .trunkReset (s.entry g).holds) = s.entriesReset [g] := by
    intro y he hs hl
    rw [finishDeferred_eq]
    show State.closed (s.ended g y .trunkReset none none none [] _) y.slot .trunkReset = _
    rw [ended_trunkReset, entriesReset_one, hs, he]
    unfold Entry.afterReset
    rw [he]
    simp only [hl]
    rw [stations_lowered]
    rfl
  unfold State.entryTrunkReset
  cases he : s.entry g with
  | free => exact (entriesReset_unchanged s g .free he rfl rfl (fun _ => rfl) rfl rfl).symm
  | reserved b x =>
    rw [he] at answers
    cases b with
    | true => exact answers x rfl rfl rfl fun _ => rfl
    | false =>
      dsimp only
      by_cases c : x.attempts ≤ 1
      · rw [if_pos c, entriesReset_one, he]
        have r : (Entry.reserved false x).resetEnds = none := if_pos c
        unfold Entry.afterReset
        rw [r]
        simp only [show ∀ i, (Entry.reserved false x).liveFor i = (x.station == i) from fun _ => rfl]
        rw [stations_lowered]
        rfl
      · rw [if_neg c]
        have r : (Entry.reserved false x).resetEnds = some { x with attempts := x.attempts - 1 } := if_neg c
        exact answers { x with attempts := x.attempts - 1 } r r rfl fun _ => rfl
  | awaiting x c =>
    rw [he] at answers
    exact answers x rfl rfl rfl fun _ => rfl
  | deferred x d =>
    rw [he] at later
    exact later x rfl rfl fun _ => rfl
  | receiving x d p c =>
    rw [he] at later
    have f : (Entry.receiving x d p c).holds = receivingBlocks x c := by cases c <;> rfl
    show s.finishDeferred g x (endWith .trunkReset (receivingBlocks x c)) = _
    rw [← f]
    exact later x rfl rfl fun _ => rfl
  | done x d => exact (entriesReset_unchanged s g (.done x d) he rfl rfl (fun _ => rfl) rfl rfl).symm
  | resting st n =>
    rw [entriesReset_one, he]
    simp only [show ∀ i, (Entry.resting st n).liveFor i = false from fun _ => rfl]
    rw [stations_kept]
    rfl

/-- The walk over some tags, none of which ends a launch phase. -/
theorem foldl_entryTrunkReset (tags : List Tag) (s : State) (hn : tags.Nodup)
    (h : ∀ g ∈ tags, ∀ x, (s.entry g).resetAnswers = some x → ∀ n, s.launcher.phase ≠ .launching x.slot n) :
    tags.foldl State.entryTrunkReset s = s.entriesReset tags := by
  induction tags generalizing s with
  | nil => exact (entriesReset_nil s).symm
  | cons g tags ih =>
    have ⟨hg, hn⟩ := List.nodup_cons.mp hn
    rw [List.foldl_cons, entryTrunkReset_eq s g (h g List.mem_cons_self)]
    have e : ∀ u ∈ tags, (s.entriesReset [g]).entry u = s.entry u := fun u hu => by
      rw [entriesReset_entry, if_neg fun c => hg (by rw [← List.mem_singleton.mp c]; exact hu)]
    rw [ih (s.entriesReset [g]) hn fun u hu x hx => by
      rw [e u hu] at hx
      exact h u (List.mem_cons_of_mem _ hu) x hx]
    exact entriesReset_append s [g] tags fun u hu c => hg (by rw [← List.mem_singleton.mp c]; exact hu)

/-- The tags up to one and after it are all tags, in their order. -/
theorem tags_split : ∀ g : Tag, List.finRange 16 = (List.finRange 16).filter (fun u => u < g) ++ g :: (List.finRange 16).filter (fun u => g < u) ∧
    (List.finRange 16).filter (fun u => u ≤ g) = (List.finRange 16).filter (fun u => u < g) ++ [g] := by decide

/-! ## The Launcher's part (R100, R101) -/

theorem launcherTrunkReset_kept (s : State)
    (h : s.launcher.phase.stopped ∨ ∃ k r, s.launcher.phase = .waiting k (.reportSpace r) ∧ r.kind = .notice) :
    s.launcherTrunkReset = s := by
  unfold State.launcherTrunkReset
  rcases h with h | ⟨k, r, h, hk⟩
  · cases hp : s.launcher.phase with
    | idle => rfl
    | held p => rfl
    | waiting k w =>
      rw [hp] at h
      exact absurd h id
    | contending k n =>
      rw [hp] at h
      exact absurd h id
    | launching k n =>
      rw [hp] at h
      exact absurd h id
  · rw [h]
    exact if_pos hk

theorem launcherTrunkReset_busy (s : State) (k : SlotId) (h : s.launcher.phase = .waiting k .slotBusy) :
    s.launcherTrunkReset = s.stoppedAt k := by
  unfold State.launcherTrunkReset
  rw [h]
  rfl

theorem launcherTrunkReset_waiting (s : State) (k : SlotId) (w : Wait) (h : s.launcher.phase = .waiting k w)
    (hw : w = .depth ∨ w = .tag ∨ w = .blocks ∨ ∃ r, w = .reportSpace r ∧ r.kind ≠ .notice) :
    s.launcherTrunkReset = State.stoppedAt { s with slots := s.slots.set k (s.slot k).undone } k := by
  unfold State.launcherTrunkReset
  rw [h]
  rcases hw with rfl | rfl | rfl | ⟨r, rfl, hr⟩
  · rfl
  · rfl
  · rfl
  · exact if_neg hr

theorem launcherTrunkReset_contending (s : State) (k : SlotId) (n : Option Nat) (h : s.launcher.phase = .contending k n) :
    s.launcherTrunkReset = State.stoppedAt { s with
      slots := s.slots.set k (s.slot k).undone
      pool := s.pool.setOwners (s.outChain k) .processor } k := by
  unfold State.launcherTrunkReset
  rw [h]
  rfl

theorem slot_set (s : State) (k j : SlotId) (sl : Slot) : (s.setSlot k sl).slot j = if j = k then sl else s.slot j := by
  show (s.slots.set k sl)[j] = _
  rw [getElem_setFin]
  rfl

theorem launchEnded_link (s : State) (k : SlotId) (o : OutcomeCode) (n : Nat) :
    ((s.launchEnded k o n).slot k).link = (s.slot k).link := by
  show ((s.slots.set k _)[k]).link = _
  rw [getElem_setFin, if_pos rfl]

/-- The answer phase of the exchange in Launching ends TRUNK RESET (R101). -/
theorem finishAnswer_trunkReset (s : State) (g : Tag) (x : Exchange) (frees : List BlockId)
    (h : ∃ m, s.launcher.phase = .launching x.slot m) :
    s.finishAnswer g x (endWith .trunkReset frees) =
      ((s.ended g x .trunkReset none none none [] frees).launchEnded x.slot .trunkReset x.attempts).stoppedAt
        (s.slot x.slot).link := by
  obtain ⟨m, h⟩ := h
  unfold State.finishAnswer
  rw [reachDone_eq]
  have e : ∀ u : State, u.launcher.phase = .launching x.slot m → u.answerPhaseEnded x.slot .trunkReset x.attempts =
      (u.launchEnded x.slot .trunkReset x.attempts).stoppedAt (u.slot x.slot).link := by
    intro u hu
    unfold State.answerPhaseEnded
    rw [hu]
    dsimp only
    rw [if_pos rfl, if_pos rfl, launchEnded_eq, launchEnded_link]
    rfl
  exact e _ h

/-- The trunk reset of the entry whose exchange is in Launching ends the launch phase with it (R101). -/
theorem entryTrunkReset_launching (s : State) (g : Tag) (x : Exchange) (h : ∃ m, s.launcher.phase = .launching x.slot m)
    (ha : (s.entry g).resetAnswers = some x) : s.entryTrunkReset g =
      ((s.entriesReset [g]).launchEnded x.slot .trunkReset x.attempts).stoppedAt (s.slot x.slot).link := by
  have answers : (s.entry g).resetEnds = some x → (s.entry g).awaySlot = none →
      (∀ i, (s.entry g).liveFor i = (x.station == i)) →
      s.finishAnswer g x (endWith .trunkReset (s.entry g).holds) =
        ((s.entriesReset [g]).launchEnded x.slot .trunkReset x.attempts).stoppedAt (s.slot x.slot).link := by
    intro he hs hl
    rw [finishAnswer_trunkReset s g x _ h, ended_eq_entriesReset s g x he hs hl]
  unfold State.entryTrunkReset
  cases he : s.entry g with
  | free =>
    rw [he] at ha
    cases ha
  | done y d =>
    rw [he] at ha
    cases ha
  | resting st n =>
    rw [he] at ha
    cases ha
  | deferred y d =>
    rw [he] at ha
    cases ha
  | receiving y d p c =>
    rw [he] at ha
    cases ha
  | awaiting y c =>
    rw [he] at ha answers
    cases ha
    exact answers rfl rfl fun _ => rfl
  | reserved b y =>
    rw [he] at ha answers
    cases b with
    | true =>
      cases ha
      exact answers rfl rfl fun _ => rfl
    | false =>
      have r : (if y.attempts ≤ 1 then none else some { y with attempts := y.attempts - 1 }) = some x := ha
      dsimp only
      by_cases c : y.attempts ≤ 1
      · rw [if_pos c] at r
        cases r
      · rw [if_neg c] at r ⊢
        cases r
        exact answers ha rfl fun _ => rfl

/-- The whole walk with an exchange in Launching: the tags up to its own, the end of its launch phase, the tags after it. -/
theorem entriesTrunkReset_launching (s : State) (g : Tag) (x : Exchange) (m : Option Nat)
    (h : s.launcher.phase = .launching x.slot m) (ha : (s.entry g).resetAnswers = some x)
    (hu : ∀ u y, (s.entry u).resetAnswers = some y → y.slot = x.slot → u = g) :
    s.entriesTrunkReset =
      (((s.entriesReset ((List.finRange 16).filter fun u => u ≤ g)).launchEnded x.slot .trunkReset x.attempts).stoppedAt
        (s.slot x.slot).link).entriesReset ((List.finRange 16).filter fun u => g < u) := by
  have lt : ∀ v ∈ (List.finRange 16).filter (fun u => u < g), v ≠ g := by
    intro v hv c
    have d := (List.mem_filter.mp hv).2
    rw [c] at d
    simp at d
  unfold State.entriesTrunkReset
  rw [(tags_split g).2, ← entriesReset_append _ _ _ fun u hu => by
    rw [List.mem_singleton.mp hu]
    exact fun c => lt g c rfl]
  refine (congrArg (fun l => List.foldl State.entryTrunkReset s l) (tags_split g).1).trans ?_
  rw [List.foldl_append, List.foldl_cons,
    foldl_entryTrunkReset ((List.finRange 16).filter fun u => u < g) s ((List.nodup_finRange 16).filter _) (by
      intro v hv y hy n c
      rw [h] at c
      exact lt v hv (hu v y hy (Phase.launching.inj c).1.symm))]
  have entry : ∀ B, B = s.entriesReset ((List.finRange 16).filter (fun u => u < g)) → B.entry g = s.entry g :=
    fun B hB => entry_of_reset hB g fun c => lt g c rfl
  have link : ∀ B, B = s.entriesReset ((List.finRange 16).filter (fun u => u < g)) →
      (s.slot x.slot).link = (B.slot x.slot).link := fun B hB => by rw [hB, entriesReset_link]
  have phase : ∀ B, B = s.entriesReset ((List.finRange 16).filter (fun u => u < g)) →
      B.launcher.phase = .launching x.slot m := fun B hB => by
    rw [hB]
    unfold State.entriesReset
    exact h
  generalize hB : s.entriesReset ((List.finRange 16).filter (fun u => u < g)) = B
  rw [link B hB.symm, entryTrunkReset_launching B g x ⟨m, phase B hB.symm⟩ (by rw [entry B hB.symm]; exact ha)]
  exact foldl_entryTrunkReset _ _ ((List.nodup_finRange 16).filter _) fun v _ y _ n => nofun

/-- The part of a NOTICE in Launching (R90, R100). -/
theorem noticeEnded_trunkReset (s : State) (k : SlotId) (n : Nat) : s.noticeEnded k n .trunkReset = s.noticeReset k n := by
  have notify : (((s.returnOutbound k).setAttempts k n).slot k).notify = (s.slot k).notify := by
    show ((s.returnOutbound k).setSlot k _ |>.slot k).notify = _
    rw [slot_set, if_pos rfl]
    unfold State.returnOutbound
    split <;> rfl
  have report : noticeReport ((s.returnOutbound k).setAttempts k n) k .trunkReset n =
      ⟨.notice, (s.slot k).notify, some k, none, none, some 5, some .trunkReset, some n, none, none, none, none, none, none⟩ := by
    unfold noticeReport
    rw [notify]
  have reports : ((s.returnOutbound k).setAttempts k n).reports = s.reports := by
    unfold State.returnOutbound
    split <;> rfl
  have config : ((s.returnOutbound k).setAttempts k n).config = s.config := by
    unfold State.returnOutbound
    split <;> rfl
  unfold State.noticeEnded State.noticeReset
  dsimp only
  rw [report]
  unfold State.report reportWith
  rw [reports]
  by_cases h : s.reports.queue.length < 32
  · rw [if_pos h, if_pos h]
    dsimp only
    rw [if_pos ⟨rfl, rfl⟩]
    have posted : ∀ r : Report, ((s.returnOutbound k).setAttempts k n).postQueue r =
        { (s.returnOutbound k).setAttempts k n with reports := s.reports.posted s.config.coalesceTime r } := by
      intro r
      unfold State.postQueue State.setReports Reports.posted Reports.enqueue
      rw [reports, config, if_pos h]
      cases s.reports.queue <;> simp <;> exact config.symm
    rw [posted]
    show State.stoppedAt { ((s.returnOutbound k).setAttempts k n).closeSlot k .trunkReset with
      reports := s.reports.posted s.config.coalesceTime _ }
      (State.slot (((s.returnOutbound k).setAttempts k n).closeSlot k .trunkReset) k).link = _
    rw [launchEnded_eq, launchEnded_link]
  · rw [if_neg h, if_neg h, ← launchEnded_eq]
    unfold State.returnOutbound
    split <;> rfl

/-- A record after a trunk reset (R131). -/
theorem stationsTrunkReset_eq (s : State) : s.stationsTrunkReset = { s with
    stations := Vector.ofFn fun i =>
      if (s.station i).presence = .fenced then s.station i
      else { s.station i with presence := .unknown, depth := 1, probed := false, misses := 0 } } :=
  congrArg (fun v => ({ s with stations := v } : State)) (Vector.ext fun i hi => by
    rw [Vector.getElem_map, Vector.getElem_ofFn]
    rfl)

end Sys2Proof.Machine
end

