-- ==== Sys2Proof/Tests/Slice0.lean ====
section
/-! SUPPORT. Tests: ill-formed commands refused, the CRC, single steps on small states, and for every obligation with hypotheses a
state and operands that meet them. -/

open Sys2Proof Sys2Proof.Machine

namespace Tests

/-! ## Small states -/

/-- The state a next outcome carries. -/
def got (o : Host.Outcome State Fault Refusal) : Option State :=
  match o with
  | .next s => some s
  | .fault _ => none
  | .refused _ => none

def withArgs (a b : Byte) (s : State) : State := s.setPort { s.port with arg0 := a, arg1 := b }
def inPhase (p : Phase) (s : State) : State := s.setPhase p
def inTrunk (t : TrunkState) (s : State) : State := s.setTrunkState t
def sending (x : Send) (s : State) : State := s.setPendingSend (some x)
def owned (o : Owner) (bs : List BlockId) (s : State) : State := s.setPool (s.pool.setOwners bs o)
def linked (bs : List BlockId) (s : State) : State := s.setPool (s.pool.linkChain bs)
def running (code : Byte) (s : State) : State := s.setPort { s.port with command := code, busy := true }
def queued (rs : List Report) (s : State) : State := s.setReports { s.reports with queue := rs }

/-- A FETCH for station 5, at most 100 bytes, one retry. -/
def fetch : Slot := { Slot.reset with op := 1, station := 5, inLimit := 100, retryLimit := 1 }
/-- A NOTICE of 65 bytes from block 7. -/
def notice : Slot := { Slot.reset with op := 5, outFirst := 7, outLength := 65, noticeCode := 9 }
/-- The exchange of the FETCH in slot 3. -/
def exchange : Exchange := ⟨4, 3, .fetch, 100, false, [0, 1], 1, 0⟩
/-- The exchange of a PROBE in slot 3. -/
def probe : Exchange := ⟨4, 3, .probe, 4, false, [0], 1, 0⟩

/-- The trunk idle, the FETCH in slot 3, the NOTICE in slot 4 with its chain 7, 9, and ARG0 3. -/
def ready : State :=
  withArgs 3 0 (inTrunk .idle (linked [7, 9] (owned .processor [7, 9] ((State.reset.setSlot 3 fetch).setSlot 4 notice))))

/-- The FETCH in its answer phase under tag 0. -/
def answering (e : Entry) (t : TrunkState) : State := inPhase (.launching 3 none) (inTrunk t (ready.setEntry 0 e))

def answerWindow : TrunkState := .answerWait 0 4 10 0
def frame (send : Send) : Outgoing := State.outgoing ready send
def request : Send := .request 3 0 4
def reception (o : Origin) : Reception := newReception o 4 0 none
/-- A reception with the header of a frame from station 5 under tag 0, `n` bytes of payload announced, `count` characters in. -/
def received (o : Origin) (kind : StationKind) (n count : Nat) (handed : Bool) : Reception :=
  { reception o with
    kind := some kind, source := some 4, code := some 0, tag := some 0, length := some n, count := count, handed := handed }
def header (kind : StationKind) (n : Nat) : Header := ⟨kind, 4, 0, 0, n⟩
def attentionRecord : Report := attentionReport 4 2
def exchangeRecord : Report := exchangeReport ready 0 exchange (endWith .withdrawn [])
def done (o : OutcomeCode) : Entry := .done exchange ⟨o, false, [], none, none, none⟩

/-! ## Well-formedness and words -/

theorem test_unknown_with_a_known_code_is_ill_formed : (Instr.unknown 0x01).wellFormed = false := by decide
theorem test_unknown_0D_is_well_formed : (Instr.unknown 0x0D).wellFormed = true := by decide
theorem test_window_write_of_slot_select_is_ill_formed : (Instr.windowWrite 0x09 0).wellFormed = false := by decide
theorem test_window_write_of_ident_is_well_formed : (Instr.windowWrite 0x00 0).wellFormed = true := by decide
theorem test_no_word_spells_a_command : decodeTableWord 8 0x01 = none := by decide
theorem test_memory_form_rejects_a_repeat : Memory.wf [(5, 1), (5, 2)] = false := by decide

/-! ## Frames -/

/-- The CRC of the bytes of "123456789" with the preset and polynomial of R17. -/
theorem test_crc_of_the_digits : crcOf [0x31, 0x32, 0x33, 0x34, 0x35, 0x36, 0x37, 0x38, 0x39] = 0x29B1 := by decide +kernel
theorem test_reply_header : (replyFrame ⟨.taken, 5, 2⟩).take 5 = [0x96, 0x35, 0x02, 0x00, 0x00] := by decide
theorem test_request_header :
    (frame request).address = 5 ∧ (frame request).code = 1 := by decide
theorem test_start_bit_dominant : characterBit 0xFF 0 = true ∧ characterBit 0xFF 1 = false ∧ characterBit 0xFE 1 = true := by
  decide

/-! ## Single steps -/

theorem test_ident : State.reset.windowValue 0x00 = 0x26 := by decide
theorem test_pointer_reads_after_reset :
    State.reset.windowValue 0x0F = 1 ∧ State.reset.windowValue 0x1B = 0xFF ∧ State.reset.windowValue 0x16 = 64 ∧
    State.reset.windowValue 0x15 = 0x7F := by decide
theorem test_start_launches_the_fetch :
    (got (exec .start ready)).map (fun s => (s.launcher.phase, s.entry 0, s.pool.freeList.length, s.port.result)) =
      some (.contending 3 none, .reserved false exchange, 62, .ok) := by decide
theorem test_start_of_a_bad_slot_with_end :
    (got (exec .start (withArgs 0 0 (ready.setSlot 0 { Slot.reset with flags := 1 })))).map
      (fun s => (s.reports.queue.map (·.outcome), (s.slot 0).state, s.launcher.phase, s.reports.latches.launcherStopped)) =
      some ([some .badSlot], .closed, .idle, true) := by decide
theorem test_take_block :
    (got (exec .takeBlock State.reset)).map (fun s => (s.pool.owner[(0 : BlockId)], s.port.resultData)) =
      some (.processor, 0) := by decide
theorem test_withdraw_of_a_free_tag :
    (got (exec .withdraw State.reset)).map (·.port.result) = some .noExchange := by decide
theorem test_unknown_code : (got (exec (.unknown 0x55) State.reset)).map (·.status) = some 0x00 := by decide
theorem test_request_sent_opens_the_answer_window :
    (got (exec .requestSent (answering (.reserved true exchange) (.transmitting (frame request) 69)))).map
      (fun s => (s.trunk.state, s.entry 0)) = some (answerWindow, .awaiting exchange none) := by decide
theorem test_answer_timeout_retries :
    (got (exec (.answerTimerExpiry true) (answering (.awaiting exchange none) answerWindow))).map
      (fun s => (s.entry 0, (s.station 4).presence, s.trunk.quiet)) =
      some (.reserved false { exchange with attempts := 2 }, .silent, 10) := by decide
theorem test_trunk_reset_refused_offline : (got (exec .trunkReset State.reset)).map (·.port.result) = some .refused := by decide
theorem test_slot_data_write_opens_and_advances :
    (got (exec (.slotFieldDataWrite 3) State.reset)).map (fun s => ((s.slot 0).op, s.sel.slotIndex)) = some (3, 1) := by decide
theorem test_event_outside_its_state_is_refused :
    exec .lineIdle State.reset = .refused (.cannotOccur "LINE_IDLE") := rfl

/-! ## States that meet the hypotheses of the obligations -/

def heart (n : Nat) (quiet : Nat) (t : TrunkState) (s : State) : State :=
  s.setTrunk { s.trunk with heartbeat := n, quiet := quiet, state := t }

theorem witness_EmptyQueueStepIsABitTime :
    (∀ (t : TrunkState) (q : Nat), let s := heart 4094 q t State.reset;
      s.pending = [] ∧ s.nreset = true ∧ s.softResetting = false ∧ s.port.completionDue = false ∧ s.lineIn = [] ∧
      s.trunk.heartbeat < 4095 ∧ s.trunk.state = t ∧ s.trunk.quiet = q ∧ s.trunkResetting = false) ∧
    (let s := heart 4094 11 .settling (running 0x0A State.reset);
      s.pending = [] ∧ s.nreset = true ∧ s.softResetting = false ∧ s.port.completionDue = false ∧ s.lineIn = [] ∧
      s.trunk.heartbeat < 4095 ∧ s.trunk.state = .settling ∧ s.trunk.quiet = 11 ∧ s.trunkResetting = true) :=
  ⟨fun _ _ => ⟨rfl, rfl, rfl, rfl, rfl, Nat.lt_succ_self _, rfl, rfl, rfl⟩,
    ⟨rfl, rfl, rfl, rfl, rfl, Nat.lt_succ_self _, rfl, rfl, rfl⟩⟩

theorem witness_NresetLowClosesThePart :
    ({ State.reset with nreset := false } : State).nreset = false ∧ isBusWrite (.windowWrite 0x05 0) = true := ⟨rfl, rfl⟩

theorem free_reset : State.reset.portFree := ⟨rfl, rfl⟩
theorem free_ready : ready.portFree := ⟨rfl, rfl⟩
theorem open_reset : State.reset.windowOpen := ⟨rfl, rfl⟩

theorem witness_SoftResetAndItsCompletion :
    State.reset.portFree ∧ (running 0x0C State.reset).nreset = true ∧ (running 0x0C State.reset).softResetting = true ∧
    isBusWrite .pop = true := ⟨free_reset, rfl, rfl, rfl⟩

theorem witness_CommandWrites :
    (running 0x0A State.reset).windowOpen ∧ (running 0x0A State.reset).port.busy = true ∧
    commandCode (.commandOverrun 0x01) = some 0x01 ∧ commandCode .softReset = some 0x0C ∧ State.reset.portFree ∧
    commandCodeKnown 0x00 = false ∧ commandCodeKnown 0x0D = false :=
  ⟨⟨rfl, rfl⟩, rfl, rfl, rfl, free_reset, by decide, by decide⟩

theorem witness_StartAndContinue :
    (withArgs 32 0 ready).portFree ∧ 32 ≤ (withArgs 32 0 ready).port.arg0.toNat ∧
    (∀ p, (withArgs 31 0 (inPhase p ready)).portFree ∧ (withArgs 31 0 (inPhase p ready)).port.arg0.toNat = (31 : SlotId).val ∧
      (withArgs 31 0 (inPhase p ready)).launcher.phase = p) ∧
    (31 : SlotId).val < 32 ∧ Phase.idle.stopped ∧ (Phase.held 3).stopped ∧ ¬ (Phase.waiting 3 .depth).stopped ∧
    ¬ (Phase.contending 3 none).stopped ∧ ¬ (Phase.launching 3 none).stopped :=
  ⟨⟨rfl, rfl⟩, by decide, fun _ => ⟨⟨rfl, rfl⟩, rfl, rfl⟩, by decide, trivial, trivial, id, id, id⟩

theorem sound_fetch : ready.slotSound 3 := by
  unfold State.slotSound
  refine ⟨by decide, fun _ => by decide, by decide, by decide, by decide, fun h => absurd h (by decide)⟩

theorem sound_notice : ready.slotSound 4 := by
  unfold State.slotSound
  refine ⟨by decide, fun h => absurd h (by decide), by decide, by decide, by decide, fun _ => ?_⟩
  exact ⟨[7, 9], by decide, by decide, ⟨by decide, trivial⟩, by unfold Pool.processorHolds; decide, by decide⟩

theorem witness_ValidityCheck :
    ready.slotValid 4 = true ∧ 0 < (ready.slot 4).outLength.toNat ∧ (ready.slot 3).outLength = 0 ∧ ¬ ready.slotSound 0 :=
  ⟨by decide, by decide, by decide, fun h => absurd h.1.1 (by decide)⟩

def oneLive (s : State) : State := s.setStation 4 { s.station 4 with outstanding := 1 }
def noTag (s : State) : State := { s with entries := Vector.replicate 16 (.resting 0 1) }
def noBlock (s : State) : State := s.setPool { s.pool with freeList := [0] }

theorem witness_TakenSlotWaits :
    ((ready.setSlot 3 { fetch with state := .active }).slot 3).state = .active ∧
    (ready.slot 3).state ≠ .active ∧ (ready.slot 3).op.toNat = SlotOp.fetch.code ∧
    (ready.slot 3).station.toNat = StationId.address 4 ∧ (ready.station 4).presence ≠ .fenced ∧
    ((oneLive ready).station 4).depth ≤ ((oneLive ready).station 4).outstanding ∧
    ((ready.station 4).outstanding < (ready.station 4).depth ∧ ∀ g, (noTag ready).entry g ≠ .free) ∧
    (∃ g, (noBlock ready).entry g = .free) ∧ (noBlock ready).pool.freeList.length < blocksFor ((noBlock ready).slot 3).limit :=
  ⟨by decide, by decide, by decide, by decide, by decide, by decide, ⟨by decide, by decide⟩, ⟨0, by decide⟩, by decide⟩

theorem witness_SlotOnlyOutcome :
    (ready.slot 0).state ≠ .active ∧ ready.launcher.haltPending = false ∧ ready.launcher.pendingContinue = false ∧
    ¬ ready.slotSound 0 ∧ (ready.slot 3).op.toNat ≤ 4 ∧ (ready.slot 3).station.toNat = StationId.address 4 ∧
    ((ready.setStation 4 { Station.reset with presence := .fenced }).station 4).presence = .fenced ∧
    (queued (List.replicate 31 attentionRecord) ready).reports.queue.length < 32 ∧
    32 ≤ (queued (List.replicate 32 attentionRecord) ready).reports.queue.length :=
  ⟨by decide, rfl, rfl, fun h => absurd h.1.1 (by decide), by decide, by decide, by decide, by decide, by decide⟩

theorem first_tag : ready.firstFree 0 := ⟨by decide, fun u h => absurd h (by exact Nat.not_lt_zero _)⟩

theorem witness_StartLaunches :
    ready.portFree ∧ ready.port.arg0.toNat = (3 : SlotId).val ∧ ready.launcher.phase.stopped ∧ (ready.slot 3).state ≠ .active ∧
    ready.slotSound 3 ∧ (ready.station 4).outstanding < (ready.station 4).depth ∧ ready.firstFree 0 ∧
    blocksFor (ready.slot 3).limit ≤ ready.pool.freeList.length ∧
    (withArgs 4 0 ready).port.arg0.toNat = (4 : SlotId).val ∧ (ready.slot 4).state ≠ .active ∧ ready.slotSound 4 ∧
    (ready.slot 4).op = 5 :=
  ⟨free_ready, by decide, trivial, by decide, sound_fetch, by decide, first_tag, by decide, by decide, by decide, sound_notice,
    by decide⟩

theorem witness_HaltOutsideContending :
    (∀ p, (inPhase p ready).portFree ∧ (inPhase p ready).launcher.phase = p) ∧ Phase.idle.stopped ∧ (Phase.held 3).stopped ∧
    (noticeReport ready 4 .ok 1).kind = .notice ∧ (slotReport ready 3 .badSlot none).kind ≠ .notice :=
  ⟨fun _ => ⟨⟨rfl, rfl⟩, rfl⟩, trivial, trivial, rfl, by decide⟩

theorem witness_HaltUndoesALaunch :
    (let s := sending (.notice 4) (inPhase (.contending 4 (some 1)) ready);
      s.portFree ∧ s.launcher.phase = .contending 4 (some 1) ∧ s.trunk.pendingSend = some (.notice 4)) ∧
    (let s := (sending request (inPhase (.contending 3 none) ready)).setEntry 0 (.reserved false exchange);
      s.portFree ∧ s.launcher.phase = .contending 3 none ∧ s.trunk.pendingSend = some (.request 3 0 exchange.station) ∧
      s.entry 0 = .reserved false exchange) :=
  ⟨⟨⟨rfl, rfl⟩, rfl, rfl⟩, ⟨⟨rfl, rfl⟩, rfl, rfl, by decide⟩⟩

theorem witness_LauncherWorkFrame :
    (∃ k, State.take 3 ready = State.take k ready) ∧ (∀ k w, ready.launcher.phase ≠ .waiting k w) ∧
    (ready.setEntry 0 (done .ok)).entry 0 ≠ .free := ⟨⟨3, rfl⟩, fun _ _ => nofun, by decide⟩

theorem witness_WithdrawByState :
    (withArgs 16 0 ready).portFree ∧ 16 ≤ (withArgs 16 0 ready).port.arg0.toNat ∧
    (∀ e, ((withArgs 15 0 ready).setEntry 15 e).portFree ∧
      ((withArgs 15 0 ready).setEntry 15 e).port.arg0.toNat = (15 : Tag).val ∧
      ((withArgs 15 0 ready).setEntry 15 e).entry 15 = e) :=
  ⟨⟨rfl, rfl⟩, by decide, fun _ => ⟨⟨rfl, rfl⟩, rfl, by simp [State.entry, State.setEntry]⟩⟩

theorem witness_PopByKind :
    ready.portFree ∧ ready.reports.queue = [] ∧
    (∀ r, (queued [r] ready).portFree ∧ (queued [r] ready).reports.queue = [r]) ∧
    (noticeReport ready 4 .ok 1).kind = .notice ∧ (slotReport ready 3 .badSlot none).kind = .slot ∧
    attentionRecord.kind = .attention ∧ attentionRecord.station = some 4 ∧ exchangeRecord.kind = .exchange ∧
    exchangeRecord.tag = some 0 ∧ (ready.setEntry 0 (done .withdrawn)).entry 0 = done .withdrawn :=
  ⟨free_ready, rfl, fun _ => ⟨⟨rfl, rfl⟩, rfl⟩, rfl, rfl, rfl, rfl, rfl, rfl, by decide⟩

def freeBlocksLeft (n : Nat) : State := State.reset.setPool { Pool.reset with freeList := (List.finRange 64).take n }

theorem witness_TakeBlockAboveFloor :
    (∀ n, (freeBlocksLeft n).portFree) ∧ (freeBlocksLeft 16).pool.freeList.length ≤ (freeBlocksLeft 16).config.freeFloor ∧
    (∃ rest, (freeBlocksLeft 17).pool.freeList = 0 :: rest) ∧
    (freeBlocksLeft 17).config.freeFloor < (freeBlocksLeft 17).pool.freeList.length :=
  ⟨fun _ => ⟨rfl, rfl⟩, by decide, ⟨_, rfl⟩, by decide⟩

def sixteen : List BlockId := (List.finRange 64).take 16
def seventeen : List BlockId := (List.finRange 64).take 17
/-- A chain of sixteen blocks of the processor's from block 0, the last with END. -/
def chained16 : State := withArgs 0 0 (linked sixteen (owned .processor sixteen State.reset))
/-- The same with one link more, to a block that is not the processor's. -/
def chained17 : State := withArgs 0 0 (linked seventeen (owned .processor sixteen State.reset))

theorem chained_of_links (p : Pool) (bs : List BlockId) (h : ∀ i : Fin (bs.length - 1),
    (bs[i.val]?.bind fun b => p.link[b]) = bs[i.val + 1]? ∧ bs[i.val + 1]? ≠ none) : p.chained bs := by
  induction bs with
  | nil => trivial
  | cons b bs ih =>
    cases bs with
    | nil => trivial
    | cons c bs =>
      refine ⟨?_, ih fun i => ?_⟩
      · simpa using (h ⟨0, by simp⟩).1
      · have hi := i.isLt
        simp only [List.length_cons, Nat.add_sub_cancel] at hi
        have := h ⟨i.val + 1, by simp⟩
        simpa using this

theorem witness_FreeChainWalk :
    (withArgs 64 0 ready).portFree ∧ 64 ≤ (withArgs 64 0 ready).port.arg0.toNat ∧
    (chained16.portFree ∧ chained16.port.arg0.toNat = (0 : BlockId).val ∧ sixteen.head? = some 0 ∧
      sixteen.getLast? = some 15 ∧ chained16.pool.chained sixteen ∧ chained16.pool.processorHolds sixteen ∧
      sixteen.length ≤ 16 ∧ chained16.pool.link[(15 : BlockId)] = none) ∧
    (chained17.portFree ∧ chained17.port.arg0.toNat = (0 : BlockId).val ∧ chained17.pool.chained sixteen ∧
      chained17.pool.processorHolds sixteen ∧ sixteen.length = 16 ∧ chained17.pool.link[(15 : BlockId)] ≠ none) ∧
    (let s := withArgs 0 0 (linked sixteen (owned .processor (sixteen.take 15) State.reset));
      s.portFree ∧ (sixteen.take 15 ++ [15]).head? = some 0 ∧ s.pool.chained (sixteen.take 15 ++ [15]) ∧
      s.pool.processorHolds (sixteen.take 15) ∧ (sixteen.take 15).length < 16 ∧ s.pool.owner[(15 : BlockId)] ≠ .processor) := by
  refine ⟨⟨rfl, rfl⟩, by decide, ⟨⟨rfl, rfl⟩, rfl, by decide, by decide, ?_, ?_, by decide, by decide⟩,
    ⟨⟨rfl, rfl⟩, rfl, ?_, ?_, by decide, by decide⟩, ⟨⟨rfl, rfl⟩, by decide, ?_, ?_, by decide, by decide⟩⟩
  · exact chained_of_links _ _ (by decide +kernel)
  · unfold Pool.processorHolds; decide +kernel
  · exact chained_of_links _ _ (by decide +kernel)
  · unfold Pool.processorHolds; decide +kernel
  · exact chained_of_links _ _ (by decide +kernel)
  · unfold Pool.processorHolds; decide +kernel

theorem witness_FenceAndAdmit :
    (∀ n : Byte, (withArgs n 0 ready).portFree ∧ (withArgs n 0 ready).port.arg0 = n) ∧ (0 : Byte).toNat = 0 ∧
    14 < (15 : Byte).toNat ∧ (1 : Byte).toNat = StationId.address 0 ∧ (14 : Byte).toNat = StationId.address 13 ∧
    ((ready.setStation 13 { Station.reset with presence := .fenced }).station 13).presence = .fenced ∧
    (ready.station 0).presence ≠ .fenced :=
  ⟨fun _ => ⟨⟨rfl, rfl⟩, rfl⟩, rfl, by decide, by decide, by decide, by decide, by decide⟩

theorem witness_TrunkResetTaken :
    State.reset.portFree ∧ State.reset.trunk.state = .offline ∧ ready.portFree ∧ ready.trunk.state ≠ .offline ∧
    (∀ e, (ready.setEntry 0 e).portFree ∧ (ready.setEntry 0 e).trunk.state = .idle ∧ (ready.setEntry 0 e).entry 0 = e) ∧
    exchange.attempts ≤ 1 ∧ 2 ≤ ({ exchange with attempts := 2 } : Exchange).attempts ∧
    ((ready.setStation 13 { Station.reset with presence := .fenced }).station 13).presence = .fenced ∧
    (ready.station 0).presence ≠ .fenced :=
  ⟨free_reset, rfl, free_ready, nofun, fun _ => ⟨⟨rfl, rfl⟩, rfl, by simp [State.entry, State.setEntry]⟩, by decide, by decide,
    by decide, by decide⟩

theorem witness_ClearCountersByMask :
    (∀ a b, (withArgs a b ready).portFree) ∧ 16 ≤ (withArgs 0 16 ready).port.arg1.toNat ∧
    (withArgs 0 15 ready).port.arg1.toNat < 16 := ⟨fun _ _ => ⟨rfl, rfl⟩, by decide, by decide⟩

theorem witness_ArgumentAndSelectorWrites :
    State.reset.windowOpen ∧ (0x1C : BitVec 5).toNat ∈ [0x00, 0x01, 0x07, 0x08, 0x0C, 0x0E, 0x11, 0x16, 0x1A, 0x1B, 0x1C] ∧
    0x1D ≤ (0x1D : BitVec 5).toNat ∧ (31 : Byte).toNat = (31 : SlotId).val ∧ 32 ≤ (32 : Byte).toNat ∧
    (15 : Byte).toNat = (15 : Fin 16).val ∧ 16 ≤ (16 : Byte).toNat ∧ (14 : Byte).toNat = StationId.address 13 ∧
    (0 : Byte).toNat = 0 ∧ 14 < (15 : Byte).toNat ∧ (10 : Byte).toNat = (10 : Fin 11).val ∧ 11 ≤ (11 : Byte).toNat ∧
    (16 : Byte).toNat = (16 : Fin 17).val ∧ 17 ≤ (17 : Byte).toNat :=
  ⟨open_reset, by decide, by decide, by decide, by decide, by decide, by decide, by decide, by decide, by decide, by decide,
    by decide, by decide, by decide⟩

def atField (i : Fin 16) : State := ready.setSel { ready.sel with slotSelect := 3, slotIndex := i }

theorem witness_SlotFieldWrite :
    (∀ i, (atField i).windowOpen ∧ (atField i).sel.slotIndex = i ∧ ((atField i).slot (atField i).sel.slotSelect).state ≠ .active) ∧
    (((atField 0).setSlot 3 { fetch with state := .active }).slot 3).state = .active ∧ 12 ≤ (12 : Fin 16).val ∧
    (31 : Byte).toNat < 32 ∧ 32 ≤ (32 : Byte).toNat ∧ (63 : Byte).toNat = (63 : BlockId).val ∧ 64 ≤ (64 : Byte).toNat ∧
    (7 : Byte).toNat = (7 : Fin 8).val ∧ 8 ≤ (8 : Byte).toNat ∧ (15 : Byte).toNat < 16 ∧ 16 ≤ (16 : Byte).toNat :=
  ⟨fun _ => ⟨⟨rfl, rfl⟩, rfl, by show (ready.slot 3).state ≠ .active; decide⟩, by decide, by decide, by decide, by decide, by decide,
    by decide, by decide, by decide, by decide, by decide⟩

theorem witness_SlotFieldRead :
    (atField 15).nreset = true ∧ (atField 15).softResetting = false ∧ (running 0x0C ready).nreset = true ∧
    (running 0x0C ready).softResetting = true := ⟨rfl, rfl, rfl, rfl⟩

theorem witness_BlockPointerAndLink :
    ready.windowOpen ∧ (63 : Byte).toNat = (63 : BlockId).val ∧ 64 ≤ (64 : Byte).toNat ∧
    ready.pool.owner[ready.sel.blockSelect] ≠ .processor ∧
    (let s := ready.setSel { ready.sel with blockSelect := 7 };
      s.windowOpen ∧ s.pool.owner[s.sel.blockSelect] = .processor) ∧
    (126 : Byte).toNat ≤ 126 ∧ 127 < (128 : Byte).toNat :=
  ⟨⟨rfl, rfl⟩, by decide, by decide, by decide, ⟨⟨rfl, rfl⟩, by decide⟩, by decide, by decide⟩

theorem witness_BlockDataAtThePointer :
    (∀ o, let s := ready.setSel { ready.sel with blockSelect := 7, blockOffset := o };
      s.windowOpen ∧ s.pool.owner[s.sel.blockSelect] = .processor ∧ s.sel.blockOffset = o) ∧
    ready.pool.owner[ready.sel.blockSelect] ≠ .processor :=
  ⟨fun _ => ⟨⟨rfl, rfl⟩, by show ready.pool.owner[(7 : BlockId)] = .processor; decide, rfl⟩, by decide⟩

theorem witness_PoolOperations :
    Pool.reset.freeList.Nodup ∧ (9 : BlockId) ∉ Pool.reset.freeList.take 9 ∧ (Pool.reset.freeList.take 9).getLast? = some 8 :=
  ⟨by decide, by decide, by decide⟩

theorem witness_ConfigIndexAndData :
    (∀ i, let s := ready.setSel { ready.sel with configIndex := i };
      s.windowOpen ∧ s.sel.configIndex = i) ∧ (11 : Byte).toNat = (11 : Fin 12).val ∧ 12 ≤ (12 : Byte).toNat ∧
    (2 : Byte).toNat = ClaimPolicy.alternate.code ∧ 2 < (3 : Byte).toNat ∧ (1 : Byte).toNat < 2 ∧ (10 : Byte).toNat ≤ 10 ∧
    10 < (11 : Byte).toNat ∧ (0 : Byte).toNat < 1 ∧ (7 : Byte).toNat ≤ 7 ∧ 7 < (8 : Byte).toNat ∧ (63 : Byte).toNat ≤ 63 ∧
    63 < (64 : Byte).toNat ∧ (32 : Byte).toNat ≤ 32 ∧ 32 < (33 : Byte).toNat :=
  ⟨fun _ => ⟨⟨rfl, rfl⟩, rfl⟩, by decide, by decide, by decide, by decide, by decide, by decide, by decide, by decide, by decide,
    by decide, by decide, by decide, by decide, by decide⟩

def staged (b : Byte) (on : Bool) : State :=
  (ready.setPort { ready.port with staging := b }).setConfig { ready.config with trunkEnable := on }

theorem witness_DividerByBytes :
    (∀ b on, (staged b on).windowOpen ∧ (staged b on).config.trunkEnable = on ∧ (staged b on).port.staging = b) ∧
    256 * (0 : Byte).toNat + (7 : Byte).toNat < 8 ∧ 8 ≤ 256 * (0 : Byte).toNat + (8 : Byte).toNat ∧
    256 * (15 : Byte).toNat + (255 : Byte).toNat ≤ 4095 ∧ 4095 < 256 * (16 : Byte).toNat + (0 : Byte).toNat :=
  ⟨fun _ _ => ⟨⟨rfl, rfl⟩, rfl, rfl⟩, by decide, by decide, by decide, by decide⟩

theorem witness_TrunkEnableByState :
    (∀ t, (inTrunk t ready).windowOpen ∧ (inTrunk t ready).trunk.state = t) ∧ 1 < (2 : Byte).toNat ∧ (1 : Byte).toNat ≤ 1 ∧
    (TrunkState.transmitting (frame request) 0).code = 4 ∧ answerWindow.code = 5 ∧ (TrunkState.receiving (reception .arbitration)).code = 6 ∧
    (TrunkState.replying ⟨.taken, 5, 0⟩ (.window 0)).code = 7 ∧ (TrunkState.resetting 0).code = 8 ∧
    TrunkState.settling.code = 1 ∧ TrunkState.idle.code = 2 ∧ (TrunkState.arbitrating ⟨0, false, 0⟩).code = 3 ∧
    TrunkState.fault.code = 9 :=
  ⟨fun _ => ⟨⟨rfl, rfl⟩, rfl⟩, by decide, by decide, rfl, rfl, rfl, rfl, rfl, rfl, rfl, rfl, rfl⟩

theorem witness_EventsAndMaskWrites :
    ready.windowOpen ∧ (0x20 : Byte).getLsbD 5 = true ∧ (0x40 : Byte).getLsbD 6 = true ∧ (0x9F : Byte).getLsbD 5 = false ∧
    (0x9F : Byte).getLsbD 6 = false := ⟨⟨rfl, rfl⟩, by decide, by decide, by decide, by decide⟩

theorem witness_InterruptLineFollowsEvents : ready.nreset = true := rfl

theorem witness_CounterReadSequence :
    (∀ b, let s := ready.setCounters { ready.counters with phaseHigh := b };
      s.windowOpen ∧ s.counters.phaseHigh = b) ∧ (11 : Byte).toNat = (11 : Fin 12).val ∧ 12 ≤ (12 : Byte).toNat ∧
    (running 0x0C ready).nreset = true ∧ (running 0x0C ready).softResetting = true :=
  ⟨fun _ => ⟨⟨rfl, rfl⟩, rfl⟩, by decide, by decide, rfl, rfl⟩

/-- Tag 0 Deferred, tag 1 Resting, every other Free. -/
def timed (d n timer : Nat) : State :=
  ((ready.setEntry 0 (.deferred exchange d)).setEntry 1 (.resting 2 n)).setReports { ready.reports with timer := some timer }

theorem timed_entry (d n timer : Nat) (g : Tag) :
    (timed d n timer).entry g = if g = 0 then .deferred exchange d else if g = 1 then .resting 2 n else .free := by
  revert g
  intro g
  match g with
  | ⟨0, _⟩ => rfl
  | ⟨1, _⟩ => rfl
  | ⟨k + 2, h⟩ =>
    rw [if_neg (by simp [Fin.ext_iff]), if_neg (by simp [Fin.ext_iff])]
    simp [State.entry, timed, State.setEntry, State.setReports, ready, withArgs, inTrunk, linked, owned, State.setPort,
      State.setTrunkState, State.setTrunk, State.setPool, State.setSlot, State.reset]

theorem witness_TickLowersEveryTimer :
    let s := timed 2 2 2;
    s.nreset = true ∧ (∀ g x d, s.entry g = .deferred x d → 2 ≤ d) ∧ (∀ g st n, s.entry g = .resting st n → 2 ≤ n) ∧
    (∀ n, s.reports.timer = some n → 2 ≤ n) ∧ (timed 2 2 1).reports.timer = some 1 ∧ (⟨true, false⟩ : TickOrder).reportsFirst = true := by
  refine ⟨rfl, fun g x d h => ?_, fun g st n h => ?_, fun n h => ?_, rfl, rfl⟩
  · rw [timed_entry] at h
    split at h
    · cases h; decide
    · split at h <;> cases h
  · rw [timed_entry] at h
    split at h
    · cases h
    · split at h <;> cases h
      decide
  · cases h
    decide

theorem witness_TimersRunOut :
    let s := timed 1 1 1;
    s.nreset = true ∧ s.entry 0 = .deferred exchange 1 ∧ s.entry 1 = .resting 2 1 ∧ s.reports.timer = some 1 ∧
    (ready.setEntry 0 (.receiving exchange 1 false .busy)).entry 0 = .receiving exchange 1 false .busy :=
  ⟨rfl, rfl, rfl, rfl, by decide⟩

/-- A tick at which a deadline, a rest and the coalescing timer all run out, in the order that delivers to the queue first. -/
theorem test_tick_runs_everything_out :
    (got (exec (.tick ⟨true, false⟩) (timed 1 1 1))).map (fun s => (s.entry 0, s.entry 1)) =
      some (.done { exchange with reservedChain := [] } ⟨.expired, false, [], none, none, none⟩, .free) ∧
    (got (exec (.tick ⟨true, false⟩) (timed 1 1 1))).map (fun s => (s.reports.overdue, s.reports.queue.map (·.outcome))) =
      some (true, [some .expired]) := by decide +kernel

theorem witness_LineFallsIdle :
    (∀ t, (inTrunk t ready).nreset = true ∧ (inTrunk t ready).trunk.state = t) ∧
    (ready.setPort { ready.port with command := 0x0A, busy := true, completionDue := true }).port.completionDue = true :=
  ⟨fun _ => ⟨rfl, rfl⟩, rfl⟩

theorem witness_StuckLineFaults :
    (∀ t, (inTrunk t ready).nreset = true ∧ (inTrunk t ready).trunk.state = t) ∧ (reception .unsolicited).nothingDue ∧
    (reception .unsolicited).origin = .unsolicited := ⟨fun _ => ⟨rfl, rfl⟩, ⟨rfl, rfl⟩, rfl⟩

theorem witness_ClaimBits :
    ready.nreset = true ∧ ready.trunk.state = .idle ∧ ready.trunk.pendingSend = none ∧
    (sending request ready).trunk.pendingSend = some request := ⟨rfl, rfl, rfl, rfl⟩

theorem witness_ContentionWonSends :
    (let s := sending request (answering (.reserved false exchange) (.arbitrating ⟨0, true, 5⟩));
      s.nreset = true ∧ s.trunk.state = .arbitrating ⟨0, true, 5⟩ ∧ s.launcher.phase = .launching 3 none ∧
      s.trunk.pendingSend = some (.request 3 0 4) ∧ s.entry 0 = .reserved false exchange) ∧
    (let s := sending (.notice 4) (inPhase (.contending 4 (some 1)) (inTrunk (.arbitrating ⟨0, false, 5⟩) ready));
      s.trunk.state = .arbitrating ⟨0, false, 5⟩ ∧ s.launcher.phase = .contending 4 (some 1) ∧
      s.trunk.pendingSend = some (.notice 4)) := ⟨⟨rfl, rfl, rfl, rfl, by decide⟩, ⟨rfl, rfl, rfl⟩⟩

theorem witness_ContentionLostFollows :
    let c : Contention := ⟨31, true, 1⟩;
    (inTrunk (.arbitrating c) ready).nreset = true ∧ (inTrunk (.arbitrating c) ready).trunk.state = .arbitrating c ∧ c.rank ≠ 0 ∧
    1 ≤ c.bit ∧ c.bit ≤ 5 ∧ (inTrunk (.arbitrating ⟨31, true, 0⟩) ready).trunk.state = .arbitrating ⟨31, true, 0⟩ :=
  ⟨rfl, rfl, by decide, by decide, by decide, rfl⟩

def sendingNotice (queue : List Report) : State :=
  queued queue (inPhase (.launching 4 (some 1)) (inTrunk (.transmitting (frame (.notice 4)) 719) ready))

theorem witness_LastStopBit :
    (let s := answering (.reserved true exchange) (.transmitting (frame request) 69);
      s.nreset = true ∧ s.trunk.state = .transmitting (frame request) 69 ∧ (frame request).send = .request 3 0 4 ∧
      s.entry 0 = .reserved true exchange) ∧
    (∀ q, (sendingNotice q).nreset = true ∧ (sendingNotice q).trunk.state = .transmitting (frame (.notice 4)) 719 ∧
      (frame (.notice 4)).send = .notice 4 ∧ (sendingNotice q).launcher.phase = .launching 4 (some 1) ∧
      (sendingNotice q).reports.queue = q) :=
  ⟨⟨rfl, rfl, rfl, by decide⟩, fun _ => ⟨rfl, rfl, rfl, rfl, rfl⟩⟩

theorem witness_CollisionRetriesOrEnds :
    (∀ n, let s := answering (.reserved true { exchange with attempts := n }) (.transmitting (frame request) 0);
      s.nreset = true ∧ s.trunk.state = .transmitting (frame request) 0 ∧ (frame request).send = .request 3 0 4 ∧
      s.entry 0 = .reserved true { exchange with attempts := n } ∧ s.launcher.phase = .launching 3 none) ∧
    (1 ≤ (ready.slot 3).retryLimit.val ∧ (ready.slot 3).retryLimit.val < 2) ∧
    ((sendingNotice []).launcher.phase = .launching 4 (some 1) ∧ (ready.slot 4).retryLimit.val < 1) ∧
    (1 ≤ ((ready.setSlot 4 { notice with retryLimit := 1 }).slot 4).retryLimit.val) :=
  ⟨fun _ => ⟨rfl, rfl, rfl, rfl, rfl⟩, ⟨by decide, by decide⟩, ⟨rfl, by decide⟩, by decide⟩

theorem witness_AnswerTimerExpires :
    (∀ n, let s := answering (.awaiting { exchange with attempts := n } none) answerWindow;
      s.nreset = true ∧ s.trunk.state = .answerWait 0 exchange.station 10 0 ∧
      s.entry 0 = .awaiting { exchange with attempts := n } none ∧ s.launcher.phase = .launching exchange.slot none) ∧
    1 ≤ (ready.slot 3).retryLimit.val ∧ (ready.slot 3).retryLimit.val < 2 :=
  ⟨fun _ => ⟨rfl, rfl, rfl, rfl⟩, by decide, by decide⟩

theorem witness_StartBitByState :
    (∀ t, (inTrunk t ready).nreset = true ∧ (inTrunk t ready).trunk.state = t) ∧
    (ready.setTrunk { ready.trunk with state := .settling, skip := true }).trunk.skip = true ∧
    (inTrunk .settling ready).trunk.skip = false ∧ (reception .arbitration).malformed = false ∧
    (reception .arbitration).complete = false ∧ (reception .arbitration).char = none :=
  ⟨fun _ => ⟨rfl, rfl⟩, rfl, rfl, rfl, rfl, rfl⟩

theorem witness_CharacterChecksAndFields :
    (let r := reception .arbitration;
      (inTrunk (.receiving r) ready).trunk.state = .receiving r ∧ r.malformed = false ∧ r.complete = false ∧ r.nothingDue ∧
      r.count = 0 ∧ (0x97 : Byte) ≠ 0x96) ∧
    (∀ n : Fin 5, let r := { reception .arbitration with count := n.val, lengthHigh := some 4 };
      r.complete = false ∧ r.nothingDue ∧ r.count = n.val) ∧
    ((0x8F : Byte).extractLsb' 4 4).toNat < 9 ∧ 13 < ((0xE1 : Byte).extractLsb' 4 4).toNat ∧
    ((0x90 : Byte).extractLsb' 0 4).toNat = 0 ∧ ((0x9F : Byte).extractLsb' 0 4).toNat = 15 ∧
    StationKind.ofCode ((0xD1 : Byte).extractLsb' 4 4) = some .attention ∧
    ((0xDE : Byte).extractLsb' 0 4).toNat = StationId.address 13 ∧
    1024 < 256 * ((some (4 : Byte)).getD 0).toNat + (1 : Byte).toNat ∧ 256 * ((some (4 : Byte)).getD 0).toNat + (0 : Byte).toNat ≤ 1024 ∧
    (let r := received .unsolicited .answer 1 5 false;
      r.complete = false ∧ r.nothingDue ∧ 5 ≤ r.count ∧ r.count < 5 + 1 ∧ r.length = some 1) ∧
    (let r := received (.answerWindow 0) .answer 1 6 true;
      r.complete = false ∧ r.nothingDue ∧ r.count = 5 + 1) ∧
    (let r := received (.answerWindow 0) .answer 1 7 true;
      r.complete = false ∧ r.nothingDue ∧ r.count = 6 + 1) :=
  ⟨⟨rfl, rfl, rfl, ⟨rfl, rfl⟩, rfl, by decide⟩, fun _ => ⟨rfl, ⟨rfl, rfl⟩, rfl⟩, by decide, by decide, by decide, by decide,
    by decide, by decide, by decide, by decide, ⟨rfl, ⟨rfl, rfl⟩, by decide, by decide, rfl⟩, ⟨rfl, ⟨rfl, rfl⟩, rfl⟩,
    ⟨rfl, ⟨rfl, rfl⟩, rfl⟩⟩

theorem witness_HeaderHandedOn :
    (let r := received (.answerWindow 0) .answer 100 5 false;
      let s := answering (.awaiting exchange none) (.receiving r);
      s.nreset = true ∧ s.trunk.state = .receiving r ∧ r.headerDue = some (header .answer 100) ∧ s.entry 0 = .awaiting exchange none) ∧
    (received .arbitration .attention 0 5 false).headerDue = some (header .attention 0) ∧
    (∀ n, (received .arbitration .recall n 5 false).headerDue = some (header .recall n)) ∧
    (∀ x, (ready.setEntry 0 (.deferred x 7)).entry (header .recall 0).tag = .deferred x 7) ∧
    exchange.station = (header .recall 0).source ∧ ({ exchange with station := 5 } : Exchange).station ≠ (header .recall 0).source ∧
    exchange.inLimit < (header .recall 101).length ∧ (header .recall 100).length ≤ exchange.inLimit ∧ exchange.keep = false ∧
    ({ exchange with keep := true } : Exchange).keep = true ∧ blocksFor 100 ≤ ready.pool.freeList.length ∧
    (noBlock ready).pool.freeList.length < blocksFor 100 :=
  ⟨⟨rfl, rfl, rfl, by decide⟩, rfl, fun _ => rfl, fun _ => rfl, rfl, by decide, by decide, by decide, rfl, rfl, by decide, by decide⟩

theorem witness_PayloadByteStored :
    (∀ c, let r := { received (.answerWindow 0) .answer 100 70 true with due := some 0x5A };
      let s := answering (.awaiting exchange c) (.receiving r);
      s.nreset = true ∧ s.trunk.state = .receiving r ∧ r.headerDue = none ∧ r.headerIn = some (header .answer 100) ∧
      r.due = some 0x5A ∧ s.entry 0 = .awaiting exchange c ∧ exchange.reservedChain[(r.count - 6) / 64]? = some 1) ∧
    (∀ e, let r := { received .arbitration .recall 100 70 true with due := some 0x5A };
      let s := inTrunk (.receiving r) (ready.setEntry 0 e);
      s.nreset = true ∧ s.trunk.state = .receiving r ∧ r.headerDue = none ∧ r.headerIn = some (header .recall 100) ∧
      r.due = some 0x5A ∧ (header .recall 100).kind = .recall ∧ s.entry 0 = e ∧ ([5, 6] : List BlockId)[(r.count - 6) / 64]? = some 6) ∧
    some AnswerStore.discard ≠ some .store ∧ (∀ x d p c, Entry.free ≠ .receiving x d p c) :=
  ⟨fun _ => ⟨rfl, rfl, rfl, rfl, rfl, rfl, rfl⟩, fun _ => ⟨rfl, rfl, rfl, rfl, rfl, rfl, rfl, rfl⟩, by decide, fun _ _ _ _ => nofun⟩

theorem witness_BadReceptionEnds :
    (let r := received .unsolicited .answer 0 7 false;
      (inTrunk (.receiving r) ready).nreset = true ∧ (inTrunk (.receiving r) ready).trunk.state = .receiving r ∧ r.nothingDue ∧
      r.endsBad .frameEnd 2) ∧
    (reception .arbitration).endsBad .gapTimerExpiry 3 ∧ (reception .arbitration).nothingDue ∧
    (reception .arbitration).handed = false ∧ ({ reception .arbitration with malformed := true } : Reception).endsBad .malformedRunEnd 4 ∧
    (∀ n, (answering (.awaiting { exchange with attempts := n } none) answerWindow).entry 0 =
      .awaiting { exchange with attempts := n } none) ∧
    (received (.answerWindow 0) .answer 0 7 true).endsBad .frameEnd 2 ∧ (received (.answerWindow 0) .answer 0 7 true).nothingDue ∧
    1 ≤ (ready.slot 3).retryLimit.val ∧ (ready.slot 3).retryLimit.val < 2 ∧
    (answering (.awaiting exchange none) answerWindow).launcher.phase = .launching exchange.slot none :=
  ⟨⟨rfl, rfl, ⟨rfl, rfl⟩, .inl ⟨rfl, rfl, rfl, rfl, rfl⟩⟩, .inr (.inl ⟨rfl, rfl, rfl, rfl, rfl⟩), ⟨rfl, rfl⟩, rfl,
    .inr (.inr ⟨rfl, rfl, rfl⟩), fun _ => rfl, .inl ⟨rfl, rfl, rfl, rfl, rfl⟩, ⟨rfl, rfl⟩, by decide, by decide, rfl⟩

theorem witness_BadRecallEnds :
    (∀ e, let r := received .arbitration .recall 0 7 true;
      let s := inTrunk (.receiving r) (ready.setEntry 0 e);
      s.nreset = true ∧ s.trunk.state = .receiving r ∧ r.nothingDue ∧ r.endsBad .frameEnd 2 ∧ r.origin = .arbitration ∧
      r.handed = true ∧ r.headerIn = some (header .recall 0) ∧ s.entry (header .recall 0).tag = e) ∧
    (header .attention 0).kind ≠ .recall :=
  ⟨fun _ => ⟨rfl, rfl, ⟨rfl, rfl⟩, .inl ⟨rfl, rfl, rfl, rfl, rfl⟩, rfl, rfl, rfl, rfl⟩, by decide⟩

theorem witness_AnswerFrameEnds :
    (∀ kind n x, let r := { received (.answerWindow 0) kind n (7 + n) true with crcGood := true };
      let s := answering (.awaiting x none) (.receiving r);
      s.nreset = true ∧ s.trunk.state = .receiving r ∧ r.nothingDue ∧ r.endsGood ∧ r.origin = .answerWindow 0 ∧
      r.headerIn = some (header kind n) ∧ s.entry 0 = .awaiting x none ∧ s.launcher.phase = .launching 3 none) ∧
    ((header .answer 100).source = exchange.station ∧ (header .answer 100).tag = 0 ∧ (header .answer 100).length ≤ exchange.inLimit ∧
      exchange.op ≠ .probe ∧ exchange.inLimit < (header .answer 101).length) ∧
    (probe.op = .probe ∧ probe.slot = 3 ∧ probe.reservedChain.take (blocksFor 4) = [0] ∧ probe.reservedChain.take (blocksFor 0) = [] ∧
      (header .answer 4).length ≤ probe.inLimit) ∧
    (let s := ready.setPool (ready.pool.store 0 0 4);
      1 ≤ (s.blockByte 0 0).toNat ∧ (s.blockByte 0 0).toNat ≤ 4) ∧
    (let s := ready.setPool (ready.pool.store 0 0 5);
      4 < (s.blockByte 0 0).toNat) := by
  refine ⟨fun kind n x => ⟨rfl, rfl, ⟨rfl, rfl⟩, ⟨rfl, ?_, rfl⟩, rfl, rfl, rfl, rfl⟩, by decide, by decide, ?_, ?_⟩
  · simp [Reception.complete, received]
  · have : (ready.setPool (ready.pool.store 0 0 4)).blockByte 0 0 = 4 := rfl
    simp only [this]
    decide
  · have : (ready.setPool (ready.pool.store 0 0 5)).blockByte 0 0 = 5 := rfl
    simp only [this]
    decide

theorem witness_AttentionAndStrayFramesEnd :
    (∀ o kind, let r := { received o kind 0 7 true with crcGood := true };
      let s := inTrunk (.receiving r) ready;
      s.nreset = true ∧ s.trunk.state = .receiving r ∧ r.nothingDue ∧ r.endsGood ∧ r.headerIn = some (header kind 0) ∧ r.origin = o) ∧
    (header .attention 0).kind = .attention ∧ (header .defer 0).kind ≠ .recall ∧ (header .defer 0).kind ≠ .attention ∧
    ((ready.receptionOver 1).heardFrom 4).station 4 = { Station.reset with presence := .online } ∧
    (((ready.setStation 4 { Station.reset with attnPending := true }).receptionOver 1).heardFrom 4).station 4 =
      { Station.reset with presence := .online, attnPending := true } := by
  refine ⟨fun o kind => ⟨rfl, rfl, ?_, ⟨rfl, rfl, rfl⟩, rfl, rfl⟩, rfl, by decide, by decide, by decide, by decide⟩
  exact ⟨by simp [Reception.headerDue, received], rfl⟩

theorem witness_RecallFrameEnds :
    (∀ e, let r := { received .arbitration .recall 100 107 true with crcGood := true };
      let s := inTrunk (.receiving r) (ready.setEntry 0 e);
      s.nreset = true ∧ s.trunk.state = .receiving r ∧ r.nothingDue ∧ r.endsGood ∧ r.headerIn = some (header .recall 100) ∧
      r.origin = .arbitration ∧ (header .recall 100).kind = .recall ∧
      ((s.receptionOver 1).heardFrom 4).entry 0 = e) ∧
    ([5, 6] : List BlockId).length = blocksFor 100 :=
  ⟨fun _ => ⟨rfl, rfl, ⟨rfl, rfl⟩, ⟨rfl, rfl, rfl⟩, rfl, rfl, rfl, rfl⟩, by decide⟩

theorem witness_RepliesGoOut :
    ∀ p, (inTrunk (.replying ⟨.taken, 5, 0⟩ p) ready).nreset = true ∧
      (inTrunk (.replying ⟨.taken, 5, 0⟩ p) ready).trunk.state = .replying ⟨.taken, 5, 0⟩ p := fun _ => ⟨rfl, rfl⟩

/-- A step that answers a next state from a state that meets the invariants: reset with TAKE BLOCK waiting. -/
theorem witness_StepKeeps :
    (∃ t, step { State.reset with pending := [.takeBlock] } = .next t) ∧ Memory.wf State.reset.pool.data = true ∧
    State.reset.config.inRange ∧ maskClean State.reset.reports.mask ∧ State.reset.reports.bounded ∧
    State.reset.launcher.exclusive ∧ State.reset.trunk.bounded ∧ State.reset.enableAgrees ∧ State.reset.outstandingAgrees := by
  refine ⟨⟨_, rfl⟩, rfl, ?_, ?_, ?_, ?_, ?_, ?_, ?_⟩
  · unfold Settings.inRange
    decide
  · unfold maskClean
    decide
  · unfold Reports.bounded
    decide
  · exact ⟨by decide, by decide, nofun⟩
  · exact ⟨by decide, by decide, by decide, nofun⟩
  · intro _
    decide
  · unfold State.outstandingAgrees
    decide

/-! ## Bit times, in each controller state -/

def levels (l : LineInput) (s : State) : State := { s with lineIn := [l] }

/-- The first sub-state of a bit time: with a send pending in Idle the claim is made, else nothing. -/
theorem witness_BitTimeBegins :
    (∀ l n, let s := levels l (heart n 0 .idle (sending request ready));
      s.pending = [] ∧ s.nreset = true ∧ s.softResetting = false ∧ s.trunk.heartbeat = n ∧ ∃ b, exec .claimBit s = .next b) ∧
    (∀ l n, let s := levels l (heart n 0 .idle ready);
      s.pending = [] ∧ s.nreset = true ∧ s.softResetting = false ∧ s.trunk.heartbeat = n ∧ ∀ c, exec .claimBit s ≠ .next c) :=
  ⟨fun _ _ => ⟨rfl, rfl, rfl, rfl, _, rfl⟩, fun l n => ⟨rfl, rfl, rfl, rfl, fun c h => by
    have stops : exec .claimBit (levels l (heart n 0 .idle ready)) = .refused (.cannotOccur "CLAIM_BIT") := rfl
    rw [stops] at h
    exact nomatch h⟩⟩

def hearing (r : Reception) : State := inTrunk (.receiving r) ready
/-- A reception one bit short of its stop bit, with the character's value, `count` characters in. -/
def stopping (v : Byte) (count run : Nat) : Reception := { reception .arbitration with char := some (8, v), count := count, run := run }

/-- What a reception is after the event of a step, the header and the payload byte handed on not counted. -/
def after (o : Host.Outcome State Fault Refusal) : Option Reception :=
  (got o).bind fun s => match s.trunk.state with
    | .receiving r => some r
    | _ => none

theorem witness_LineEvents :
    (∀ t, (inTrunk t ready).nreset = true ∧ (inTrunk t ready).trunk.state = t) ∧
    (∃ x, exec .stuckLine (inTrunk .settling ready) = .next x) ∧ (∃ e, exec .stuckLine (inTrunk .idle ready) = .refused e) ∧
    (∃ v, exec .startBit (inTrunk .settling ready) = .next v) ∧ (∃ v, exec .lineIdle (heart 0 11 .settling ready) = .next v) ∧
    (∃ v, exec (.contentionLost .readBackFault) (inTrunk (.arbitrating ⟨0, false, 0⟩) ready) = .next v) ∧
    (inTrunk (.arbitrating ⟨0, false, 0⟩) ready).drives = true ∧ (inTrunk (.arbitrating ⟨31, false, 1⟩) ready).drives = false ∧
    (∃ v, exec (.contentionLost .releasedBitDominant) (inTrunk (.arbitrating ⟨31, false, 1⟩) ready) = .next v) ∧
    (∃ v, exec .contentionWon (sending request (answering (.reserved false exchange) (.arbitrating ⟨0, false, 5⟩))) = .next v) ∧
    (∃ v, exec .collision (answering (.reserved true exchange) (.transmitting (frame request) 0)) = .next v) ∧
    (∃ v, exec .requestSent (answering (.reserved true exchange) (.transmitting (frame request) 69)) = .next v) ∧
    (∃ v, exec .noticeSent (sendingNotice []) = .next v) ∧
    (∃ v, exec .startBit (answering (.awaiting exchange none) answerWindow) = .next v) ∧
    (∀ o, ∃ v, exec (.answerTimerExpiry o) (answering (.awaiting exchange none) answerWindow) = .next v) ∧
    (∃ v, exec .startBit (hearing (reception .arbitration)) = .next v) ∧
    (∃ v, exec .gapTimerExpiry (hearing { reception .arbitration with gap := 5 }) = .next v) ∧
    (∃ v, exec .malformedRunEnd (hearing { reception .arbitration with malformed := true, run := 5 }) = .next v) ∧
    (∃ v, exec .frameEnd (hearing (received .unsolicited .answer 0 7 false)) = .next v) ∧
    (∃ v, exec .replyWindow (inTrunk (.replying ⟨.taken, 5, 0⟩ (.window 1)) ready) = .next v) ∧
    (∃ v, exec .replyCollision (inTrunk (.replying ⟨.taken, 5, 0⟩ (.sending 0)) ready) = .next v) ∧
    (∃ v, exec .replySent (inTrunk (.replying ⟨.taken, 5, 0⟩ (.sending 69)) ready) = .next v) ∧
    (∃ v, exec .markEnd (inTrunk (.resetting 63) ready) = .next v) ∧ (∃ v, exec .faultClear (heart 0 11 .fault ready) = .next v) :=
  ⟨fun _ => ⟨rfl, rfl⟩, ⟨_, rfl⟩, ⟨_, rfl⟩, ⟨_, rfl⟩, ⟨_, rfl⟩, ⟨_, rfl⟩, rfl, rfl, ⟨_, rfl⟩, ⟨_, rfl⟩, ⟨_, rfl⟩, ⟨_, rfl⟩, ⟨_, rfl⟩,
    ⟨_, rfl⟩, fun o => by cases o <;> exact ⟨_, rfl⟩, ⟨_, rfl⟩, ⟨_, rfl⟩, ⟨_, rfl⟩, ⟨_, rfl⟩, ⟨_, rfl⟩, ⟨_, rfl⟩, ⟨_, rfl⟩, ⟨_, rfl⟩,
    ⟨_, rfl⟩⟩

/-- The bits of a reception: what its arbitration, its runs, its gaps and its characters can be, and how a character leaves it. -/
theorem witness_ReceptionBits :
    0 < (newReception .arbitration 4 5 none).arbitrationLeft ∧ (reception .arbitration).arbitrationLeft = 0 ∧
    (reception .arbitration).char = none ∧ (reception .arbitration).run + 1 ≤ (reception .arbitration).gapLimit ∧
    (reception .arbitration).gap < (reception .arbitration).gapLimit ∧ (stopping 0x96 0 0).char = some (8, 0x96) ∧
    (after (exec (.characterReceived 0x96 true) (hearing (stopping 0x96 0 1)))).map (fun x => (x.malformed, x.complete)) =
      some (false, false) ∧
    (after (exec (.characterReceived 0x96 false) (hearing (stopping 0x96 0 0)))).map
      (fun x => (x.malformed, decide (x.run ≤ x.gapLimit))) = some (true, true) ∧
    (after (exec (.characterReceived 0x97 true) (hearing (stopping 0x97 0 5)))).map
      (fun x => (x.malformed, decide (x.gapLimit < x.run))) = some (true, true) ∧
    (after (exec (.characterReceived 0x55 true)
      (hearing { received .unsolicited .answer 0 6 false with char := some (8, 0x55) }))).map
      (fun x => (x.malformed, x.complete)) = some (false, true) := by decide +kernel

/-! ## More of the Launcher -/

theorem witness_HoldWithPendingContinue :
    let s := (ready.setSlot 0 { Slot.reset with flags := 2 }).setLauncher ⟨.idle, true, false⟩;
    (s.slot 0).isEnd = false ∧ (s.slot 0).hold = true ∧ s.launcher.pendingContinue = true ∧ s.launcher.haltPending = false ∧
    (s.slot 0).state ≠ .active ∧ ¬ s.slotSound 0 ∧ s.reports.queue.length < 32 :=
  ⟨by decide, by decide, rfl, rfl, by decide, fun h => absurd h.1.1 (by decide), by decide⟩

/-- The FETCH taken and waiting. -/
def waits (w : Wait) : State := inPhase (.waiting 3 w) (ready.setSlot 3 { fetch with state := .active })

theorem witness_WaitingReevaluates :
    (∀ w, (waits w).launcher.phase = .waiting 3 w) ∧
    (∀ w, (((waits w).slot 3).state = .active ∧ ((waits w).slot 3).lastTag = none ∧ ((waits w).slot 3).attempts = 0) ∧
      (waits w).slotSound 3 ∧ ((waits w).slot 3).op.toNat = SlotOp.fetch.code ∧
      ((waits w).slot 3).station.toNat = StationId.address 4 ∧ ((waits w).station 4).presence ≠ .fenced ∧
      ((waits w).station 4).outstanding < ((waits w).station 4).depth ∧ (waits w).firstFree 0 ∧
      blocksFor ((waits w).slot 3).limit ≤ (waits w).pool.freeList.length) ∧
    (slotReport ready 3 .badSlot none).outcome = some .badSlot ∧
    (let s := queued (List.replicate 32 attentionRecord) (waits (.reportSpace (slotReport ready 3 .badSlot none)));
      32 ≤ s.reports.queue.length ∧ s.launcher.phase = .waiting 3 (.reportSpace (slotReport ready 3 .badSlot none))) ∧
    (slotReport ready 3 .badSlot none).kind ≠ .notice ∧ (noticeReport ready 4 .trunkReset 1).kind = .notice ∧
    (noticeReport ready 4 .trunkReset 1).outcome = some .trunkReset ∧
    (inPhase (.waiting 4 (.reportSpace (noticeReport ready 4 .trunkReset 1))) ready).reports.queue.length < 32 := by
  refine ⟨fun _ => rfl, fun w => ⟨⟨rfl, rfl, rfl⟩, ?_, rfl, rfl, nofun, Nat.zero_lt_one, ⟨rfl, fun u h => absurd h (Nat.not_lt_zero _)⟩,
    ?_⟩, rfl, ⟨by decide, rfl⟩, by decide, rfl, rfl, by decide⟩
  · refine ⟨?_, fun _ => ?_, ?_, ?_, ?_, fun h => ?_⟩
    · show 1 ≤ fetch.op.toNat ∧ fetch.op.toNat ≤ 5
      decide
    · show 1 ≤ fetch.station.toNat ∧ fetch.station.toNat ≤ 14
      decide
    · show fetch.outLength.toNat ≤ 1024
      decide
    · show fetch.inLimit.toNat ≤ 1024
      decide
    · show fetch.op.toNat = 4 → fetch.outLength.toNat = 0
      decide
    · exact absurd (show 0 < fetch.outLength.toNat from h) (by decide)
  · show blocksFor fetch.limit ≤ ready.pool.freeList.length
    decide

/-- With an entry at tag 0 alone, every other one is Free. -/
theorem other_free (e : Entry) (t : TrunkState) (u : Tag) (h : u ≠ 0) : (answering e t).entry u = .free := by
  have : ¬ (0 : Nat) = u.val := fun e => h (Fin.ext e.symm)
  simp [State.entry, answering, State.setEntry, inPhase, inTrunk, ready, this, withArgs, linked, owned, State.setPort, State.setPhase,
    State.setTrunkState, State.setTrunk, State.setPool, State.setSlot, State.setLauncher, State.reset]

theorem witness_TrunkResetByPhase :
    (∀ p, (inPhase p ready).portFree ∧ (inPhase p ready).trunk.state ≠ .offline ∧ (inPhase p ready).launcher.phase = p) ∧
    (noticeReport ready 4 .ok 1).kind = .notice ∧ (slotReport ready 3 .badSlot none).kind ≠ .notice ∧
    (let s := answering (.awaiting exchange none) answerWindow;
      s.portFree ∧ s.launcher.phase = .launching exchange.slot none ∧ (s.entry 0).resetAnswers = some exchange ∧
      (∀ u y, (s.entry u).resetAnswers = some y → y.slot = exchange.slot → u = 0)) ∧
    (sendingNotice []).portFree ∧ (sendingNotice []).launcher.phase = .launching 4 (some 1) ∧
    (∀ g x, ((sendingNotice []).entry g).resetAnswers = some x → x.slot ≠ 4) ∧
    (oneLive (answering (.awaiting exchange none) answerWindow)).outstandingAgrees := by
  refine ⟨fun _ => ⟨⟨rfl, rfl⟩, nofun, rfl⟩, rfl, by decide, ⟨⟨rfl, rfl⟩, rfl, rfl, fun u y h _ => ?_⟩, ⟨rfl, rfl⟩, rfl, fun g x h => ?_, ?_⟩
  · refine Decidable.byContradiction fun hu => ?_
    rw [other_free _ _ u hu] at h
    exact nomatch h
  · have free : ∀ u, (sendingNotice []).entry u = .free := by decide
    rw [free] at h
    exact nomatch h
  · unfold State.outstandingAgrees
    decide +kernel

/-! ## The window and the line -/

theorem witness_WindowShows :
    (let s := ready.setSel { ready.sel with reportIndex := 16 };
      s.nreset = true ∧ s.sel.reportIndex = 16) ∧
    (ready.nreset = true ∧ ready.sel.reportIndex ≠ 16 ∧ ready.reports.queue = []) ∧
    (∀ r, (queued [r] ready).sel.reportIndex ≠ 16 ∧ (queued [r] ready).reports.queue = [r]) ∧
    ready.pool.link[ready.sel.blockSelect] = none ∧
    (let s := ready.setSel { ready.sel with blockSelect := 7 };
      s.pool.link[s.sel.blockSelect] = some 9 ∧ s.pool.owner[s.sel.blockSelect] = .processor) ∧
    ready.pool.owner[ready.sel.blockSelect] ≠ .processor ∧
    (∀ b, (ready.setCounters { ready.counters with phaseHigh := b }).counters.phaseHigh = b) ∧ 0x1D ≤ (0x1D : BitVec 5).toNat := by
  refine ⟨⟨rfl, rfl⟩, ⟨rfl, by decide, rfl⟩, fun _ => ⟨?_, rfl⟩, by decide, by decide, by decide, fun _ => rfl, by decide⟩
  show ready.sel.reportIndex ≠ 16
  decide

theorem witness_StuckReceptions :
    (∀ n, let r := reception (.answerWindow 0);
      let s := answering (.awaiting { exchange with attempts := n } none) (.receiving r);
      s.nreset = true ∧ s.trunk.state = .receiving r ∧ r.nothingDue ∧ r.origin = .answerWindow 0 ∧
      s.entry 0 = .awaiting { exchange with attempts := n } none ∧ s.launcher.phase = .launching exchange.slot none) ∧
    (1 ≤ (ready.slot 3).retryLimit.val ∧ (ready.slot 3).retryLimit.val < 2) ∧
    ((reception .arbitration).origin = .arbitration ∧ (reception .arbitration).handed = false ∧ (reception .arbitration).nothingDue) ∧
    (∀ e kind, let r := received .arbitration kind 0 7 true;
      let s := hearing r |>.setEntry 0 e;
      s.nreset = true ∧ s.trunk.state = .receiving r ∧ r.nothingDue ∧ r.origin = .arbitration ∧ r.handed = true ∧
      r.headerIn = some (header kind 0) ∧ s.entry (header kind 0).tag = e) :=
  ⟨fun _ => ⟨rfl, rfl, ⟨rfl, rfl⟩, rfl, rfl, rfl⟩, ⟨by decide, by decide⟩, ⟨rfl, rfl, ⟨rfl, rfl⟩⟩,
    fun _ _ => ⟨rfl, rfl, ⟨rfl, rfl⟩, rfl, rfl, rfl, rfl⟩⟩

theorem witness_WhenThePartDrives :
    (∀ t, (inTrunk t ready).nreset = true ∧ (inTrunk t ready).trunk.state = t) ∧
    (∀ b, (⟨31, true, b⟩ : Contention).bit = b) ∧ (0 : BitVec 5).getLsbD (5 - 1) = false ∧ (31 : BitVec 5).getLsbD (5 - 5) = true :=
  ⟨fun _ => ⟨rfl, rfl⟩, fun _ => rfl, by decide, by decide⟩

/-- The NOTICE's payload, the 65 bytes of its chain 7, 9. -/
def noticeBytes : List Byte :=
  (List.finRange 65).map fun i => (sendingNotice []).blockByte (if i.val < 64 then 7 else 9) (i.val % 64)

theorem witness_FramesOnTheLine :
    (let s := answering (.reserved true exchange) (.transmitting (frame request) 69);
      s.nreset = true ∧ ([] : List Byte).length = (frame request).length ∧ 69 / 10 = 6) ∧
    (let s := sendingNotice [];
      s.nreset = true ∧ s.trunk.state = .transmitting (frame (.notice 4)) 719 ∧ noticeBytes.length = (frame (.notice 4)).length ∧
      (∀ i w, noticeBytes[i]? = some w → ∃ b, (s.outChain (frame (.notice 4)).send.slot)[i / 64]? = some b ∧
        s.blockByte b (i % 64) = w) ∧ 719 / 10 = 4 + 65 + 2) ∧
    (∀ p, (inTrunk (.replying ⟨.taken, 5, 0⟩ (.sending p)) ready).trunk.state = .replying ⟨.taken, 5, 0⟩ (.sending p)) := by
  refine ⟨⟨rfl, by decide, rfl⟩, ⟨rfl, rfl, by simp [noticeBytes]; decide, fun i w h => ?_, rfl⟩, fun _ => rfl⟩
  have chain : (sendingNotice []).outChain (frame (.notice 4)).send.slot = [7, 9] := by decide
  have bound : i < 65 := by
    have := List.getElem?_eq_some_iff.mp h
    simpa [noticeBytes] using this.1
  rw [chain]
  have hw : (sendingNotice []).blockByte (if i < 64 then 7 else 9) (i % 64) = w := by
    simpa [noticeBytes, bound] using h
  by_cases hi : i < 64
  · exact ⟨7, by rw [Nat.div_eq_of_lt hi]; rfl, by rwa [if_pos hi] at hw⟩
  · have : i = 64 := by omega
    subst this
    exact ⟨9, rfl, hw⟩

/-- Reset meets the invariants on who holds a block, a slot and the pending send. -/
theorem witness_StepKeepsBlocks : State.reset.blocksAgree ∧ State.reset.slotsAgree ∧ State.reset.sendsAgree :=
  let h := agrees_reset (t := State.reset) rfl rfl rfl rfl fun _ _ => nofun
  ⟨h.blocks, h.slots, h.sends⟩

end Tests
end

section
/-! PROOFS. The trunk protocol (chapter 1): when the part drives and the frames it puts on the line, the claim bit and the contention won, the
replies, and a completed character with the CRC. -/

namespace Sys2Proof.Machine

open Sys2Proof

/-! ## Bits of a character and of a frame (R2) -/

@[simp] theorem characterBit_start (v : Byte) : characterBit v 0 = true := rfl

@[simp] theorem characterBit_stop (v : Byte) : characterBit v 9 = false := rfl

theorem characterBit_data (v : Byte) {i : Nat} (h : i < 8) : characterBit v (i + 1) = decide (v.getLsbD i = false) := by
  have hi : i + 1 ≤ 8 := h
  simp [characterBit, hi]

theorem frameBit_character {bytes : List Byte} {p : Nat} {v : Byte} (h : bytes[p / 10]? = some v) :
    frameBit bytes p = characterBit v (p % 10) := by
  unfold frameBit
  rw [h]

/-- The bits of the character a frame has come to: start bit, data bits and stop bit. -/
theorem frameBit_bits {bytes : List Byte} {p : Nat} {v : Byte} (h : bytes[p / 10]? = some v) :
    (p % 10 = 0 → frameBit bytes p = true) ∧ (p % 10 = 9 → frameBit bytes p = false) ∧
    (∀ i, i < 8 → p % 10 = i + 1 → frameBit bytes p = decide (v.getLsbD i = false)) := by
  rw [frameBit_character h]
  refine ⟨fun start => ?_, fun stop => ?_, fun i hi data => ?_⟩
  · rw [start, characterBit_start]
  · rw [stop, characterBit_stop]
  · rw [data, characterBit_data v hi]

/-! ## Halves and nibbles as fields of a word -/

theorem half_high_eq (h : Half) : h.high = h.extractLsb' 8 8 :=
  BitVec.eq_of_toNat_eq (by simp [Half.high])

theorem half_low_eq (h : Half) : h.low = h.extractLsb' 0 8 :=
  BitVec.eq_of_toNat_eq (by simp [Half.low])

theorem highNibble_eq (v : Byte) : highNibble v = v.extractLsb' 4 4 :=
  BitVec.eq_of_toNat_eq (by simp [highNibble])

theorem lowNibble_eq (v : Byte) : lowNibble v = v.extractLsb' 0 4 :=
  BitVec.eq_of_toNat_eq (by simp [lowNibble])

theorem nibbleOfTag_eq (t : Tag) : nibbleOfTag t = BitVec.ofNat 4 t.val := (BitVec.ofNat_toNat 4 (nibbleOfTag t)).symm

/-! ## The CRC (R17) -/

theorem crcBit_eq (reg : Half) (bit : Bool) :
    crcBit reg bit = if reg.getLsbD 15 ≠ bit then (reg <<< 1) ^^^ 0x1021 else reg <<< 1 :=
  (ite_not ..).symm

theorem crcOf_append (bs : List Byte) (v : Byte) : crcOf (bs ++ [v]) = crcByte (crcOf bs) v := List.foldl_append

/-- A byte moves the register bit by bit, most significant first. -/
theorem crcByte_eq (reg : Half) (v : Byte) :
    let next := fun (q : Half) (i : Nat) => if q.getLsbD 15 ≠ v.getLsbD i then (q <<< 1) ^^^ 0x1021 else q <<< 1
    crcByte reg v = next (next (next (next (next (next (next (next reg 7) 6) 5) 4) 3) 2) 1) 0 := by
  simp only [← crcBit_eq]
  rfl

/-! ## The bytes of a frame (Table 1.2) -/

/-- A frame with its CRC bytes as fields of the register (R11, R17). -/
theorem frameOf_eq (covered : List Byte) : frameOf covered =
    (0x96 : Byte) :: (covered ++ [(crcOf covered).extractLsb' 8 8, (crcOf covered).extractLsb' 0 8]) := by
  rw [frameOf, half_high_eq, half_low_eq]

/-- A filter that drops nothing is a map. -/
theorem filterMap_of_some {α β : Type} {f : α → Option β} {g : α → β} {l : List α} (h : ∀ a ∈ l, f a = some (g a)) :
    l.filterMap f = l.map g := by
  induction l with
  | nil => rfl
  | cons a l ih =>
    rw [List.filterMap_cons_some (h a List.mem_cons_self), ih fun b hb => h b (List.mem_cons_of_mem a hb), List.map_cons]

/-- A list that follows the outbound chain byte by byte is the payload sent (R14, R111). -/
theorem payloadBytes_eq {s : State} {k : SlotId} {payload : List Byte} {n : Nat} (len : payload.length = n)
    (h : ∀ i w, payload[i]? = some w → ∃ b, (s.outChain k)[i / 64]? = some b ∧ s.blockByte b (i % 64) = w) :
    s.payloadBytes k n = payload := by
  subst len
  have byte : ∀ i ∈ List.range payload.length,
      ((s.outChain k)[i / 64]?.map fun b => s.blockByte b (i % 64)) = some (payload.getD i 0) := by
    intro i hi
    have hi : i < payload.length := List.mem_range.mp hi
    obtain ⟨b, hb, hw⟩ := h i payload[i] (List.getElem?_eq_getElem hi)
    simp [hb, hw, hi]
  calc s.payloadBytes k payload.length
      = (List.range payload.length).map (payload.getD · 0) := filterMap_of_some byte
    _ = payload := List.ext_getElem (by simp) (by simp +contextual)

/-! ## When the part drives (R1, R5, Table 2.1) -/

section drives
variable {s : State} (h : s.nreset = true)
include h

theorem drives_arbitrating {c : Contention} (e : s.trunk.state = .arbitrating c) : s.drives = c.drives := by
  simp [State.drives, h, e]

theorem drives_resetting {n : Nat} (e : s.trunk.state = .resetting n) : s.drives = true := by
  simp [State.drives, h, e]

theorem drives_transmitting {f : Outgoing} {p : Nat} (e : s.trunk.state = .transmitting f p) :
    s.drives = frameBit (s.outgoingFrame f) p := by
  simp [State.drives, h, e]

theorem drives_replying {r : Reply} {p : Nat} (e : s.trunk.state = .replying r (.sending p)) :
    s.drives = frameBit (replyFrame r) p := by
  simp [State.drives, h, e]

end drives

theorem contention_drives_claim {c : Contention} (h : c.bit = 0) : c.drives = true := if_pos h

theorem contention_drives_rank {c : Contention} (h : 1 ≤ c.bit) :
    c.drives = decide (c.rank.getLsbD (5 - c.bit) = false) := by
  have ne : c.bit ≠ 0 := by omega
  simp [Contention.drives, ne]

/-! ## The claim bit (R24) -/

theorem claim_pending {s : State} {x : Send} (e : s.trunk.state = .idle) (p : s.trunk.pendingSend = some x) :
    s.claim = some (s.setTrunkState (.arbitrating ⟨s.rank, s.config.claimPolicy == .alternate, 0⟩)) := by
  unfold State.claim
  rw [e, p]

theorem foreignClaim_none {s : State} (e : s.trunk.state = .idle) (p : s.trunk.pendingSend = none) :
    s.foreignClaim = some (s.follow 5) := by
  unfold State.foreignClaim
  rw [e, p]

/-- Settles O39: what is driven by the arm of the controller's state, and the two rows of the claim bit by the pending send. -/
theorem claimBits : Obligations.ClaimBits := by
  refine ⟨fun s h => ⟨?_, fun n e => drives_resetting h e, fun c e claim => ?_, fun c e first _ => ?_⟩,
    fun s h e => ⟨fun x p => ?_, fun p => ?_⟩⟩
  · rintro (e | e | e | e | ⟨g, st, limit, n, e⟩ | ⟨r, e⟩ | ⟨r, n, e⟩) <;> simp [State.drives, e]
  · rw [drives_arbitrating h e, contention_drives_claim claim]
  · rw [drives_arbitrating h e, contention_drives_rank first]
  · exact occurs_some h (claim_pending e p)
  · exact occurs_some h (foreignClaim_none e p)

/-! ## A contention won (R26, R47, R86) -/

theorem togglePhase_eq (s : State) (c : Contention) : s.togglePhase c =
    s.setTrunk { s.trunk with phase := if c.alternate then !s.trunk.phase else s.trunk.phase } := by
  unfold State.togglePhase
  split <;> rfl

/-- A Launcher whose send contends, or contends again, is Launching once it has won (R86). -/
theorem launcherWon_eq {s : State} {k : SlotId} {n : Option Nat}
    (h : s.launcher.phase = .contending k n ∨ s.launcher.phase = .launching k n) :
    s.launcherWon = s.setPhase (.launching k n) := by
  unfold State.launcherWon
  rcases h with e | e
  · rw [e]
  · have same : s.setPhase (.launching k n) = s := by
      rw [setPhase_eq, ← e]
      rfl
    rw [e, same]

theorem entryWon_reserved {s : State} {t : Tag} {b : Bool} {x : Exchange} (h : s.entry t = .reserved b x) :
    s.entryWon t = s.setEntry t (.reserved true x) := by
  unfold State.entryWon
  rw [h]

/-- The state with the phase toggled as R7 says, the send consumed and the win at the Launcher. -/
def State.launcherTold (s : State) (c : Contention) (k : SlotId) (n : Option Nat) : State :=
  { s with
    launcher := { s.launcher with phase := .launching k n }
    trunk := { s.trunk with phase := if c.alternate then !s.trunk.phase else s.trunk.phase, pendingSend := none } }

/-- A win in terms of its two deliveries: the Launcher is told, then the entry of the send. -/
theorem win_eq {s : State} {c : Contention} {send : Send} {k : SlotId} {n : Option Nat}
    (e : s.trunk.state = .arbitrating c) (p : s.trunk.pendingSend = some send)
    (l : s.launcher.phase = .contending k n ∨ s.launcher.phase = .launching k n) :
    s.win = some (((s.launcherTold c k n).entryOfSendWon send).setTrunkState (.transmitting (s.outgoing send) 0)) := by
  have told : ((s.togglePhase c).setPendingSend none).launcherWon = s.launcherTold c k n := by
    rw [togglePhase_eq]
    exact launcherWon_eq l
  unfold State.win
  rw [e, p]
  dsimp only
  rw [told]

/-- The header of a REQUEST, with the repeat mark of its entry's attempts (R14). -/
theorem outgoing_request {s : State} {g : Tag} {b : Bool} {x : Exchange} (k : SlotId) (st : StationId)
    (h : s.entry g = .reserved b x) : s.outgoing (.request k g st) =
      ⟨.request k g st, (s.slot k).station.setWidth 4,
        (if 2 ≤ x.attempts then 8 else 0) ||| ((s.slot k).op.setWidth 4 &&& 7), BitVec.ofNat 4 g.val,
        (s.slot k).outLength.toNat⟩ := by
  simp only [State.outgoing, h, Entry.attempts, nibbleOfTag_eq]

/-- Settles O40: the frame on the line is that of the bytes covered, and a win is its two deliveries. -/
theorem contentionWonSends : Obligations.ContentionWonSends := by
  refine ⟨?_, ?_⟩
  · intro s f p payload v h e len bytes kind covered crc at_p
    have frame : s.outgoingFrame f = frameOf covered := by
      rw [State.outgoingFrame, payloadBytes_eq len bytes]
      rfl
    rw [drives_transmitting h e, frame, frameOf_eq]
    exact frameBit_bits at_p
  · intro s c k n h e l phase
    refine ⟨fun g st x b p entry => ?_, fun p => ?_⟩
    · have told : (s.launcherTold c k n).entry g = .reserved b x := entry
      have won := win_eq e p l
      rw [outgoing_request k st entry, State.entryOfSendWon, entryWon_reserved told] at won
      exact occurs_some h won
    · exact occurs_some h (win_eq e p l)

/-! ## Replies (R37) -/

theorem replyStarts_window {s : State} {r : Reply} {n : Nat} (e : s.trunk.state = .replying r (.window n)) :
    s.replyStarts = some (s.setTrunkState (.replying r (.sending 0))) := by
  unfold State.replyStarts
  rw [e]

theorem replyOut_sending {s : State} {r : Reply} {p : Nat} (e : s.trunk.state = .replying r (.sending p)) :
    s.replyOut = some ((s.count .framesSent).settle 0) := by
  unfold State.replyOut
  rw [e]

theorem replyCut_sending {s : State} {r : Reply} {p : Nat} (e : s.trunk.state = .replying r (.sending p)) :
    s.replyCut = some ((s.count .collisions).settle 0) := by
  unfold State.replyCut
  rw [e]

/-- Settles O54: the reply on the line is the frame of its header, and each row is the event of its state. -/
theorem repliesGoOut : Obligations.RepliesGoOut := by
  refine ⟨?_, ?_⟩
  · intro s x p v h e kind covered crc at_p
    have frame : replyFrame x = frameOf covered := rfl
    rw [drives_replying h e, frame, frameOf_eq]
    exact frameBit_bits at_p
  · intro s x h
    refine ⟨fun n e => ?_, fun p e => ⟨?_, ?_⟩⟩
    · exact occurs_some h (replyStarts_window e)
    · exact occurs_some h (replyOut_sending e)
    · exact occurs_some h (replyCut_sending e)

/-! ## The checks of a character (R12, R32) -/

theorem ofCode_isSome (n : Nibble) : (StationKind.ofCode n).isSome = true ↔ 9 ≤ n.toNat ∧ n.toNat ≤ 13 := by
  revert n
  decide

theorem stationOf_isSome (n : Nat) : (stationOf n).isSome = true ↔ 1 ≤ n ∧ n ≤ 14 := by
  rw [Option.isSome_iff_ne_none, ne_eq, stationOf_none]
  omega

section passes
variable {r : Reception} {v : Byte}

theorem passes_dominantStop : r.passes v false = false := rfl

theorem passes_lead (h : r.count = 0) : r.passes v true = decide (v = 0x96) := by
  rw [Bool.eq_iff_iff]
  simp [Reception.passes, h]

theorem passes_address (h : r.count = 1) : r.passes v true =
    ((StationKind.ofCode (v.extractLsb' 4 4)).isSome && (stationOf (v.extractLsb' 0 4).toNat).isSome) := by
  simp [Reception.passes, h, highNibble_eq, lowNibble_eq]

theorem passes_lengthLow (h : r.count = 4) :
    r.passes v true = decide (256 * (r.lengthHigh.getD 0).toNat + v.toNat ≤ 1024) := by
  simp [Reception.passes, h]

/-- The other characters are checked for their stop bit alone. -/
theorem passes_unchecked (h0 : r.count ≠ 0) (h1 : r.count ≠ 1) (h4 : r.count ≠ 4) : r.passes v true = true := by
  simp [Reception.passes, h0, h1, h4]

/-- The three checks of a character's value: the Lead byte, the kind and source, and the Length. -/
theorem passes_false (h : (r.count = 0 ∧ v ≠ 0x96) ∨
    (r.count = 1 ∧ ((v.extractLsb' 4 4).toNat < 9 ∨ 13 < (v.extractLsb' 4 4).toNat ∨ (v.extractLsb' 0 4).toNat = 0 ∨
      (v.extractLsb' 0 4).toNat = 15)) ∨
    (r.count = 4 ∧ 1024 < 256 * (r.lengthHigh.getD 0).toNat + v.toNat)) : r.passes v true = false := by
  obtain ⟨h0, wrong⟩ | ⟨h1, wrong⟩ | ⟨h4, long⟩ := h
  · rw [passes_lead h0]
    exact decide_eq_false wrong
  · rw [passes_address h1, Bool.eq_false_iff, ne_eq, Bool.and_eq_true, ofCode_isSome, stationOf_isSome]
    omega
  · rw [passes_lengthLow h4]
    exact decide_eq_false (by omega)

end passes

/-! ## The fields a character fills (R17, R32) -/

section fill
variable {r : Reception} {v : Byte}

theorem fill_lead (h : r.count = 0) : r.fill v = r := by
  simp [Reception.fill, h]

theorem fill_address (h : r.count = 1) : r.fill v =
    { r with
      kind := StationKind.ofCode (v.extractLsb' 4 4)
      source := stationOf (v.extractLsb' 0 4).toNat
      crc := crcByte r.crc v } := by
  simp [Reception.fill, h, highNibble_eq, lowNibble_eq]

theorem fill_codeTag (h : r.count = 2) : r.fill v =
    { r with
      code := some (v.extractLsb' 4 4)
      tag := some (v.extractLsb' 0 4).toFin
      crc := crcByte r.crc v } := by
  simp [Reception.fill, h, highNibble_eq, lowNibble_eq, tagOfNibble]

theorem fill_lengthHigh (h : r.count = 3) : r.fill v = { r with lengthHigh := some v, crc := crcByte r.crc v } := by
  simp [Reception.fill, h]

theorem fill_lengthLow (h : r.count = 4) : r.fill v =
    { r with length := some (256 * (r.lengthHigh.getD 0).toNat + v.toNat), crc := crcByte r.crc v } := by
  simp [Reception.fill, h]

theorem fill_payload {n : Nat} (behind : 5 ≤ r.count) (h : r.count < 5 + n) (len : r.length = some n) : r.fill v =
    { r with crc := crcByte r.crc v, due := if r.origin = .unsolicited then none else some v } := by
  have header : r.count ≠ 0 ∧ r.count ≠ 1 ∧ r.count ≠ 2 ∧ r.count ≠ 3 ∧ r.count ≠ 4 := by omega
  simp [Reception.fill, header, len, h]

theorem fill_crcHigh {n : Nat} (h : r.count = 5 + n) (len : r.length = some n) :
    r.fill v = { r with crcHigh := some v } := by
  have header : 5 + n ≠ 1 ∧ 5 + n ≠ 2 ∧ 5 + n ≠ 3 ∧ 5 + n ≠ 4 := by omega
  simp [Reception.fill, h, header, len]

theorem fill_crcLow {n : Nat} (h : r.count = 6 + n) (len : r.length = some n) : r.fill v =
    { r with crcGood := decide (r.crcHigh = some (r.crc.extractLsb' 8 8) ∧ v = r.crc.extractLsb' 0 8) } := by
  have header : 6 + n ≠ 1 ∧ 6 + n ≠ 2 ∧ 6 + n ≠ 3 ∧ 6 + n ≠ 4 := by omega
  have payload : ¬ 6 + n < 5 + n := by omega
  have good : decide (r.crcHigh = some (r.crc.extractLsb' 8 8) ∧ v = r.crc.extractLsb' 0 8) =
      (r.crcHigh == some (r.crc.extractLsb' 8 8) && v == r.crc.extractLsb' 0 8) := by
    rw [Bool.eq_iff_iff]
    simp
  rw [good]
  simp [Reception.fill, h, header, payload, len, half_high_eq, half_low_eq]

end fill

/-! ## A completed character (R32) -/

section character
variable {s : State} {r : Reception} (h : s.nreset = true) (e : s.trunk.state = .receiving r) (sound : r.malformed = false)
  (going : r.complete = false) (due : r.nothingDue)
include h e sound going due

/-- With nothing to hand on, a reception that is neither malformed nor complete takes the character. -/
theorem characterReceived_takes (v : Byte) (stopRecessive : Bool) :
    exec (.characterReceived v stopRecessive) s = .next (s.setReception (r.take v stopRecessive)) := by
  refine occurs_some (event := "CHARACTER_RECEIVED") (effect := (·.characterIn v stopRecessive)) h ?_
  unfold State.characterIn
  rw [handDue_nothing s r e due, e]
  simp [sound, going]

theorem characterReceived_fails {v : Byte} {stopRecessive : Bool} (fails : r.passes v stopRecessive = false) :
    exec (.characterReceived v stopRecessive) s = .next (s.setReception
      { r with count := r.count + 1, malformed := true, gap := 0, arbitrationLeft := 0, char := none }) := by
  rw [characterReceived_takes h e sound going due, Reception.take, if_neg (by simp [fails])]

theorem characterReceived_fills {v : Byte} {q : Reception} (passes : r.passes v true = true) (fills : r.fill v = q) :
    exec (.characterReceived v true) s = .next (s.setReception
      { q with count := r.count + 1, gap := 0, arbitrationLeft := 0, char := none }) := by
  rw [characterReceived_takes h e sound going due, Reception.take, if_pos passes, fills]

end character

/-- Settles O46: a character that passes its check fills the record by its count, any other sets the malformed flag. -/
theorem characterChecksAndFields : Obligations.CharacterChecksAndFields := by
  refine ⟨⟨rfl, crcOf_append, crcByte_eq⟩, ?_⟩
  intro s r v h e sound going due got length
  have fails {stop : Bool} (p : r.passes v stop = false) := characterReceived_fails h e sound going due p
  have fills {q : Reception} (p : r.passes v true = true) (f : r.fill v = q) :=
    characterReceived_fills h e sound going due p f
  have unchecked (c : r.count = 2 ∨ r.count = 3 ∨ 5 ≤ r.count) : r.passes v true = true :=
    passes_unchecked (by omega) (by omega) (by omega)
  refine ⟨fails passes_dominantStop, fun bad => fails (passes_false bad), fun c lead => ?_, fun kind i c known source => ?_,
    fun c => ?_, fun c => ?_, fun c short => ?_, fun n five c len => ?_, fun n c len => ?_, fun n c len => ?_⟩
  · exact fills (by rw [passes_lead c, lead]; rfl) (fill_lead c)
  · have station := stationOf_some.mpr source
    have filled := fill_address (v := v) c
    rw [known, station] at filled
    exact fills (by rw [passes_address c, known, station]; rfl) filled
  · exact fills (unchecked (by omega)) (fill_codeTag c)
  · exact fills (unchecked (by omega)) (fill_lengthHigh c)
  · exact fills (by rw [passes_lengthLow c]; exact decide_eq_true short) (fill_lengthLow c)
  · exact fills (unchecked (by omega)) (fill_payload five c len)
  · exact fills (unchecked (by omega)) (fill_crcHigh c len)
  · exact fills (unchecked (by omega)) (fill_crcLow c len)

end Sys2Proof.Machine
end

section
/-! PROOFS. The Exchange Table (chapter 3): Outstanding along every step, the timers, WITHDRAW, a launch and its undoing, and the frames
that end an attempt or a recall. -/

namespace Sys2Proof.Machine

open Sys2Proof

/-! ## Outstanding along a step (R46) -/

namespace Out

theorem bitTime (s : State) : Out s s.bitTime := by
  have beaten : Out s s.beat.lineBit := trans (beat s) (lineBit _)
  unfold State.bitTime
  split
  · have passed : Out s (if 4095 ≤ s.trunk.heartbeat then s.tickBit else s.beat.lineBit) := by
      split
      · exact tickBit s
      · exact beaten
    dsimp only
    split
    · exact getD (fun t e => trans passed (softResetCompletes _ t e)) passed
    · exact passed
  · exact refl s

theorem advanceSlotIndex (s : State) : Out s s.advanceSlotIndex := tables rfl rfl

theorem nresetAsserted (s t : State) (e : Machine.execNresetAsserted s = .next t) : Out s t := by
  cases e
  exact tables rfl rfl

theorem hardwareReset (s t : State) (e : Machine.execHardwareReset s = .next t) : Out s t := by
  cases e
  exact ofReset rfl rfl

/-- Each row is one of the three shells about an operation that keeps the rule, or a reset. -/
theorem exec (i : Instr) (s t : State) (e : Machine.exec i s = .next t) : Out s t := by
  cases i with
  | hardwareReset => exact hardwareReset s t e
  | nresetAsserted => exact nresetAsserted s t e
  | softReset | start | continueChain | halt | withdraw | pop | takeBlock | freeChain | fenceStation | admitStation | trunkReset
  | clearCounters => exact busWrite (writeCommand · _) s t e
  | unknown code => exact busWrite (writeCommand · code) s t e
  | commandOverrun code => exact busWrite (writeCommand · code) s t e
  | windowWrite a v => exact busWrite (writeWindow · a v) s t e
  | slotSelectWrite v => exact busWrite (writeSlotSelect · v) s t e
  | slotFieldIndexWrite v => exact busWrite (writeSlotIndex · v) s t e
  | slotFieldDataWrite v => exact busWrite (writeSlotData · v) s t e
  | reportFieldIndexWrite v => exact busWrite (writeReportIndex · v) s t e
  | stationSelectWrite v => exact busWrite (writeStationSelect · v) s t e
  | stationFieldIndexWrite v => exact busWrite (writeStationIndex · v) s t e
  | blockSelectWrite v => exact busWrite (writeBlockSelect · v) s t e
  | blockOffsetWrite v => exact busWrite (writeBlockOffset · v) s t e
  | blockLinkWrite v => exact busWrite (writeBlockLink · v) s t e
  | configIndexWrite v => exact busWrite (writeConfigIndex · v) s t e
  | configDataWrite v => exact busWrite (writeConfigData · v) s t e
  | trunkDividerLowWrite v => exact busWrite (writeDividerLow · v) s t e
  | trunkDividerHighWrite v => exact busWrite (writeDividerHigh · v) s t e
  | trunkEnableWrite v => exact busWrite (writeTrunkEnable · v) s t e
  | eventsWrite v => exact busWrite (writeEvents · v) s t e
  | eventMaskWrite v => exact busWrite (writeMask · v) s t e
  | counterIndexWrite v => exact busWrite (writeCounterIndex · v) s t e
  | blockDataAccess a => cases a with
    | read => exact busRead (value := (·.windowValue 0x14)) readBlockData s t e
    | write v => exact busWrite (writeBlockData · v) s t e
  | slotFieldDataRead => exact busRead (value := (·.windowValue 0x0B)) advanceSlotIndex s t e
  | counterDataRead => exact busRead (value := (·.windowValue 0x1A)) readCounter s t e
  | softResetComplete => exact occurs softResetCompletes s t e
  | tick order => exact occurs (fun s u h => Option.some.inj h ▸ tick s order) s t e
  | deadlineExpiry g => exact occurs (deadlineExpires · · g) s t e
  | restEnd g => exact occurs (restEnds · · g) s t e
  | coalescingTimerExpiry => exact occurs coalescingExpires s t e
  | lineIdle => exact occurs lineFallsIdle s t e
  | faultClear => exact occurs faultClears s t e
  | stuckLine => exact occurs sticks s t e
  | contentionWon => exact occurs win s t e
  | contentionLost cause => exact occurs (lose · · cause) s t e
  | requestSent => exact occurs requestOut s t e
  | noticeSent => exact occurs noticeOut s t e
  | collision => exact occurs frameCut s t e
  | answerTimerExpiry stationFirst => exact occurs (answerWindowExpired · · stationFirst) s t e
  | header => exact occurs handHeader s t e
  | payloadByte => exact occurs handPayload s t e
  | frameEnd => exact occurs frameEnded s t e
  | gapTimerExpiry => exact occurs gapExpired s t e
  | malformedRunEnd => exact occurs malformedEnded s t e
  | replyWindow => exact occurs replyStarts s t e
  | replySent => exact occurs replyOut s t e
  | replyCollision => exact occurs replyCut s t e
  | markEnd => exact occurs markEnds s t e
  | trunkResetComplete => exact occurs trunkResetCompletes s t e
  | claimBit => exact occurs claim s t e
  | foreignClaimBit => exact occurs foreignClaim s t e
  | startBit => exact occurs startBitSeen s t e
  | characterReceived v stop => exact occurs (characterIn · · v stop) s t e

end Out

/-- Settles O60: a step is a bit time or the front command's row, and each keeps the rule of R46. -/
theorem stepKeepsOutstanding : Obligations.StepKeepsOutstanding := by
  intro s t e
  unfold step at e
  split at e
  · cases e
    exact Out.bitTime s
  · rename_i c rest _
    exact Out.trans (t := { s with pending := rest }) (Out.tables rfl rfl) (Out.exec c _ t e)

/-! ## The timers (R59, R69, R144) -/

theorem deadlineExpires_deferred {s : State} {g : Tag} {x : Exchange} {d : Nat} (e : s.entry g = .deferred x d) (last : d ≤ 1) :
    s.deadlineExpires g =
      some ((s.ended g x .expired none none none [] x.reservedChain).closed x.slot .expired).reevaluate := by
  unfold State.deadlineExpires
  rw [deadlineTick_eq, e]
  simp only [last, if_true]

theorem deadlineExpires_receiving {s : State} {g : Tag} {x : Exchange} {d : Nat} {p : Bool} {c : RecallStore}
    (e : s.entry g = .receiving x d p c) (last : d ≤ 1) :
    s.deadlineExpires g = some (s.setEntry g (.receiving x 0 true c)) := by
  have zero : d - 1 = 0 := by omega
  unfold State.deadlineExpires
  rw [deadlineTick_eq, e]
  simp only [last, if_true, zero, decide_true, Bool.or_true]
  rfl

theorem restEnds_resting {s : State} {g : Tag} {st : StationId} {n : Nat} (e : s.entry g = .resting st n) (last : n ≤ 1) :
    s.restEnds g = some (s.setEntry g .free).reevaluate := by
  unfold State.restEnds State.restTick
  rw [e]
  simp only [last, if_true]

theorem coalescingExpires_last {s : State} {n : Nat} (e : s.reports.timer = some n) (last : n ≤ 1) :
    s.coalescingExpires = some (s.setReports { s.reports with timer := none, overdue := true }) := by
  unfold State.coalescingExpires State.reportsTick Reports.tick
  rw [e]
  simp only [last, if_true]

/-- Settles O36: each row is the last tick of its timer. -/
theorem timersRunOut : Obligations.TimersRunOut := by
  intro s h
  refine ⟨fun g x d e last => ?_, fun g x d p c e last => ?_, fun g st n e last => ?_, fun n e last => ?_⟩
  · exact occurs_some (effect := (·.deadlineExpires g)) h (deadlineExpires_deferred e last)
  · exact occurs_some (effect := (·.deadlineExpires g)) h (deadlineExpires_receiving e last)
  · exact occurs_some (effect := (·.restEnds g)) h (restEnds_resting e last)
  · exact occurs_some h (coalescingExpires_last e last)

/-! ## WITHDRAW (R66) -/

theorem withdraw_range {s : State} (h : s.portFree) (a : 16 ≤ s.port.arg0.toNat) :
    exec .withdraw s = .next (s.commandDone 0x04 .range 0) := by
  refine (writeCommand_free h 0x04).trans ?_
  show Host.Outcome.next (State.commandWithdraw _) = _
  unfold State.commandWithdraw
  dsimp only [setPort_port]
  rw [tagOf_none.mpr a]
  rfl

/-- WITHDRAW of a tag is the table's answer with the command completed. -/
theorem withdraw_tag {s : State} (h : s.portFree) {g : Tag} (a : s.port.arg0.toNat = g.val) :
    exec .withdraw s = .next ((s.withdrawTag g).2.commandDone 0x04 (s.withdrawTag g).1 0) := by
  refine (writeCommand_free h 0x04).trans ?_
  show Host.Outcome.next (State.commandWithdraw _) = _
  unfold State.commandWithdraw
  dsimp only [setPort_port]
  rw [tagOf_some.mpr a]
  dsimp only
  rw [IgnoresPort.withdrawTag_result]
  exact congrArg _ (complete_after (IgnoresPort.withdrawTag g) s 0x04 _ 0)

theorem withdrawTag_deferred {s : State} {g : Tag} {x : Exchange} {d : Nat} (e : s.entry g = .deferred x d) :
    s.withdrawTag g =
      (.ok, ((s.ended g x .withdrawn none none none [] x.reservedChain).closed x.slot .withdrawn).reevaluate) := by
  unfold State.withdrawTag
  rw [e]
  dsimp only
  rw [finishDeferred_eq]
  rfl

theorem withdrawTag_later {s : State} {g : Tag} (e : (∃ b x, s.entry g = .reserved b x) ∨
    (∃ x d, s.entry g = .awaiting x d) ∨ (∃ x d p c, s.entry g = .receiving x d p c)) : s.withdrawTag g = (.later, s) := by
  unfold State.withdrawTag
  obtain ⟨b, x, e⟩ | ⟨x, d, e⟩ | ⟨x, d, p, c, e⟩ := e <;> rw [e]

theorem withdrawTag_noExchange {s : State} {g : Tag} (e : s.entry g = .free ∨ (∃ x d, s.entry g = .done x d) ∨
    (∃ st n, s.entry g = .resting st n)) : s.withdrawTag g = (.noExchange, s) := by
  unfold State.withdrawTag
  obtain e | ⟨x, d, e⟩ | ⟨st, n, e⟩ := e <;> rw [e]

/-- Settles O16: the answer of the table by the entry's state. -/
theorem withdrawByState : Obligations.WithdrawByState := by
  intro s h
  refine ⟨withdraw_range h, fun g a => ⟨fun x d e => ?_, fun e => ?_, fun e => ?_⟩⟩
  · rw [withdraw_tag h a, withdrawTag_deferred e]
  · rw [withdraw_tag h a, withdrawTag_later e]
  · rw [withdraw_tag h a, withdrawTag_noExchange e]

/-! ## START of a slot that launches (R84, R85) -/

/-- A stopped Launcher takes the slot that START names (R95). -/
theorem start_takes {s : State} {k : SlotId} (h : s.portFree) (a : s.port.arg0.toNat = k.val) (stopped : s.launcher.phase.stopped) :
    exec .start s = .next ((State.take k s).commandDone 0x01 .ok 0) := by
  refine (writeCommand_free h 0x01).trans ?_
  show Host.Outcome.next (State.commandStart _) = _
  unfold State.commandStart
  dsimp only [setPort_port, setPort_launcher]
  rw [slotOf_some.mpr a]
  have taken := complete_after (IgnoresPort.take k) s 0x01 .ok 0
  cases e : s.launcher.phase with
  | idle => exact congrArg _ taken
  | held p => exact congrArg _ taken
  | waiting j w => simp [e, Phase.stopped] at stopped
  | contending j n => simp [e, Phase.stopped] at stopped
  | launching j n => simp [e, Phase.stopped] at stopped

theorem launchChecks_passed {s : State} {k : SlotId} {op : SlotOp} {st : StationId} {g : Tag} (sound : s.slotSound k)
    (ho : (s.slot k).op.toNat = op.code) (hs : (s.slot k).station.toNat = st.address)
    (unfenced : (s.station st).presence ≠ .fenced) (room : (s.station st).outstanding < (s.station st).depth)
    (free : s.firstFree g) (blocks : blocksFor (s.slot k).limit ≤ s.pool.freeList.length) :
    (s.activateSlot k).launchChecks k = .exchange op st g := by
  rw [launchChecks_sound s k op st sound ho hs, if_neg unfenced, if_neg (Nat.not_le.mpr room), (lowestFree_some s g).mpr free]
  exact if_neg (Nat.not_lt.mpr blocks)

theorem outChain_activated (s : State) (k : SlotId) : (s.activateSlot k).outChain k = s.outChain k := by
  unfold State.outChain
  rw [slot_activate]
  rfl

/-- A reservation as one change of the whole state (R45, R84). -/
theorem reserve_eq (s : State) (k : SlotId) (op : SlotOp) (st : StationId) (g : Tag) : s.reserve k op st g = { s with
    slots := s.slots.set k { s.slot k with lastTag := some g }
    launcher := { s.launcher with phase := .contending k none }
    entries := s.entries.set g (.reserved false (newExchange s k op st))
    stations := s.stations.set st { s.station st with outstanding := (s.station st).outstanding + 1 }
    pool := (s.pool.take (blocksFor (newExchange s k op st).inLimit) (.reserved g)).setOwners (s.outChain k) (.outbound k)
    trunk := { s.trunk with pendingSend := some (.request k g st) } } := by
  unfold State.reserve State.raiseOutstanding
  dsimp only [State.setPendingSend, State.setTrunk, State.setPhase, State.setLauncher, State.setSlot, State.setStation,
    State.station, State.setEntry, State.setPool]

/-- The reservation of a slot just taken. -/
theorem reserve_activated {s : State} {k : SlotId} {op : SlotOp} (st : StationId) (g : Tag)
    (ho : (s.slot k).op.toNat = op.code) : (s.activateSlot k).reserve k op st g = { s with
      slots := s.slots.set k { (s.slot k).taken with lastTag := some g }
      launcher := { s.launcher with phase := .contending k none }
      entries := s.entries.set g (.reserved false
        ⟨st, k, op, (s.slot k).limit, (s.slot k).keep, s.pool.freeList.take (blocksFor (s.slot k).limit), 1, 0⟩)
      stations := s.stations.set st { s.station st with outstanding := (s.station st).outstanding + 1 }
      pool := (s.pool.take (blocksFor (s.slot k).limit) (.reserved g)).setOwners (s.outChain k) (.outbound k)
      trunk := { s.trunk with pendingSend := some (.request k g st) } } := by
  have limit : exchangeLimit op (s.slot k).taken = (s.slot k).limit := exchangeLimit_eq (s.slot k).taken op ho
  have slots : (s.activateSlot k).slots.set k { (s.slot k).taken with lastTag := some g } =
      s.slots.set k { (s.slot k).taken with lastTag := some g } := Vector.set_set ..
  have station : (s.activateSlot k).station st = s.station st := rfl
  rw [reserve_eq, newExchange, slot_activate, limit, outChain_activated, slots, station]
  rfl

/-- The launch of a NOTICE slot just taken (R85). -/
theorem launchNotice_activated (s : State) (k : SlotId) : (s.activateSlot k).launchNotice k = { s with
    slots := s.slots.set k (s.slot k).taken
    launcher := { s.launcher with phase := .contending k (some 1) }
    pool := s.pool.setOwners (s.outChain k) (.outbound k)
    trunk := { s.trunk with pendingSend := some (.notice k) } } := by
  unfold State.launchNotice
  rw [outChain_activated]
  rfl

/-- Settles O11: START takes the slot, and what the launch checks decide is the reservation or the launch of a NOTICE. -/
theorem startLaunches : Obligations.StartLaunches := by
  intro s k h a stopped inactive sound
  rw [start_takes h a stopped, take_inactive s k inactive]
  unfold checkWith
  refine ⟨fun op st g ho hs unfenced room free blocks => ?_, fun ho => ?_⟩
  · rw [launchChecks_passed sound ho hs unfenced room free blocks]
    exact congrArg (fun t => Host.Outcome.next (State.commandDone t 0x01 .ok 0)) (reserve_activated st g ho)
  · rw [launchChecks_notice s k sound ho]
    exact congrArg (fun t => Host.Outcome.next (State.commandDone t 0x01 .ok 0)) (launchNotice_activated s k)

/-! ## HALT in Contending (R70, R97) -/

/-- A reservation undone as one change of the whole state (R70). -/
theorem undoEntry_eq (s : State) (g : Tag) (x : Exchange) : s.undoEntry g x = { s with
    entries := s.entries.set g .free
    stations := s.stations.set x.station
      { s.station x.station with outstanding := (s.station x.station).outstanding - 1 }
    pool := s.pool.appendAll x.reservedChain } := by
  unfold State.undoEntry State.lowerOutstanding
  dsimp only [State.setStation, State.station, State.freeBlocks, State.setPool, State.setEntry]

theorem undoSend_request {s : State} {k : SlotId} {g : Tag} {x : Exchange} {st : StationId}
    (p : s.trunk.pendingSend = some (.request k g st)) (e : s.entry g = .reserved false x) : s.undoSend = { s with
      entries := s.entries.set g .free
      stations := s.stations.set x.station
        { s.station x.station with outstanding := (s.station x.station).outstanding - 1 }
      pool := s.pool.appendAll x.reservedChain } := by
  unfold State.undoSend
  rw [p]
  dsimp only
  rw [e]
  exact undoEntry_eq s g x

theorem undoSend_notice {s : State} {k : SlotId} (p : s.trunk.pendingSend = some (.notice k)) : s.undoSend = s := by
  unfold State.undoSend
  rw [p]

/-- A launch undone from the state its entry's undoing leaves (R97). -/
theorem undoLaunch_eq {s t : State} (k : SlotId) (e : s.undoSend = t) : s.undoLaunch k = { t with
    slots := t.slots.set k (t.slot k).undone
    launcher := ⟨.held k, false, false⟩
    pool := t.pool.setOwners (t.outChain k) .processor
    trunk := { t.trunk with
      state := match t.trunk.state with
        | .arbitrating c => .receiving (newReception .arbitration t.config.gapTime (6 - c.bit) none)
        | other => other
      pendingSend := none }
    reports := { t.reports with latches := { t.reports.latches with launcherStopped := true } } } := by
  unfold State.undoLaunch
  rw [e, withdrawSend_eq]
  rfl

theorem undoSend_setPort (s : State) (p : Port) : (s.setPort p).undoSend = s.undoSend.setPort p := by
  have entry (g : Tag) : (s.setPort p).entry g = s.entry g := rfl
  unfold State.undoSend
  rw [setPort_trunk]
  split
  · rw [entry]
    split <;> rfl
  · rfl
  · rfl

theorem IgnoresPort.undoLaunch (k : SlotId) : IgnoresPort fun s => s.undoLaunch k := by
  intro s p
  show (s.setPort p).undoLaunch k = (s.undoLaunch k).setPort p
  rw [undoLaunch_eq k (undoSend_setPort s p), undoLaunch_eq k rfl]
  rfl

theorem halt_undoes {s : State} {k : SlotId} {n : Option Nat} (h : s.portFree) (e : s.launcher.phase = .contending k n) :
    exec .halt s = .next ((s.undoLaunch k).commandDone 0x03 .ok 0) := by
  refine (writeCommand_free h 0x03).trans ?_
  show Host.Outcome.next (State.commandHalt _) = _
  unfold State.commandHalt
  rw [setPort_launcher, e]
  exact congrArg _ (complete_after (IgnoresPort.undoLaunch k) s 0x03 .ok 0)

/-- Settles O13: HALT undoes the launch, from the state that the undoing of its send's entry leaves. -/
theorem haltUndoesALaunch : Obligations.HaltUndoesALaunch := by
  intro s k h
  refine ⟨fun n e p => ?_, fun g x e p entry => ?_⟩
  · rw [halt_undoes h e]
    exact congrArg (fun t => Host.Outcome.next (State.commandDone t 0x03 .ok 0)) (undoLaunch_eq k (undoSend_notice p))
  · rw [halt_undoes h e]
    exact congrArg (fun t => Host.Outcome.next (State.commandDone t 0x03 .ok 0))
      (undoLaunch_eq k (undoSend_request p entry))

/-! ## How a reception ends (R35, R36) -/

/-- A reception with nothing due that ends not good takes the route of its class's frames. -/
theorem endsBad_routes {s : State} {r : Reception} {event : Instr} {n : Fin 12} (h : s.nreset = true)
    (e : s.trunk.state = .receiving r) (due : r.nothingDue) (bad : r.endsBad event n) :
    exec event s = .next ((s.receptionOver n).routeBad r) := by
  have reception := receptionOf_nothing s r e due
  have handed := handDue_nothing s r e due
  obtain ⟨rfl, rfl, sound, complete, crc⟩ | ⟨rfl, rfl, sound, going, between⟩ | ⟨rfl, rfl, malformed⟩ := bad
  · refine occurs_some (event := "FRAME_END") (effect := State.frameEnded) h ?_
    unfold State.frameEnded
    rw [reception, handed]
    simp only [sound, complete, crc]
    rfl
  · refine occurs_some (event := "GAP_TIMER_EXPIRY") (effect := State.gapExpired) h ?_
    unfold State.gapExpired
    rw [reception, handed]
    simp only [sound, going, between]
    rfl
  · refine occurs_some (event := "MALFORMED_RUN_END") (effect := State.malformedEnded) h ?_
    unfold State.malformedEnded
    rw [reception, handed]
    simp only [malformed]
    rfl

/-- A good frame reaches the record of its source, then the route of its origin. -/
theorem endsGood_routes {s : State} {r : Reception} {g : Header} (h : s.nreset = true) (e : s.trunk.state = .receiving r)
    (due : r.nothingDue) (good : r.endsGood) (header : r.headerIn = some g) :
    exec .frameEnd s = .next (((s.receptionOver 1).heardFrom g.source).routeGood r.origin g) := by
  obtain ⟨sound, complete, crc⟩ := good
  refine occurs_some (event := "FRAME_END") (effect := State.frameEnded) h ?_
  unfold State.frameEnded
  rw [receptionOf_nothing s r e due, handDue_nothing s r e due]
  simp only [sound, complete, crc]
  unfold State.endReception
  dsimp only
  rw [header, ← goodFrame_eq]
  rfl

/-! ## A recall that is not good (R63, R65) -/

/-- A bad frame after an arbitration reaches the table only as a RECALL. -/
theorem routeBad_arbitration {s : State} {r : Reception} {h : Header} (origin : r.origin = .arbitration)
    (handed : r.handed = true) (header : r.headerIn = some h) :
    s.routeBad r = if h.kind = .recall then s.recallBad h.tag else s := by
  unfold State.routeBad
  rw [origin, header, handed]
  simp

theorem recallBad_other {s : State} {g : Tag} (e : ∀ x d p c, s.entry g ≠ .receiving x d p c) : s.recallBad g = s := by
  unfold State.recallBad
  split
  · exact absurd ‹_› (e _ _ _ _)
  all_goals rfl

theorem receivingBlocks_eq (x : Exchange) (c : RecallStore) : receivingBlocks x c = x.reservedChain ++ match c with
    | .taken bs => bs
    | .reserved => []
    | .overrun => []
    | .busy => [] := by
  cases c <;> simp [receivingBlocks]

theorem recallBad_expired {s : State} {g : Tag} {x : Exchange} {d : Nat} {c : RecallStore}
    (e : s.entry g = .receiving x d true c) : s.recallBad g =
      ((s.ended g x .expired none none none [] (receivingBlocks x c)).closed x.slot .expired).reevaluate := by
  unfold State.recallBad
  rw [e]
  dsimp only
  rw [if_pos rfl, finishDeferred_eq]
  rfl

theorem recallBad_reserved {s : State} {g : Tag} {x : Exchange} {d : Nat} (e : s.entry g = .receiving x d false .reserved) :
    s.recallBad g = (s.setPool (s.pool.setOwners x.reservedChain (.reserved g))).setEntry g (.deferred x d) := by
  unfold State.recallBad
  rw [e]
  rfl

theorem recallBad_taken {s : State} {g : Tag} {x : Exchange} {d : Nat} {b : BlockId} {bs : List BlockId}
    (e : s.entry g = .receiving x d false (.taken (b :: bs))) :
    s.recallBad g = ((s.setEntry g (.deferred x d)).freeBlocks (b :: bs)).reevaluate := by
  unfold State.recallBad
  rw [e]
  rfl

/-- A recall that holds no blocks of its own leaves nothing but the entry to put back. -/
theorem recallBad_unstored {s : State} {g : Tag} {x : Exchange} {d : Nat} {c : RecallStore}
    (e : s.entry g = .receiving x d false c) (none : c = .overrun ∨ c = .busy ∨ c = .taken []) :
    s.recallBad g = s.setEntry g (.deferred x d) := by
  unfold State.recallBad
  rw [e]
  obtain rfl | rfl | rfl := none <;> rfl

/-- Settles O50: the route of a bad frame, and what the entry that took the header makes of it. -/
theorem badRecallEnds : Obligations.BadRecallEnds := by
  intro s r event n h high e due bad origin handed header closing
  have entries : closing.entry h.tag = s.entry h.tag := rfl
  have ends : exec event s = .next (if h.kind = .recall then closing.recallBad h.tag else closing) := by
    rw [endsBad_routes high e due bad, routeBad_arbitration origin handed header]
  rw [ends, ← entries]
  refine ⟨?_, fun x d kind receiving => ?_, fun x d c kind receiving unstored => ?_, fun x d b bs kind receiving => ?_,
    fun x d c kind receiving => ?_⟩
  · rintro (other | idle)
    · rw [if_neg other]
    · rw [recallBad_other idle, ite_self]
  · rw [if_pos kind, recallBad_reserved receiving]
    rfl
  · rw [if_pos kind, recallBad_unstored receiving unstored]
    rfl
  · rw [if_pos kind, recallBad_taken receiving]
    rfl
  · rw [if_pos kind, recallBad_expired receiving]
    exact congrArg (fun bs => Host.Outcome.next
      (((closing.ended h.tag x .expired none none none [] bs).closed x.slot .expired).reevaluate)) (receivingBlocks_eq x c)

/-! ## A good frame in the answer window (R49 to R52) -/

theorem heardFrom_launching {s : State} {k : SlotId} {m : Option Nat} (l : s.launcher.phase = .launching k m) (i : StationId) :
    s.heardFrom i = s.setStation i (s.station i).heard := by
  rw [← goodFrame_eq]
  exact updateStation_launching s i _ k m l

theorem answerFrameEnd_good {s : State} {g : Tag} {x : Exchange} {c : Option AnswerStore} (e : s.entry g = .awaiting x c)
    (h : Header) : s.answerFrameEnd g (some h) = s.answerGood g x h := by
  unfold State.answerFrameEnd
  rw [e]

section answerGood
variable (s : State) {g : Tag} {x : Exchange} {h : Header}

theorem answerGood_wrong (wrong : ¬ (h.source = x.station ∧ h.tag = g)) :
    s.answerGood g x h = s.finishAnswer g x (endWith .protocol x.reservedChain) := if_neg wrong

/-- A frame from the right station under the right tag, by its kind (Table 3.3). -/
theorem answerGood_right (right : h.source = x.station ∧ h.tag = g) : s.answerGood g x h = match h.kind with
    | .answer =>
      if h.length ≤ x.inLimit then s.answerAccepted g x h.length h.code
      else s.finishAnswer g x ⟨.overrun, some h.length, some h.code, none, [], x.reservedChain⟩
    | .defer => s.answerDeferred g x
    | .refuse => s.finishAnswer g x ⟨.refused, none, none, some h.code, [], x.reservedChain⟩
    | .recall => s.finishAnswer g x (endWith .protocol x.reservedChain)
    | .attention => s.finishAnswer g x (endWith .protocol x.reservedChain) := if_pos right

end answerGood

section answerAccepted
variable (s : State) (g : Tag) {x : Exchange} (length : Nat) (status : Nibble)

theorem answerAccepted_data (op : x.op ≠ .probe) : s.answerAccepted g x length status =
    s.finishAnswer g x ⟨.ok, some length, some status, none, x.reservedChain.take (blocksFor length),
      x.reservedChain.drop (blocksFor length)⟩ := if_neg op

theorem answerAccepted_empty (op : x.op = .probe) (got : x.reservedChain.take (blocksFor length) = []) :
    s.answerAccepted g x length status =
      s.finishAnswer g x ⟨.protocol, some length, some status, none, [], x.reservedChain⟩ := by
  unfold State.answerAccepted
  dsimp only
  rw [if_pos op, got]

/-- A PROBE's answer teaches the record when it is accepted (R50, R128). -/
theorem answerAccepted_probe {b : BlockId} {bs : List BlockId} (op : x.op = .probe)
    (got : x.reservedChain.take (blocksFor length) = b :: bs) : s.answerAccepted g x length status =
      if probeAccepted length (s.blockByte b 0) then
        (s.updateStation x.station ((s.station x.station).probedWith (s.blockByte b 0) (s.blockByte b 1) (s.blockByte b 2)
          (s.blockByte b 3))).finishAnswer g x
            ⟨.ok, some length, some status, none, b :: bs, x.reservedChain.drop (blocksFor length)⟩
      else s.finishAnswer g x ⟨.protocol, some length, some status, none, [], x.reservedChain⟩ := by
  unfold State.answerAccepted
  dsimp only
  rw [if_pos op, got]

end answerAccepted

/-- A good frame that is no answer to the exchange ends it PROTOCOL (R52). -/
theorem answerGood_protocol (s : State) {g : Tag} {x : Exchange} {h : Header}
    (other : ¬ (h.source = x.station ∧ h.tag = g) ∨ h.kind = .recall ∨ h.kind = .attention ∨ (h.kind = .defer ∧ x.op = .probe)) :
    s.answerGood g x h = s.finishAnswer g x (endWith .protocol x.reservedChain) := by
  by_cases right : h.source = x.station ∧ h.tag = g
  · rw [answerGood_right s right]
    obtain wrong | kind | kind | ⟨kind, op⟩ := other
    · exact absurd right wrong
    · rw [kind]
    · rw [kind]
    · rw [kind]
      exact if_pos op
  · exact answerGood_wrong s right

theorem probeAccepted_iff (length : Nat) (depth : Byte) :
    probeAccepted length depth = true ↔ length = 4 ∧ 1 ≤ depth.toNat ∧ depth.toNat ≤ 4 := by
  simp [probeAccepted]

/-- The patience of a deferral, with the slot's byte looked at as it stands (R51). -/
theorem patienceOf_eq (s : State) (k : SlotId) : s.patienceOf k =
    if (s.slot k).patience = 0 then s.config.defaultPatience else (s.slot k).patience.toNat := by
  have zero : (s.slot k).patience.toNat = 0 ↔ (s.slot k).patience = 0 := BitVec.toNat_inj (y := 0)
  unfold State.patienceOf
  simp only [zero]

/-- "Answer phase ended, deferred" moves the Launcher on with the slot still Active (R51, R89). -/
theorem answerPhaseDeferred_eq {s : State} {k : SlotId} {m : Option Nat} (l : s.launcher.phase = .launching k m) (o : OutcomeCode)
    (n : Nat) : s.answerPhaseDeferred k n =
      State.moveOn k { s.launchEnded k o n with slots := s.slots.set k { s.slot k with attempts := n } } := by
  have returned : (s.returnOutbound k).setAttempts k n =
      { s.launchEnded k o n with slots := s.slots.set k { s.slot k with attempts := n } } := by
    unfold State.returnOutbound State.launchEnded
    split <;> rfl
  unfold State.answerPhaseDeferred
  rw [l]
  dsimp only
  rw [if_pos rfl, returned]

/-- The table once a DEFER has put an exchange in Deferred, with its blocks where the exchange keeps them (R51). -/
def State.deferredAt (s : State) (g : Tag) (x : Exchange) : State :=
  { s with
    entries := s.entries.set g (.deferred (if x.keep then x else { x with reservedChain := [] }) (s.patienceOf x.slot))
    pool := if x.keep then s.pool else s.pool.appendAll x.reservedChain }

theorem answerDeferred_eq (s : State) (g : Tag) {x : Exchange} (op : x.op ≠ .probe) :
    s.answerDeferred g x = (s.deferredAt g x).answerPhaseDeferred x.slot x.attempts := by
  unfold State.answerDeferred State.deferredAt
  rw [if_neg op]
  cases x.keep <;> rfl

/-- Settles O51: the source is heard, and the entry ends by the frame's kind, source and tag. -/
theorem answerFrameEnds : Obligations.AnswerFrameEnds := by
  intro s r g x c h m high e due good origin header entry l heard ends chain rest right
  have ended : (s.receptionOver 1).launcher.phase = .launching x.slot m := l
  have heard_eq : heard = (s.receptionOver 1).setStation h.source ((s.receptionOver 1).station h.source).heard :=
    heardFrom_launching ended h.source
  have launching : heard.launcher.phase = .launching x.slot m := by rw [heard_eq]; exact l
  have awaiting : heard.entry g = .awaiting x c := by rw [heard_eq]; exact entry
  have byte (b : BlockId) (i : Nat) : heard.blockByte b i = s.blockByte b i := by rw [heard_eq]; rfl
  have answered : exec .frameEnd s = .next (heard.answerGood g x h) := by
    rw [endsGood_routes high e due good header, origin]
    exact congrArg _ (answerFrameEnd_good awaiting h)
  have finished (u : State) (f : Finish) (phase : u.launcher.phase = .launching x.slot m) (outcome : f.outcome ≠ .trunkReset) :
      Host.Outcome.next (u.finishAnswer g x f) = ends u f.outcome f.length f.status f.reason f.chain f.frees :=
    congrArg _ (finishAnswer_eq u g x f m phase outcome)
  rw [answered]
  refine ⟨fun rt kind fits op => ?_, fun b bs rt kind fits op got => ?_, fun rt kind fits op got => ?_,
    fun rt kind long => ?_, fun rt kind => ?_, fun other => ?_, fun rt kind op => ?_⟩
  · rw [answerGood_right heard rt, kind]
    dsimp only
    rw [if_pos fits, answerAccepted_data heard g _ _ op]
    exact finished _ _ launching nofun
  · rw [answerGood_right heard rt, kind]
    dsimp only
    rw [if_pos fits, answerAccepted_probe heard g _ _ op got, byte]
    refine ⟨fun four low high => ?_, fun bad => ?_⟩
    · rw [if_pos ((probeAccepted_iff _ _).mpr ⟨four, low, high⟩), updateStation_launching heard _ _ _ _ launching, byte, byte, byte,
        ← got]
      exact finished _ _ launching nofun
    · rw [if_neg fun accepted => by have := (probeAccepted_iff _ _).mp accepted; omega]
      exact finished _ _ launching nofun
  · rw [answerGood_right heard rt, kind]
    dsimp only
    rw [if_pos fits, answerAccepted_empty heard g _ _ op got]
    exact finished _ _ launching nofun
  · rw [answerGood_right heard rt, kind]
    dsimp only
    rw [if_neg (Nat.not_le.mpr long)]
    exact finished _ _ launching nofun
  · rw [answerGood_right heard rt, kind]
    exact finished _ _ launching nofun
  · rw [answerGood_protocol heard other]
    exact finished _ _ launching nofun
  · rw [answerGood_right heard rt, kind]
    dsimp only
    rw [answerDeferred_eq heard g op, answerPhaseDeferred_eq (s := heard.deferredAt g x) launching .ok, State.deferredAt,
      patienceOf_eq, heard_eq]
    rfl

/-! ## A good recall (R64, R65) -/

section recallGood
variable {s : State} {h : Header} {x : Exchange} {d : Nat} {p : Bool}

/-- A recall kept in reserved blocks: those that took bytes go to the report, the rest are freed. -/
theorem recallGood_reserved (e : s.entry h.tag = .receiving x d p .reserved) : s.recallGood h =
    (.taken, ((s.ended h.tag x .ok (some h.length) (some h.code) none (x.reservedChain.take (blocksFor h.length))
      (x.reservedChain.drop (blocksFor h.length))).closed x.slot .ok).reevaluate) := by
  unfold State.recallGood
  rw [e]
  dsimp only
  rw [finishDeferred_eq]
  rfl

theorem storedRecall_taken {bs : List BlockId} {n : Nat} (fits : bs.length = blocksFor n) (status : Nibble) :
    storedRecall x (.taken bs) n status = ⟨.ok, some n, some status, none, bs, []⟩ := by
  simp [storedRecall, recallChain, ← fits]

theorem recallGood_taken {bs : List BlockId} (e : s.entry h.tag = .receiving x d p (.taken bs))
    (fits : bs.length = blocksFor h.length) : s.recallGood h =
      (.taken, ((s.ended h.tag x .ok (some h.length) (some h.code) none bs []).closed x.slot .ok).reevaluate) := by
  unfold State.recallGood
  rw [e]
  dsimp only
  rw [storedRecall_taken fits, finishDeferred_eq]

theorem recallGood_overrun (e : s.entry h.tag = .receiving x d p .overrun) : s.recallGood h =
    (.taken, ((s.ended h.tag x .overrun (some h.length) (some h.code) none [] x.reservedChain).closed x.slot
      .overrun).reevaluate) := by
  unfold State.recallGood
  rw [e]
  dsimp only
  rw [finishDeferred_eq]

theorem recallGood_busy (e : s.entry h.tag = .receiving x d false .busy) :
    s.recallGood h = (.busyback, (s.count .busyBacks).setEntry h.tag (.deferred x.busied d)) := by
  unfold State.recallGood
  rw [e]
  rfl

theorem recallGood_busyExpired (e : s.entry h.tag = .receiving x d true .busy) : s.recallGood h =
    (.busyback, (((s.count .busyBacks).ended h.tag x.busied .expired none none none [] x.reservedChain).closed x.slot
      .expired).reevaluate) := by
  unfold State.recallGood
  rw [e]
  dsimp only
  rw [if_pos rfl, finishDeferred_eq]
  rfl

/-- A recall that made no entry Receiving is disowned. -/
theorem recallGood_disowned (e : ∀ x d p c, s.entry h.tag ≠ .receiving x d p c) :
    s.recallGood h = (.disown, s.recallDisowned h.tag h.source) := by
  unfold State.recallGood
  split
  · exact absurd ‹_› (e _ _ _ _)
  all_goals rfl

end recallGood

section recallDisowned
variable {s : State} {g : Tag} {i : StationId}

theorem recallDisowned_resting {m : Nat} (e : s.entry g = .resting i m) :
    s.recallDisowned g i = ((s.count .strayFrames).setEntry g .free).reevaluate := by
  unfold State.recallDisowned
  rw [e]
  exact if_pos rfl

theorem recallDisowned_late {x : Exchange} {d : DoneRecord} (e : s.entry g = .done x d)
    (late : (d.outcome = .expired ∨ d.outcome = .withdrawn) ∧ x.station = i) :
    s.recallDisowned g i = (s.count .strayFrames).setEntry g (.done x { d with lateRecallSeen := true }) := by
  unfold State.recallDisowned
  rw [e]
  exact if_pos late

/-- Neither the rest nor the late end of an exchange with the source: the frame is a stray one and no more. -/
theorem recallDisowned_stray (rest : ∀ m, s.entry g ≠ .resting i m) (late : ∀ x d, s.entry g = .done x d →
    (d.outcome ≠ .expired ∧ d.outcome ≠ .withdrawn) ∨ x.station ≠ i) : s.recallDisowned g i = s.count .strayFrames := by
  unfold State.recallDisowned
  split
  · rename_i st m e
    exact if_neg fun (same : st = i) => rest m (same ▸ e)
  · rename_i x d e
    refine if_neg ?_
    rintro ⟨outcome, same⟩
    obtain ⟨expired, withdrawn⟩ | other := late x d e
    · exact outcome.elim expired withdrawn
    · exact other same
  all_goals rfl

end recallDisowned

/-- Settles O53: the source is heard, the entry takes the frame, and the reply it chooses opens the reply window. -/
theorem recallFrameEnds : Obligations.RecallFrameEnds := by
  intro s r h high e due good header origin kind heard replies busied n
  have replied {k : ReplyKind} {u : State} (took : heard.recallGood h = (k, u)) : exec .frameEnd s = replies k u := by
    rw [endsGood_routes high e due good header, origin]
    show Host.Outcome.next (heard.arbitrationGood h) = _
    unfold State.arbitrationGood
    rw [kind, took, nibbleOfTag_eq]
    rfl
  have counted (g : Tag) : (heard.count .strayFrames).entry g = heard.entry g := rfl
  refine ⟨fun x d p receiving => replied (recallGood_reserved receiving),
    fun x d p bs receiving fits => replied (recallGood_taken receiving fits),
    fun x d p receiving => replied (recallGood_overrun receiving),
    fun x d receiving => replied (recallGood_busy receiving),
    fun x d receiving => replied (recallGood_busyExpired receiving),
    fun m resting => replied ?_, fun x d done outcome same => replied ?_, fun idle rest late => replied ?_⟩
  · rw [recallGood_disowned (fun x d p c receiving => nomatch resting.symm.trans receiving), recallDisowned_resting resting]
    rfl
  · rw [recallGood_disowned (fun x d p c receiving => nomatch done.symm.trans receiving),
      recallDisowned_late done ⟨outcome, same⟩]
    rfl
  · rw [recallGood_disowned idle, recallDisowned_stray rest late]
    rfl

end Sys2Proof.Machine
end

section
/-! PROOFS. Request slots and the Launcher (chapter 4): a slot's fields and its validity check, taking a slot, the slot-only outcomes, the flags
and the next slot, re-evaluation, and the commands START, CONTINUE and HALT. -/

namespace Sys2Proof.Machine

open Sys2Proof

/-! ## A write to a slot field (R74, R156) -/

section writeField
variable (sl : Slot) {i : Fin 16} {v : Byte}

/-- The fields from index 12 on are the part's own. -/
theorem writeField_readOnly (own : 12 ≤ i.val) : sl.writeField i v = .error .readOnly := by
  have rest : i = 12 ∨ i = 13 ∨ i = 14 ∨ i = 15 := by omega
  obtain rfl | rfl | rfl | rfl := rest <;> rfl

/-- The five fields with a range refuse a value above it. -/
theorem writeField_range (above : (i = 2 ∧ 32 ≤ v.toNat) ∨ (i = 3 ∧ 32 ≤ v.toNat) ∨ (i = 4 ∧ 64 ≤ v.toNat) ∨
    (i = 9 ∧ 8 ≤ v.toNat) ∨ (i = 11 ∧ 16 ≤ v.toNat)) : sl.writeField i v = .error .range := by
  obtain ⟨rfl, flags⟩ | ⟨rfl, link⟩ | ⟨rfl, first⟩ | ⟨rfl, retries⟩ | ⟨rfl, code⟩ := above
  · exact if_neg (Nat.not_lt.mpr flags)
  · rewrite [Slot.writeField, slotOf_none.mpr link]
    rfl
  · rewrite [Slot.writeField, blockOf_none.mpr first]
    rfl
  · exact dif_neg (Nat.not_lt.mpr retries)
  · exact if_neg (Nat.not_lt.mpr code)

theorem writeField_flags (fits : v.toNat < 32) : sl.writeField 2 v = .ok { sl with flags := v.setWidth 5 } := if_pos fits

theorem writeField_link {l : SlotId} (names : v.toNat = l.val) : sl.writeField 3 v = .ok { sl with link := l } := by
  rewrite [Slot.writeField, slotOf_some.mpr names]
  rfl

theorem writeField_outFirst {b : BlockId} (names : v.toNat = b.val) : sl.writeField 4 v = .ok { sl with outFirst := b } := by
  rewrite [Slot.writeField, blockOf_some.mpr names]
  rfl

theorem writeField_retryLimit {n : Fin 8} (names : v.toNat = n.val) : sl.writeField 9 v = .ok { sl with retryLimit := n } := by
  have fits : v.toNat < 8 := names ▸ n.isLt
  have same : (⟨v.toNat, fits⟩ : Fin 8) = n := Fin.ext names
  rw [← same]
  exact dif_pos fits

theorem writeField_noticeCode (fits : v.toNat < 16) : sl.writeField 11 v = .ok { sl with noticeCode := v.setWidth 4 } :=
  if_pos fits

end writeField

section slotDataWrite
variable {s : State} {v : Byte}

theorem processorWrite_inactive {sl : Slot} (inactive : sl.state ≠ .active) (i : Fin 16) (v : Byte) :
    sl.processorWrite i v = match sl.writeField i v with
      | .ok written => .ok { written with state := .openSlot }
      | .error c => .error c := if_neg inactive

/-- A refused write changes no slot, and the index moves on all the same. -/
theorem slotDataWrite_refused {c : WindowFault} (h : s.windowOpen)
    (refused : (s.slot s.sel.slotSelect).processorWrite s.sel.slotIndex v = .error c) : exec (.slotFieldDataWrite v) s =
      .next { s.faulted c with sel := { s.sel with slotIndex := s.sel.slotIndex + 1 } } := by
  refine (busWrite_open (f := (·.writeSlotData v)) h).trans (congrArg _ ?_)
  rw [State.writeSlotData, refused]
  rfl

theorem slotDataWrite_faults {c : WindowFault} (h : s.windowOpen) (inactive : (s.slot s.sel.slotSelect).state ≠ .active)
    (fault : (s.slot s.sel.slotSelect).writeField s.sel.slotIndex v = .error c) : exec (.slotFieldDataWrite v) s =
      .next { s.faulted c with sel := { s.sel with slotIndex := s.sel.slotIndex + 1 } } :=
  slotDataWrite_refused h (by rw [processorWrite_inactive inactive, fault])

/-- An accepted write leaves the slot Open. -/
theorem slotDataWrite_writes {sl : Slot} {i : Fin 16} (h : s.windowOpen) (inactive : (s.slot s.sel.slotSelect).state ≠ .active)
    (index : s.sel.slotIndex = i) (field : (s.slot s.sel.slotSelect).writeField i v = .ok sl) :
    exec (.slotFieldDataWrite v) s = .next { s with
      slots := s.slots.set s.sel.slotSelect { sl with state := .openSlot }
      sel := { s.sel with slotIndex := s.sel.slotIndex + 1 } } := by
  refine (busWrite_open (f := (·.writeSlotData v)) h).trans (congrArg _ ?_)
  rw [State.writeSlotData, processorWrite_inactive inactive, index, field]
  subst index
  rfl

end slotDataWrite

/-- Settles O24: the slot's state decides first, then the field's index and its range. -/
theorem slotFieldWrite : Obligations.SlotFieldWrite := by
  intro s v h k i advanced refused written
  refine ⟨fun active => slotDataWrite_refused h (if_pos active), fun inactive => ?_⟩
  have writes {j : Fin 16} {sl : Slot} (index : i = j) (field : (s.slot k).writeField j v = .ok sl) :
      exec (.slotFieldDataWrite v) s = .next (written sl) := slotDataWrite_writes h inactive index field
  exact ⟨fun own => slotDataWrite_faults h inactive (writeField_readOnly _ own),
    fun above => slotDataWrite_faults h inactive (writeField_range _ above),
    fun index => writes index rfl, fun index => writes index rfl, fun index fits => writes index (writeField_flags _ fits),
    fun _ index names => writes index (writeField_link _ names), fun _ index names => writes index (writeField_outFirst _ names),
    fun index => writes index rfl, fun index => writes index rfl, fun index => writes index rfl, fun index => writes index rfl,
    fun _ index names => writes index (writeField_retryLimit _ names), fun index => writes index rfl,
    fun index fits => writes index (writeField_noticeCode _ fits)⟩

/-! ## The validity check (R80, R111) -/

/-- A sound chain is the one its slot's length and OutFirst name, along the links. -/
theorem outChain_of_chained {s : State} {k : SlotId} {bs : List BlockId} (some_bytes : 0 < (s.slot k).outLength.toNat)
    (length : bs.length = blocksFor (s.slot k).outLength.toNat) (first : bs.head? = some (s.slot k).outFirst)
    (linked : s.pool.chained bs) : s.outChain k = bs := by
  obtain ⟨n, blocks⟩ := blocksFor_pos some_bytes
  rw [State.outChain, blocks]
  exact Pool.chain_of_chained _ n _ bs (length.trans blocks) first linked

theorem outChain_empty {s : State} {k : SlotId} (empty : (s.slot k).outLength = 0) : s.outChain k = [] := by
  rw [State.outChain, empty]
  rfl

/-- Settles O8: the check is the six conditions, and the chain its walk passes is the outbound chain. -/
theorem validityCheck : Obligations.ValidityCheck := by
  intro s k
  refine ⟨slotValid_iff s k, fun valid some_bytes => ?_, outChain_empty⟩
  obtain ⟨_, _, _, _, _, chain⟩ := (slotValid_iff s k).mp valid
  obtain ⟨bs, length, first, linked, held, distinct⟩ := chain some_bytes
  rw [outChain_of_chained some_bytes length first linked]
  exact ⟨length, first, linked, held, distinct⟩

/-! ## A slot taken (R78, R79, R82) -/

/-- A slot that is not Active is activated and checked, and what follows has the places the queue has. -/
theorem take_checks {s : State} {k : SlotId} (inactive : (s.slot k).state ≠ .active) :
    State.take k s = checkWith State.take k (s.activateSlot k) :=
  (take_inactive s k inactive).trans (checkWith_room (s.activateSlot k) k)

theorem take_waits {s : State} {k : SlotId} {w : Wait} (inactive : (s.slot k).state ≠ .active)
    (checks : (s.activateSlot k).launchChecks k = .wait w) :
    State.take k s = (s.activateSlot k).setPhase (.waiting k w) := by
  rw [take_checks inactive, checkWith, checks]

theorem take_slotOnly {s : State} {k : SlotId} {o : OutcomeCode} {st : Option StationId}
    (inactive : (s.slot k).state ≠ .active) (checks : (s.activateSlot k).launchChecks k = .slotOnly o st) :
    State.take k s = State.report k (slotReport (s.activateSlot k) k o st) (s.activateSlot k) := by
  rw [take_checks inactive, checkWith, checks]
  rfl

section checksOfSound
variable {s : State} {k : SlotId} {op : SlotOp} {st : StationId} (sound : s.slotSound k)
  (ho : (s.slot k).op.toNat = op.code) (hs : (s.slot k).station.toNat = st.address)
include sound ho hs

theorem launchChecks_fenced (fenced : (s.station st).presence = .fenced) :
    (s.activateSlot k).launchChecks k = .slotOnly .fenced (some st) := by
  rw [launchChecks_sound s k op st sound ho hs, if_pos fenced]

theorem launchChecks_depth (unfenced : (s.station st).presence ≠ .fenced)
    (full : (s.station st).depth ≤ (s.station st).outstanding) : (s.activateSlot k).launchChecks k = .wait .depth := by
  rw [launchChecks_sound s k op st sound ho hs, if_neg unfenced, if_pos full]

theorem launchChecks_tag (unfenced : (s.station st).presence ≠ .fenced)
    (room : (s.station st).outstanding < (s.station st).depth) (none_free : ∀ g, s.entry g ≠ .free) :
    (s.activateSlot k).launchChecks k = .wait .tag := by
  rw [launchChecks_sound s k op st sound ho hs, if_neg unfenced, if_neg (Nat.not_le.mpr room),
    (lowestFree_none s).mpr none_free]

theorem launchChecks_blocks (unfenced : (s.station st).presence ≠ .fenced)
    (room : (s.station st).outstanding < (s.station st).depth) (some_free : ∃ g, s.entry g = .free)
    (few : s.pool.freeList.length < blocksFor (s.slot k).limit) : (s.activateSlot k).launchChecks k = .wait .blocks := by
  rw [launchChecks_sound s k op st sound ho hs, if_neg unfenced, if_neg (Nat.not_le.mpr room)]
  cases found : s.lowestFree with
  | none =>
    obtain ⟨g, free⟩ := some_free
    exact absurd free ((lowestFree_none s).mp found g)
  | some g => exact if_pos few

end checksOfSound

/-- Settles O9: an Active slot is waited for, and each of the last three checks that fails has its wait. -/
theorem takenSlotWaits : Obligations.TakenSlotWaits := by
  refine ⟨fun s k active => take_active s k active, fun s k op st w inactive sound ho hs unfenced reason => ?_⟩
  have checks : (s.activateSlot k).launchChecks k = .wait w := by
    obtain ⟨rfl, full⟩ | ⟨rfl, room, none_free⟩ | ⟨rfl, room, some_free, few⟩ := reason
    · exact launchChecks_depth sound ho hs unfenced full
    · exact launchChecks_tag sound ho hs unfenced room none_free
    · exact launchChecks_blocks sound ho hs unfenced room some_free few
  exact take_waits inactive checks

/-! ## The flags and the next slot (R91, R92) -/

/-- Settles O14: End before halt-pending, halt-pending before Hold, and a Hold passed uses up pending-continue. -/
theorem flagsDecideTheNextSlot : Obligations.FlagsDecideTheNextSlot := by
  intro s k stopped
  unfold State.moveOn moveOnWith
  cases hold : (s.slot k).hold with
  | false =>
    simp only [hold]
    rfl
  | true =>
    simp only [hold]
    cases s.launcher.pendingContinue <;> rfl

/-- With halt-pending clear the flags alone decide. -/
theorem moveOn_running {s : State} {k : SlotId} (running : s.launcher.haltPending = false) : State.moveOn k s =
    if (s.slot k).isEnd then s.enterIdle
    else if (s.slot k).hold then
      (if s.launcher.pendingContinue then
        State.take (s.slot k).link (s.setLauncher { s.launcher with pendingContinue := false })
      else s.enterHeld (s.slot k).link)
    else State.take (s.slot k).link s := by
  unfold State.moveOn moveOnWith
  rw [running]
  rfl

/-! ## Slot-only outcomes and owed records (R81, R90, R136) -/

/-- The Launcher's record in the queue and its slot closed with the record's outcome. -/
def State.slotReported (s : State) (k : SlotId) (r : Report) (o : OutcomeCode) : State :=
  { s with
    slots := s.slots.set k { s.slot k with state := .closed, lastOutcome := o }
    reports := s.reports.posted s.config.coalesceTime r }

theorem slot_slotReported (s : State) (k : SlotId) (r : Report) (o : OutcomeCode) :
    (s.slotReported k r o).slot k = { s.slot k with state := .closed, lastOutcome := o } :=
  slot_setSlot_self s k { s.slot k with state := .closed, lastOutcome := o }

@[simp] theorem posted_latches (q : Reports) (c : Nat) (r : Report) : (q.posted c r).latches = q.latches := by
  unfold Reports.posted
  split <;> rfl

/-- With room in the queue the Launcher's posting is that of R135. -/
theorem postQueue_eq {s : State} (r : Report) (room : s.reports.queue.length < 32) :
    s.postQueue r = s.setReports (s.reports.posted s.config.coalesceTime r) := by
  rw [← post_eq]
  exact congrArg s.setReports (if_pos room).symm

section report
variable {s : State} {k : SlotId} {r : Report} {o : OutcomeCode}

theorem report_owed (full : 32 ≤ s.reports.queue.length) :
    State.report k r s = s.setPhase (.waiting k (.reportSpace r)) := if_neg (Nat.not_lt.mpr full)

theorem report_posts (room : s.reports.queue.length < 32) (outcome : r.outcome = some o) : State.report k r s =
    if r.kind = .notice ∧ o = .trunkReset then (s.slotReported k r o).enterHeld (s.slot k).link
    else State.moveOn k (s.slotReported k r o) := by
  have link : ((s.slotReported k r o).slot k).link = (s.slot k).link := by rw [slot_slotReported]
  unfold State.report reportWith
  rw [if_pos room, postQueue_eq r room, outcome, ← link]
  simp only [Option.some.injEq]
  rfl

theorem report_movesOn (room : s.reports.queue.length < 32) (outcome : r.outcome = some o)
    (other : ¬ (r.kind = .notice ∧ o = .trunkReset)) : State.report k r s = State.moveOn k (s.slotReported k r o) := by
  rw [report_posts room outcome, if_neg other]

theorem report_holds (room : s.reports.queue.length < 32) (outcome : r.outcome = some o)
    (reset : r.kind = .notice ∧ o = .trunkReset) :
    State.report k r s = (s.slotReported k r o).stoppedAt (s.slot k).link := by
  rw [report_posts room outcome, if_pos reset]
  rfl

end report

/-- The ops up to 4 are those that make an exchange. -/
theorem exchange_op {n : Nat} (low : 1 ≤ n) (high : n ≤ 4) : ∃ op : SlotOp, n = op.code := by
  have codes : n = 1 ∨ n = 2 ∨ n = 3 ∨ n = 4 := by omega
  obtain rfl | rfl | rfl | rfl := codes
  · exact ⟨.fetch, rfl⟩
  · exact ⟨.store, rfl⟩
  · exact ⟨.swap, rfl⟩
  · exact ⟨.probe, rfl⟩

/-- The two slot-only outcomes (R79, R81). -/
theorem launchChecks_slotOnly {s : State} {k : SlotId} {o : OutcomeCode} {st : Option StationId}
    (ends : (o = .badSlot ∧ st = none ∧ ¬ s.slotSound k) ∨
      (o = .fenced ∧ s.slotSound k ∧ (s.slot k).op.toNat ≤ 4 ∧
        ∃ i : StationId, st = some i ∧ (s.slot k).station.toNat = i.address ∧ (s.station i).presence = .fenced)) :
    (s.activateSlot k).launchChecks k = .slotOnly o st := by
  obtain ⟨rfl, rfl, unsound⟩ | ⟨rfl, sound, exchange, i, rfl, address, fenced⟩ := ends
  · exact launchChecks_bad s k unsound
  · have ⟨⟨low, _⟩, _⟩ := sound
    obtain ⟨op, code⟩ := exchange_op low exchange
    exact launchChecks_fenced sound code address fenced

theorem slotReport_activated (s : State) (k : SlotId) (o : OutcomeCode) (st : Option StationId) :
    slotReport (s.activateSlot k) k o st = ⟨.slot, (s.slot k).notify, some k, none, st, some (s.slot k).op, some o, some 0, none,
      none, none, none, none, none⟩ := by
  rw [slotReport, slot_activate]
  rfl

theorem slotReported_activated (s : State) (k : SlotId) (r : Report) (o : OutcomeCode) :
    (s.activateSlot k).slotReported k r o = { s with
      slots := s.slots.set k { (s.slot k).taken with state := .closed, lastOutcome := o }
      reports := s.reports.posted s.config.coalesceTime r } := by
  have slots : (s.activateSlot k).slots.set k { (s.slot k).taken with state := .closed, lastOutcome := o } =
      s.slots.set k { (s.slot k).taken with state := .closed, lastOutcome := o } := Vector.set_set ..
  rw [State.slotReported, slot_activate, slots]
  rfl

/-- Settles O10: the checks end the slot, its record is posted or owed, and a posted one lets the flags decide. -/
theorem slotOnlyOutcome : Obligations.SlotOnlyOutcome := by
  intro s k o st inactive running ends r closed
  have taken : State.take k s = State.report k r (s.activateSlot k) := by
    rw [take_slotOnly inactive (launchChecks_slotOnly ends), slotReport_activated]
  have posted : (s.activateSlot k).slotReported k r o = closed := slotReported_activated s k r o
  have slot : closed.slot k = { (s.slot k).taken with state := .closed, lastOutcome := o } := by
    rw [← posted, slot_slotReported, slot_activate]
  have latches : closed.reports.latches = s.reports.latches := posted_latches ..
  have other : ¬ (r.kind = .notice ∧ o = .trunkReset) := fun reset => absurd (show ReportKind.slot = .notice from reset.1) nofun
  refine ⟨fun full => taken.trans (report_owed full), fun room => ?_⟩
  rw [taken, report_movesOn (s := s.activateSlot k) room rfl other, posted, moveOn_running (s := closed) running, slot, ← latches]
  rfl

/-! ## The Launcher's work and re-evaluation (R83) -/

/-- `f` looks at nothing that the Launcher's own work changes. -/
structure LauncherLeaves {α : Type} (f : State → α) : Prop where
  launcher : ∀ s l, f (s.setLauncher l) = f s
  slot : ∀ s k sl, f (s.setSlot k sl) = f s
  reports : ∀ s r, f (s.setReports r) = f s
  reserve : ∀ s k op st g, f (s.reserve k op st g) = f s
  notice : ∀ s k, f (s.launchNotice k) = f s

namespace LauncherLeaves

variable {α : Type} {f : State → α} (h : LauncherLeaves f) {next : SlotId → State → State} (kept : ∀ k s, f (next k s) = f s)
include h

theorem stop (s : State) (l : Launcher) : f ((s.setLauncher l).latchLauncherStopped) = f s :=
  (h.reports _ _).trans (h.launcher s l)

include kept

theorem moveOnWith (k : SlotId) (s : State) : f (Machine.moveOnWith next k s) = f s := by
  unfold Machine.moveOnWith
  dsimp only
  split
  · exact h.stop s _
  · split
    · exact h.stop s _
    · split
      · split
        · exact (kept _ _).trans (h.launcher s _)
        · exact h.stop s _
      · exact kept _ s

theorem reportWith (k : SlotId) (r : Report) (s : State) : f (Machine.reportWith next k r s) = f s := by
  have posted (o : OutcomeCode) : f ((s.postQueue r).closeSlot k o) = f s := (h.slot _ _ _).trans (h.reports s _)
  unfold Machine.reportWith
  split
  · dsimp only
    split
    · exact (h.stop _ _).trans (posted _)
    · exact (h.moveOnWith kept k _).trans (posted _)
  · exact h.launcher s _

theorem checkWith (k : SlotId) (s : State) : f (Machine.checkWith next k s) = f s := by
  unfold Machine.checkWith
  split
  · exact h.reportWith kept k _ s
  · exact h.launcher s _
  · exact h.reserve s k _ _ _
  · exact h.notice s k

theorem takeWith (k : SlotId) (s : State) : f (Machine.takeWith next k s) = f s := by
  unfold Machine.takeWith
  split
  · exact h.launcher s _
  · exact (h.checkWith kept k _).trans (h.slot s k _)

omit kept

theorem takeSlot (room : Nat) : ∀ k s, f (Machine.takeSlot room k s) = f s := by
  induction room with
  | zero => exact h.takeWith fun _ _ => rfl
  | succ room ih => exact h.takeWith ih

theorem take (k : SlotId) (s : State) : f (State.take k s) = f s := h.takeSlot _ k s

theorem reevaluate (s : State) : f s.reevaluate = f s := by
  unfold State.reevaluate
  split
  · exact h.reportWith h.take _ _ s
  · exact h.take _ s
  · exact h.checkWith h.take _ s
  · exact h.checkWith h.take _ s
  · exact h.checkWith h.take _ s
  all_goals rfl

end LauncherLeaves

theorem launcherLeaves_counters : LauncherLeaves State.counters :=
  ⟨fun _ _ => rfl, fun _ _ _ => rfl, fun _ _ => rfl, fun _ _ _ _ _ => by rw [reserve_eq], fun _ _ => rfl⟩

/-- The written bytes stand: a take, a lending and a link change owners, links and the free list alone. -/
theorem launcherLeaves_data : LauncherLeaves fun s => s.pool.data where
  launcher _ _ := rfl
  slot _ _ _ := rfl
  reports _ _ := rfl
  reserve s k op st g := by simp [reserve_eq]
  notice s k := Pool.setOwners_data ..

/-- What a state that the Launcher's own work leads to has in common with the one before. -/
theorem launcherWork_frame {s t : State} (inner : Inner s t) (launches : Launches s t) (counters : t.counters = s.counters)
    (data : t.pool.data = s.pool.data) :
    t.nreset = s.nreset ∧ t.bus = s.bus ∧ t.lineIn = s.lineIn ∧ t.config = s.config ∧ t.port = s.port ∧ t.sel = s.sel ∧
    t.counters = s.counters ∧ t.pending = s.pending ∧ t.reports.mask = s.reports.mask ∧
    t.trunk = { s.trunk with pendingSend := t.trunk.pendingSend } ∧ t.pool.data = s.pool.data ∧
    (∀ g, s.entry g ≠ .free → t.entry g = s.entry g) :=
  ⟨inner.nreset, inner.bus, inner.lineIn, inner.config, inner.port, inner.sel, counters, inner.pending, inner.mask, inner.trunk,
    data, fun g live => launches.kept g (Bool.eq_false_iff.mpr fun free => live ((Entry.isFree_iff _).mp free))⟩

section reevaluate
variable {s : State} {k : SlotId}

theorem reevaluate_slotBusy (waits : s.launcher.phase = .waiting k .slotBusy) : s.reevaluate = State.take k s := by
  rw [State.reevaluate, waits]

theorem reevaluate_checks {w : Wait} (waits : s.launcher.phase = .waiting k w) (reason : w = .depth ∨ w = .tag ∨ w = .blocks) :
    s.reevaluate = checkWith State.take k s := by
  obtain rfl | rfl | rfl := reason <;> rw [State.reevaluate, waits]

theorem reevaluate_report {r : Report} (waits : s.launcher.phase = .waiting k (.reportSpace r)) :
    s.reevaluate = State.report k r s := by
  rw [State.reevaluate, waits]

/-- A slot that waits is as the Launcher took it. -/
theorem taken_eq_self {sl : Slot} (active : sl.state = .active) (tag : sl.lastTag = none) (attempts : sl.attempts = 0) :
    sl.taken = sl := by
  rw [Slot.taken, ← active, ← tag, ← attempts]

theorem activateSlot_eq_self (taken : (s.slot k).taken = s.slot k) : s.activateSlot k = s := by
  show s.setSlot k (s.slot k).taken = s
  rw [taken, State.setSlot, slots_set_self]

end reevaluate

/-- Settles O15: the frame from one lemma for each thing left alone, and the re-evaluation by wait reason. -/
theorem launcherWorkFrame : Obligations.LauncherWorkFrame := by
  refine ⟨fun s t work => ?_, reevaluate_not_waiting, fun s k => reevaluate_slotBusy,
    fun s k w waits reason active tag attempts => ?_, fun s k r o waits outcome => ?_⟩
  · obtain ⟨k, rfl⟩ | rfl := work
    · exact launcherWork_frame (Inner.take k s) (Launches.take k s) (launcherLeaves_counters.take k s)
        (launcherLeaves_data.take k s)
    · exact launcherWork_frame (Inner.reevaluate s) (Launches.reevaluate s) (launcherLeaves_counters.reevaluate s)
        (launcherLeaves_data.reevaluate s)
  · have checks := reevaluate_checks waits reason
    refine ⟨checks.trans (checkWith_eq_take s k active tag attempts), fun op st g sound ho hs unfenced room free blocks => ?_⟩
    have taken := taken_eq_self active tag attempts
    have passed := launchChecks_passed sound ho hs unfenced room free blocks
    have reserved := reserve_activated st g ho
    rw [activateSlot_eq_self taken] at passed reserved
    rw [checks, checkWith, passed]
    rw [taken] at reserved
    exact reserved
  · have report := reevaluate_report waits
    refine ⟨fun full => ?_, fun room other => ?_, fun room notice reset => ?_⟩
    · rw [report, report_owed full, ← waits]
      rfl
    · exact report.trans (report_movesOn room outcome other)
    · exact report.trans (report_holds room outcome ⟨notice, reset⟩)

/-! ## START and CONTINUE (R95, R96) -/

theorem stopped_cases {p : Phase} (stopped : p.stopped) : p = .idle ∨ ∃ k, p = .held k := by
  cases p <;> simp [Phase.stopped] at stopped ⊢

theorem going_cases {p : Phase} (going : ¬ p.stopped) :
    (∃ k w, p = .waiting k w) ∨ (∃ k n, p = .contending k n) ∨ ∃ k n, p = .launching k n := by
  cases p <;> simp [Phase.stopped] at going ⊢

theorem start_range {s : State} (h : s.portFree) (a : 32 ≤ s.port.arg0.toNat) :
    exec .start s = .next (s.commandDone 0x01 .range 0) := by
  refine (writeCommand_free h 0x01).trans ?_
  show Host.Outcome.next (State.commandStart _) = _
  unfold State.commandStart
  dsimp only [setPort_port]
  rw [slotOf_none.mpr a]
  rfl

theorem start_busy {s : State} (h : s.portFree) (a : s.port.arg0.toNat < 32) (going : ¬ s.launcher.phase.stopped) :
    exec .start s = .next (s.commandDone 0x01 .busy 0) := by
  refine (writeCommand_free h 0x01).trans ?_
  show Host.Outcome.next (State.commandStart _) = _
  unfold State.commandStart
  dsimp only [setPort_port, setPort_launcher]
  rw [(slotOf_some (k := ⟨s.port.arg0.toNat, a⟩)).mpr rfl]
  obtain ⟨k, w, phase⟩ | ⟨k, n, phase⟩ | ⟨k, n, phase⟩ := going_cases going
  all_goals
    rw [phase]
    rfl

/-- CONTINUE is dispatched on the Launcher's phase. -/
theorem continue_dispatches {s : State} (h : s.portFree) : exec .continueChain s =
    .next (s.setPort { s.port with command := 0x02, busy := true }).commandContinue := writeCommand_free h 0x02

theorem continue_takes {s : State} {p : SlotId} (h : s.portFree) (held : s.launcher.phase = .held p) :
    exec .continueChain s = .next ((State.take p s).commandDone 0x02 .ok 0) := by
  rw [continue_dispatches h, State.commandContinue, setPort_launcher, held]
  exact congrArg _ (complete_after (IgnoresPort.take p) s 0x02 .ok 0)

theorem continue_ignored {s : State} (h : s.portFree) (idle : s.launcher.phase = .idle) :
    exec .continueChain s = .next (s.commandDone 0x02 .ignored 0) := by
  rw [continue_dispatches h, State.commandContinue, setPort_launcher, idle]
  rfl

theorem continue_pends {s : State} (h : s.portFree) (going : ¬ s.launcher.phase.stopped) :
    exec .continueChain s = .next (State.commandDone
      { s with launcher := { s.launcher with pendingContinue := true, haltPending := false } } 0x02 .ok 0) := by
  rw [continue_dispatches h, State.commandContinue, setPort_launcher]
  obtain ⟨k, w, phase⟩ | ⟨k, n, phase⟩ | ⟨k, n, phase⟩ := going_cases going
  all_goals
    rw [phase]
    rfl

/-- Settles O7: ARG0's range before the Launcher's phase, and CONTINUE by the phase. -/
theorem startAndContinue : Obligations.StartAndContinue :=
  ⟨fun _ => start_range, fun _ => start_busy, fun _ _ => start_takes, fun _ _ => continue_takes, fun _ => continue_ignored,
    fun _ => continue_pends⟩

/-! ## HALT outside Contending (R97, R98) -/

section halt
variable {s : State} (h : s.portFree)
include h

/-- HALT is dispatched on the Launcher's phase. -/
theorem halt_dispatches : exec .halt s = .next (s.setPort { s.port with command := 0x03, busy := true }).commandHalt :=
  writeCommand_free h 0x03

theorem halt_ignored (stopped : s.launcher.phase.stopped) : exec .halt s = .next (s.commandDone 0x03 .ignored 0) := by
  rw [halt_dispatches h, State.commandHalt, setPort_launcher]
  obtain phase | ⟨k, phase⟩ := stopped_cases stopped
  all_goals
    rw [phase]
    rfl

/-- A launch phase in progress, or a NOTICE's record owed at the end of one, lets HALT wait. -/
theorem halt_pends {k : SlotId} (late : (∃ n, s.launcher.phase = .launching k n) ∨
    ∃ r, s.launcher.phase = .waiting k (.reportSpace r) ∧ r.kind = .notice) : exec .halt s = .next (State.commandDone
      { s with launcher := { s.launcher with pendingContinue := false, haltPending := true } } 0x03 .ok 0) := by
  rw [halt_dispatches h, State.commandHalt, setPort_launcher]
  obtain ⟨n, phase⟩ | ⟨r, phase, notice⟩ := late
  · rw [phase]
    rfl
  · rw [phase]
    dsimp only
    rw [if_pos notice]
    rfl

theorem halt_leavesBusy {k : SlotId} (phase : s.launcher.phase = .waiting k .slotBusy) :
    exec .halt s = .next ((s.stoppedAt k).commandDone 0x03 .ok 0) := by
  rw [halt_dispatches h, State.commandHalt, setPort_launcher, phase]
  rfl

/-- A slot taken whose launch has not begun is reopened, the record it owes dropped. -/
theorem halt_reopens {k : SlotId} {w : Wait} (phase : s.launcher.phase = .waiting k w)
    (reason : w = .depth ∨ w = .tag ∨ w = .blocks ∨ ∃ r, w = .reportSpace r ∧ r.kind ≠ .notice) :
    exec .halt s = .next (((s.setSlot k (s.slot k).undone).stoppedAt k).commandDone 0x03 .ok 0) := by
  rw [halt_dispatches h, State.commandHalt, setPort_launcher, phase]
  obtain rfl | rfl | rfl | ⟨r, rfl, other⟩ := reason
  · rfl
  · rfl
  · rfl
  · dsimp only
    rw [if_neg other]
    rfl

end halt

/-- Settles O12: HALT by the Launcher's phase and, in Waiting, its reason. -/
theorem haltOutsideContending : Obligations.HaltOutsideContending :=
  fun _ h => ⟨halt_ignored h, fun _ n phase => halt_pends h (.inl ⟨n, phase⟩),
    fun _ r phase notice => halt_pends h (.inr ⟨r, phase, notice⟩), fun _ => halt_leavesBusy h, fun _ _ => halt_reopens h⟩

end Sys2Proof.Machine
end

section
/-! PROOFS. The Block Pool (chapter 5): the memory's form and the blocks' owners along every step, the pool's operations, the block window,
and the commands TAKE BLOCK and FREE CHAIN. -/

namespace Sys2Proof.Machine

open Sys2Proof

/-! ## The rules along a step -/

theorem reset_inRange : Settings.reset.inRange := by
  unfold Settings.inRange
  decide

theorem reset_maskClean : maskClean Reports.reset.mask := by
  unfold maskClean
  decide

namespace Kept

theorem advanceSlotIndex (s : State) : Kept s s.advanceSlotIndex := setSel s _

/-- The state after hardware reset meets every rule (R168). -/
theorem hardwareReset (s t : State) (e : Machine.execHardwareReset s = .next t) : Kept s t := by
  cases e
  exact {
    config := fun _ => reset_inRange
    mask := fun _ => reset_maskClean
    queue := fun _ => ⟨Nat.zero_le _, fun some => absurd rfl some⟩
    flags := fun _ => ⟨nofun, fun _ => ⟨rfl, rfl⟩, fun _ _ => ⟨rfl, rfl⟩⟩
    memory := fun _ => rfl
    trunk := fun _ _ => ⟨Nat.zero_le _, Nat.zero_le _, Nat.zero_le _, nofun⟩
    enable := fun _ _ => ⟨fun _ => rfl, fun _ => rfl⟩ }

/-- With nRESET low the controller's counts are 0, and TrunkEnable's agreement is asked for with nRESET high alone. -/
theorem nresetAsserted (s t : State) (e : Machine.execNresetAsserted s = .next t) : Kept s t := by
  cases e
  exact ⟨id, id, id, id, id, fun _ _ => ⟨Nat.zero_le _, Nat.zero_le _, Nat.zero_le _, nofun⟩, fun _ => nofun⟩

end Kept

namespace Agr

theorem advanceSlotIndex (s : State) : Agr s s.advanceSlotIndex := idle rfl rfl rfl rfl rfl rfl

theorem hardwareReset (s t : State) (e : Machine.execHardwareReset s = .next t) : Agr s t := by
  cases e
  exact fun _ => agrees_reset rfl rfl rfl rfl fun _ _ => nofun

/-- With nRESET low nothing is pending or on the line (R151). -/
theorem nresetAsserted (s t : State) (e : Machine.execNresetAsserted s = .next t) : Agr s t := by
  cases e
  intro agrees
  have tables := tables_same (t := { s with nreset := false, trunk := Trunk.reset, port := { s.port with
    busy := false, completionDue := false } }) agrees.tables rfl rfl rfl rfl
  exact ⟨tables.blocks, tables.slots, agrees.sends.answering, nofun, nofun⟩

end Agr

/-- `t` meets every rule of `Kept` and the agreement on blocks, slots and sends where `s` does. -/
structure Keeps (s t : State) : Prop where
  kept : Kept s t
  agr : Agr s t

namespace Keeps

theorem refl (s : State) : Keeps s s := ⟨Kept.refl s, Agr.refl s⟩

theorem trans {s t u : State} (h : Keeps s t) (k : Keeps t u) : Keeps s u := ⟨h.kept.trans k.kept, h.agr.trans k.agr⟩

theorem getD {s u : State} {o : Option State} (h : ∀ t, o = some t → Keeps s t) (k : Keeps s u) : Keeps s (o.getD u) :=
  ⟨Kept.getD (fun t e => (h t e).kept) k.kept, Agr.getD (fun t e => (h t e).agr) k.agr⟩

theorem softResetCompletes (s t : State) (e : s.softResetCompletes = some t) : Keeps s t :=
  ⟨Kept.softResetCompletes s t e, Agr.softResetCompletes s t e⟩

/-- The line's part of a bit time, with the heartbeat raised or passing 4095 at its end (R42). -/
theorem beatOrTick (s : State) : Keeps s (if 4095 ≤ s.trunk.heartbeat then s.tickBit else s.beat.lineBit) := by
  split
  · exact ⟨Kept.tickBit s, Agr.tickBit s⟩
  · rename_i short
    exact ⟨(Kept.beat s (Nat.lt_of_not_le short)).trans (Kept.lineBit _), (Agr.beat s).trans (Agr.lineBit _)⟩

theorem bitTime (s : State) : Keeps s s.bitTime := by
  have passed := beatOrTick s
  unfold State.bitTime
  split
  · dsimp only
    split
    · exact getD (fun t e => passed.trans (softResetCompletes _ t e)) passed
    · exact passed
  · exact refl s

/-! ## The shells of the rows -/

theorem busWrite {f : State → State} (kept : ∀ s, Kept s (f s)) (agr : ∀ s, Agr s (f s)) (s t : State)
    (e : Machine.busWrite f s = .next t) : Keeps s t := ⟨Kept.busWrite kept s t e, Agr.busWrite agr s t e⟩

theorem busRead {value : State → Byte} {f : State → State} (kept : ∀ s, Kept s (f s)) (agr : ∀ s, Agr s (f s)) (s t : State)
    (e : Machine.busRead value f s = .next t) : Keeps s t := ⟨Kept.busRead kept s t e, Agr.busRead agr s t e⟩

theorem occurs {name : String} {f : State → Option State} (kept : ∀ s t, f s = some t → Kept s t)
    (agr : ∀ s t, f s = some t → Agr s t) (s t : State) (e : Machine.occurs name f s = .next t) : Keeps s t :=
  ⟨Kept.occurs kept s t e, Agr.occurs agr s t e⟩

/-- Each row is one of the three shells about an operation that keeps the rules, or the nRESET pin. -/
theorem exec (i : Instr) (s t : State) (e : Machine.exec i s = .next t) : Keeps s t := by
  cases i with
  | hardwareReset => exact ⟨Kept.hardwareReset s t e, Agr.hardwareReset s t e⟩
  | nresetAsserted => exact ⟨Kept.nresetAsserted s t e, Agr.nresetAsserted s t e⟩
  | softReset | start | continueChain | halt | withdraw | pop | takeBlock | freeChain | fenceStation | admitStation | trunkReset
  | clearCounters => exact busWrite (Kept.writeCommand · _) (Agr.writeCommand · _) s t e
  | unknown code => exact busWrite (Kept.writeCommand · code) (Agr.writeCommand · code) s t e
  | commandOverrun code => exact busWrite (Kept.writeCommand · code) (Agr.writeCommand · code) s t e
  | windowWrite a v => exact busWrite (Kept.writeWindow · a v) (Agr.writeWindow · a v) s t e
  | slotSelectWrite v => exact busWrite (Kept.writeSlotSelect · v) (Agr.writeSlotSelect · v) s t e
  | slotFieldIndexWrite v => exact busWrite (Kept.writeSlotIndex · v) (Agr.writeSlotIndex · v) s t e
  | slotFieldDataWrite v => exact busWrite (Kept.writeSlotData · v) (Agr.writeSlotData · v) s t e
  | reportFieldIndexWrite v => exact busWrite (Kept.writeReportIndex · v) (Agr.writeReportIndex · v) s t e
  | stationSelectWrite v => exact busWrite (Kept.writeStationSelect · v) (Agr.writeStationSelect · v) s t e
  | stationFieldIndexWrite v => exact busWrite (Kept.writeStationIndex · v) (Agr.writeStationIndex · v) s t e
  | blockSelectWrite v => exact busWrite (Kept.writeBlockSelect · v) (Agr.writeBlockSelect · v) s t e
  | blockOffsetWrite v => exact busWrite (Kept.writeBlockOffset · v) (Agr.writeBlockOffset · v) s t e
  | blockLinkWrite v => exact busWrite (Kept.writeBlockLink · v) (Agr.writeBlockLink · v) s t e
  | configIndexWrite v => exact busWrite (Kept.writeConfigIndex · v) (Agr.writeConfigIndex · v) s t e
  | configDataWrite v => exact busWrite (Kept.writeConfigData · v) (Agr.writeConfigData · v) s t e
  | trunkDividerLowWrite v => exact busWrite (Kept.writeDividerLow · v) (Agr.writeDividerLow · v) s t e
  | trunkDividerHighWrite v => exact busWrite (Kept.writeDividerHigh · v) (Agr.writeDividerHigh · v) s t e
  | trunkEnableWrite v => exact busWrite (Kept.writeTrunkEnable · v) (Agr.writeTrunkEnable · v) s t e
  | eventsWrite v => exact busWrite (fun s => Kept.setLatches s _) (Agr.writeEvents · v) s t e
  | eventMaskWrite v => exact busWrite (Kept.writeMask · v) (Agr.writeMask · v) s t e
  | counterIndexWrite v => exact busWrite (Kept.writeCounterIndex · v) (Agr.writeCounterIndex · v) s t e
  | blockDataAccess a => cases a with
    | read => exact busRead (value := (·.windowValue 0x14)) Kept.readBlockData Agr.readBlockData s t e
    | write v => exact busWrite (Kept.writeBlockData · v) (Agr.writeBlockData · v) s t e
  | slotFieldDataRead => exact busRead (value := (·.windowValue 0x0B)) Kept.advanceSlotIndex Agr.advanceSlotIndex s t e
  | counterDataRead => exact busRead (value := (·.windowValue 0x1A)) Kept.readCounter Agr.readCounter s t e
  | softResetComplete => exact occurs Kept.softResetCompletes Agr.softResetCompletes s t e
  | tick order =>
    exact occurs (fun s u h => Option.some.inj h ▸ Kept.tick s order)
      (fun s u h => Option.some.inj h ▸ Agr.tick s order) s t e
  | deadlineExpiry g => exact occurs (Kept.deadlineExpires · · g) (Agr.deadlineExpires · · g) s t e
  | restEnd g => exact occurs (Kept.restEnds · · g) (Agr.restEnds · · g) s t e
  | coalescingTimerExpiry => exact occurs Kept.coalescingExpires Agr.coalescingExpires s t e
  | lineIdle => exact occurs Kept.lineFallsIdle Agr.lineFallsIdle s t e
  | faultClear => exact occurs Kept.faultClears Agr.faultClears s t e
  | stuckLine => exact occurs Kept.sticks Agr.sticks s t e
  | contentionWon => exact occurs Kept.win Agr.win s t e
  | contentionLost cause => exact occurs (Kept.lose · · cause) (Agr.lose · · cause) s t e
  | requestSent => exact occurs Kept.requestOut Agr.requestOut s t e
  | noticeSent => exact occurs Kept.noticeOut Agr.noticeOut s t e
  | collision => exact occurs Kept.frameCut Agr.frameCut s t e
  | answerTimerExpiry stationFirst =>
    exact occurs (Kept.answerWindowExpired · · stationFirst) (Agr.answerWindowExpired · · stationFirst) s t e
  | header => exact occurs Kept.handHeader Agr.handHeader s t e
  | payloadByte => exact occurs Kept.handPayload Agr.handPayload s t e
  | frameEnd => exact occurs Kept.frameEnded Agr.frameEnded s t e
  | gapTimerExpiry => exact occurs Kept.gapExpired Agr.gapExpired s t e
  | malformedRunEnd => exact occurs Kept.malformedEnded Agr.malformedEnded s t e
  | replyWindow => exact occurs Kept.replyStarts Agr.replyStarts s t e
  | replySent => exact occurs Kept.replyOut Agr.replyOut s t e
  | replyCollision => exact occurs Kept.replyCut Agr.replyCut s t e
  | markEnd => exact occurs Kept.markEnds Agr.markEnds s t e
  | trunkResetComplete => exact occurs Kept.trunkResetCompletes Agr.trunkResetCompletes s t e
  | claimBit => exact occurs Kept.claim Agr.claim s t e
  | foreignClaimBit => exact occurs Kept.foreignClaim Agr.foreignClaim s t e
  | startBit => exact occurs Kept.startBitSeen Agr.startBitSeen s t e
  | characterReceived v stop => exact occurs (Kept.characterIn · · v stop) (Agr.characterIn · · v stop) s t e

/-- A step is a bit time, or the front command's row on the queue's rest. -/
theorem step (s t : State) (e : Machine.step s = .next t) : Keeps s t := by
  unfold Machine.step at e
  split at e
  · cases e
    exact bitTime s
  · rename_i c rest _
    have popped : Keeps s { s with pending := rest } :=
      ⟨⟨id, id, id, id, id, fun _ => id, id⟩, Agr.idle rfl rfl rfl rfl rfl rfl⟩
    exact popped.trans (exec c _ t e)

end Keeps

/-- Settles O56: every step keeps the memory's form, and the three agreements together. -/
theorem stepKeepsMemoryForm : Obligations.StepKeepsMemoryForm := by
  intro s t e
  have keeps := Keeps.step s t e
  refine ⟨keeps.kept.memory, fun blocks slots sends => ?_⟩
  have agrees := keeps.agr ⟨blocks, slots, sends⟩
  exact ⟨agrees.blocks, agrees.slots, agrees.sends⟩

/-! ## The pool's operations (R102, R103, R105, R113) -/

/-- A byte stored reads back at its own block and offset alone (R105, log 11). -/
theorem blockByte_store (s : State) (b c : BlockId) (o q : Fin 64) (v : Byte) :
    State.blockByte { s with pool := s.pool.store b o.val v } c q.val = if c = b ∧ q = o then v else s.blockByte c q.val := by
  unfold State.blockByte Pool.store
  by_cases same : c = b ∧ q = o
  · rw [if_pos same]
    obtain ⟨rfl, rfl⟩ := same
    rw [Memory.read_write_same]
  · rw [if_neg same]
    have apart : byteAddress c q.val ≠ byteAddress b o.val := fun e => by
      obtain ⟨block, offset⟩ := byteAddress_inj c b q.val o.val e
      exact same ⟨block, Fin.ext (by omega)⟩
    rw [Memory.read_write_other _ _ _ _ apart]

/-- Settles O28: a store by the two addresses, the other operations by the lists of blocks they go through. -/
theorem poolOperations : Obligations.PoolOperations := by
  refine ⟨fun s b c o q v => ⟨blockByte_store s b c o q v, rfl, rfl, rfl⟩, fun p bs o b => ?_, fun p bs b => ?_,
    fun p n o b once => ?_⟩
  · exact ⟨p.setOwners_owner bs o b, p.setOwners_link bs o, p.setOwners_data bs o, p.setOwners_freeList bs o⟩
  · exact ⟨p.appendAll_owner bs b, p.appendAll_link bs b, p.appendAll_data bs, p.appendAll_freeList bs⟩
  · obtain ⟨chained, ends⟩ := p.take_chained n o once
    exact ⟨p.take_owner n o b, p.take_link_other n o b, chained, ends b, p.take_data n o, p.take_freeList n o⟩

/-! ## The block window (R108 to R110) -/

theorem busRead_open {value : State → Byte} {f : State → State} {s : State} (h : s.windowOpen) :
    busRead value f s = .next ((f s).setBus (value s)) := by
  unfold busRead
  rw [h.1, h.2]
  rfl

theorem windowValue_blockData {s : State} (h : s.windowOpen) : s.windowValue 0x14 = s.blockDataValue := by
  unfold State.windowValue
  rw [h.1]
  rfl

section blockWindow
variable {s : State} (h : s.windowOpen)
include h

theorem blockSelect_selects {v : Byte} {b : BlockId} (names : v.toNat = b.val) :
    exec (.blockSelectWrite v) s = .next { s with sel := { s.sel with blockSelect := b, blockOffset := 0 } } := by
  refine (busWrite_open (f := (·.writeBlockSelect v)) h).trans (congrArg _ ?_)
  rw [State.writeBlockSelect, blockOf_some.mpr names]
  rfl

theorem blockSelect_range {v : Byte} (above : 64 ≤ v.toNat) : exec (.blockSelectWrite v) s = .next (s.faulted .range) := by
  refine (busWrite_open (f := (·.writeBlockSelect v)) h).trans (congrArg _ ?_)
  rw [State.writeBlockSelect, blockOf_none.mpr above]
  rfl

theorem blockOffset_moves {v : Byte} {o : Fin 64} (names : v.toNat = o.val) :
    exec (.blockOffsetWrite v) s = .next { s with sel := { s.sel with blockOffset := o } } := by
  have fits : v.toNat < 64 := names ▸ o.isLt
  obtain rfl : ⟨v.toNat, fits⟩ = o := Fin.ext names
  exact (busWrite_open (f := (·.writeBlockOffset v)) h).trans (congrArg _ (dif_pos fits))

theorem blockOffset_range {v : Byte} (above : 64 ≤ v.toNat) : exec (.blockOffsetWrite v) s = .next (s.faulted .range) :=
  (busWrite_open (f := (·.writeBlockOffset v)) h).trans (congrArg _ (dif_neg (Nat.not_lt.mpr above)))

theorem blockLink_notProcessor (v : Byte) (other : s.pool.owner[s.sel.blockSelect] ≠ .processor) :
    exec (.blockLinkWrite v) s = .next (s.faulted .notProcessor) :=
  (busWrite_open (f := (·.writeBlockLink v)) h).trans (congrArg _ (if_neg other))

section processors
variable (own : s.pool.owner[s.sel.blockSelect] = .processor)
include own

theorem blockLink_links {v : Byte} {b : BlockId} (names : v.toNat = b.val) : exec (.blockLinkWrite v) s =
    .next { s with pool := { s.pool with link := s.pool.link.set s.sel.blockSelect (some b) } } := by
  have block : v ≠ 0x7F := fun e => by
    have := b.isLt
    rw [← names, e] at this
    exact absurd this (by decide)
  refine (busWrite_open (f := (·.writeBlockLink v)) h).trans (congrArg _ ?_)
  rw [State.writeBlockLink, if_pos own, if_neg block, blockOf_some.mpr names]
  rfl

theorem blockLink_ends : exec (.blockLinkWrite 0x7F) s =
    .next { s with pool := { s.pool with link := s.pool.link.set s.sel.blockSelect none } } := by
  refine (busWrite_open (f := (·.writeBlockLink 0x7F)) h).trans (congrArg _ ?_)
  rw [State.writeBlockLink, if_pos own, if_pos rfl]
  rfl

theorem blockLink_range {v : Byte} (outside : (64 ≤ v.toNat ∧ v.toNat ≤ 126) ∨ 127 < v.toNat) :
    exec (.blockLinkWrite v) s = .next (s.faulted .range) := by
  have notEnd : v ≠ 0x7F := fun e => by
    rw [e] at outside
    exact absurd outside (by decide)
  have above : 64 ≤ v.toNat := by omega
  refine (busWrite_open (f := (·.writeBlockLink v)) h).trans (congrArg _ ?_)
  rw [State.writeBlockLink, if_pos own, if_neg notEnd, blockOf_none.mpr above]
  rfl

theorem blockData_reads : exec (.blockDataAccess .read) s =
    .next { s with bus := s.blockByte s.sel.blockSelect s.sel.blockOffset.val, sel := s.advancedPointer } := by
  have shown : s.windowValue 0x14 = s.blockByte s.sel.blockSelect s.sel.blockOffset.val := by
    rw [windowValue_blockData h, State.blockDataValue, if_pos own]
  refine (busRead_open (value := (·.windowValue 0x14)) (f := State.readBlockData) h).trans (congrArg _ ?_)
  rw [shown, State.readBlockData, if_pos own]
  rfl

theorem blockData_writes (v : Byte) : exec (.blockDataAccess (.write v)) s =
    .next { s with pool := s.pool.store s.sel.blockSelect s.sel.blockOffset.val v, sel := s.advancedPointer } :=
  (busWrite_open (f := (·.writeBlockData v)) h).trans (congrArg _ (if_pos own))

end processors

section others
variable (other : s.pool.owner[s.sel.blockSelect] ≠ .processor)
include other

theorem blockData_readRefused : exec (.blockDataAccess .read) s =
    .next { s.faulted .notProcessor with bus := 0, sel := s.advancedPointer } := by
  have shown : s.windowValue 0x14 = 0 := by rw [windowValue_blockData h, State.blockDataValue, if_neg other]
  refine (busRead_open (value := (·.windowValue 0x14)) (f := State.readBlockData) h).trans (congrArg _ ?_)
  rw [shown, State.readBlockData, if_neg other]
  rfl

theorem blockData_writeRefused (v : Byte) : exec (.blockDataAccess (.write v)) s =
    .next { s.faulted .notProcessor with sel := s.advancedPointer } :=
  (busWrite_open (f := (·.writeBlockData v)) h).trans (congrArg _ (if_neg other))

end others
end blockWindow

/-- Settles O26: a selector by the block or offset the byte names, a link by the owner first and the byte after. -/
theorem blockPointerAndLink : Obligations.BlockPointerAndLink := fun _ v h =>
  ⟨fun _ => blockSelect_selects h, blockSelect_range h, fun _ => blockOffset_moves h, blockOffset_range h,
    blockLink_notProcessor h v, fun own => ⟨fun _ => blockLink_links h own, fun e => e ▸ blockLink_ends h own,
      blockLink_range h own⟩⟩

/-- Settles O27: the block's owner decides the byte and the fault, and the pointer's advance is the same in each case. -/
theorem blockDataAtThePointer : Obligations.BlockDataAtThePointer := fun _ v h =>
  ⟨fun own => ⟨blockData_reads h own, blockData_writes h own v⟩,
    fun other => ⟨blockData_readRefused h other, blockData_writeRefused h other v⟩⟩

/-! ## TAKE BLOCK (R106) -/

/-- A take of one block gives the head of the free list link END. -/
theorem Pool.take_one {p : Pool} {b : BlockId} {rest : List BlockId} (head : p.freeList = b :: rest) (o : Owner) :
    p.take 1 o = { p with owner := p.owner.set b o, link := p.link.set b none, freeList := rest } := by
  unfold Pool.take
  rw [head]
  rfl

theorem commandTakeBlock_takes {s : State} {b : BlockId} {rest : List BlockId} (head : s.pool.freeList = b :: rest)
    (above : s.config.freeFloor < s.pool.freeList.length) :
    s.commandTakeBlock = (s.setPool (s.pool.take 1 .processor)).complete .ok (byteOf b.val) := by
  unfold State.commandTakeBlock Pool.freeCount
  rw [if_pos above, head]

section takeBlock
variable {s : State} (h : s.portFree)
include h

theorem takeBlock_empty (floor : s.pool.freeList.length ≤ s.config.freeFloor) :
    exec .takeBlock s = .next (s.commandDone 0x06 .empty 0xFF) :=
  (writeCommand_free h 0x06).trans (congrArg _ (if_neg (Nat.not_lt.mpr floor)))

theorem takeBlock_takes {b : BlockId} {rest : List BlockId} (head : s.pool.freeList = b :: rest)
    (above : s.config.freeFloor < s.pool.freeList.length) : exec .takeBlock s =
      .next (State.commandDone { s with pool := s.pool.take 1 .processor } 0x06 .ok (BitVec.ofNat 8 b.val)) :=
  (writeCommand_free h 0x06).trans (congrArg _ (commandTakeBlock_takes (s := s.setPort _) head above))

end takeBlock

/-- Settles O18: the free count against FreeFloor. -/
theorem takeBlockAboveFloor : Obligations.TakeBlockAboveFloor := by
  refine ⟨fun _ => takeBlock_empty, fun s b rest h head above => ?_⟩
  rw [takeBlock_takes h head above, Pool.take_one head]

/-! ## FREE CHAIN (R107) -/

theorem IgnoresPort.freeChain (bs : List BlockId) : IgnoresPort fun s => (s.freeBlocks bs).reevaluate :=
  fun s p => IgnoresPort.reevaluate (s.freeBlocks bs) p

section freeChain
variable {s : State} (h : s.portFree)
include h

/-- FREE CHAIN is dispatched on its argument and the walk. -/
theorem freeChain_dispatches :
    exec .freeChain s = .next (s.setPort { s.port with command := 0x07, busy := true }).commandFreeChain :=
  writeCommand_free h 0x07

theorem freeChain_range (above : 64 ≤ s.port.arg0.toNat) : exec .freeChain s = .next (s.commandDone 0x07 .range 0xFF) := by
  rw [freeChain_dispatches h, State.commandFreeChain]
  dsimp only [setPort_port]
  rw [blockOf_none.mpr above]
  rfl

section walk
variable {b : BlockId} (first : s.port.arg0.toNat = b.val)
include first

theorem freeChain_frees {bs : List BlockId} (walk : s.pool.freeWalk 16 b = .ok bs) : exec .freeChain s =
    .next ((State.reevaluate { s with pool := s.pool.appendAll bs }).commandDone 0x07 .ok (BitVec.ofNat 8 bs.length)) := by
  rw [freeChain_dispatches h, State.commandFreeChain]
  dsimp only [setPort_port]
  rw [blockOf_some.mpr first]
  dsimp only [setPort_pool]
  rw [walk]
  exact congrArg _ (complete_after (IgnoresPort.freeChain bs) s 0x07 .ok _)

theorem freeChain_fails {r : CmdResult} {c : BlockId} (walk : s.pool.freeWalk 16 b = .error (r, c)) :
    exec .freeChain s = .next (s.commandDone 0x07 r (BitVec.ofNat 8 c.val)) := by
  rw [freeChain_dispatches h, State.commandFreeChain]
  dsimp only [setPort_port]
  rw [blockOf_some.mpr first]
  dsimp only [setPort_pool]
  rw [walk]
  rfl

end walk
end freeChain

/-- Settles O19: what the walk of at most 16 blocks finds along the chain. -/
theorem freeChainWalk : Obligations.FreeChainWalk := by
  intro s h
  refine ⟨freeChain_range h, fun b last bs first head tail chained own short ends => ?_,
    fun b last bs first head tail chained own long goes => ?_, fun b last bs first head chained own short other => ?_⟩
  · exact freeChain_frees h first (s.pool.freeWalk_ok 16 b last bs head tail chained own short ends)
  · exact freeChain_fails h first (s.pool.freeWalk_long 16 b last bs head tail chained own long goes)
  · exact freeChain_fails h first (s.pool.freeWalk_not_processor 16 b last bs head chained own short other)

end Sys2Proof.Machine
end

section
/-! PROOFS. The Station Table (chapter 6): FENCE and ADMIT, with the re-evaluation a change of State brings. -/

namespace Sys2Proof.Machine

open Sys2Proof

/-! ## A new value for a record (R83) -/

theorem setStation_station (s : State) (i : StationId) : s.setStation i (s.station i) = s := by
  have same : s.stations.set i (s.station i) = s.stations := Vector.set_getElem_self _
  rw [State.setStation, same]

theorem updateStation_station (s : State) (i : StationId) : s.updateStation i (s.station i) = s := by
  rw [State.updateStation, if_pos ⟨rfl, rfl, rfl⟩, setStation_station]

theorem updateStation_of_presence_ne {s : State} {i : StationId} {r : Station} (changes : (s.station i).presence ≠ r.presence) :
    s.updateStation i r = (s.setStation i r).reevaluate :=
  if_neg fun ⟨same, _⟩ => changes same

theorem Station.fence_fenced {r : Station} (fenced : r.presence = .fenced) : r.fence = r := by
  rw [Station.fence, ← fenced]

/-! ## FENCE and ADMIT (R123, R124) -/

section stationCommands
variable {s : State} (h : s.portFree)
include h

theorem fenceStation_dispatches :
    exec .fenceStation s = .next (s.setPort { s.port with command := 0x08, busy := true }).commandFence :=
  writeCommand_free h 0x08

theorem admitStation_dispatches :
    exec .admitStation s = .next (s.setPort { s.port with command := 0x09, busy := true }).commandAdmit :=
  writeCommand_free h 0x09

theorem fenceStation_range (outside : s.port.arg0.toNat = 0 ∨ 14 < s.port.arg0.toNat) :
    exec .fenceStation s = .next (s.commandDone 0x08 .range 0) := by
  rw [fenceStation_dispatches h, State.commandFence]
  dsimp only [setPort_port]
  rw [stationOf_none.mpr outside]
  rfl

theorem admitStation_range (outside : s.port.arg0.toNat = 0 ∨ 14 < s.port.arg0.toNat) :
    exec .admitStation s = .next (s.commandDone 0x09 .range 0) := by
  rw [admitStation_dispatches h, State.commandAdmit]
  dsimp only [setPort_port]
  rw [stationOf_none.mpr outside]
  rfl

section named
variable {i : StationId} (names : s.port.arg0.toNat = i.address)
include names

theorem fenceStation_updates :
    exec .fenceStation s = .next ((s.updateStation i (s.station i).fence).commandDone 0x08 .ok 0) := by
  rw [fenceStation_dispatches h, State.commandFence]
  dsimp only [setPort_port]
  rw [stationOf_some.mpr names]
  exact congrArg _ (complete_after (IgnoresPort.updateStation i (s.station i).fence) s 0x08 .ok 0)

theorem admitStation_updates (fenced : (s.station i).presence = .fenced) :
    exec .admitStation s = .next ((s.updateStation i (s.station i).admitted).commandDone 0x09 .ok 0) := by
  rw [admitStation_dispatches h, State.commandAdmit]
  dsimp only [setPort_port]
  rw [stationOf_some.mpr names]
  refine congrArg _ ((if_pos fenced).trans ?_)
  exact complete_after (IgnoresPort.updateStation i (s.station i).admitted) s 0x09 .ok 0

theorem admitStation_ignored (other : (s.station i).presence ≠ .fenced) :
    exec .admitStation s = .next (s.commandDone 0x09 .ignored 0) := by
  rw [admitStation_dispatches h, State.commandAdmit]
  dsimp only [setPort_port]
  rw [stationOf_some.mpr names]
  exact congrArg _ (if_neg other)

end named
end stationCommands

/-- Settles O20: FENCE of a Fenced record writes the record it finds; FENCE of any other and ADMIT of a Fenced one change State. -/
theorem fenceAndAdmit : Obligations.FenceAndAdmit := by
  refine ⟨fun s h outside => ⟨fenceStation_range h outside, admitStation_range h outside⟩, fun s i h names =>
    ⟨fun fenced => ⟨?_, ?_⟩, fun other => ⟨?_, admitStation_ignored h names other⟩⟩⟩
  · rw [fenceStation_updates h names, Station.fence_fenced fenced, updateStation_station]
  · have changes : (s.station i).presence ≠ (s.station i).admitted.presence := by
      rw [fenced]
      nofun
    rw [admitStation_updates h names fenced, updateStation_of_presence_ne changes]
    rfl
  · rw [fenceStation_updates h names, updateStation_of_presence_ne other]
    rfl

end Sys2Proof.Machine
end

section
/-! PROOFS. Reports and the interrupt line (chapter 7): the queue's bound and the pending flags along every step, POP, the writes of EVENTS
and EVENT MASK, and nIRQ. -/

namespace Sys2Proof.Machine

open Sys2Proof

/-! ## The queue and the pending flags along a step (R76, R95, R134, R135) -/

/-- Settles O58: both rules are among those that every step keeps. -/
theorem stepKeepsQueueAndFlags : Obligations.StepKeepsQueueAndFlags := fun s t e =>
  have kept : Kept s t := (Keeps.step s t e).kept
  ⟨kept.queue, kept.flags⟩

/-! ## POP (R137 to R139) -/

/-- The effects of a POP depend on the popped record alone, not on what the Report Queue holds (R138). -/
theorem popEffects_setReports (s : State) (q : Reports) (r : Report) :
    (s.setReports q).popEffects r = (s.popEffects r).setReports q := by
  have exchange : ∀ g, (s.setReports q).exchangePopped g = (s.exchangePopped g).setReports q := fun g => by
    have same : (s.setReports q).entry g = s.entry g := rfl
    unfold State.exchangePopped
    rw [same]
    cases s.entry g <;> rfl
  unfold State.popEffects
  cases r.kind with
  | exchange => cases r.tag with
    | some g => exact exchange g
    | none => rfl
  | attention => cases r.station <;> rfl
  | notice => rfl
  | slot => rfl

theorem popEffects_idle {s : State} {r : Report} (kind : r.kind = .notice ∨ r.kind = .slot) : s.popEffects r = s := by
  unfold State.popEffects
  obtain notice | slot := kind
  · rw [notice]
  · rw [slot]

theorem popEffects_attention {s : State} {r : Report} {i : StationId} (kind : r.kind = .attention) (source : r.station = some i) :
    s.popEffects r = { s with stations := s.stations.set i { s.station i with attnPending := false, attnCount := 0 } } := by
  unfold State.popEffects
  rw [kind, source]
  rfl

theorem popEffects_exchange {s : State} {r : Report} {g : Tag} {x : Exchange} {d : DoneRecord} (kind : r.kind = .exchange)
    (tag : r.tag = some g) (ended : s.entry g = .done x d) :
    s.popEffects r = { s with
      pool := s.pool.setOwners d.receivedChain .processor
      entries := s.entries.set g (afterPop x d s.config.restTime) } := by
  unfold State.popEffects State.exchangePopped
  rw [kind, tag]
  dsimp only
  rw [ended]
  rfl

/-- POP of a head record: its effects beside the queue's own change, the command completed with the count left, and one re-evaluation
(R137, R139). -/
theorem commandPop_head {s : State} {r : Report} {rest : List Report} (head : s.reports.queue = r :: rest) :
    s.commandPop = (((s.popEffects r).setReports s.reports.popped).complete .ok
      (byteOf s.reports.popped.queue.length)).reevaluate := by
  unfold State.commandPop
  rw [head]
  dsimp only
  rw [popEffects_setReports, setReports_reports, popped_eq s.reports r rest head]
  rfl

section pop
variable {s : State} (h : s.portFree)
include h

theorem pop_dispatches : exec .pop s = .next (s.setPort { s.port with command := 0x05, busy := true }).commandPop :=
  writeCommand_free h 0x05

theorem pop_empty (empty : s.reports.queue = []) : exec .pop s = .next (s.commandDone 0x05 .empty 0) := by
  rw [pop_dispatches h, State.commandPop, setPort_reports, empty]
  rfl

/-- The row: the head's effects beside the queue's own change (R137 to R139). -/
theorem pop_head {r : Report} {rest : List Report} (head : s.reports.queue = r :: rest) :
    exec .pop s = .next ((((s.popEffects r).setReports s.reports.popped).commandDone 0x05 .ok
      (byteOf s.reports.popped.queue.length)).reevaluate) := by
  have ignores : IgnoresPort fun t => (t.popEffects r).setReports s.reports.popped :=
    (IgnoresPort.popEffects r).comp (g := (·.setReports s.reports.popped)) fun _ _ => rfl
  have taken : (s.setPort { s.port with command := 0x05, busy := true }).reports.queue = r :: rest := head
  rw [pop_dispatches h, commandPop_head taken]
  exact congrArg _ (congrArg State.reevaluate (complete_after ignores s 0x05 .ok _))

end pop

/-- Settles O17: the empty queue, and the head record's effects by its kind. -/
theorem popByKind : Obligations.PopByKind := by
  refine ⟨fun _ h => pop_empty h, fun s r rest h head => ⟨fun kind => ?_, fun i kind source => ?_,
    fun g x d kind tag ended => ?_⟩⟩
  · rw [pop_head h head, popEffects_idle kind]
    rfl
  · rw [pop_head h head, popEffects_attention kind source]
    rfl
  · rw [pop_head h head, popEffects_exchange kind tag ended]
    rfl

/-! ## EVENTS and EVENT MASK written (R146, R147) -/

section eventWrites
variable {s : State} (h : s.windowOpen)
include h

theorem eventsWrite_clears (v : Byte) :
    exec (.eventsWrite v) s = .next (s.setLatches (s.reports.latches.cleared v)) :=
  busWrite_open (f := (·.writeEvents v)) h

theorem eventMaskWrite_range {v : Byte} (outside : v.getLsbD 5 = true ∨ v.getLsbD 6 = true) :
    exec (.eventMaskWrite v) s = .next (s.faulted .range) :=
  (busWrite_open (f := (·.writeMask v)) h).trans (congrArg _ (if_pos (Bool.or_eq_true_iff.mpr outside)))

theorem eventMaskWrite_replaces {v : Byte} (clean : maskClean v) :
    exec (.eventMaskWrite v) s = .next (s.setReports { s.reports with mask := v }) := by
  have accepted : ¬ (v.getLsbD 5 || v.getLsbD 6) = true := by
    rw [clean.1, clean.2]
    exact Bool.false_ne_true
  exact (busWrite_open (f := (·.writeMask v)) h).trans (congrArg _ (if_neg accepted))

end eventWrites

/-- Settles O32: EVENTS latch by latch, EVENT MASK by its bits 5 and 6. -/
theorem eventsAndMaskWrites : Obligations.EventsAndMaskWrites := fun _ v h =>
  ⟨eventsWrite_clears h v, eventMaskWrite_range h, fun five six => eventMaskWrite_replaces h ⟨five, six⟩⟩

/-! ## EVENTS and nIRQ (R142, R146, R148) -/

theorem and_ne_zero_iff (x y : Byte) : ((x &&& y) != 0) = true ↔ ∃ i, x.getLsbD i = true ∧ y.getLsbD i = true := by
  have zero : x &&& y = 0 ↔ ∀ i, (x &&& y).getLsbD i = false := BitVec.zero_iff_eq_false
  rw [bne_iff_ne, ne_eq, zero, Classical.not_forall]
  simp only [Bool.not_eq_false, BitVec.getLsbD_and, Bool.and_eq_true]

theorem flagByte_getLsbD (b : Bool) (i : Nat) : (flagByte b).getLsbD i = (b && decide (i = 0)) := by
  cases b <;> simp [flagByte]

theorem flagByte_shiftLeft_getLsbD (b : Bool) {n : Nat} (h : n < 8) (i : Nat) :
    (flagByte b <<< n).getLsbD i = (b && decide (i = n)) := by
  rw [BitVec.getLsbD_shiftLeft, flagByte_getLsbD]
  have place : (decide (i < 8) && !decide (i < n) && decide (i - n = 0)) = decide (i = n) := by
    rw [Bool.eq_iff_iff]
    simp only [Bool.and_eq_true, Bool.not_eq_true', decide_eq_true_eq, decide_eq_false_iff_not]
    omega
  rw [Bool.and_left_comm, place]

/-- Each event has its own bit of EVENTS (Table 7.2). -/
theorem events_getLsbD (s : State) (i : Nat) : s.events.getLsbD i = true ↔
    (i = 0 ∧ s.reports.latches.launcherStopped = true) ∨ (i = 1 ∧ s.reports.latches.trunkFault = true) ∨
    (i = 2 ∧ s.reports.latches.windowFault = true) ∨ (i = 3 ∧ s.reports.latches.commandDone = true) ∨
    (i = 4 ∧ s.reports.latches.commandOverrun = true) ∨ (i = 7 ∧ s.reportsReady = true) := by
  unfold State.events Latches.bits
  simp only [BitVec.getLsbD_or, flagByte_getLsbD, flagByte_shiftLeft_getLsbD, Nat.reduceLT, Bool.or_eq_true, Bool.and_eq_true,
    decide_eq_true_eq, or_assoc, and_comm]

/-- The interrupt line is asserted while an event and its mask bit are both set (R148). -/
theorem irq_iff {s : State} (h : s.nreset = true) :
    s.irq = true ↔ ∃ i, s.reports.mask.getLsbD i = true ∧ s.events.getLsbD i = true := by
  rw [State.irq, h, Bool.true_and, BitVec.and_comm, and_ne_zero_iff]

/-- Reports-ready (R142). -/
theorem reportsReady_iff (s : State) : s.reportsReady = true ↔ s.config.reportThreshold ≤ s.reports.queue.length ∨
    (∃ r ∈ s.reports.queue, r.urgent = true) ∨ s.reports.overdue = true := by
  simp [State.reportsReady, or_assoc]

/-- Settles O33: the events bit by bit against the mask, and reports-ready by its three causes. -/
theorem interruptLineFollowsEvents : Obligations.InterruptLineFollowsEvents := by
  intro s h
  refine ⟨?_, reportsReady_iff s⟩
  rw [irq_iff h]
  simp only [events_getLsbD, and_or_left, exists_or, and_left_comm, exists_eq_left]

end Sys2Proof.Machine
end

section
/-! PROOFS. The processor port and the commands (chapter 8): the configuration along every step, the three resets, the COMMAND write,
CLEAR COUNTERS, the selectors, the configuration items, and what each location of the window shows. -/

namespace Sys2Proof.Machine

open Sys2Proof

/-! ## The configuration along a step (R147, R158) -/

/-- Settles O57: the ranges and the mask's clear bits are among the rules that every step keeps. -/
theorem stepKeepsConfiguration : Obligations.StepKeepsConfiguration := fun s t e range clean =>
  have kept : Kept s t := (Keeps.step s t e).kept
  ⟨kept.config range, kept.mask clean⟩

/-! ## The tables after a reset (R73, R104, R168, R169, Table 6.1) -/

section resetTables
variable {s : State}

theorem slot_of_replicate (h : s.slots = Vector.replicate 32 Slot.reset) (k : SlotId) : s.slot k = Slot.reset := by
  simp [State.slot, h]

theorem entry_of_replicate (h : s.entries = Vector.replicate 16 .free) (g : Tag) : s.entry g = .free := by
  simp [State.entry, h]

theorem station_of_replicate (h : s.stations = Vector.replicate 14 Station.reset) (i : StationId) :
    s.station i = Station.reset := by
  simp [State.station, h]

/-- With every entry Free no live entry names a station. -/
theorem liveCount_of_free (free : ∀ g, s.entry g = .free) (i : StationId) : s.liveCount i = 0 := by
  have none : ∀ g ∈ List.finRange 16, ¬ (s.entry g).liveFor i = true := fun g _ => by
    rw [free g]
    exact Bool.false_ne_true
  rw [State.liveCount, List.filter_eq_nil_iff.mpr none, List.length_nil]

theorem outstandingAgrees_of_replicate (he : s.entries = Vector.replicate 16 .free)
    (hs : s.stations = Vector.replicate 14 Station.reset) : s.outstandingAgrees := by
  intro i
  rw [station_of_replicate hs, liveCount_of_free (entry_of_replicate he)]
  exact ⟨rfl, Nat.zero_le 4, Nat.le_refl 1, Nat.le_add_left 1 3⟩

end resetTables

theorem poolReset_free (b : BlockId) : Pool.reset.owner[b] = .free ∧ Pool.reset.link[b] = none := by
  simp [Pool.reset]

theorem countersReset_zero (c : Fin 12) : Counters.reset.bank[c] = 0 := by
  simp [Counters.reset]

/-! ## Resets (R43, R150, R151, R166 to R168) -/

/-- Settles O55: the configuration and the tables by the lemmas about their reset values, the agreements by `agrees_reset`. -/
theorem resetMeetsInvariants : Obligations.ResetMeetsInvariants := by
  have agrees : Agrees State.reset := agrees_reset rfl rfl rfl rfl fun _ _ => nofun
  refine ⟨rfl, reset_inRange, reset_maskClean, ?queue, ?flags, ?trunk, ?enable, outstandingAgrees_of_replicate rfl rfl,
    agrees.blocks, agrees.slots, agrees.sends⟩
  case queue => exact ⟨Nat.zero_le _, fun some => absurd rfl some⟩
  case flags => exact ⟨nofun, fun _ => ⟨rfl, rfl⟩, fun _ _ => ⟨rfl, rfl⟩⟩
  case trunk => exact ⟨Nat.zero_le _, Nat.zero_le _, Nat.zero_le _, nofun⟩
  case enable => exact fun _ => ⟨fun _ => rfl, fun _ => rfl⟩

/-- With no bit of EVENT MASK set the interrupt line is released (R148). -/
theorem irq_of_mask_zero {s : State} (clear : s.reports.mask = 0) : s.irq = false := by
  simp [State.irq, clear]

/-- Settles O3: the fields are the reset values, and each table holds one reset record throughout. -/
theorem hardwareResetTakesResetValues : Obligations.HardwareResetTakesResetValues := fun _ =>
  ⟨_, rfl, rfl, irq_of_mask_zero rfl, rfl, rfl, rfl, rfl, rfl, rfl, rfl, slot_of_replicate rfl, rfl, entry_of_replicate rfl,
    station_of_replicate rfl, poolReset_free, rfl, rfl, rfl, countersReset_zero, rfl, rfl, rfl⟩

/-- A closed port drops every write (R151, R167). -/
theorem exec_busWrite_closed {c : Instr} {s : State} (write : isBusWrite c = true) (closed : ¬ s.windowOpen) :
    exec c s = .next s := by
  obtain ⟨f, row⟩ := exec_busWrite c write
  rw [row, busWrite_closed closed]

/-- A closed port takes no effect of a read (R151, log 12). -/
theorem busRead_closed {value : State → Byte} {f : State → State} {s : State} (closed : ¬ s.windowOpen) :
    busRead value f s = .next (s.setBus (value s)) := by
  have shut : ¬ (s.nreset && !s.softResetting) = true := by simpa [State.windowOpen] using closed
  rw [busRead, if_neg shut]

section nresetLow
variable {s : State} (low : s.nreset = false)
include low

theorem not_windowOpen_of_low : ¬ s.windowOpen := fun ⟨high, _⟩ => Bool.false_ne_true (low.symm.trans high)

theorem windowValue_low (a : BitVec 5) : s.windowValue a = 0 := by
  rw [State.windowValue, low]
  rfl

/-- While nRESET is low a read presents 0x00 and does nothing (R151). -/
theorem busRead_low (a : BitVec 5) (f : State → State) : busRead (·.windowValue a) f s = .next { s with bus := 0 } := by
  rw [busRead_closed (not_windowOpen_of_low low), windowValue_low low]
  rfl

theorem irq_low : s.irq = false := by
  rw [State.irq, low, Bool.false_and]

theorem drives_low : s.drives = false := by
  rw [State.drives, low, Bool.false_and]

end nresetLow

/-- Settles O4: the row's next state, and a port that takes no access while nRESET is low. -/
theorem nresetLowClosesThePart : Obligations.NresetLowClosesThePart :=
  ⟨fun _ => rfl, fun _ low => ⟨irq_low low, drives_low low,
    fun _ write => exec_busWrite_closed write (not_windowOpen_of_low low),
    busRead_low low 0x0B _, busRead_low low 0x1A _, busRead_low low 0x14 _⟩⟩

section softReset
variable {s : State} (resetting : s.softResetting = true)
include resetting

theorem not_windowOpen_of_softResetting : ¬ s.windowOpen := fun ⟨_, free⟩ => Bool.false_ne_true (free.symm.trans resetting)

theorem command_of_softResetting : s.port.command = 0x0C := by
  obtain ⟨_, command⟩ := Bool.and_eq_true_iff.mp resetting
  exact eq_of_beq command

theorem softResetCompletes_of_softResetting :
    s.softResetCompletes = some ((s.setLatches Latches.clear).commandDone 0x0C .ok 0) := by
  rw [State.softResetCompletes, if_pos resetting, ← command_of_softResetting resetting]
  rfl

end softReset

theorem softReset_resets {s : State} (h : s.portFree) : exec .softReset s = .next { s.commandSoftReset with nreset := true } := by
  have high : s.nreset = true := h.1
  rw [← high]
  exact writeCommand_free h 0x0C

/-- Settles O5: the command's own next state, a port closed while it runs, and its completion under its own code. -/
theorem softResetAndItsCompletion : Obligations.SoftResetAndItsCompletion :=
  ⟨fun _ => softReset_resets, fun _ high resetting =>
    ⟨fun _ write => exec_busWrite_closed write (not_windowOpen_of_softResetting resetting),
      occurs_some high (softResetCompletes_of_softResetting resetting)⟩⟩

/-! ## The COMMAND write (R161, R162) -/

/-- A code outside Table 8.4 is dispatched to nobody. -/
theorem dispatch_unknown (s : State) {code : Byte} (unknown : commandCodeKnown code = false) :
    s.dispatch code = s.complete .unknown 0 := by
  have outside : code.toNat = 0 ∨ 13 ≤ code.toNat := by
    simp only [commandCodeKnown, Bool.and_eq_false_iff, decide_eq_false_iff_not] at unknown
    omega
  unfold State.dispatch
  obtain zero | above := outside
  · rw [zero]
    rfl
  · obtain ⟨n, rest⟩ := Nat.exists_eq_add_of_le' above
    rw [rest]
    rfl

theorem commandWrite_overruns {c : Instr} {code : Byte} {s : State} (row : commandCode c = some code) (h : s.windowOpen)
    (busy : s.port.busy = true) : exec c s = .next s.latchCommandOverrun := by
  rw [exec_writeCommand c code row, busWrite_open h, State.writeCommand, if_pos busy]

theorem commandWrite_unknown {c : Instr} {code : Byte} {s : State} (row : commandCode c = some code) (h : s.portFree)
    (unknown : commandCodeKnown code = false) : exec c s = .next (s.commandDone code .unknown 0) := by
  rw [exec_writeCommand c code row, writeCommand_free h, dispatch_unknown _ unknown, complete_eq_commandDone]

/-- Settles O6: every COMMAND row is the write of its code. -/
theorem commandWrites : Obligations.CommandWrites := by
  refine ⟨fun _ _ _ => commandWrite_overruns, fun _ _ h unknown =>
    ⟨commandWrite_unknown rfl h unknown, commandWrite_unknown rfl h unknown⟩, fun c code s row => ?_⟩
  rw [exec_writeCommand c code row]
  exact ⟨rfl, rfl, rfl⟩

/-! ## CLEAR COUNTERS (R164) -/

/-- The mask's low eight bits are ARG0, those above ARG1. -/
theorem Port.selects_eq (p : Port) (i : Fin 12) :
    p.selects i = if i.val < 8 then p.arg0.getLsbD i.val else p.arg1.getLsbD (i.val - 8) := by
  rw [Port.selects, BitVec.getLsbD_append]

theorem clear_eq (c : Counters) (selected : Fin 12 → Bool) :
    c.clear selected = { c with bank := Vector.ofFn fun i : Fin 12 => if selected i then 0 else c.bank[i] } := by
  rw [← clear_bank]
  rfl

section clearCounters
variable {s : State} (h : s.portFree)
include h

theorem clearCounters_dispatches :
    exec .clearCounters s = .next (s.setPort { s.port with command := 0x0B, busy := true }).commandClearCounters :=
  writeCommand_free h 0x0B

theorem clearCounters_range (above : 16 ≤ s.port.arg1.toNat) :
    exec .clearCounters s = .next (s.commandDone 0x0B .range 0) :=
  (clearCounters_dispatches h).trans (congrArg _ (if_neg (Nat.not_lt.mpr above)))

theorem clearCounters_clears (fits : s.port.arg1.toNat < 16) :
    exec .clearCounters s = .next ((s.setCounters (s.counters.clear s.port.selects)).commandDone 0x0B .ok 0) :=
  (clearCounters_dispatches h).trans (congrArg _ (if_pos fits))

end clearCounters

/-- Settles O22: ARG1 against 16, and the cleared bank counter by counter. -/
theorem clearCountersByMask : Obligations.ClearCountersByMask := by
  refine fun s h => ⟨clearCounters_range h, fun fits => ?_⟩
  rw [clearCounters_clears h fits, clear_eq]
  simp only [Port.selects_eq]
  rfl

/-! ## Arguments and selectors (R133, R151, R152, R156, R157) -/

/-- A write to a read-only location is refused (R152). -/
theorem writeWindow_readOnly (s : State) (v : Byte) {a : BitVec 5}
    (own : a.toNat ∈ [0x00, 0x01, 0x07, 0x08, 0x0C, 0x0E, 0x11, 0x16, 0x1A, 0x1B, 0x1C]) :
    s.writeWindow a v = s.windowFault .readOnly := by
  simp only [List.mem_cons, List.not_mem_nil, or_false] at own
  unfold State.writeWindow
  obtain e | e | e | e | e | e | e | e | e | e | e := own
  all_goals
    rw [e]
    rfl

/-- The three locations from 0x1D on are unassigned. -/
theorem unassigned_cases {a : BitVec 5} (above : 0x1D ≤ a.toNat) : a.toNat = 0x1D ∨ a.toNat = 0x1E ∨ a.toNat = 0x1F := by
  have := a.isLt
  omega

theorem writeWindow_unassigned (s : State) (v : Byte) {a : BitVec 5} (above : 0x1D ≤ a.toNat) : s.writeWindow a v = s := by
  unfold State.writeWindow
  obtain e | e | e := unassigned_cases above
  all_goals
    rw [e]
    rfl

/-- A number that names an index is taken as that index. -/
theorem dite_of_eq_val {α : Type} {n m : Nat} {i : Fin m} (names : n = i.val) (taken : Fin m → α) (refused : α) :
    (if fits : n < m then taken ⟨n, fits⟩ else refused) = taken i := by
  subst names
  exact dif_pos i.isLt

section selectors
variable {s : State} {v : Byte} (h : s.windowOpen)
include h

theorem windowWrite_writes (a : BitVec 5) : exec (.windowWrite a v) s = .next (s.writeWindow a v) :=
  busWrite_open (f := (·.writeWindow a v)) h

theorem slotSelect_selects {k : SlotId} (names : v.toNat = k.val) :
    exec (.slotSelectWrite v) s = .next (s.setSel { s.sel with slotSelect := k, slotIndex := 0 }) := by
  refine (busWrite_open (f := (·.writeSlotSelect v)) h).trans (congrArg _ ?_)
  rw [State.writeSlotSelect, slotOf_some.mpr names]

theorem slotSelect_range (above : 32 ≤ v.toNat) : exec (.slotSelectWrite v) s = .next (s.faulted .range) := by
  refine (busWrite_open (f := (·.writeSlotSelect v)) h).trans (congrArg _ ?_)
  rw [State.writeSlotSelect, slotOf_none.mpr above, windowFault_eq_faulted]

theorem slotIndex_moves {i : Fin 16} (names : v.toNat = i.val) :
    exec (.slotFieldIndexWrite v) s = .next (s.setSel { s.sel with slotIndex := i }) :=
  (busWrite_open (f := (·.writeSlotIndex v)) h).trans (congrArg _
    (dite_of_eq_val names (fun j => s.setSel { s.sel with slotIndex := j }) _))

theorem slotIndex_refused (above : 16 ≤ v.toNat) : exec (.slotFieldIndexWrite v) s = .next (s.faulted .index) :=
  (busWrite_open (f := (·.writeSlotIndex v)) h).trans (congrArg _ (dif_neg (Nat.not_lt.mpr above)))

theorem stationSelect_selects {i : StationId} (names : v.toNat = i.address) :
    exec (.stationSelectWrite v) s = .next (s.setSel { s.sel with stationSelect := i }) := by
  refine (busWrite_open (f := (·.writeStationSelect v)) h).trans (congrArg _ ?_)
  rw [State.writeStationSelect, stationOf_some.mpr names]

theorem stationSelect_range (outside : v.toNat = 0 ∨ 14 < v.toNat) :
    exec (.stationSelectWrite v) s = .next (s.faulted .range) := by
  refine (busWrite_open (f := (·.writeStationSelect v)) h).trans (congrArg _ ?_)
  rw [State.writeStationSelect, stationOf_none.mpr outside, windowFault_eq_faulted]

theorem stationIndex_moves {i : Fin 11} (names : v.toNat = i.val) :
    exec (.stationFieldIndexWrite v) s = .next (s.setSel { s.sel with stationIndex := i }) :=
  (busWrite_open (f := (·.writeStationIndex v)) h).trans (congrArg _
    (dite_of_eq_val names (fun j => s.setSel { s.sel with stationIndex := j }) _))

theorem stationIndex_refused (above : 11 ≤ v.toNat) : exec (.stationFieldIndexWrite v) s = .next (s.faulted .index) :=
  (busWrite_open (f := (·.writeStationIndex v)) h).trans (congrArg _ (dif_neg (Nat.not_lt.mpr above)))

theorem reportIndex_moves {i : Fin 17} (names : v.toNat = i.val) :
    exec (.reportFieldIndexWrite v) s = .next (s.setSel { s.sel with reportIndex := i }) :=
  (busWrite_open (f := (·.writeReportIndex v)) h).trans (congrArg _
    (dite_of_eq_val names (fun j => s.setSel { s.sel with reportIndex := j }) _))

theorem reportIndex_refused (above : 17 ≤ v.toNat) : exec (.reportFieldIndexWrite v) s = .next (s.faulted .index) :=
  (busWrite_open (f := (·.writeReportIndex v)) h).trans (congrArg _ (dif_neg (Nat.not_lt.mpr above)))

end selectors

/-- Settles O23: the plain locations by their address, each selector by the number the byte names. -/
theorem argumentAndSelectorWrites : Obligations.ArgumentAndSelectorWrites := fun s v h =>
  ⟨windowWrite_writes h 0x05, windowWrite_writes h 0x06,
    fun a own => (windowWrite_writes h a).trans (congrArg _ (writeWindow_readOnly s v own)),
    fun a above => (windowWrite_writes h a).trans (congrArg _ (writeWindow_unassigned s v above)),
    fun _ => slotSelect_selects h, slotSelect_range h, fun _ => slotIndex_moves h, slotIndex_refused h,
    fun _ => stationSelect_selects h, stationSelect_range h, fun _ => stationIndex_moves h, stationIndex_refused h,
    fun _ => reportIndex_moves h, reportIndex_refused h⟩

/-! ## TrunkDivider (R159) -/

theorem ofBytes_toNat (high low : Byte) : (Half.ofBytes high low).toNat = 256 * high.toNat + low.toNat := by
  have := low.isLt
  rw [Half.ofBytes, BitVec.toNat_append, ← Nat.shiftLeft_add_eq_or_of_lt this, Nat.shiftLeft_eq]
  omega

theorem ofBytes_eq_ofNat (high low : Byte) : Half.ofBytes high low = BitVec.ofNat 16 (256 * high.toNat + low.toNat) := by
  rw [← ofBytes_toNat]
  exact (BitVec.ofNat_toNat 16 (Half.ofBytes high low)).symm

section divider
variable {s : State} {v : Byte} (h : s.windowOpen)
include h

theorem dividerLow_locked (on : s.config.trunkEnable = true) :
    exec (.trunkDividerLowWrite v) s = .next (s.faulted .locked) :=
  (busWrite_open (f := (·.writeDividerLow v)) h).trans (congrArg _ (if_pos on))

theorem dividerLow_stages (off : s.config.trunkEnable = false) :
    exec (.trunkDividerLowWrite v) s = .next (s.setPort { s.port with staging := v }) :=
  (busWrite_open (f := (·.writeDividerLow v)) h).trans (congrArg _ (if_neg (Bool.not_eq_true _ ▸ off)))

theorem dividerHigh_range (outside : 256 * v.toNat + s.port.staging.toNat < 8 ∨ 4095 < 256 * v.toNat + s.port.staging.toNat) :
    exec (.trunkDividerHighWrite v) s = .next (s.faulted .range) := by
  rw [← ofBytes_toNat] at outside
  exact (busWrite_open (f := (·.writeDividerHigh v)) h).trans (congrArg _ (if_pos outside))

section inRange
variable (least : 8 ≤ 256 * v.toNat + s.port.staging.toNat) (most : 256 * v.toNat + s.port.staging.toNat ≤ 4095)
include least most

/-- A divider in range is offered to the lock. -/
theorem dividerHigh_offers : exec (.trunkDividerHighWrite v) s =
    .next (if s.config.trunkEnable then s.windowFault .locked
      else s.setConfig { s.config with trunkDivider := Half.ofBytes v s.port.staging }) := by
  have inside : ¬ ((Half.ofBytes v s.port.staging).toNat < 8 ∨ 4095 < (Half.ofBytes v s.port.staging).toNat) := by
    rw [ofBytes_toNat]
    omega
  exact (busWrite_open (f := (·.writeDividerHigh v)) h).trans (congrArg _ (if_neg inside))

theorem dividerHigh_locked (on : s.config.trunkEnable = true) :
    exec (.trunkDividerHighWrite v) s = .next (s.faulted .locked) := by
  rw [dividerHigh_offers h least most, if_pos on, windowFault_eq_faulted]

theorem dividerHigh_takes (off : s.config.trunkEnable = false) : exec (.trunkDividerHighWrite v) s = .next (s.setConfig
    { s.config with trunkDivider := BitVec.ofNat 16 (256 * v.toNat + s.port.staging.toNat) }) := by
  rw [dividerHigh_offers h least most, if_neg (Bool.not_eq_true _ ▸ off), ofBytes_eq_ofNat]

end inRange
end divider

/-- Settles O30: the low byte by the lock, the high byte by the divider's range and then the lock. -/
theorem dividerByBytes : Obligations.DividerByBytes := fun _ _ h =>
  ⟨dividerLow_locked h, dividerLow_stages h, dividerHigh_range h, dividerHigh_locked h, dividerHigh_takes h⟩

/-! ## CONFIG INDEX and CONFIG DATA (R158) -/

theorem ClaimPolicy.ofCode_code (p : ClaimPolicy) : ClaimPolicy.ofCode p.code = some p := by
  cases p <;> rfl

theorem ClaimPolicy.ofCode_none {n : Nat} (above : 2 < n) : ClaimPolicy.ofCode n = none := by
  obtain ⟨m, rfl⟩ := Nat.exists_eq_add_of_le' above
  rfl

section writeItem
variable (c : Settings) {v : Byte}

theorem writeItem_claimPolicy {p : ClaimPolicy} (names : v.toNat = p.code) :
    c.writeItem 3 v = some { c with claimPolicy := p } := by
  show (ClaimPolicy.ofCode v.toNat).map _ = _
  rw [names, ClaimPolicy.ofCode_code]
  rfl

/-- Each item with a range refuses a value outside it (Table 8.3). -/
theorem writeItem_none {i : Fin 12} (outside : (i = 3 ∧ 2 < v.toNat) ∨ (i = 4 ∧ (v.toNat < 2 ∨ 10 < v.toNat)) ∨
    (i = 5 ∧ (v.toNat < 1 ∨ 10 < v.toNat)) ∨ (i = 6 ∧ v.toNat < 1) ∨ (i = 8 ∧ 7 < v.toNat) ∨ (i = 9 ∧ 63 < v.toNat) ∨
    (i = 10 ∧ (v.toNat < 1 ∨ 32 < v.toNat))) : c.writeItem i v = none := by
  obtain ⟨rfl, policy⟩ | ⟨rfl, answer⟩ | ⟨rfl, gap⟩ | ⟨rfl, patience⟩ | ⟨rfl, fence⟩ | ⟨rfl, floor⟩ | ⟨rfl, threshold⟩ := outside
  · show (ClaimPolicy.ofCode v.toNat).map _ = _
    rw [ClaimPolicy.ofCode_none policy]
    rfl
  · exact if_neg (by omega)
  · exact if_neg (by omega)
  · exact if_neg (by omega)
  · exact if_neg (by omega)
  · exact if_neg (by omega)
  · exact if_neg (by omega)

end writeItem

section configuration
variable {s : State} {v : Byte} (h : s.windowOpen)
include h

theorem configIndex_moves {i : Fin 12} (names : v.toNat = i.val) :
    exec (.configIndexWrite v) s = .next (s.setSel { s.sel with configIndex := i }) :=
  (busWrite_open (f := (·.writeConfigIndex v)) h).trans (congrArg _
    (dite_of_eq_val names (fun j => s.setSel { s.sel with configIndex := j }) _))

theorem configIndex_refused (above : 12 ≤ v.toNat) : exec (.configIndexWrite v) s = .next (s.faulted .index) :=
  (busWrite_open (f := (·.writeConfigIndex v)) h).trans (congrArg _ (dif_neg (Nat.not_lt.mpr above)))

theorem configData_writes : exec (.configDataWrite v) s = .next (s.writeConfigData v) :=
  busWrite_open (f := (·.writeConfigData v)) h

theorem configData_dividerLow (index : s.sel.configIndex = 0) :
    exec (.configDataWrite v) s = exec (.trunkDividerLowWrite v) s := by
  rw [configData_writes h, State.writeConfigData, index]
  exact (busWrite_open (f := (·.writeDividerLow v)) h).symm

theorem configData_dividerHigh (index : s.sel.configIndex = 1) :
    exec (.configDataWrite v) s = exec (.trunkDividerHighWrite v) s := by
  rw [configData_writes h, State.writeConfigData, index]
  exact (busWrite_open (f := (·.writeDividerHigh v)) h).symm

theorem configData_trunkEnable (index : s.sel.configIndex = 2) :
    exec (.configDataWrite v) s = exec (.trunkEnableWrite v) s := by
  rw [configData_writes h, State.writeConfigData, index]
  exact (busWrite_open (f := (·.writeTrunkEnable v)) h).symm

/-- From index 3 on the byte is offered to the selected item. -/
theorem configData_offers {i : Fin 12} (index : s.sel.configIndex = i) (from3 : 3 ≤ i.val) :
    exec (.configDataWrite v) s = .next (s.writeItem i v) := by
  obtain ⟨n, rest⟩ := Nat.exists_eq_add_of_le' from3
  rw [configData_writes h, State.writeConfigData, index, rest]
  rfl

theorem configData_takes {i : Fin 12} {c : Settings} (index : s.sel.configIndex = i) (from3 : 3 ≤ i.val)
    (accepted : s.config.writeItem i v = some c) : exec (.configDataWrite v) s = .next (s.setConfig c) := by
  rw [configData_offers h index from3, State.writeItem, accepted]

theorem configData_refuses {i : Fin 12} (index : s.sel.configIndex = i) (from3 : 3 ≤ i.val)
    (refused : s.config.writeItem i v = none) : exec (.configDataWrite v) s = .next (s.faulted .range) := by
  rw [configData_offers h index from3, State.writeItem, refused, windowFault_eq_faulted]

end configuration

/-- Settles O29: indices 0 to 2 are their rows, and from 3 on the item's own range decides. -/
theorem configIndexAndData : Obligations.ConfigIndexAndData := by
  intro s v h i n
  have takes {j : Fin 12} {c : Settings} (index : i = j) (from3 : 3 ≤ j.val) (accepted : s.config.writeItem j v = some c) :
      exec (.configDataWrite v) s = .next { s with config := c } := configData_takes h index from3 accepted
  refine ⟨fun _ => configIndex_moves h, configIndex_refused h, configData_dividerLow h, configData_dividerHigh h,
    configData_trunkEnable h, fun _ index names => takes index (by decide) (writeItem_claimPolicy _ names),
    fun index least most => takes index (by decide) (if_pos ⟨least, most⟩),
    fun index least most => takes index (by decide) (if_pos ⟨least, most⟩),
    fun index least => takes index (by decide) (if_pos least), fun index => takes index (by decide) rfl,
    fun index most => takes index (by decide) (if_pos most), fun index most => takes index (by decide) (if_pos most),
    fun index least most => takes index (by decide) (if_pos ⟨least, most⟩), fun index => takes index (by decide) rfl,
    fun outside => configData_refuses h rfl ?_ (writeItem_none _ outside)⟩
  show 3 ≤ i.val
  omega

/-! ## What the window shows (R109, R110, R120, R133, R146, R153 to R158, R161, R175) -/

/-- STATUS is its three fields side by side (R154). -/
theorem status_toNat (s : State) :
    s.status.toNat = s.trunk.state.code + 16 * s.launcher.phase.code + if s.port.busy then 128 else 0 := by
  have trunk : s.trunk.state.code ≤ 9 := by cases s.trunk.state <;> simp [TrunkState.code]
  have launcher : s.launcher.phase.code ≤ 4 := by cases s.launcher.phase <;> simp [Phase.code]
  rw [State.status, byteOf, BitVec.toNat_ofNat]
  split <;> omega

/-- EVENTS shows each latch in its own bit, reports-ready in bit 7, and bits 5 and 6 clear (Table 7.2). -/
theorem events_bits (s : State) :
    s.events.getLsbD 0 = s.reports.latches.launcherStopped ∧ s.events.getLsbD 1 = s.reports.latches.trunkFault ∧
    s.events.getLsbD 2 = s.reports.latches.windowFault ∧ s.events.getLsbD 3 = s.reports.latches.commandDone ∧
    s.events.getLsbD 4 = s.reports.latches.commandOverrun ∧ s.events.getLsbD 5 = false ∧ s.events.getLsbD 6 = false ∧
    s.events.getLsbD 7 = s.reportsReady := by
  refine ⟨?_, ?_, ?_, ?_, ?_, ?_, ?_, ?_⟩
  all_goals
    rw [Bool.eq_iff_iff, events_getLsbD]
    simp

/-- The Presence byte of a record, bit by bit (Table 7.1). -/
theorem presence_eq (r : Report) : r.presence =
    (if r.station.isSome then 1 else 0) ||| (if r.stationStatus.isSome then 2 else 0) |||
      (if r.refuseReason.isSome then 4 else 0) ||| (if r.length.isSome then 8 else 0) |||
      (if r.firstBlock.isSome then 16 else 0) := by
  have place (b : Bool) : flagByte b <<< 1 = (if b then 2 else 0) ∧ flagByte b <<< 2 = (if b then 4 else 0) ∧
      flagByte b <<< 3 = (if b then 8 else 0) ∧ flagByte b <<< 4 = (if b then 16 else 0) := by
    cases b <;> decide
  obtain ⟨status, -⟩ := place r.stationStatus.isSome
  obtain ⟨-, reason, -⟩ := place r.refuseReason.isSome
  obtain ⟨-, -, length, -⟩ := place r.length.isSome
  obtain ⟨-, -, -, block⟩ := place r.firstBlock.isSome
  rw [Report.presence, status, reason, length, block]
  rfl

theorem map_getD_eq_elim {α β : Type} (o : Option α) (f : α → β) (d : β) : (o.map f).getD d = o.elim d f := by
  cases o <;> rfl

/-- REPORT FIELD DATA at an index below 16 is the head's field (R133). -/
theorem reportsReadField_head {q : Reports} {i : Fin 17} {r : Report} {rest : List Report} (index : i ≠ 16)
    (head : q.queue = r :: rest) : q.readField i = r.readField i.val := by
  rw [Reports.readField, if_neg index, head]

theorem reportsReadField_empty {q : Reports} {i : Fin 17} (index : i ≠ 16) (empty : q.queue = []) : q.readField i = 0xFF := by
  rw [Reports.readField, if_neg index, empty]

theorem reportsReadField_backlog {q : Reports} {i : Fin 17} (index : i = 16) : q.readField i = byteOf q.backlog.length :=
  if_pos index

section windowHigh
variable {s : State} (high : s.nreset = true)
include high

theorem not_low_of_high : ¬ (!s.nreset) = true := by
  rw [high]
  exact Bool.false_ne_true

theorem windowValue_status : s.windowValue 0x01 = s.status := if_neg (not_low_of_high high)
theorem windowValue_events : s.windowValue 0x02 = s.events := if_neg (not_low_of_high high)
theorem windowValue_slot : s.windowValue 0x0B = (s.slot s.sel.slotSelect).readField s.sel.slotIndex :=
  if_neg (not_low_of_high high)
theorem windowValue_report : s.windowValue 0x0E = s.reports.readField s.sel.reportIndex := if_neg (not_low_of_high high)
theorem windowValue_station : s.windowValue 0x11 = (s.station s.sel.stationSelect).readField s.sel.stationIndex :=
  if_neg (not_low_of_high high)
theorem windowValue_link : s.windowValue 0x15 = linkByte s.pool.link[s.sel.blockSelect] := if_neg (not_low_of_high high)
theorem windowValue_config : s.windowValue 0x18 = s.config.readItem s.sel.configIndex := if_neg (not_low_of_high high)
theorem windowValue_counter : s.windowValue 0x1A = s.counterValue := if_neg (not_low_of_high high)

theorem windowValue_unassigned {a : BitVec 5} (above : 0x1D ≤ a.toNat) : s.windowValue a = 0 := by
  refine (if_neg (not_low_of_high high)).trans ?_
  obtain e | e | e := unassigned_cases above
  all_goals
    rw [e]
    rfl

/-- A read of SLOT FIELD DATA presents the selected field, and moves the index on unless a soft reset is in progress (R156, log 12). -/
theorem slotDataRead_advances (free : s.softResetting = false) : exec .slotFieldDataRead s =
    .next ((s.setSel { s.sel with slotIndex := s.sel.slotIndex + 1 }).setBus
      ((s.slot s.sel.slotSelect).readField s.sel.slotIndex)) := by
  rw [← windowValue_slot high]
  exact busRead_open (value := (·.windowValue 0x0B)) (f := State.advanceSlotIndex) ⟨high, free⟩

theorem slotDataRead_stays (resetting : s.softResetting = true) :
    exec .slotFieldDataRead s = .next (s.setBus ((s.slot s.sel.slotSelect).readField s.sel.slotIndex)) := by
  rw [← windowValue_slot high]
  exact busRead_closed (value := (·.windowValue 0x0B)) (not_windowOpen_of_softResetting resetting)

end windowHigh

/-- Settles O25: with nRESET high each location shows its own field of the state; the coded fields go by the values of what they code. -/
theorem slotFieldRead : Obligations.SlotFieldRead := by
  refine ⟨⟨rfl, rfl, rfl⟩, ?window, ?slot⟩
  case window =>
    intro s high shows num bit absent
    have shown := not_low_of_high high
    refine ⟨if_neg shown, ?status, ?events, if_neg shown, if_neg shown, if_neg shown, if_neg shown, if_neg shown, if_neg shown,
      if_neg shown, if_neg shown, if_neg shown, if_neg shown,
      fun index => (windowValue_report high).trans (reportsReadField_backlog index),
      fun index empty => (windowValue_report high).trans (reportsReadField_empty index empty), ?head,
      if_neg shown, if_neg shown, ?station, if_neg shown, if_neg shown, if_neg shown, ?linkEnd, ?link, if_neg shown, if_neg shown,
      ?config, if_neg shown, ?counter, if_neg shown, if_neg shown, fun _ => windowValue_unassigned high⟩
    case status => exact (congrArg BitVec.toNat (windowValue_status high)).trans (status_toNat s)
    case events =>
      have events : shows 0x02 = s.events := windowValue_events high
      rw [events]
      exact events_bits s
    case head =>
      intro r rest index head
      refine ((windowValue_report high).trans (reportsReadField_head index head)).trans ?_
      simp only [Report.readField, map_getD_eq_elim, presence_eq]
      cases r.kind <;> cases r.op <;> rfl
    case station =>
      refine (windowValue_station high).trans ?_
      simp only [Station.readField, half_low_eq, half_high_eq]
      cases (s.station s.sel.stationSelect).presence <;> rfl
    case linkEnd =>
      intro ends
      refine (windowValue_link high).trans ?_
      rw [ends]
      rfl
    case link =>
      intro b links
      refine (windowValue_link high).trans ?_
      rw [links]
      rfl
    case config =>
      refine (windowValue_config high).trans ?_
      simp only [Settings.readItem, half_low_eq, half_high_eq]
      cases s.config.claimPolicy <;> rfl
    case counter =>
      refine (windowValue_counter high).trans ?_
      rw [State.counterValue, half_low_eq]
  case slot =>
    intro s high sl shown
    have field : sl.readField s.sel.slotIndex = shown := by
      simp only [Slot.readField, half_low_eq, half_high_eq, shown]
      cases sl.state <;> cases sl.lastTag <;> rfl
    refine ⟨fun free => ?_, fun resetting => ?_⟩
    · exact field ▸ slotDataRead_advances high free
    · exact field ▸ slotDataRead_stays high resetting

end Sys2Proof.Machine
end

section
/-! PROOFS. The Counter Bank (chapter 9): the write of COUNTER INDEX and the read sequence of COUNTER DATA. -/

namespace Sys2Proof.Machine

open Sys2Proof

/-! ## COUNTER INDEX and COUNTER DATA (R160, R175) -/

section counterIndex
variable {s : State} {v : Byte} (h : s.windowOpen)
include h

theorem counterIndex_moves {i : Fin 12} (names : v.toNat = i.val) : exec (.counterIndexWrite v) s =
    .next ((s.setSel { s.sel with counterIndex := i }).setCounters { s.counters with phaseHigh := false }) :=
  (busWrite_open (f := (·.writeCounterIndex v)) h).trans (congrArg _
    (dite_of_eq_val names
      (fun j => (s.setSel { s.sel with counterIndex := j }).setCounters { s.counters with phaseHigh := false }) _))

theorem counterIndex_refused (above : 12 ≤ v.toNat) : exec (.counterIndexWrite v) s = .next (s.faulted .index) :=
  (busWrite_open (f := (·.writeCounterIndex v)) h).trans (congrArg _ (dif_neg (Nat.not_lt.mpr above)))

end counterIndex

section counterData
variable {s : State}

theorem counterValue_low (low : s.counters.phaseHigh = false) :
    s.counterValue = s.counters.bank[s.sel.counterIndex].extractLsb' 0 8 := by
  rw [State.counterValue, if_neg (Bool.not_eq_true _ ▸ low), half_low_eq]

theorem counterValue_high (high : s.counters.phaseHigh = true) : s.counterValue = s.counters.latch := if_pos high

/-- In phase low the high byte is latched with the read of the low one. -/
theorem readCounter_low (low : s.counters.phaseHigh = false) : s.readCounter = s.setCounters { s.counters with
    phaseHigh := true, latch := s.counters.bank[s.sel.counterIndex].extractLsb' 8 8 } := by
  rw [State.readCounter, if_neg (Bool.not_eq_true _ ▸ low), half_high_eq]

theorem readCounter_high (high : s.counters.phaseHigh = true) :
    s.readCounter = s.setCounters { s.counters with phaseHigh := false } := if_pos high

/-- An open port presents the byte of the phase and moves the phase. -/
theorem counterDataRead_open (h : s.windowOpen) :
    exec .counterDataRead s = .next (s.readCounter.setBus s.counterValue) := by
  rw [← windowValue_counter h.1]
  exact busRead_open (value := (·.windowValue 0x1A)) h

theorem counterDataRead_low (h : s.windowOpen) (low : s.counters.phaseHigh = false) : exec .counterDataRead s =
    .next ((s.setCounters { s.counters with
      phaseHigh := true, latch := s.counters.bank[s.sel.counterIndex].extractLsb' 8 8 }).setBus
        (s.counters.bank[s.sel.counterIndex].extractLsb' 0 8)) := by
  rw [counterDataRead_open h, readCounter_low low, counterValue_low low]

theorem counterDataRead_high (h : s.windowOpen) (high : s.counters.phaseHigh = true) : exec .counterDataRead s =
    .next ((s.setCounters { s.counters with phaseHigh := false }).setBus s.counters.latch) := by
  rw [counterDataRead_open h, readCounter_high high, counterValue_high high]

/-- During a soft reset the byte is presented, and phase and latch stay (log 12). -/
theorem counterDataRead_stays (high : s.nreset = true) (resetting : s.softResetting = true) :
    exec .counterDataRead s = .next (s.setBus s.counterValue) := by
  rw [← windowValue_counter high]
  exact busRead_closed (value := (·.windowValue 0x1A)) (not_windowOpen_of_softResetting resetting)

end counterData

/-- Settles O34: the index against 12, an open read by its phase, and a read during a soft reset. -/
theorem counterReadSequence : Obligations.CounterReadSequence :=
  ⟨fun _ _ h => ⟨fun _ => counterIndex_moves h, counterIndex_refused h⟩,
    fun _ h => ⟨counterDataRead_low h, counterDataRead_high h⟩,
    fun s high resetting => ⟨s.counterValue, counterDataRead_stays high resetting⟩⟩

end Sys2Proof.Machine
end

section
/-! PROOFS. The step with a command waiting (log 2). -/

namespace Sys2Proof.Machine

open Sys2Proof

/-- Settles O1: on a queue with a front command the step's match takes its second case, and the rest written over the queue
is the rest written over the state itself. -/
theorem stepRunsFrontCommand : Obligations.StepRunsFrontCommand := fun _ _ _ => rfl

end Sys2Proof.Machine
end

section
/-! PROOFS. The Trunk Controller (chapter 2): its counts along every step, TrunkEnable, the line falling idle, a contention lost, a start bit, and the
ends of a frame sent and of the answer window. -/

namespace Sys2Proof.Machine

open Sys2Proof

/-! ## The counts and TrunkEnable along a step (R1, R20, R22) -/

/-- Settles O59: the counts and TrunkEnable's agreement with Offline are among the rules that every step keeps. -/
theorem stepKeepsTrunkCounts : Obligations.StepKeepsTrunkCounts := fun s t e =>
  have kept : Kept s t := (Keeps.step s t e).kept
  ⟨fun range bounded => ⟨kept.config range, kept.trunk range bounded⟩, kept.enable⟩

/-! ## TrunkEnable (R22, R165) -/

theorem locksEnable_iff (t : TrunkState) :
    t.locksEnable = true ↔ t.code = 4 ∨ t.code = 5 ∨ t.code = 6 ∨ t.code = 7 ∨ t.code = 8 := by
  cases t <;> simp [TrunkState.locksEnable, TrunkState.code]

/-- The states in which TrunkEnable is 1 and may be written. -/
theorem locksEnable_of_code {t : TrunkState} (running : t.code = 1 ∨ t.code = 2 ∨ t.code = 3 ∨ t.code = 9) :
    t.locksEnable = false := by
  rw [← Bool.not_eq_true, locksEnable_iff]
  omega

theorem acceptTrunkEnable_running {s : State} (on : Bool)
    (running : s.trunk.state.code = 1 ∨ s.trunk.state.code = 2 ∨ s.trunk.state.code = 3 ∨ s.trunk.state.code = 9) :
    s.acceptTrunkEnable on = if on then s else s.disableTrunk := by
  unfold State.acceptTrunkEnable
  cases e : s.trunk.state <;> simp [e, TrunkState.code] at running ⊢

theorem acceptTrunkEnable_offline {s : State} (on : Bool) (offline : s.trunk.state = .offline) :
    s.acceptTrunkEnable on = if on then s.enableTrunk else s := by
  unfold State.acceptTrunkEnable
  rw [offline]

section trunkEnable
variable {s : State} {v : Byte} (h : s.windowOpen)
include h

theorem trunkEnable_writes : exec (.trunkEnableWrite v) s = .next (s.writeTrunkEnable v) :=
  busWrite_open (f := (·.writeTrunkEnable v)) h

theorem trunkEnable_range (above : 1 < v.toNat) : exec (.trunkEnableWrite v) s = .next (s.faulted .range) :=
  (trunkEnable_writes h).trans (congrArg _ (if_pos above))

section value
variable (fits : v.toNat ≤ 1)
include fits

theorem trunkEnable_busy (locks : s.trunk.state.locksEnable = true) :
    exec (.trunkEnableWrite v) s = .next (s.faulted .busy) := by
  rw [trunkEnable_writes h, State.writeTrunkEnable, if_neg (Nat.not_lt.mpr fits), if_pos locks, windowFault_eq_faulted]

theorem trunkEnable_accepted (accepts : s.trunk.state.locksEnable = false) :
    exec (.trunkEnableWrite v) s = .next (s.acceptTrunkEnable (v == 1)) := by
  rw [trunkEnable_writes h, State.writeTrunkEnable, if_neg (Nat.not_lt.mpr fits), accepts]
  rfl

end value
end trunkEnable

/-- A TRUNK RESET in progress completes under its own code when TrunkEnable is cleared (R165). -/
theorem disableTrunk_eq (s : State) : s.disableTrunk =
    let off : State := { s with
      config := { s.config with trunkEnable := false }
      trunk := { s.trunk with state := .offline, quiet := 0, stuck := 0 } }
    if s.trunkResetting then off.commandDone 0x0A .ok 0 else off := by
  unfold State.disableTrunk
  dsimp only
  cases resetting : s.trunkResetting with
  | false => rfl
  | true =>
    obtain ⟨_, command⟩ := Bool.and_eq_true_iff.mp resetting
    rw [if_pos rfl, if_pos rfl, ← eq_of_beq command]
    rfl

/-- Settles O31: RANGE, then BUSY, then R22's effect by the controller's state and the value. -/
theorem trunkEnableByState : Obligations.TrunkEnableByState := by
  intro s v h
  have offline (e : s.trunk.state = .offline) : s.trunk.state.locksEnable = false := by rw [e]; rfl
  refine ⟨trunkEnable_range h, fun fits locks => trunkEnable_busy h fits ((locksEnable_iff _).mpr locks),
    ?_, ?_, ?_, ?_⟩
  · rintro rfl e
    rw [trunkEnable_accepted h (by decide) (offline e), acceptTrunkEnable_offline _ e]
    rfl
  · rintro rfl e
    rw [trunkEnable_accepted h (by decide) (offline e), acceptTrunkEnable_offline _ e]
    rfl
  · rintro rfl running
    rw [trunkEnable_accepted h (by decide) (locksEnable_of_code running), acceptTrunkEnable_running _ running]
    rfl
  · rintro rfl running off
    rw [trunkEnable_accepted h (by decide) (locksEnable_of_code running), acceptTrunkEnable_running _ running,
      disableTrunk_eq]
    rfl

/-! ## Idle, Fault and the end of the mark (R23, R39, R41) -/

theorem trunkResetCompletes_due {s : State} (due : s.port.completionDue = true) :
    s.trunkResetCompletes = some (s.commandDone s.port.command .ok 0) := if_pos due

theorem markEnds_resetting {s : State} {n : Nat} (e : s.trunk.state = .resetting n) : s.markEnds = some (s.settle 0) := by
  unfold State.markEnds
  rw [e]

/-- Settles O37: each row is the event of the one state it is for. -/
theorem lineFallsIdle : Obligations.LineFallsIdle := by
  intro s h due
  refine ⟨fun e => ?_, fun e => ?_, fun d => ?_, fun n e => ?_⟩
  · exact occurs_some (effect := State.lineFallsIdle) h (if_pos e)
  · exact occurs_some (effect := State.faultClears) h (if_pos e)
  · exact occurs_some h (trunkResetCompletes_due d)
  · exact occurs_some h (markEnds_resetting e)

/-! ## A contention lost (R26, R31) -/

theorem losable_iff (c : Contention) (cause : LossCause) :
    c.losable cause = true ↔ cause = .readBackFault ∨ c.rank ≠ 0 := by
  cases cause <;> simp [Contention.losable]

theorem lose_arbitrating {s : State} {c : Contention} {cause : LossCause} (e : s.trunk.state = .arbitrating c)
    (losable : c.losable cause = true) : s.lose cause =
      some (((s.togglePhase c).count .arbitrationLosses).follow (c.leftAfterLoss cause)) := by
  unfold State.lose
  rw [e]
  exact if_pos losable

/-- From the first rank bit on, both causes leave the bits after the one that lost. -/
theorem leftAfterLoss_rank {c : Contention} (cause : LossCause) (rank : 1 ≤ c.bit) : c.leftAfterLoss cause = 5 - c.bit := by
  cases cause with
  | readBackFault => rfl
  | releasedBitDominant => rw [Contention.leftAfterLoss, Nat.max_eq_left rank]

theorem leftAfterLoss_claim {c : Contention} (cause : LossCause) (claim : c.bit = 0) :
    c.leftAfterLoss cause = match cause with
      | .readBackFault => 5
      | .releasedBitDominant => 4 := by
  cases cause <;> simp [Contention.leftAfterLoss, claim]

/-- Settles O41: the bits left are those of the model's count. -/
theorem contentionLostFollows : Obligations.ContentionLostFollows := by
  intro s c cause h e losable
  have lost := lose_arbitrating e ((losable_iff c cause).mpr losable)
  rw [togglePhase_eq] at lost
  exact ⟨c.leftAfterLoss cause, occurs_some (effect := (·.lose cause)) h lost, fun rank _ => leftAfterLoss_rank cause rank,
    leftAfterLoss_claim cause⟩

/-! ## A start bit (R23, R30, R31, R33) -/

section startBit
variable {s : State}

theorem startBitSeen_answerWait {g : Tag} {st : StationId} {limit n : Nat} (e : s.trunk.state = .answerWait g st limit n) :
    s.startBitSeen = some (s.setReception (newReception (.answerWindow g) s.config.gapTime 0 (some (0, 0)))) := by
  unfold State.startBitSeen
  rw [e]

theorem startBitSeen_settling (e : s.trunk.state = .settling) : s.startBitSeen =
    if s.trunk.skip then some (s.setTrunk { s.trunk with quiet := 0 })
    else some (s.setTrunk { s.trunk with
      state := .receiving (newReception .unsolicited s.config.gapTime 0 (some (0, 0))), quiet := 0 }) := by
  unfold State.startBitSeen
  rw [e]

theorem startBitSeen_receiving {r : Reception} (e : s.trunk.state = .receiving r) (sound : r.malformed = false)
    (going : r.complete = false) (between : r.char = none) :
    s.startBitSeen = some (s.setReception { r with gap := 0, run := 0, arbitrationLeft := 0, char := some (0, 0) }) := by
  unfold State.startBitSeen
  rw [e]
  simp [sound, going, between]

end startBit

/-- Settles O45: the row is the event of each of its states. -/
theorem startBitByState : Obligations.StartBitByState := by
  refine fun s h => ⟨fun g st limit n e => ?_, fun e skip => ?_, fun e skip => ?_, fun r e sound going between => ?_⟩
  · exact occurs_some h (startBitSeen_answerWait e)
  · exact occurs_some h ((startBitSeen_settling e).trans (if_pos skip))
  · exact occurs_some h ((startBitSeen_settling e).trans (if_neg (Bool.not_eq_true _ ▸ skip)))
  · exact occurs_some h (startBitSeen_receiving e sound going between)

/-! ## The owner of a frame: a retry, or the end of the answer phase (R53 to R56) -/

section failedAttempt
variable {s : State} {g : Tag} {x : Exchange} {o : OutcomeCode}

theorem failedAttempt_retries (left : x.attempts ≤ (s.slot x.slot).retryLimit.val) : s.failedAttempt g x o = s.retry g x :=
  if_pos left

/-- With no attempt left the exchange is Done and the Launcher moves on. -/
theorem failedAttempt_ends {m : Option Nat} (spent : (s.slot x.slot).retryLimit.val < x.attempts)
    (l : s.launcher.phase = .launching x.slot m) (other : o ≠ .trunkReset) : s.failedAttempt g x o = State.moveOn x.slot
      ((s.ended g x o none none none [] x.reservedChain).launchEnded x.slot o x.attempts) :=
  (if_neg (Nat.not_le.mpr spent)).trans (finishAnswer_eq s g x (endWith o x.reservedChain) m l other)

end failedAttempt

/-! ## The end of a NOTICE's launch phase (R88 to R90) -/

/-- The chain returned and Attempts written, as `launchEnded` does before the slot is closed. -/
theorem setAttempts_returnOutbound (s : State) (k : SlotId) (n : Nat) (o : OutcomeCode) :
    (s.returnOutbound k).setAttempts k n =
      { s.launchEnded k o n with slots := s.slots.set k { s.slot k with attempts := n } } := by
  unfold State.returnOutbound State.launchEnded
  split <;> rfl

theorem slot_returned (s : State) (k : SlotId) (n : Nat) :
    ((s.returnOutbound k).setAttempts k n).slot k = { s.slot k with attempts := n } := by
  rw [setAttempts_returnOutbound s k n .ok]
  exact slot_setSlot_self s k { s.slot k with attempts := n }

theorem noticeReport_returned (s : State) (k : SlotId) (n : Nat) (o : OutcomeCode) :
    noticeReport ((s.returnOutbound k).setAttempts k n) k o n = noticeReport s k o n := by
  rw [noticeReport, slot_returned]
  rfl

/-- While the queue is full the NOTICE's record is owed, its slot still Active (R136). -/
theorem noticeEnded_full {s : State} (full : 32 ≤ s.reports.queue.length) (k : SlotId) (n : Nat) (o : OutcomeCode) :
    s.noticeEnded k n o = { s.launchEnded k o n with
      slots := s.slots.set k { s.slot k with attempts := n }
      launcher := { s.launcher with phase := .waiting k (.reportSpace (noticeReport s k o n)) } } := by
  unfold State.noticeEnded
  dsimp only
  rw [noticeReport_returned, setAttempts_returnOutbound s k n o]
  exact report_owed full

/-- With room in the queue the record is posted, the slot closed and the Launcher moved on. -/
theorem noticeEnded_room {s : State} (room : s.reports.queue.length < 32) (k : SlotId) (n : Nat) {o : OutcomeCode}
    (other : o ≠ .trunkReset) : s.noticeEnded k n o = State.moveOn k { s.launchEnded k o n with
      reports := s.reports.posted s.config.coalesceTime (noticeReport s k o n) } := by
  have reported : ((s.returnOutbound k).setAttempts k n).slotReported k (noticeReport s k o n) o =
      { s.launchEnded k o n with reports := s.reports.posted s.config.coalesceTime (noticeReport s k o n) } := by
    have closed : (s.slots.set k { s.slot k with attempts := n }).set k
        { s.slot k with state := .closed, lastOutcome := o, attempts := n } =
        s.slots.set k { s.slot k with state := .closed, lastOutcome := o, attempts := n } := Vector.set_set ..
    rw [State.slotReported, slot_returned, setAttempts_returnOutbound s k n o]
    dsimp only
    rw [closed]
    rfl
  unfold State.noticeEnded
  dsimp only
  rw [noticeReport_returned, ← reported]
  refine report_movesOn ?_ rfl fun reset => other reset.2
  rwa [setAttempts_returnOutbound s k n o]

/-! ## The last stop bit (R28) -/

section transmitting
variable {s : State} {f : Outgoing} {p : Nat} (e : s.trunk.state = .transmitting f p)
include e

theorem requestOut_request {k : SlotId} {g : Tag} {st : StationId} (send : f.send = .request k g st) : s.requestOut =
    some (((s.count .framesSent).entrySent g).setTrunkState (.answerWait g st s.config.answerTime 0)) := by
  unfold State.requestOut
  rw [e]
  dsimp only
  rw [send]

theorem noticeOut_notice {k : SlotId} (send : f.send = .notice k) :
    s.noticeOut = some (((s.count .framesSent).settle 0).launcherNoticeSent k) := by
  unfold State.noticeOut
  rw [e]
  dsimp only
  rw [send]

theorem frameCut_transmitting : s.frameCut = some (((s.count .collisions).settle 0).ownerCut f.send) := by
  unfold State.frameCut
  rw [e]

end transmitting

theorem entrySent_reserved {s : State} {g : Tag} {b : Bool} {x : Exchange} (entry : s.entry g = .reserved b x) :
    s.entrySent g = s.setEntry g (.awaiting x none) := by
  unfold State.entrySent
  rw [entry]

section launchingNotice
variable {s : State} {k : SlotId} {n : Nat} (l : s.launcher.phase = .launching k (some n))
include l

theorem launcherNoticeSent_launching : s.launcherNoticeSent k = s.noticeEnded k n .ok := by
  unfold State.launcherNoticeSent
  rw [l]
  exact if_pos rfl

theorem launcherNoticeCut_launching : s.launcherNoticeCut k =
    if n ≤ (s.slot k).retryLimit.val then (s.setPhase (.launching k (some (n + 1)))).setPendingSend (some (.notice k))
    else s.noticeEnded k n .line := by
  unfold State.launcherNoticeCut
  rw [l]
  exact if_pos rfl

end launchingNotice

/-- Settles O42: the entry of a REQUEST becomes Awaiting, and the launch phase of a NOTICE ends. -/
theorem lastStopBit : Obligations.LastStopBit := by
  refine ⟨?_, ?_⟩
  · intro s f p k g st b x h e send entry
    have counted : (s.count .framesSent).entry g = .reserved b x := entry
    have out := requestOut_request e send
    rw [entrySent_reserved counted] at out
    exact occurs_some h out
  · intro s f p k n h e send l r sent
    have launching : sent.launcher.phase = .launching k (some n) := l
    have out : exec .noticeSent s = .next (sent.noticeEnded k n .ok) := by
      rw [← launcherNoticeSent_launching launching]
      exact occurs_some h (noticeOut_notice e send)
    rw [out]
    refine ⟨fun room => ?_, fun full => ?_⟩
    · exact congrArg _ (noticeEnded_room (s := sent) room k n nofun)
    · exact congrArg _ (noticeEnded_full (s := sent) full k n .ok)

/-! ## A collision (R29) -/

theorem entryCollided_sending {s : State} {g : Tag} {x : Exchange} (entry : s.entry g = .reserved true x) :
    s.entryCollided g = s.failedAttempt g x .line := by
  unfold State.entryCollided
  rw [entry]

/-- Settles O43: the cut frame's owner retries, or ends its attempt as the last one. -/
theorem collisionRetriesOrEnds : Obligations.CollisionRetriesOrEnds := by
  intro s f p h e cut
  have collision : exec .collision s = .next (cut.ownerCut f.send) := occurs_some h (frameCut_transmitting e)
  have request {k g st x} (send : f.send = .request k g st) (entry : s.entry g = .reserved true x) :
      exec .collision s = .next (cut.failedAttempt g x .line) := by
    have sending : cut.entry g = .reserved true x := entry
    rw [collision, send, ← entryCollided_sending sending]
    rfl
  have notice {k n} (send : f.send = .notice k) (l : s.launcher.phase = .launching k (some n)) :
      exec .collision s = .next (if n ≤ (s.slot k).retryLimit.val then
        (cut.setPhase (.launching k (some (n + 1)))).setPendingSend (some (.notice k)) else cut.noticeEnded k n .line) := by
    have launching : cut.launcher.phase = .launching k (some n) := l
    rw [collision, send]
    exact congrArg _ (launcherNoticeCut_launching launching)
  refine ⟨fun k g st x send entry left => ?_, fun k g st x n send entry spent l => ?_, fun k n send l left => ?_, ?_⟩
  · rw [request send entry, failedAttempt_retries (s := cut) left]
    rfl
  · rw [request send entry, failedAttempt_ends (s := cut) (o := .line) spent l nofun]
  · rw [notice send l, if_pos left]
    rfl
  · intro k n send l spent r
    rw [notice send l, if_neg (Nat.not_le.mpr spent)]
    refine ⟨fun room => ?_, fun full => ?_⟩
    · exact congrArg _ (noticeEnded_room (s := cut) room k n nofun)
    · exact congrArg _ (noticeEnded_full (s := cut) full k n .line)

/-! ## The answer timer (R30, R54, R122) -/

section answerExpired
variable {s : State} {g : Tag} {x : Exchange} {c : Option AnswerStore} (entry : s.entry g = .awaiting x c)
include entry

theorem answerExpired_awaiting : s.answerExpired g = s.failedAttempt g x .noAnswer := by
  unfold State.answerExpired
  rw [entry]

theorem answerExpired_retries (left : x.attempts ≤ (s.slot x.slot).retryLimit.val) : s.answerExpired g = s.retry g x := by
  rw [answerExpired_awaiting entry, failedAttempt_retries left]

theorem answerExpired_ends {m : Option Nat} (spent : (s.slot x.slot).retryLimit.val < x.attempts)
    (l : s.launcher.phase = .launching x.slot m) : s.answerExpired g = State.moveOn x.slot
      ((s.ended g x .noAnswer none none none [] x.reservedChain).launchEnded x.slot .noAnswer x.attempts) := by
  rw [answerExpired_awaiting entry, failedAttempt_ends (o := .noAnswer) spent l nofun]

end answerExpired

theorem answerWindowExpired_answerWait {s : State} {g : Tag} {st : StationId} {limit n : Nat}
    (e : s.trunk.state = .answerWait g st limit n) (stationFirst : Bool) : s.answerWindowExpired stationFirst =
      some (if stationFirst then (((s.count .answerTimeouts).settle limit).missedAnswer st).answerExpired g
        else (((s.count .answerTimeouts).settle limit).answerExpired g).missedAnswer st) := by
  unfold State.answerWindowExpired
  rw [e]

theorem ite_ite_same {α : Type} (P Q : Prop) [Decidable P] [Decidable Q] (x y : α) :
    (if P then x else if Q then x else y) = if P ∨ Q then x else y := by
  by_cases hp : P
  · rw [if_pos hp, if_pos (.inl hp)]
  · by_cases hq : Q
    · rw [if_neg hp, if_pos hq, if_pos (.inr hq)]
    · rw [if_neg hp, if_neg hq, if_neg (not_or.mpr ⟨hp, hq⟩)]

/-- A missed record is Fenced by its limit, or because it was (R122). -/
theorem missed_eq (r : Station) (fenceLimit : Nat) : r.missed fenceLimit =
    let misses := if r.misses < 7 then r.misses + 1 else 7
    { r with
      misses := misses
      presence := if (0 < fenceLimit ∧ fenceLimit ≤ misses) ∨ r.presence = .fenced then .fenced else .silent } := by
  unfold Station.missed
  dsimp only
  rw [ite_ite_same]

/-- While an exchange is in Launching nothing re-evaluates at a missed answer (R83). -/
theorem missedAnswer_launching {s : State} {k : SlotId} {m : Option Nat} (l : s.launcher.phase = .launching k m) (i : StationId) :
    s.missedAnswer i = s.setStation i ((s.station i).missed s.config.fenceLimit) :=
  updateStation_launching s i _ k m l

/-- Settles O44: the station is missed and the attempt fails, in either order. -/
theorem answerTimerExpires : Obligations.AnswerTimerExpires := by
  intro s g x c limit n m b h e entry l r misses missed closing
  have expires (first : Bool) : exec (.answerTimerExpiry first) s = .next (if first
      then (closing.missedAnswer x.station).answerExpired g else (closing.answerExpired g).missedAnswer x.station) :=
    occurs_some (effect := (·.answerWindowExpired first)) h (answerWindowExpired_answerWait e first)
  have record : missed = r.missed s.config.fenceLimit := (missed_eq r s.config.fenceLimit).symm
  have silenced : closing.missedAnswer x.station = closing.setStation x.station missed := by
    rw [record]
    exact missedAnswer_launching (s := closing) l x.station
  refine ⟨fun left => ?_, fun spent => ?_, fun spent => ?_⟩
  · rw [expires]
    cases b with
    | true =>
      rw [if_pos rfl, silenced]
      exact congrArg _ (answerExpired_retries (s := closing.setStation x.station missed) entry left)
    | false =>
      rw [if_neg Bool.false_ne_true, answerExpired_retries (s := closing) entry left, record]
      exact congrArg _ (missedAnswer_launching (s := closing.retry g x) l x.station)
  · rw [expires, if_pos rfl, silenced]
    exact congrArg _ (answerExpired_ends (s := closing.setStation x.station missed) entry spent l)
  · rw [expires, if_neg Bool.false_ne_true, answerExpired_ends (s := closing) entry spent l]

end Sys2Proof.Machine
end

section
/-! PROOFS. Receptions (chapter 2, sections 2.6 and 2.7): the header and the payload handed on, the ends that are not good, attention and stray frames,
and the stuck line. -/

namespace Sys2Proof.Machine

open Sys2Proof

/-! ## The header handed on (R34, R48, R61, R62) -/

section recallHeader
variable {s : State} {h : Header} {x : Exchange} {d : Nat}

theorem recallHeader_passed (other : ∀ x d, s.entry h.tag = .deferred x d → x.station ≠ h.source) : s.recallHeader h = s := by
  unfold State.recallHeader
  split
  · rename_i x d e
    exact if_neg (other x d e)
  all_goals rfl

theorem recallHeader_deferred (e : s.entry h.tag = .deferred x d) (source : x.station = h.source) : s.recallHeader h =
    (s.setPool (s.recallDecision h.tag x h.length).2).setEntry h.tag
      (.receiving x d false (s.recallDecision h.tag x h.length).1) := by
  unfold State.recallHeader
  rw [e]
  exact if_pos source

end recallHeader

section recallDecision
variable (s : State) (g : Tag) {x : Exchange} {n : Nat}

theorem recallDecision_overrun (long : x.inLimit < n) : s.recallDecision g x n = (.overrun, s.pool) := if_pos long

section fits
variable (fits : n ≤ x.inLimit)
include fits

theorem recallDecision_reserved (keep : x.keep = true) : s.recallDecision g x n = (.reserved, s.pool) :=
  (if_neg (Nat.not_lt.mpr fits)).trans (if_pos keep)

theorem recallDecision_unkept (keep : x.keep = false) : s.recallDecision g x n =
    if blocksFor n ≤ s.pool.freeCount then
      (.taken (s.pool.head (blocksFor n)), s.pool.take (blocksFor n) (.inbound g)) else (.busy, s.pool) :=
  (if_neg (Nat.not_lt.mpr fits)).trans (if_neg (Bool.not_eq_true _ ▸ keep))

end fits
end recallDecision

theorem handHeader_due {s : State} {r : Reception} {h : Header} (e : s.trunk.state = .receiving r)
    (due : r.headerDue = some h) :
    s.handHeader = some ((s.setReception { r with handed := true }).headerHanded r.origin h) := by
  unfold State.handHeader
  rw [e]
  dsimp only
  rw [due]

theorem headerHanded_awaiting {s : State} {g : Tag} {x : Exchange} {c : Option AnswerStore} (entry : s.entry g = .awaiting x c)
    (h : Header) :
    s.headerHanded (.answerWindow g) h = s.setEntry g (.awaiting x (some (answerDecision x g h))) := by
  unfold State.headerHanded
  dsimp only
  rw [entry]

theorem headerHanded_arbitration (s : State) (h : Header) :
    s.headerHanded .arbitration h = if h.kind = .recall then s.recallHeader h else s := rfl

/-- Settles O47: the header reaches the entry of the answer window, or a RECALL the entry of its tag. -/
theorem headerHandedOn : Obligations.HeaderHandedOn := by
  intro s r h high e due handed need
  have hands : exec .header s = .next (handed.headerHanded r.origin h) := occurs_some high (handHeader_due e due)
  have arbitrated (origin : r.origin = .arbitration) :
      exec .header s = .next (if h.kind = .recall then handed.recallHeader h else handed) := by
    rw [hands, origin, headerHanded_arbitration]
  refine ⟨fun g x c origin entry => ?_, fun origin kind => ?_, fun origin other => ?_,
    fun x d origin kind entry source => ?_⟩
  · rw [hands, origin]
    exact congrArg _ (headerHanded_awaiting (s := handed) entry h)
  · rw [arbitrated origin, if_neg kind]
  · rw [arbitrated origin, recallHeader_passed (s := handed) other, ite_self]
  · rw [arbitrated origin, if_pos kind, recallHeader_deferred (s := handed) entry source]
    refine ⟨fun long => ?_, fun fits keep => ?_, fun fits keep room => ?_, fun fits keep full => ?_⟩
    · rw [recallDecision_overrun handed h.tag long]
      rfl
    · rw [recallDecision_reserved handed h.tag fits keep]
      rfl
    · have enough : need ≤ handed.pool.freeCount := room
      rw [recallDecision_unkept handed h.tag fits keep, if_pos enough]
      rfl
    · have short : ¬ need ≤ handed.pool.freeCount := Nat.not_le.mpr full
      rw [recallDecision_unkept handed h.tag fits keep, if_neg short]
      rfl

/-! ## A payload byte handed on (R34, R48, R62, R113) -/

section fill
variable (p : Pool) {chain : List BlockId} {i : Nat}

theorem pool_fill_stores {b : BlockId} (block : chain[i / 64]? = some b) (g : Tag) (v : Byte) : p.fill chain g i v =
    { p with data := Memory.write p.data (64 * b.val + i % 64) v, owner := p.owner.set b (.inbound g) } := by
  unfold Pool.fill
  rw [block]
  dsimp only
  rw [Pool.store, byteAddress, Nat.mod_mod]
  rfl

theorem pool_fill_nil (g : Tag) (i : Nat) (v : Byte) : p.fill [] g i v = p := rfl

end fill

theorem handPayload_due {s : State} {r : Reception} {h : Header} {v : Byte} (e : s.trunk.state = .receiving r)
    (due : r.due = some v) (header : r.headerIn = some h) :
    s.handPayload = some ((s.setReception { r with due := none }).storePayload r.origin h (r.count - 6) v) := by
  unfold State.handPayload
  rw [e]
  dsimp only
  rw [due, header]

section storePayload
variable {s : State} {h : Header} {i : Nat} {v : Byte}

theorem storePayload_awaiting {g : Tag} {x : Exchange} (entry : s.entry g = .awaiting x (some .store)) :
    s.storePayload (.answerWindow g) h i v = s.setPool (s.pool.fill x.reservedChain g i v) := by
  unfold State.storePayload
  dsimp only
  rw [entry]

/-- Under a decision to discard, or with none taken, the byte is dropped. -/
theorem storePayload_discards {g : Tag} {x : Exchange} {c : Option AnswerStore} (entry : s.entry g = .awaiting x c)
    (other : c ≠ some .store) : s.storePayload (.answerWindow g) h i v = s := by
  unfold State.storePayload
  dsimp only
  rw [entry]
  match c, other with
  | none, _ => rfl
  | some .store, other => exact absurd rfl other
  | some .discardOverrun, _ => rfl
  | some .discard, _ => rfl

theorem storePayload_receiving {x : Exchange} {d : Nat} {p : Bool} {c : RecallStore}
    (entry : s.entry h.tag = .receiving x d p c) : s.storePayload .arbitration h i v =
      if h.kind = .recall then s.setPool (s.pool.fill (recallChain x c) h.tag i v) else s := by
  unfold State.storePayload
  dsimp only
  rw [entry]

theorem storePayload_idle (idle : ∀ x d p c, s.entry h.tag ≠ .receiving x d p c) :
    s.storePayload .arbitration h i v = s := by
  unfold State.storePayload
  dsimp only
  split
  · split
    · exact absurd ‹_› (idle _ _ _ _)
    all_goals rfl
  · rfl

end storePayload

/-- Settles O48: the byte goes where the entry that takes the payload stores it, or is dropped. -/
theorem payloadByteStored : Obligations.PayloadByteStored := by
  intro s r h v high e _ header due i dropped stored
  have hands : exec .payloadByte s = .next (dropped.storePayload r.origin h i v) :=
    occurs_some high (handPayload_due e due header)
  have recalls {x d p c} (origin : r.origin = .arbitration) (entry : s.entry h.tag = .receiving x d p c) :
      exec .payloadByte s = .next (if h.kind = .recall then dropped.setPool (s.pool.fill (recallChain x c) h.tag i v)
        else dropped) := by
    rw [hands, origin]
    exact congrArg _ (storePayload_receiving (s := dropped) entry)
  refine ⟨fun g x b origin entry block => ?_, fun g x c origin entry other => ?_,
    fun x d p b origin kind entry block => ?_, fun x d p bs b origin kind entry block => ?_,
    fun x d p c origin entry unstored => ?_, fun origin idle => ?_⟩
  · rw [hands, origin, storePayload_awaiting (s := dropped) entry, pool_fill_stores _ block]
    rfl
  · rw [hands, origin, storePayload_discards (s := dropped) entry other]
  · rw [recalls origin entry, if_pos kind, recallChain, pool_fill_stores _ block]
    rfl
  · rw [recalls origin entry, if_pos kind, recallChain, pool_fill_stores _ block]
    rfl
  · have nothing : dropped.setPool (s.pool.fill (recallChain x c) h.tag i v) = dropped := by
      obtain rfl | rfl := unstored <;> rfl
    rw [recalls origin entry, nothing, ite_self]
  · rw [hands, origin, storePayload_idle (s := dropped) idle]

/-! ## The end of a reception that is not good (R35, R36, R53) -/

section routeBad
variable {s : State} {r : Reception}

theorem routeBad_unsolicited (origin : r.origin = .unsolicited) : s.routeBad r = s := by
  unfold State.routeBad
  rw [origin]

/-- Before its header is handed on a frame after an arbitration has no entry to reach. -/
theorem routeBad_unhanded (origin : r.origin = .arbitration) (handed : r.handed = false) : s.routeBad r = s := by
  unfold State.routeBad
  rw [origin, handed]
  cases r.headerIn <;> rfl

/-- In the answer window the reception is a failed attempt, with its blocks RESERVED again (R53). -/
theorem routeBad_answerWindow {g : Tag} {x : Exchange} {c : Option AnswerStore} (origin : r.origin = .answerWindow g)
    (entry : s.entry g = .awaiting x c) : s.routeBad r =
      (s.setPool (s.pool.setOwners x.reservedChain (.reserved g))).failedAttempt g x .damaged := by
  unfold State.routeBad State.answerFrameEnd
  rw [origin]
  dsimp only
  rw [entry]
  rfl

end routeBad

/-- Settles O49: the route of a bad frame by its origin. -/
theorem badReceptionEnds : Obligations.BadReceptionEnds := by
  intro s r event n high e due bad closing
  rw [endsBad_routes high e due bad]
  refine ⟨?_, fun g x c origin entry left => ?_, fun g x c m origin entry spent l => ?_⟩
  · rintro (origin | ⟨origin, handed⟩)
    · rw [routeBad_unsolicited origin]
    · rw [routeBad_unhanded origin handed]
  · rw [routeBad_answerWindow (s := closing) origin entry]
    exact congrArg _ (failedAttempt_retries left)
  · rw [routeBad_answerWindow (s := closing) origin entry]
    exact congrArg _ (failedAttempt_ends (o := .damaged) spent l nofun)

/-! ## Attention and stray frames (R36, R37, R129, R173) -/

/-- A frame that is neither a RECALL nor an ATTENTION is a stray one after an arbitration. -/
theorem arbitrationGood_stray {s : State} {h : Header} (asks : h.kind ≠ .recall) (calls : h.kind ≠ .attention) :
    s.arbitrationGood h = s.count .strayFrames := by
  unfold State.arbitrationGood
  split
  · exact absurd ‹_› asks
  · exact absurd ‹_› calls
  all_goals rfl

theorem arbitrationGood_attention {s : State} {h : Header} (kind : h.kind = .attention) : s.arbitrationGood h =
    (s.attention h.source h.code).setTrunkState (.replying ⟨.taken, addressNibble h.source, 0⟩ (.window 0)) := by
  unfold State.arbitrationGood
  rw [kind]

section attention
variable {s : State} {i : StationId} (code : Nibble)

theorem attention_reported (first : (s.station i).attnPending = false) : s.attention i code =
    (s.setStation i { s.station i with attnPending := true, attnCount := 1, lastCause := code }).setReports
      (s.reports.posted s.config.coalesceTime (attentionReport i code)) := by
  refine (if_neg (Bool.not_eq_true _ ▸ first)).trans ?_
  exact post_eq _ _

theorem attention_counted (standing : (s.station i).attnPending = true) : s.attention i code = s.setStation i
    { s.station i with
      attnCount := if (s.station i).attnCount < 255 then (s.station i).attnCount + 1 else 255
      lastCause := code } := if_pos standing

end attention

/-- Settles O52: the source is heard, and the frame is attended to or counted as a stray one. -/
theorem attentionAndStrayFramesEnd : Obligations.AttentionAndStrayFramesEnd := by
  intro s r h high e due good header heard i replies
  have routes : exec .frameEnd s = .next (heard.routeGood r.origin h) := endsGood_routes high e due good header
  have attended (origin : r.origin = .arbitration) (kind : h.kind = .attention) : exec .frameEnd s = .next
      ((heard.attention h.source h.code).setTrunkState
        (.replying ⟨.taken, BitVec.ofNat 4 h.source.address, 0⟩ (.window 0))) := by
    rw [routes, origin]
    exact congrArg _ (arbitrationGood_attention kind)
  refine ⟨?_, fun origin kind first => ?_, fun origin kind standing => ?_⟩
  · rintro (origin | ⟨origin, asks, calls⟩)
    · rw [routes, origin]
      rfl
    · rw [routes, origin]
      exact congrArg _ (arbitrationGood_stray asks calls)
  · rw [attended origin kind, attention_reported h.code first]
    rfl
  · rw [attended origin kind, attention_counted h.code standing]
    rfl


/-! ## The stuck line (R40) -/

/-- The controller of `t` is that of `s`, with a reception in progress; the pending send may differ. -/
def State.receives (s t : State) : Prop :=
  ∃ x p, t.trunk = { s.trunk with state := .receiving x, pendingSend := p }

theorem receives_self {s : State} {r : Reception} (e : s.trunk.state = .receiving r) : s.receives s :=
  ⟨r, s.trunk.pendingSend, by rw [← e]⟩

theorem receives_trans {s t u : State} (h : s.receives t) (k : t.receives u) : s.receives u := by
  obtain ⟨x, p, h⟩ := h
  obtain ⟨y, q, k⟩ := k
  exact ⟨y, q, by rw [k, h]⟩

theorem receives_inner {s t : State} {r : Reception} (h : Inner (s.setReception r) t) : s.receives t :=
  ⟨r, t.trunk.pendingSend, h.trunk⟩

theorem receives_handHeader {s t : State} (h : s.handHeader = some t) : s.receives t := by
  unfold State.handHeader at h
  split at h
  · split at h
    · cases h
      exact receives_inner (Inner.headerHanded _ _ _)
    · cases h
  all_goals cases h

theorem receives_handPayload {s t : State} (h : s.handPayload = some t) : s.receives t := by
  unfold State.handPayload at h
  split at h
  · split at h
    · cases h
      exact receives_inner (Inner.storePayload _ _ _ _ _)
    all_goals cases h
  all_goals cases h

/-- Handing on what is due leaves the reception in progress. -/
theorem receives_handDue {s : State} {r : Reception} (e : s.trunk.state = .receiving r) : s.receives s.handDue := by
  have header : s.receives (s.handHeader.getD s) := by
    cases h : s.handHeader with
    | none => exact receives_self e
    | some t => exact receives_handHeader h
  unfold State.handDue
  cases h : (s.handHeader.getD s).handPayload with
  | none => exact header
  | some t => exact receives_trans header (receives_handPayload h)

theorem receptionOf_receives {s : State} {x : Reception} {p : Option Send}
    (e : s.handDue.trunk = { s.trunk with state := .receiving x, pendingSend := p }) : s.receptionOf = some x := by
  unfold State.receptionOf
  rw [e]

section sticks
variable {s : State}

theorem sticks_settling (e : s.trunk.state = .settling) : s.sticks = some s.enterFault := by
  unfold State.sticks
  rw [e]

theorem sticks_fault (e : s.trunk.state = .fault) : s.sticks = some (s.setTrunk { s.trunk with stuck := 2048 }) := by
  unfold State.sticks
  rw [e]

variable {r : Reception} (e : s.trunk.state = .receiving r)
include e

/-- A reception ends truncated, with what was due handed on first. -/
theorem sticks_receiving {x : Reception} (reception : s.receptionOf = some x) :
    s.sticks = some (s.handDue.endReception x .truncated).enterFault := by
  unfold State.sticks
  rw [e]
  dsimp only
  rw [reception]

theorem sticks_nothingDue (due : r.nothingDue) : s.sticks = some ((s.receptionOver 3).routeBad r).enterFault := by
  rw [sticks_receiving e (receptionOf_nothing s r e due), handDue_nothing s r e due]
  rfl

end sticks

/-- A truncated end leaves the controller Settling, whatever its route does. -/
theorem endReception_truncated_trunk (s : State) (r : Reception) : (s.endReception r .truncated).trunk =
    { s.trunk with
      state := .settling, quiet := 0, skip := false, pendingSend := (s.endReception r .truncated).trunk.pendingSend } :=
  (Kept.routeBad ((s.count .truncated).settle 0) r).trunk

/-- Settles O38: Fault is entered from Settling at once, and from a reception after the route of its truncated end. -/
theorem stuckLineFaults : Obligations.StuckLineFaults := by
  intro s high faults
  have ends {r : Reception} (e : s.trunk.state = .receiving r) (due : r.nothingDue) :
      exec .stuckLine s = .next (faults ((s.receptionOver 3).routeBad r)) := occurs_some high (sticks_nothingDue e due)
  refine ⟨fun e => occurs_some high (sticks_settling e), fun e => occurs_some high (sticks_fault e),
    fun r e due origin => ?_, fun r e => ?_, ?_⟩
  · rw [ends e due, routeBad_unsolicited origin]
  · obtain ⟨x, p, reception⟩ := receives_handDue e
    refine ⟨_, occurs_some high (sticks_receiving e (receptionOf_receives reception)), ?_, rfl⟩
    show { (s.handDue.endReception x .truncated).trunk with state := .fault, quiet := 0, stuck := 2048 } = _
    rw [endReception_truncated_trunk, reception]
    rfl
  · intro r e due closing
    rw [ends e due]
    refine ⟨fun origin handed => ?_, fun g x c origin entry left => ?_, fun g x c m origin entry spent l => ?_,
      fun h origin handed header => ?_⟩
    · rw [routeBad_unhanded origin handed]
    · rw [routeBad_answerWindow (s := closing) origin entry]
      exact congrArg (Host.Outcome.next ∘ faults) (failedAttempt_retries left)
    · rw [routeBad_answerWindow (s := closing) origin entry]
      exact congrArg (Host.Outcome.next ∘ faults) (failedAttempt_ends (o := .damaged) spent l nofun)
    · have entries : closing.entry h.tag = s.entry h.tag := rfl
      rw [routeBad_arbitration origin handed header, ← entries]
      refine ⟨?_, fun x d kind receiving => ?_, fun x d c kind receiving unstored => ?_, fun x d b bs kind receiving => ?_,
        fun x d c kind receiving => ?_⟩
      · rintro (other | idle)
        · rw [if_neg other]
        · rw [recallBad_other (s := closing) idle, ite_self]
      · rw [if_pos kind, recallBad_reserved (s := closing) receiving]
        rfl
      · rw [if_pos kind, recallBad_unstored (s := closing) receiving unstored]
        rfl
      · rw [if_pos kind, recallBad_taken (s := closing) receiving]
        rfl
      · have held : (closing.entry h.tag).holds = receivingBlocks x c := by
          rw [receiving]
          cases c <;> rfl
        rw [if_pos kind, recallBad_expired (s := closing) receiving, held]

end Sys2Proof.Machine
end

section
/-! PROOFS. The tick (R42): its two deliveries, and what it lowers where nothing runs out. -/

namespace Sys2Proof.Machine

open Sys2Proof

/-! ## Overdue under the Launcher's work (R144) -/

@[simp] theorem posted_overdue (q : Reports) (c : Nat) (r : Report) : (q.posted c r).overdue = q.overdue := by
  unfold Reports.posted
  split <;> rfl

namespace Overdue

section next
variable {next : SlotId → State → State} (kept : ∀ k s, (next k s).reports.overdue = s.reports.overdue)
include kept

theorem moveOnWith (k : SlotId) (s : State) : (Machine.moveOnWith next k s).reports.overdue = s.reports.overdue := by
  unfold Machine.moveOnWith
  dsimp only
  split
  · rfl
  · split
    · rfl
    · split
      · split
        · exact kept _ _
        · rfl
      · exact kept _ _

theorem reportWith (k : SlotId) (r : Report) (s : State) :
    (Machine.reportWith next k r s).reports.overdue = s.reports.overdue := by
  unfold Machine.reportWith
  split
  · dsimp only
    split
    · rfl
    · exact moveOnWith kept k _
  · rfl

theorem checkWith (k : SlotId) (s : State) : (Machine.checkWith next k s).reports.overdue = s.reports.overdue := by
  unfold Machine.checkWith
  split
  · exact reportWith kept k _ s
  all_goals rfl

theorem takeWith (k : SlotId) (s : State) : (Machine.takeWith next k s).reports.overdue = s.reports.overdue := by
  unfold Machine.takeWith
  split
  · rfl
  · exact checkWith kept k _

end next

theorem takeSlot (room : Nat) : ∀ k s, (Machine.takeSlot room k s).reports.overdue = s.reports.overdue := by
  induction room with
  | zero => exact takeWith fun _ _ => rfl
  | succ room ih => exact takeWith ih

theorem take (k : SlotId) (s : State) : (State.take k s).reports.overdue = s.reports.overdue := takeSlot _ k s

theorem reevaluate (s : State) : s.reevaluate.reports.overdue = s.reports.overdue := by
  unfold State.reevaluate
  split
  · exact reportWith take _ _ s
  · exact take _ s
  · exact checkWith take _ s
  · exact checkWith take _ s
  · exact checkWith take _ s
  all_goals rfl

/-! ## Overdue under a tick at the table -/

theorem deadlineTick (s : State) (g : Tag) : (s.deadlineTick g).reports.overdue = s.reports.overdue := by
  rw [deadlineTick_eq]
  split
  · split
    · exact (reevaluate _).trans (posted_overdue ..)
    · rfl
  all_goals rfl

theorem restTick (s : State) (g : Tag) : (s.restTick g).reports.overdue = s.reports.overdue := by
  unfold State.restTick
  split
  · split
    · exact reevaluate _
    · rfl
  all_goals rfl

theorem foldl {f : State → Tag → State} (kept : ∀ s g, (f s g).reports.overdue = s.reports.overdue) (tags : List Tag) (s : State) :
    (tags.foldl f s).reports.overdue = s.reports.overdue := by
  induction tags generalizing s with
  | nil => rfl
  | cons g tags ih => exact (ih _).trans (kept s g)

theorem deadlinesTick (s : State) : s.deadlinesTick.reports.overdue = s.reports.overdue := by
  rw [State.deadlinesTick, foldl deadlineTick]

theorem restsTick (s : State) : s.restsTick.reports.overdue = s.reports.overdue := by
  rw [State.restsTick, foldl restTick]

theorem tableTick (s : State) (restsFirst : Bool) : (s.tableTick restsFirst).reports.overdue = s.reports.overdue := by
  unfold State.tableTick
  split
  · rw [deadlinesTick, restsTick]
  · rw [restsTick, deadlinesTick]

end Overdue

/-! ## A tick at which nothing runs out (R59, R69, R144) -/

/-- An entry with its deadline lowered by 1 (R59). -/
def Entry.deadlineLowered : Entry → Entry
  | .deferred x d => .deferred x (d - 1)
  | .receiving x d p c => .receiving x (d - 1) (p || decide (d ≤ 1)) c
  | .free => .free
  | .reserved b x => .reserved b x
  | .awaiting x c => .awaiting x c
  | .done x d => .done x d
  | .resting st n => .resting st n

/-- An entry with its rest lowered by 1 (R69). -/
def Entry.restLowered : Entry → Entry
  | .resting st n => .resting st (n - 1)
  | .free => .free
  | .reserved b x => .reserved b x
  | .awaiting x c => .awaiting x c
  | .deferred x d => .deferred x d
  | .receiving x d p c => .receiving x d p c
  | .done x d => .done x d

theorem setEntry_same {s : State} {g : Tag} {e : Entry} (h : s.entry g = e) : s.setEntry g e = s := by
  subst h
  have same : s.entries.set g (s.entry g) = s.entries := Vector.set_getElem_self _
  rw [State.setEntry, same]

theorem deadlineTick_lowers {s : State} {g : Tag} (short : ∀ x d, s.entry g = .deferred x d → 2 ≤ d) :
    s.deadlineTick g = s.setEntry g (s.entry g).deadlineLowered := by
  rw [deadlineTick_eq]
  cases e : s.entry g with
  | deferred x d => exact if_neg (Nat.not_le.mpr (short x d e))
  | receiving x d p c => rfl
  | _ => exact (setEntry_same e).symm

theorem restTick_lowers {s : State} {g : Tag} (short : ∀ st n, s.entry g = .resting st n → 2 ≤ n) :
    s.restTick g = s.setEntry g (s.entry g).restLowered := by
  unfold State.restTick
  cases e : s.entry g with
  | resting st n => exact if_neg (Nat.not_le.mpr (short st n e))
  | _ => exact (setEntry_same e).symm

/-- A walk over some tags that changes each entry by one function changes those entries and nothing else. -/
theorem foldl_setEntry {f : State → Tag → State} {F : Entry → Entry} (tags : List Tag) (once : tags.Nodup) (s : State)
    (visit : ∀ g ∈ tags, ∀ u : State, u.entry g = s.entry g → f u g = u.setEntry g (F (u.entry g))) :
    tags.foldl f s = { s with entries := Vector.ofFn fun g => if g ∈ tags then F (s.entry g) else s.entry g } := by
  induction tags generalizing s with
  | nil =>
    simp only [List.foldl_nil, List.not_mem_nil, if_false]
    exact congrArg (fun v => ({ s with entries := v } : State)) (ofFn_self s.entries).symm
  | cons g tags ih =>
    obtain ⟨fresh, once⟩ := List.nodup_cons.mp once
    have others : ∀ u ∈ tags, (s.setEntry g (F (s.entry g))).entry u = s.entry u := fun u hu => by
      have apart : g ≠ u := fun same => fresh (same ▸ hu)
      rw [entry_setEntry, if_neg apart]
    rw [List.foldl_cons, visit g List.mem_cons_self s rfl, ih once _ fun u hu v same =>
      visit u (List.mem_cons_of_mem g hu) v (same.trans (others u hu))]
    refine congrArg (fun F => ({ s with entries := Vector.ofFn F } : State)) (funext fun u => ?_)
    by_cases hu : u ∈ tags
    · rw [if_pos hu, if_pos (List.mem_cons_of_mem g hu), others u hu]
    · rw [if_neg hu, entry_setEntry]
      by_cases same : g = u
      · rw [if_pos same, if_pos (same ▸ List.mem_cons_self), same]
      · rw [if_neg same, if_neg fun m => (List.mem_cons.mp m).elim (fun e => same e.symm) hu]

/-- The same over all tags maps the table. -/
theorem foldl_setEntry_all {f : State → Tag → State} {F : Entry → Entry} (s : State)
    (visit : ∀ g, ∀ u : State, u.entry g = s.entry g → f u g = u.setEntry g (F (u.entry g))) :
    (List.finRange 16).foldl f s = { s with entries := s.entries.map F } := by
  rw [foldl_setEntry _ (List.nodup_finRange 16) s fun g _ => visit g]
  refine congrArg (fun v => ({ s with entries := v } : State)) (Vector.ext fun i hi => ?_)
  rw [Vector.getElem_ofFn, if_pos (List.mem_finRange _), Vector.getElem_map]
  rfl

section runsOn
variable {s : State}

theorem deadlinesTick_lowers (short : ∀ g x d, s.entry g = .deferred x d → 2 ≤ d) :
    s.deadlinesTick = { s with entries := s.entries.map Entry.deadlineLowered } :=
  foldl_setEntry_all s fun g _ same => deadlineTick_lowers fun x d e => short g x d (same.symm.trans e)

theorem restsTick_lowers (short : ∀ g st n, s.entry g = .resting st n → 2 ≤ n) :
    s.restsTick = { s with entries := s.entries.map Entry.restLowered } :=
  foldl_setEntry_all s fun g _ same => restTick_lowers fun st n e => short g st n (same.symm.trans e)

theorem entry_map (F : Entry → Entry) (g : Tag) : ({ s with entries := s.entries.map F } : State).entry g = F (s.entry g) :=
  Vector.getElem_map ..

/-- Lowering deadlines leaves the rests, and lowering rests the deadlines. -/
theorem resting_of_deadlineLowered {e : Entry} {st : StationId} {n : Nat} (h : e.deadlineLowered = .resting st n) :
    e = .resting st n := by
  cases e with
  | resting => exact h
  | _ => cases h

theorem deferred_of_restLowered {e : Entry} {x : Exchange} {d : Nat} (h : e.restLowered = .deferred x d) :
    e = .deferred x d := by
  cases e with
  | deferred => exact h
  | _ => cases h

theorem lowered_comm (e : Entry) : e.restLowered.deadlineLowered = e.deadlineLowered.restLowered := by
  cases e <;> rfl

/-- With no deadline and no rest at its last tick both orders lower every timer of the table. -/
theorem tableTick_lowers (deadlines : ∀ g x d, s.entry g = .deferred x d → 2 ≤ d)
    (rests : ∀ g st n, s.entry g = .resting st n → 2 ≤ n) (restsFirst : Bool) :
    s.tableTick restsFirst = { s with entries := s.entries.map fun e => e.deadlineLowered.restLowered } := by
  unfold State.tableTick
  cases restsFirst with
  | true =>
    have after : ∀ g x d, ({ s with entries := s.entries.map Entry.restLowered } : State).entry g = .deferred x d → 2 ≤ d :=
      fun g x d e => deadlines g x d (deferred_of_restLowered ((entry_map _ g).symm.trans e))
    rw [if_pos rfl, restsTick_lowers rests, deadlinesTick_lowers after]
    dsimp only
    rw [Vector.map_map]
    exact congrArg (fun F => ({ s with entries := s.entries.map F } : State)) (funext lowered_comm)
  | false =>
    have after : ∀ g st n, ({ s with entries := s.entries.map Entry.deadlineLowered } : State).entry g = .resting st n → 2 ≤ n :=
      fun g st n e => rests g st n (resting_of_deadlineLowered ((entry_map _ g).symm.trans e))
    rw [if_neg Bool.false_ne_true, deadlinesTick_lowers deadlines, restsTick_lowers after]
    dsimp only
    rw [Vector.map_map]
    rfl


theorem reports_tick_lowers {r : Reports} (short : ∀ n, r.timer = some n → 2 ≤ n) :
    r.tick = { r with timer := r.timer.map (· - 1) } := by
  unfold Reports.tick
  cases e : r.timer with
  | none => exact congrArg (fun timer => ({ r with timer := timer } : Reports)) e
  | some n => exact if_neg (Nat.not_le.mpr (short n e))

/-- A tick at which nothing runs out lowers every timer, in whichever order (log 7). -/
theorem tick_lowers (deadlines : ∀ g x d, s.entry g = .deferred x d → 2 ≤ d)
    (rests : ∀ g st n, s.entry g = .resting st n → 2 ≤ n) (coalescing : ∀ n, s.reports.timer = some n → 2 ≤ n) (o : TickOrder) :
    s.tick o = { s with
      trunk := { s.trunk with heartbeat := 0 }
      entries := s.entries.map fun e => e.deadlineLowered.restLowered
      reports := { s.reports with timer := s.reports.timer.map (· - 1) } } := by
  have table (u : State) (same : ∀ g, u.entry g = s.entry g) : u.tableTick o.restsFirst =
      { u with entries := u.entries.map fun e => e.deadlineLowered.restLowered } :=
    tableTick_lowers (fun g x d e => deadlines g x d ((same g).symm.trans e))
      (fun g st n e => rests g st n ((same g).symm.trans e)) _
  rw [← reports_tick_lowers coalescing]
  unfold State.tick
  dsimp only
  cases o.reportsFirst with
  | true =>
    rw [if_pos rfl, table]
    · rfl
    · exact fun _ => rfl
  | false =>
    rw [if_neg Bool.false_ne_true, table]
    · rfl
    · exact fun _ => rfl

end runsOn

theorem reports_tick_overdue {r : Reports} {n : Nat} (e : r.timer = some n) (last : n ≤ 1) : r.tick.overdue = true := by
  unfold Reports.tick
  rw [e]
  dsimp only
  rw [if_pos last]

/-! ## The whole tick (R42) -/

/-- The table's tick with each visit written out (R59, R69). -/
theorem restTick_eq (s : State) (g : Tag) : s.restTick g = match s.entry g with
    | .resting st n =>
      if n ≤ 1 then State.reevaluate { s with entries := s.entries.set g .free }
      else { s with entries := s.entries.set g (.resting st (n - 1)) }
    | _ => s := by
  unfold State.restTick
  cases s.entry g <;> rfl

theorem reportsTick_eq (s : State) : s.reportsTick = { s with reports := match s.reports.timer with
    | none => s.reports
    | some n => if n ≤ 1 then { s.reports with timer := none, overdue := true }
      else { s.reports with timer := some (n - 1) } } := rfl

theorem tick_occurs {s : State} (h : s.nreset = true) (o : TickOrder) : exec (.tick o) s = .next (s.tick o) :=
  occurs_some (effect := fun s => some (s.tick o)) h rfl

/-- A tick moves no more of the controller than its heartbeat and the pending send. -/
theorem tick_trunk (s : State) (o : TickOrder) :
    (s.tick o).trunk = { s.trunk with heartbeat := 0, pendingSend := (s.tick o).trunk.pendingSend } := by
  unfold State.tick
  dsimp only
  split
  · exact (Inner.trans (Inner.reportsTick _) (Inner.tableTick _ _)).trunk
  · exact (Inner.trans (Inner.tableTick _ _) (Inner.reportsTick _)).trunk

/-- Settles O35: the frame of the two deliveries, their effect where nothing runs out, and both written out. -/
theorem tickLowersEveryTimer : Obligations.TickLowersEveryTimer := by
  refine ⟨fun s o h => ⟨s.tick o, tick_occurs h o, tick_trunk s o, fun n e last first => ?_⟩,
    fun s o h deadlines rests coalescing => ?_, fun s o h => ?_⟩
  · unfold State.tick
    dsimp only
    rw [if_pos first]
    exact (Overdue.tableTick _ _).trans (reports_tick_overdue e last)
  · rw [tick_occurs h, tick_lowers deadlines rests coalescing]
    refine congrArg (fun F : Entry → Entry => Host.Outcome.next { s with
      trunk := { s.trunk with heartbeat := 0 }
      entries := s.entries.map F
      reports := { s.reports with timer := s.reports.timer.map (· - 1) } }) (funext fun e => ?_)
    cases e <;> rfl
  · intro tags deadline rest table timer begun
    have deadlines : deadline = State.deadlineTick := funext fun u => funext fun g => (deadlineTick_eq u g).symm
    have rests : rest = State.restTick := funext fun u => funext fun g => (restTick_eq u g).symm
    have tables (u : State) : table u = u.tableTick o.restsFirst := by
      show (if o.restsFirst then tags.foldl deadline (tags.foldl rest u) else tags.foldl rest (tags.foldl deadline u)) = _
      rw [deadlines, rests]
      rfl
    have timers (u : State) : timer u = u.reportsTick := (reportsTick_eq u).symm
    rw [tick_occurs h, tables, tables, timers, timers]
    rfl

end Sys2Proof.Machine
end

section
/-! PROOFS. TRUNK RESET (R38): the entries, the records and the Launcher by its phase. -/

namespace Sys2Proof.Machine

open Sys2Proof

/-! ## What a trunk reset leaves alone, and what it does to the tables (R71, R131) -/

section entriesReset
variable (s : State) (tags : List Tag)

theorem entriesReset_counters : (s.entriesReset tags).counters = s.counters := by
  unfold State.entriesReset
  rfl

theorem entriesReset_trunk : (s.entriesReset tags).trunk = s.trunk := by
  unfold State.entriesReset
  rfl

theorem entriesReset_choices (c : Nat) :
    State.entriesReset { s with choices := c } tags = { s.entriesReset tags with choices := c } := rfl

end entriesReset

/-- `t` has the entries, the station records, the counters and the controller of `s`. -/
structure SameRecords (s t : State) : Prop where
  entries : t.entries = s.entries
  stations : t.stations = s.stations
  counters : t.counters = s.counters
  trunk : t.trunk = s.trunk

namespace SameRecords

theorem refl (s : State) : SameRecords s s := ⟨rfl, rfl, rfl, rfl⟩

theorem trans {s t u : State} (h : SameRecords s t) (k : SameRecords t u) : SameRecords s u :=
  ⟨k.entries.trans h.entries, k.stations.trans h.stations, k.counters.trans h.counters, k.trunk.trans h.trunk⟩

/-- The trunk reset of some tags looks at the tables alone where it changes them. -/
theorem entriesReset {s t : State} (h : SameRecords s t) (tags : List Tag) :
    SameRecords (s.entriesReset tags) (t.entriesReset tags) where
  entries := by simp only [entriesReset_entries, State.entry, h.entries]
  stations := by simp only [entriesReset_stations, State.entry, State.station, h.entries, h.stations]
  counters := by rw [entriesReset_counters, entriesReset_counters, h.counters]
  trunk := by rw [entriesReset_trunk, entriesReset_trunk, h.trunk]

theorem stationsTrunkReset {s t : State} (h : SameRecords s t) : SameRecords s.stationsTrunkReset t.stationsTrunkReset :=
  ⟨h.entries, congrArg (Vector.map Station.trunkReset) h.stations, h.counters, h.trunk⟩

/-- The end of a launch phase that a trunk reset brings to an entry is beside the tables. -/
theorem entryTrunkReset (s : State) (g : Tag) : SameRecords (s.entriesReset [g]) (s.entryTrunkReset g) := by
  by_cases launching : ∃ x, (s.entry g).resetAnswers = some x ∧ ∃ m, s.launcher.phase = .launching x.slot m
  · obtain ⟨x, answers, phase⟩ := launching
    rw [entryTrunkReset_launching s g x phase answers]
    generalize s.entriesReset [g] = u
    exact ⟨rfl, rfl, rfl, rfl⟩
  · rw [entryTrunkReset_eq s g fun x answers m phase => launching ⟨x, answers, m, phase⟩]
    exact refl _

theorem foldl_entryTrunkReset (tags : List Tag) (once : tags.Nodup) (s : State) :
    SameRecords (s.entriesReset tags) (tags.foldl State.entryTrunkReset s) := by
  induction tags generalizing s with
  | nil =>
    rw [entriesReset_nil]
    exact refl s
  | cons g tags ih =>
    obtain ⟨fresh, once⟩ := List.nodup_cons.mp once
    have first := (entryTrunkReset s g).entriesReset tags
    rw [entriesReset_append s [g] tags fun u hu c => fresh (List.mem_singleton.mp c ▸ hu)] at first
    exact first.trans (ih once _)

theorem entriesTrunkReset (s : State) : SameRecords (s.entriesReset (List.finRange 16)) s.entriesTrunkReset :=
  foldl_entryTrunkReset _ (List.nodup_finRange 16) s

theorem noticeReset (s : State) (k : SlotId) (n : Nat) : SameRecords s (s.noticeReset k n) := by
  unfold State.noticeReset
  dsimp only
  split <;> exact ⟨rfl, rfl, rfl, rfl⟩

theorem launcherTrunkReset (s : State) : SameRecords s s.launcherTrunkReset := by
  unfold State.launcherTrunkReset
  split
  · exact refl s
  · exact refl s
  · split <;> exact ⟨rfl, rfl, rfl, rfl⟩
  · exact ⟨rfl, rfl, rfl, rfl⟩
  · exact ⟨rfl, rfl, rfl, rfl⟩
  · exact ⟨rfl, rfl, rfl, rfl⟩
  · exact ⟨rfl, rfl, rfl, rfl⟩
  · exact ⟨rfl, rfl, rfl, rfl⟩
  · rw [noticeEnded_trunkReset]
    exact noticeReset s _ _
  · exact refl s

/-- In whichever order the deliveries come, the tables are those of the entries' and the records' own resets. -/
theorem trunkResetDelivered (s : State) :
    SameRecords (s.entriesReset (List.finRange 16)).stationsTrunkReset s.trunkResetDelivered := by
  have entriesFirst (u : State) : SameRecords (u.entriesReset (List.finRange 16)) u.entriesTrunkReset.launcherTrunkReset :=
    (entriesTrunkReset u).trans (launcherTrunkReset _)
  have launcherFirst (u : State) : SameRecords (u.entriesReset (List.finRange 16)) u.launcherTrunkReset.entriesTrunkReset :=
    ((launcherTrunkReset u).entriesReset _).trans (entriesTrunkReset _)
  have counted : SameRecords s s.nextChoice := ⟨rfl, rfl, rfl, rfl⟩
  unfold State.trunkResetDelivered
  split
  · refine stationsTrunkReset ((counted.entriesReset _).trans ?_)
    split
    · exact launcherFirst _
    · exact entriesFirst _
  all_goals exact (entriesFirst s).stationsTrunkReset

end SameRecords

/-! ## An entry and a record after a trunk reset (R71, R131) -/

section afterReset
variable {e : Entry}

theorem afterReset_free (empty : e = .free ∨ (∃ st n, e = .resting st n) ∨ ∃ x, e = .reserved false x ∧ x.attempts ≤ 1) :
    e.afterReset = .free := by
  obtain rfl | ⟨st, n, rfl⟩ | ⟨x, rfl, first⟩ := empty
  · rfl
  · rfl
  · have undone : (Entry.reserved false x).resetEnds = none := if_pos first
    unfold Entry.afterReset
    rw [undone]

theorem afterReset_ends {x : Exchange} (ends : e.resetEnds = some x) :
    e.afterReset = .done { x with reservedChain := [] } ⟨.trunkReset, false, [], none, none, none⟩ := by
  unfold Entry.afterReset
  rw [ends]

theorem resetEnds_reserved {b : Bool} {x : Exchange} (sent : b = true ∨ 2 ≤ x.attempts) : (Entry.reserved b x).resetEnds =
    some { x with attempts := if b then x.attempts else x.attempts - 1 } := by
  cases b with
  | true => rfl
  | false =>
    obtain never | twice := sent
    · cases never
    · exact if_neg (by omega)

theorem afterReset_answered {x : Exchange} (live : (∃ c, e = .awaiting x c) ∨ (∃ n, e = .deferred x n) ∨
    ∃ n p c, e = .receiving x n p c) : ∃ y d, e.afterReset = .done y d ∧ d.outcome = .trunkReset := by
  have ends : e.resetEnds = some x := by
    obtain ⟨c, rfl⟩ | ⟨n, rfl⟩ | ⟨n, p, c, rfl⟩ := live <;> rfl
  exact ⟨_, _, afterReset_ends ends, rfl⟩

end afterReset

/-- A Fenced record stands, any other starts again but for its attention and identity (R131). -/
theorem station_trunkReset_fields (r : Station) :
    r.trunkReset.attnPending = r.attnPending ∧ r.trunkReset.identity = r.identity ∧
    (r.presence = .fenced → r.trunkReset.presence = .fenced ∧ r.trunkReset.depth = r.depth ∧
      r.trunkReset.misses = r.misses ∧ r.trunkReset.probed = r.probed) ∧
    (r.presence ≠ .fenced → r.trunkReset.presence = .unknown ∧ r.trunkReset.depth = 1 ∧ r.trunkReset.misses = 0 ∧
      r.trunkReset.probed = false) := by
  unfold Station.trunkReset
  by_cases fenced : r.presence = .fenced
  · rw [if_pos fenced]
    exact ⟨rfl, rfl, fun _ => ⟨fenced, rfl, rfl, rfl⟩, fun other => absurd fenced other⟩
  · rw [if_neg fenced]
    exact ⟨rfl, rfl, fun same => absurd same fenced, fun _ => ⟨rfl, rfl, rfl, rfl⟩⟩

theorem station_stationsTrunkReset (s : State) (i : StationId) :
    s.stationsTrunkReset.station i = (s.station i).trunkReset := Vector.getElem_map ..

@[simp] theorem station_trunkReset_outstanding (r : Station) : r.trunkReset.outstanding = r.outstanding := by
  unfold Station.trunkReset
  split <;> rfl

/-! ## TRUNK RESET taken (R38) -/

/-- The port busy with TRUNK RESET, the line activity dropped and the mark begun, before the deliveries (R38). -/
def State.resetBegun (s : State) : State :=
  { s with
    port := { s.port with command := 0x0A, busy := true }
    trunk := { s.trunk with
      state := .resetting 0, quiet := 0, skip := false, phase := false, pendingSend := none, stuck := 0 } }

section taken
variable {s : State} (h : s.portFree)
include h

theorem trunkReset_refused (offline : s.trunk.state = .offline) :
    exec .trunkReset s = .next (s.commandDone 0x0A .refused 0) := by
  refine (writeCommand_free h 0x0A).trans (congrArg _ ?_)
  show State.commandTrunkReset _ = _
  unfold State.commandTrunkReset
  dsimp only [setPort_trunk]
  rw [offline]
  rfl

theorem trunkReset_delivers (running : s.trunk.state ≠ .offline) :
    exec .trunkReset s = .next s.resetBegun.trunkResetDelivered := by
  refine (writeCommand_free h 0x0A).trans (congrArg _ ?_)
  show State.commandTrunkReset _ = _
  unfold State.commandTrunkReset
  dsimp only [setPort_trunk]
  cases e : s.trunk.state with
  | offline => exact absurd e running
  | _ => rfl

end taken

/-! ## The deliveries by the Launcher's phase (R100, R101) -/

section delivered
variable {s : State}

theorem entriesTrunkReset_eq (apart : ∀ g x, (s.entry g).resetAnswers = some x → ∀ m, s.launcher.phase ≠ .launching x.slot m) :
    s.entriesTrunkReset = s.entriesReset (List.finRange 16) :=
  foldl_entryTrunkReset _ s (List.nodup_finRange 16) fun g _ => apart g

/-- With nothing in Launching the entries are reset, then the Launcher, then the records. -/
theorem trunkResetDelivered_entriesFirst (quiet : ∀ k m, s.launcher.phase ≠ .launching k m) : s.trunkResetDelivered =
    (s.entriesReset (List.finRange 16)).launcherTrunkReset.stationsTrunkReset := by
  unfold State.trunkResetDelivered
  rw [entriesTrunkReset_eq fun _ _ _ _ => quiet _ _]
  split
  · exact absurd ‹_› (quiet _ _)
  all_goals rfl

theorem trunkResetDelivered_exchange {g : Tag} {x : Exchange} (l : s.launcher.phase = .launching x.slot none)
    (answers : (s.entry g).resetAnswers = some x)
    (only : ∀ u y, (s.entry u).resetAnswers = some y → y.slot = x.slot → u = g) : s.trunkResetDelivered =
      ((((s.entriesReset ((List.finRange 16).filter fun u => u ≤ g)).launchEnded x.slot .trunkReset x.attempts).stoppedAt
        (s.slot x.slot).link).entriesReset ((List.finRange 16).filter fun u => g < u)).stationsTrunkReset := by
  have delivered : s.trunkResetDelivered = s.entriesTrunkReset.launcherTrunkReset.stationsTrunkReset := by
    unfold State.trunkResetDelivered
    rw [l]
  rw [delivered, entriesTrunkReset_launching s g x none l answers only]
  exact congrArg State.stationsTrunkReset (launcherTrunkReset_kept _ (.inl trivial))

theorem noticeReset_choices (s : State) (k : SlotId) (n c : Nat) :
    State.noticeReset { s with choices := c } k n = { s.noticeReset k n with choices := c } := by
  unfold State.noticeReset
  dsimp only
  split <;> rfl

/-- After its trunk reset a NOTICE is in Launching no more. -/
theorem noticeReset_phase (s : State) (k : SlotId) (n : Nat) (j : SlotId) (m : Option Nat) :
    (s.noticeReset k n).launcher.phase ≠ .launching j m := by
  unfold State.noticeReset
  dsimp only
  split <;> nofun

theorem launcherTrunkReset_notice {k : SlotId} {n : Nat} (l : s.launcher.phase = .launching k (some n)) :
    s.launcherTrunkReset = s.noticeReset k n := by
  rw [← noticeEnded_trunkReset]
  unfold State.launcherTrunkReset
  rw [l]

/-- A NOTICE in Launching is reset before the entries or after them (log 7). -/
theorem trunkResetDelivered_notice {k : SlotId} {n : Nat} (l : s.launcher.phase = .launching k (some n))
    (other : ∀ g x, (s.entry g).resetAnswers = some x → x.slot ≠ k) : s.trunkResetDelivered =
      { (if Config.secondFirst s.choices then (s.noticeReset k n).entriesReset (List.finRange 16)
          else (s.entriesReset (List.finRange 16)).noticeReset k n).stationsTrunkReset with choices := s.choices + 1 } := by
  have delivered : s.trunkResetDelivered =
      (if Config.secondFirst s.choices then s.nextChoice.launcherTrunkReset.entriesTrunkReset
        else s.nextChoice.entriesTrunkReset.launcherTrunkReset).stationsTrunkReset := by
    unfold State.trunkResetDelivered
    rw [l]
  have launching : s.nextChoice.launcher.phase = .launching k (some n) := l
  rw [delivered]
  by_cases first : Config.secondFirst s.choices = true
  · rw [if_pos first, if_pos first, launcherTrunkReset_notice launching,
      entriesTrunkReset_eq fun _ _ _ _ => noticeReset_phase _ _ _ _ _]
    rw [State.nextChoice, noticeReset_choices, entriesReset_choices]
    rfl
  · have apart : ∀ g x, (s.nextChoice.entry g).resetAnswers = some x →
        ∀ m, s.nextChoice.launcher.phase ≠ .launching x.slot m := fun g x answers m phase =>
      other g x answers (Phase.launching.inj (l.symm.trans phase)).1.symm
    have still : (s.nextChoice.entriesReset (List.finRange 16)).launcher.phase = .launching k (some n) := l
    rw [if_neg first, if_neg first, entriesTrunkReset_eq apart, launcherTrunkReset_notice still]
    rw [State.nextChoice, entriesReset_choices, noticeReset_choices]
    rfl

end delivered

/-- Settles O21: the frame and the tables by `SameRecords`, the whole state by the Launcher's phase. -/
theorem trunkResetTaken : Obligations.TrunkResetTaken := by
  refine ⟨fun s h offline => trunkReset_refused h offline, fun s h running => ?_, fun s h running => ?_⟩
  · have inner := Inner.trunkResetDelivered s.resetBegun
    have tables := SameRecords.trunkResetDelivered s.resetBegun
    have entry (g : Tag) : s.resetBegun.trunkResetDelivered.entry g = (s.entry g).afterReset := by
      have same : s.resetBegun.trunkResetDelivered.entry g = (s.resetBegun.entriesReset (List.finRange 16)).entry g :=
        congrArg (fun v : Vector Entry 16 => v[g]) tables.entries
      rw [same, entriesReset_entry, if_pos (List.mem_finRange g)]
      rfl
    have station (i : StationId) : s.resetBegun.trunkResetDelivered.station i =
        { s.station i with outstanding := (s.station i).outstanding - s.liveCount i }.trunkReset := by
      have same : s.resetBegun.trunkResetDelivered.station i =
          (s.resetBegun.entriesReset (List.finRange 16)).stationsTrunkReset.station i :=
        congrArg (fun v : Vector Station 14 => v[i]) tables.stations
      rw [same, station_stationsTrunkReset, entriesReset_station]
      rfl
    refine ⟨_, trunkReset_delivers h running, inner.port, tables.trunk, inner.config, inner.sel, tables.counters, inner.mask,
      fun g => ?_, fun i => ?_, fun agrees i => ?_⟩
    · rw [entry]
      refine ⟨afterReset_free, fun x d done => ?_, fun b x reserved sent => ?_, fun x => afterReset_answered⟩
      · rw [done]
        rfl
      · rw [reserved]
        exact ⟨_, _, afterReset_ends (resetEnds_reserved sent), rfl, rfl⟩
    · rw [station]
      exact station_trunkReset_fields _
    · rw [station, station_trunkReset_outstanding, (agrees i).1]
      exact Nat.sub_self _
  · intro begun records all ended
    have recorded (u : State) : u.stationsTrunkReset = records u := stationsTrunkReset_eq u
    have quietly (quiet : ∀ k m, s.launcher.phase ≠ .launching k m) :
        exec .trunkReset s = .next (records ended.launcherTrunkReset) := by
      rw [trunkReset_delivers h running, ← recorded]
      exact congrArg _ (trunkResetDelivered_entriesFirst (s := begun) quiet)
    refine ⟨fun kept => ?_, fun k phase => ?_, fun k w phase reason => ?_, fun k n phase => ?_,
      fun g x phase answers only => ?_, fun k n phase other => ?_⟩
    · rw [quietly, launcherTrunkReset_kept ended kept]
      rintro k m phase
      obtain stopped | ⟨j, r, waiting, _⟩ := kept
      · rw [phase] at stopped
        exact stopped
      · cases phase.symm.trans waiting
    · rw [quietly (fun j m c => nomatch phase.symm.trans c), launcherTrunkReset_busy ended k phase]
    · rw [quietly (fun j m c => nomatch phase.symm.trans c), launcherTrunkReset_waiting ended k w phase reason]
    · rw [quietly (fun j m c => nomatch phase.symm.trans c), launcherTrunkReset_contending ended k n phase]
    · intro first closed
      rw [trunkReset_delivers h running, ← recorded]
      exact congrArg _ (trunkResetDelivered_exchange (s := begun) phase answers only)
    · refine ⟨Config.secondFirst s.choices, ?_⟩
      rw [trunkReset_delivers h running, ← recorded]
      exact congrArg _ (trunkResetDelivered_notice (s := begun) phase other)

end Sys2Proof.Machine
end

section
/-! PROOFS. The bit time (log 2): no event of the line moves nRESET, the events of each of the controller's states, the stuck count and the completion
that follow them, and the step on an empty queue. -/

namespace Sys2Proof.Machine

open Sys2Proof

/-! ## No event of the line moves nRESET -/

namespace NresetKept

variable {s t : State}

/-- An event that may not exist keeps nRESET when its state does. -/
theorem getD {u : State} {o : Option State} (h : ∀ t, o = some t → t.nreset = s.nreset) (k : u.nreset = s.nreset) :
    (o.getD u).nreset = s.nreset := by
  cases o with
  | none => exact k
  | some t => exact h t rfl

/-! ### Receptions -/

theorem startBitSeen (h : s.startBitSeen = some t) : t.nreset = s.nreset := by
  unfold State.startBitSeen at h
  split at h
  · cases h; rfl
  · split at h <;> cases h <;> rfl
  · split at h <;> cases h
    rfl
  all_goals cases h

theorem handHeader (h : s.handHeader = some t) : t.nreset = s.nreset := by
  unfold State.handHeader at h
  split at h
  · split at h <;> cases h
    exact (Inner.headerHanded _ _ _).nreset
  all_goals cases h

theorem handPayload (h : s.handPayload = some t) : t.nreset = s.nreset := by
  unfold State.handPayload at h
  split at h
  · split at h <;> cases h
    exact (Inner.storePayload _ _ _ _ _).nreset
  all_goals cases h

theorem handDue (s : State) : s.handDue.nreset = s.nreset :=
  have header : (s.handHeader.getD s).nreset = s.nreset := getD (fun _ => handHeader) rfl
  getD (fun _ h => (handPayload h).trans header) header

theorem characterIn {v : Byte} {b : Bool} (h : s.characterIn v b = some t) : t.nreset = s.nreset := by
  unfold State.characterIn at h
  split at h
  · split at h <;> cases h
    exact handDue s
  all_goals cases h

theorem arbitrationGood (s : State) (h : Header) : (s.arbitrationGood h).nreset = s.nreset := by
  unfold State.arbitrationGood
  split
  · exact (Inner.recallGood s h).nreset
  · exact (Inner.attention s _ _).nreset
  all_goals exact (Inner.count s _).nreset

theorem routeGood (s : State) (o : Origin) (h : Header) : (s.routeGood o h).nreset = s.nreset := by
  unfold State.routeGood
  split
  · exact (Inner.answerFrameEnd s _ _).nreset
  · exact arbitrationGood s h
  · exact (Inner.count s _).nreset

theorem settledCount (s : State) (n : Counter) (q : Nat) : ((s.count n).settle q).nreset = s.nreset :=
  (Inner.count s n).nreset

theorem endReception (s : State) (r : Reception) (c : FrameClass) : (s.endReception r c).nreset = s.nreset := by
  have base : ((s.count c.counter).settle 0).nreset = s.nreset := settledCount s _ 0
  unfold State.endReception
  dsimp only
  split
  · split
    · exact ((routeGood _ _ _).trans (Inner.goodFrame _ _).nreset).trans base
    · exact base
  all_goals exact (Kept.routeBad _ r).nreset.trans base

/-- A reception ends with what was due handed on first. -/
theorem handedEnd (s : State) (r : Reception) (c : FrameClass) : (s.handDue.endReception r c).nreset = s.nreset :=
  (endReception _ r c).trans (handDue s)

theorem frameEnded (h : s.frameEnded = some t) : t.nreset = s.nreset := by
  unfold State.frameEnded at h
  split at h
  · split at h <;> cases h
    exact handedEnd s _ _
  · cases h

theorem gapExpired (h : s.gapExpired = some t) : t.nreset = s.nreset := by
  unfold State.gapExpired at h
  split at h
  · split at h <;> cases h
    exact handedEnd s _ _
  · cases h

theorem malformedEnded (h : s.malformedEnded = some t) : t.nreset = s.nreset := by
  unfold State.malformedEnded at h
  split at h
  · split at h <;> cases h
    exact handedEnd s _ _
  · cases h

/-! ### The line -/

theorem claim (h : s.claim = some t) : t.nreset = s.nreset := by
  unfold State.claim at h
  split at h <;> cases h
  rfl

theorem togglePhase (s : State) (c : Contention) : (s.togglePhase c).nreset = s.nreset := by
  unfold State.togglePhase
  split <;> rfl

theorem win (h : s.win = some t) : t.nreset = s.nreset := by
  unfold State.win at h
  split at h
  · rename_i c send _ _
    cases h
    exact ((Inner.entryOfSendWon _ send).nreset.trans (Inner.launcherWon _).nreset).trans (togglePhase s c)
  · cases h

theorem lose {cause : LossCause} (h : s.lose cause = some t) : t.nreset = s.nreset := by
  unfold State.lose at h
  split at h
  · split at h <;> cases h
    exact (Inner.count _ .arbitrationLosses).nreset.trans (togglePhase s _)
  all_goals cases h

theorem requestOut (h : s.requestOut = some t) : t.nreset = s.nreset := by
  unfold State.requestOut at h
  split at h
  · split at h <;> cases h
    exact (Inner.entrySent _ _).nreset.trans (Inner.count s _).nreset
  all_goals cases h

theorem noticeOut (h : s.noticeOut = some t) : t.nreset = s.nreset := by
  unfold State.noticeOut at h
  split at h
  · split at h <;> cases h
    exact (Inner.launcherNoticeSent _ _).nreset.trans (settledCount s _ 0)
  all_goals cases h

theorem frameCut (h : s.frameCut = some t) : t.nreset = s.nreset := by
  unfold State.frameCut at h
  split at h <;> cases h
  exact (Inner.ownerCut _ _).nreset.trans (settledCount s _ 0)

theorem answerWindowExpired {b : Bool} (h : s.answerWindowExpired b = some t) : t.nreset = s.nreset := by
  unfold State.answerWindowExpired at h
  split at h <;> cases h
  rename_i limit _ _
  refine Eq.trans ?_ (settledCount s .answerTimeouts limit)
  split
  · exact (Inner.answerExpired _ _).nreset.trans (Inner.missedAnswer _ _).nreset
  · exact (Inner.missedAnswer _ _).nreset.trans (Inner.answerExpired _ _).nreset

theorem replyStarts (h : s.replyStarts = some t) : t.nreset = s.nreset := by
  unfold State.replyStarts at h
  split at h <;> cases h
  rfl

theorem replyOut (h : s.replyOut = some t) : t.nreset = s.nreset := by
  unfold State.replyOut at h
  split at h <;> cases h
  exact settledCount s _ 0

theorem replyCut (h : s.replyCut = some t) : t.nreset = s.nreset := by
  unfold State.replyCut at h
  split at h <;> cases h
  exact settledCount s _ 0

theorem lineFallsIdle (h : s.lineFallsIdle = some t) : t.nreset = s.nreset := by
  unfold State.lineFallsIdle at h
  split at h <;> cases h
  rfl

theorem faultClears (h : s.faultClears = some t) : t.nreset = s.nreset := by
  unfold State.faultClears at h
  split at h <;> cases h
  rfl

theorem enterFault (s : State) : s.enterFault.nreset = s.nreset := (Inner.count _ .trunkFaults).nreset

theorem sticks (h : s.sticks = some t) : t.nreset = s.nreset := by
  unfold State.sticks at h
  split at h
  · split at h <;> cases h
    exact (enterFault _).trans (handedEnd s _ _)
  · cases h; exact enterFault s
  · cases h; rfl
  all_goals cases h

theorem markEnds (h : s.markEnds = some t) : t.nreset = s.nreset := by
  unfold State.markEnds at h
  split at h <;> cases h
  rfl

theorem trunkResetCompletes (h : s.trunkResetCompletes = some t) : t.nreset = s.nreset := by
  unfold State.trunkResetCompletes at h
  split at h <;> cases h
  rfl

/-! ### The bit time -/

theorem settlingBit (s : State) (b : Bool) : (s.settlingBit b).nreset = s.nreset := by
  unfold State.settlingBit
  split
  · exact getD (fun _ => startBitSeen) rfl
  · dsimp only
    split
    · exact getD (fun _ => lineFallsIdle) rfl
    · rfl

theorem faultBit (s : State) (b : Bool) : (s.faultBit b).nreset = s.nreset := by
  unfold State.faultBit
  split
  · rfl
  · dsimp only
    split
    · exact getD (fun _ => faultClears) rfl
    · rfl

theorem idleBit (s : State) (b : Bool) : (s.idleBit b).nreset = s.nreset := by
  unfold State.idleBit
  split <;> rfl

theorem arbitrationBit (s : State) (c : Contention) (b : Bool) : (s.arbitrationBit c b).nreset = s.nreset := by
  unfold State.arbitrationBit
  split
  · exact getD (fun _ => lose) rfl
  · split
    · exact getD (fun _ => lose) rfl
    · split
      · exact getD (fun _ => win) rfl
      · rfl

theorem transmitBit (s : State) (f : Outgoing) (p : Nat) (d b : Bool) : (s.transmitBit f p d b).nreset = s.nreset := by
  unfold State.transmitBit
  split
  · exact getD (fun _ => frameCut) rfl
  · split
    · rfl
    · split
      · exact getD (fun _ => requestOut) rfl
      · exact getD (fun _ => noticeOut) rfl

theorem answerBit (s : State) (g : Tag) (st : StationId) (limit n : Nat) (b : Bool) :
    (s.answerBit g st limit n b).nreset = s.nreset := by
  unfold State.answerBit
  split
  · exact getD (fun _ => startBitSeen) rfl
  · dsimp only
    split
    · exact getD (fun _ h => (answerWindowExpired h).trans rfl) rfl
    · rfl

theorem replyBit (s : State) (r : Reply) (p : ReplyProgress) (d b : Bool) : (s.replyBit r p d b).nreset = s.nreset := by
  unfold State.replyBit
  split
  · split
    · exact getD (fun _ => replyStarts) rfl
    · rfl
  · split
    · exact getD (fun _ => replyCut) rfl
    · split
      · rfl
      · exact getD (fun _ => replyOut) rfl

theorem markBit (s : State) (n : Nat) : (s.markBit n).nreset = s.nreset := by
  unfold State.markBit
  split
  · rfl
  · exact getD (fun _ => markEnds) rfl

theorem receptionSettled (s : State) (r : Reception) : (s.receptionSettled r).nreset = s.nreset := by
  unfold State.receptionSettled
  split
  · split
    · exact getD (fun _ => malformedEnded) rfl
    · rfl
  · split
    · exact getD (fun _ => frameEnded) rfl
    · rfl

theorem characterBitIn (s : State) (r : Reception) (n : Nat) (v : Byte) (b : Bool) :
    (s.characterBitIn r n v b).nreset = s.nreset := by
  unfold State.characterBitIn
  split
  · rfl
  · cases h : s.characterIn v (!b) with
    | none => rfl
    | some t =>
      have base : t.handDue.nreset = s.nreset := (handDue t).trans (characterIn h)
      simp only [Option.map_some]
      split
      · exact (receptionSettled _ _).trans base
      all_goals exact base

theorem gapBit (s : State) (r : Reception) (b : Bool) : (s.gapBit r b).nreset = s.nreset := by
  unfold State.gapBit
  split
  · exact getD (fun _ => startBitSeen) rfl
  · dsimp only
    split
    · exact getD (fun _ h => (gapExpired h).trans rfl) rfl
    · rfl

theorem receivingBit (s : State) (r : Reception) (b : Bool) : (s.receivingBit r b).nreset = s.nreset := by
  unfold State.receivingBit
  dsimp only
  split
  · rfl
  · split
    · exact receptionSettled (s.setReception _) _
    · split
      · exact characterBitIn (s.setReception _) _ _ _ _
      · exact gapBit (s.setReception _) _ _

theorem stateBit (s : State) (d b : Bool) : (s.stateBit d b).nreset = s.nreset := by
  unfold State.stateBit
  split
  · rfl
  · exact settlingBit s b
  · exact idleBit s b
  · exact arbitrationBit s _ b
  · exact transmitBit s _ _ d b
  · exact answerBit s _ _ _ _ b
  · exact receivingBit s _ b
  · exact replyBit s _ _ d b
  · exact markBit s _
  · exact faultBit s b

theorem stuckBit (s : State) (c b : Bool) : (s.stuckBit c b).nreset = s.nreset := by
  unfold State.stuckBit
  split
  · dsimp only
    split
    · exact getD (fun _ h => (sticks h).trans rfl) rfl
    · rfl
  · rfl

theorem lineEvents (s : State) (c d b : Bool) : (s.lineEvents c d b).nreset = s.nreset := by
  have base : ((s.stateBit d b).stuckBit c b).nreset = s.nreset := (stuckBit _ c b).trans (stateBit s d b)
  exact getD (fun _ h => (trunkResetCompletes h).trans base) base

theorem boundary (s : State) : s.boundary.nreset = s.nreset := getD (fun _ => claim) rfl

end NresetKept

/-! ## The rows on a state with nRESET high -/

theorem occurs_next {event : String} {effect : State → Option State} {s t : State} (h : occurs event effect s = .next t) :
    effect s = some t := by
  unfold occurs at h
  split at h
  · split at h <;> cases h
    assumption
  · cases h

theorem occurs_refused {event : String} {effect : State → Option State} {s : State} {e : Refusal} (high : s.nreset = true)
    (h : occurs event effect s = .refused e) : effect s = none := by
  unfold occurs at h
  rw [if_pos high] at h
  split at h
  · cases h
  · assumption

/-! ## What follows the state's own event: the stuck count (R40) and the TRUNK RESET due to complete (R39) -/

/-- A TRUNK RESET due to complete completed. -/
def State.resetCompleted (x : State) : State := if x.port.completionDue then x.commandDone x.port.command .ok 0 else x

theorem trunkResetCompletes_getD (x : State) : x.trunkResetCompletes.getD x = x.resetCompleted := by
  unfold State.trunkResetCompletes State.resetCompleted
  split <;> rfl

theorem resetCompleted_of_not_due {x : State} (h : x.port.completionDue = false) : x.resetCompleted = x := if_neg (by simp [h])

theorem resetCompleted_of_due {x : State} (h : x.port.completionDue = true) :
    x.resetCompleted = x.commandDone x.port.command .ok 0 := if_pos h

/-- The stuck count raised or reset, where the detector runs. -/
def State.stuckCounted (v : State) (counting level : Bool) : State :=
  if counting then
    { v with trunk := { v.trunk with stuck := if level then min (v.trunk.stuck + 1) 2048 else 0 } }
  else v

theorem stuckCounted_nreset (v : State) (counting level : Bool) : (v.stuckCounted counting level).nreset = v.nreset := by
  unfold State.stuckCounted
  split <;> rfl

theorem stuckAfter_eq (n : Nat) (level : Bool) : stuckAfter n level = if level then min (n + 1) 2048 else 0 := by
  unfold stuckAfter
  split
  · split <;> omega
  · rfl

theorem stuckBit_counting (v : State) (level : Bool) : v.stuckBit true level =
    if v.trunk.stuck < 2048 && (stuckAfter v.trunk.stuck level == 2048) then
      (v.stuckCounted true level).sticks.getD (v.stuckCounted true level)
    else v.stuckCounted true level := by
  have counted : v.stuckCounted true level = v.setTrunk { v.trunk with stuck := stuckAfter v.trunk.stuck level } := by
    rw [stuckAfter_eq]
    rfl
  rw [counted]
  rfl

/-- Short of the 2048th dominant bit time the count is all the detector does. -/
theorem stuckBit_of_short {v : State} {counting level : Bool}
    (short : counting = false ∨ level = false ∨ v.trunk.stuck ≠ 2047) :
    v.stuckBit counting level = v.stuckCounted counting level := by
  cases counting with
  | false => rfl
  | true =>
    rw [stuckBit_counting, if_neg]
    rw [stuckAfter_eq]
    cases level <;> simp at short ⊢
    omega

/-- At the 2048th dominant bit time the line is stuck, in a state where it can be. -/
theorem stuckBit_of_full {v : State} (full : v.trunk.stuck = 2047) :
    v.stuckBit true true = (v.stuckCounted true true).sticks.getD (v.stuckCounted true true) := by
  rw [stuckBit_counting, full]
  rfl

section bit

variable (u : State) (counting drives level : Bool)

/-- The state's own event of a bit time led to `v`: the stuck count and the completion follow it. -/
def BitGoes (v : State) : Prop :=
  (counting = false ∨ level = false ∨ v.trunk.stuck ≠ 2047 →
    u.lineEvents counting drives level = (v.stuckCounted counting level).resetCompleted) ∧
  (counting = true → level = true → v.nreset = true → v.trunk.stuck = 2047 →
    (∀ x, exec .stuckLine (v.stuckCounted counting level) = .next x → u.lineEvents counting drives level = x.resetCompleted) ∧
    (∀ e, exec .stuckLine (v.stuckCounted counting level) = .refused e →
      u.lineEvents counting drives level = (v.stuckCounted counting level).resetCompleted))

/-- The state's own event of a bit time is a row, on the state `t`. -/
def BitRow (event : Instr) (t : State) : Prop := ∀ v, exec event t = .next v → BitGoes u counting drives level v

variable {u counting drives level}

theorem bitGoes_of_stateBit {v : State} (h : u.stateBit drives level = v) : BitGoes u counting drives level v := by
  have events : u.lineEvents counting drives level = (v.stuckBit counting level).resetCompleted := by
    rw [← h, ← trunkResetCompletes_getD]
    rfl
  refine ⟨fun short => by rw [events, stuckBit_of_short short], ?_⟩
  rintro rfl rfl high full
  have counted : (v.stuckCounted true true).nreset = true := (stuckCounted_nreset v true true).trans high
  rw [events, stuckBit_of_full full]
  refine ⟨fun x h => ?_, fun e h => ?_⟩
  · have sticks : (v.stuckCounted true true).sticks = some x := occurs_next h
    rw [sticks]
    rfl
  · have stays : (v.stuckCounted true true).sticks = none := occurs_refused counted h
    rw [stays]
    rfl

theorem bitRow_of_occurs {i : Instr} {event : String} {effect : State → Option State} {t : State}
    (row : exec i t = occurs event effect t) (h : ∀ v, effect t = some v → u.stateBit drives level = v) :
    BitRow u counting drives level i t :=
  fun v e => bitGoes_of_stateBit (h v (occurs_next (row ▸ e)))

/-- A row whose effect the bit time takes, where the event exists. -/
theorem bitRow_of_getD {i : Instr} {event : String} {effect : State → Option State} {t w : State}
    (row : exec i t = occurs event effect t) (h : u.stateBit drives level = (effect t).getD w) :
    BitRow u counting drives level i t :=
  bitRow_of_occurs row fun v e => by rw [h, e]; rfl

/-! ## The bit time, state by state -/

theorem offline_bit (e : u.trunk.state = .offline) : BitGoes u counting drives level u :=
  bitGoes_of_stateBit (by unfold State.stateBit; rw [e])

theorem stateBit_settling (e : u.trunk.state = .settling) : u.stateBit drives level = u.settlingBit level := by
  unfold State.stateBit; rw [e]

theorem settlingBit_counts (q : u.trunk.quiet < 11) :
    u.settlingBit false = u.setTrunk { u.trunk with quiet := u.trunk.quiet + 1 } :=
  if_neg (show ¬ 12 ≤ u.trunk.quiet + 1 by omega)

theorem settlingBit_last (e : u.trunk.state = .settling) (q : 11 ≤ u.trunk.quiet) : u.settlingBit false = u.enterLineIdle :=
  (if_pos (show 12 ≤ u.trunk.quiet + 1 by omega)).trans <| by
    have idle : (u.setTrunk { u.trunk with quiet := u.trunk.quiet + 1 }).lineFallsIdle = some _ := if_pos e
    rw [idle]
    rfl

theorem settling_bit (e : u.trunk.state = .settling) :
    (level = true → BitRow u counting drives level .startBit u) ∧
    (level = false → u.trunk.quiet < 11 →
      BitGoes u counting drives level { u with trunk := { u.trunk with quiet := u.trunk.quiet + 1 } }) ∧
    (level = false → 11 ≤ u.trunk.quiet → BitRow u counting drives level .lineIdle u) := by
  have bit := stateBit_settling (drives := drives) (level := level) e
  refine ⟨fun l => bitRow_of_getD (w := u) rfl ?_, fun l q => bitGoes_of_stateBit ?_, fun l q => bitRow_of_occurs rfl fun v h => ?_⟩
  all_goals rw [bit, l]
  · rfl
  · exact settlingBit_counts q
  · rw [settlingBit_last e q]
    exact Option.some.inj ((if_pos e).symm.trans h)

theorem stateBit_fault (e : u.trunk.state = .fault) : u.stateBit drives level = u.faultBit level := by
  unfold State.stateBit; rw [e]

theorem faultBit_counts (q : u.trunk.quiet < 11) :
    u.faultBit false = u.setTrunk { u.trunk with quiet := u.trunk.quiet + 1 } :=
  if_neg (show ¬ 12 ≤ u.trunk.quiet + 1 by omega)

theorem faultBit_last (e : u.trunk.state = .fault) (q : 11 ≤ u.trunk.quiet) :
    u.faultBit false = (u.setTrunk { u.trunk with stuck := 0 }).enterLineIdle :=
  (if_pos (show 12 ≤ u.trunk.quiet + 1 by omega)).trans <| by
    have clears : (u.setTrunk { u.trunk with quiet := u.trunk.quiet + 1 }).faultClears = some _ := if_pos e
    rw [clears]
    rfl

theorem fault_bit (e : u.trunk.state = .fault) :
    (level = true → BitGoes u counting drives level { u with trunk := { u.trunk with quiet := 0 } }) ∧
    (level = false → u.trunk.quiet < 11 →
      BitGoes u counting drives level { u with trunk := { u.trunk with quiet := u.trunk.quiet + 1 } }) ∧
    (level = false → 11 ≤ u.trunk.quiet → BitRow u counting drives level .faultClear u) := by
  have bit := stateBit_fault (drives := drives) (level := level) e
  refine ⟨fun l => bitGoes_of_stateBit ?_, fun l q => bitGoes_of_stateBit ?_, fun l q => bitRow_of_occurs rfl fun v h => ?_⟩
  all_goals rw [bit, l]
  · rfl
  · exact faultBit_counts q
  · rw [faultBit_last e q]
    exact Option.some.inj ((if_pos e).symm.trans h)

theorem idle_bit (e : u.trunk.state = .idle) :
    (level = false → BitGoes u counting drives level u) ∧
    (level = true → BitGoes u counting drives level
      (u.setTrunkState (.receiving (newReception .arbitration u.config.gapTime 5 none)))) := by
  have bit : u.stateBit drives level = u.idleBit level := by unfold State.stateBit; rw [e]
  refine ⟨fun l => bitGoes_of_stateBit ?_, fun l => bitGoes_of_stateBit ?_⟩
  all_goals rw [bit, l]; rfl

theorem arbitrating_bit {c : Contention} (high : u.nreset = true) (e : u.trunk.state = .arbitrating c) (driven : u.drives = drives) :
    (drives = true → level = false → BitRow u counting drives level (.contentionLost .readBackFault) u) ∧
    (drives = false → level = true → BitRow u counting drives level (.contentionLost .releasedBitDominant) u) ∧
    (drives = level → c.bit < 5 → BitGoes u counting drives level (u.setTrunkState (.arbitrating { c with bit := c.bit + 1 }))) ∧
    (drives = level → 5 ≤ c.bit → BitRow u counting drives level .contentionWon u) := by
  have bit : u.stateBit drives level = u.arbitrationBit c level := by unfold State.stateBit; rw [e]
  have own : c.drives = drives := (drives_arbitrating high e).symm.trans driven
  have row : ∀ cause, u.stateBit drives level = (u.lose cause).getD u →
      BitRow u counting drives level (.contentionLost cause) u :=
    fun cause => bitRow_of_getD (event := "CONTENTION_LOST") (effect := (·.lose cause)) rfl
  refine ⟨fun d l => row _ ?_, fun d l => row _ ?_,
    fun d n => bitGoes_of_stateBit ?_, fun d n => bitRow_of_getD (w := u) rfl ?_⟩
  all_goals rw [bit]; unfold State.arbitrationBit; rw [own]
  · rw [d, l]; rfl
  · rw [d, l]; rfl
  · subst d
    rw [if_neg (by simp), if_neg (by simp), if_neg (by omega)]
  · subst d
    rw [if_neg (by simp), if_neg (by simp), if_pos n]

theorem transmitting_bit {f : Outgoing} {p : Nat} (e : u.trunk.state = .transmitting f p) :
    (drives ≠ level → BitRow u counting drives level .collision u) ∧
    (drives = level → p + 1 < 10 * (7 + f.length) → BitGoes u counting drives level (u.setTrunkState (.transmitting f (p + 1)))) ∧
    (drives = level → 10 * (7 + f.length) ≤ p + 1 →
      BitRow u counting drives level .requestSent u ∧ BitRow u counting drives level .noticeSent u) := by
  have bit : u.stateBit drives level = u.transmitBit f p drives level := by unfold State.stateBit; rw [e]
  refine ⟨fun d => bitRow_of_getD (w := u) rfl ?_, fun d n => bitGoes_of_stateBit ?_,
    fun d n => ⟨bitRow_of_occurs rfl fun v h => ?_, bitRow_of_occurs rfl fun v h => ?_⟩⟩
  all_goals rw [bit]; unfold State.transmitBit
  · rw [if_pos (by simpa using d)]
  · rw [if_neg (by simpa using d), if_pos n]
  all_goals rw [if_neg (by simpa using d), if_neg (by omega)]
  · cases send : f.send with
    | request k g st => dsimp only; rw [h]; rfl
    | notice k =>
      simp only [State.requestOut, e, send] at h
      cases h
  · cases send : f.send with
    | notice k => dsimp only; rw [h]; rfl
    | request k g st =>
      simp only [State.noticeOut, e, send] at h
      cases h

theorem answerWait_bit {g : Tag} {st : StationId} {limit n : Nat} (e : u.trunk.state = .answerWait g st limit n) :
    (level = true → BitRow u counting drives level .startBit u) ∧
    (level = false → n + 1 < limit → BitGoes u counting drives level (u.setTrunkState (.answerWait g st limit (n + 1)))) ∧
    (level = false → limit ≤ n + 1 →
      BitRow u counting drives level (.answerTimerExpiry (Config.secondFirst u.choices)) u.nextChoice) := by
  have bit : u.stateBit drives level = u.answerBit g st limit n level := by unfold State.stateBit; rw [e]
  refine ⟨fun l => bitRow_of_getD (w := u) rfl ?_, fun l q => bitGoes_of_stateBit ?_, fun l q =>
    bitRow_of_occurs (effect := (·.answerWindowExpired (Config.secondFirst u.choices))) rfl fun v h => ?_⟩
  all_goals rw [bit, l]
  · rfl
  · exact if_neg (Nat.not_le.mpr q)
  · have counted : (u.setTrunkState (.answerWait g st limit (n + 1))).nextChoice.answerWindowExpired
        (Config.secondFirst u.choices) = some v := by
      rw [← h]
      unfold State.answerWindowExpired
      rw [show u.nextChoice.trunk.state = _ from e]
      rfl
    refine (if_pos q).trans ?_
    exact congrArg (fun o : Option State => o.getD _) counted

theorem replyWindow_bit {x : Reply} {n : Nat} (e : u.trunk.state = .replying x (.window n)) :
    (n = 0 → BitGoes u counting drives level (u.setTrunkState (.replying x (.window 1)))) ∧
    (1 ≤ n → BitRow u counting drives level .replyWindow u) := by
  have bit : u.stateBit drives level = u.replyBit x (.window n) drives level := by unfold State.stateBit; rw [e]
  refine ⟨fun z => bitGoes_of_stateBit ?_, fun q => bitRow_of_getD (w := u) rfl ?_⟩
  · rw [bit, z]
    rfl
  · rw [bit]
    exact if_pos (Nat.succ_le_succ q)

theorem replySending_bit {x : Reply} {p : Nat} (e : u.trunk.state = .replying x (.sending p)) :
    (drives ≠ level → BitRow u counting drives level .replyCollision u) ∧
    (drives = level → p + 1 < 70 → BitGoes u counting drives level (u.setTrunkState (.replying x (.sending (p + 1))))) ∧
    (drives = level → 70 ≤ p + 1 → BitRow u counting drives level .replySent u) := by
  have bit : u.stateBit drives level = u.replyBit x (.sending p) drives level := by unfold State.stateBit; rw [e]
  refine ⟨fun d => bitRow_of_getD (w := u) rfl ?_, fun d q => bitGoes_of_stateBit ?_, fun d q => bitRow_of_getD (w := u) rfl ?_⟩
  all_goals rw [bit]; unfold State.replyBit; dsimp only
  · rw [if_pos (by simpa using d)]
  · rw [if_neg (by simpa using d), if_pos q]
  · rw [if_neg (by simpa using d), if_neg (by omega)]

theorem resetting_bit {n : Nat} (e : u.trunk.state = .resetting n) :
    (n < 63 → BitGoes u counting drives level (u.setTrunkState (.resetting (n + 1)))) ∧
    (63 ≤ n → BitRow u counting drives level .markEnd u) := by
  have bit : u.stateBit drives level = u.markBit n := by unfold State.stateBit; rw [e]
  refine ⟨fun q => bitGoes_of_stateBit ?_, fun q => bitRow_of_getD (w := u) rfl ?_⟩
  all_goals rw [bit]; unfold State.markBit
  · rw [if_pos (by omega)]
  · rw [if_neg (by omega)]

end bit

/-! ## Receiving (R31 to R34) -/

/-- The recessive run counted over one more bit time (R32). -/
def Reception.runCounted (r : Reception) (level : Bool) : Reception := { r with run := if level then 0 else r.run + 1 }

section settled

variable {t : State} {x : Reception}

theorem receptionSettled_short (m : x.malformed = true) (q : x.run ≤ x.gapLimit) : t.receptionSettled x = t := by
  unfold State.receptionSettled
  rw [if_pos m, if_neg (by omega)]

theorem receptionSettled_long (m : x.malformed = true) (q : x.gapLimit < x.run) :
    t.receptionSettled x = t.malformedEnded.getD t := by
  unfold State.receptionSettled
  rw [if_pos m, if_pos (Nat.succ_le_of_lt q)]

theorem receptionSettled_complete (m : x.malformed = false) (c : x.complete = true) :
    t.receptionSettled x = t.frameEnded.getD t := by
  unfold State.receptionSettled
  rw [if_neg (by simp [m]), if_pos c]

theorem receptionSettled_open (m : x.malformed = false) (c : x.complete = false) : t.receptionSettled x = t := by
  unfold State.receptionSettled
  rw [if_neg (by simp [m]), if_neg (by simp [c])]

/-- PAYLOAD_BYTE, where it exists. -/
def State.payloadRow (t : State) : State := match exec .payloadByte t with
  | .next v => v
  | .fault _ => t
  | .refused _ => t

/-- HEADER and then PAYLOAD_BYTE, each where it exists. -/
def State.dueRows (t : State) : State := match exec .header t with
  | .next v => v.payloadRow
  | .fault _ => t.payloadRow
  | .refused _ => t.payloadRow

theorem payloadRow_eq (high : t.nreset = true) : t.payloadRow = t.handPayload.getD t := by
  unfold State.payloadRow
  have row : exec .payloadByte t = _ := if_pos high
  rw [row]
  cases t.handPayload <;> rfl

/-- What is due is handed on by the two rows, in their order (R34). -/
theorem dueRows_eq (high : t.nreset = true) : t.dueRows = t.handDue := by
  have kept : (t.handHeader.getD t).nreset = true := (NresetKept.getD (fun _ => NresetKept.handHeader) rfl).trans high
  have rows : t.dueRows = (t.handHeader.getD t).payloadRow := by
    unfold State.dueRows
    have row : exec .header t = _ := if_pos high
    rw [row]
    cases t.handHeader <;> rfl
  exact rows.trans (payloadRow_eq kept)

/-- At a stop bit the character is taken, what it makes due is handed on, and the reception may end. -/
theorem characterBitIn_stop {s : State} {r : Reception} {n : Nat} {v : Byte} {level : Bool} (stop : 8 ≤ n)
    (taken : s.characterIn v (!level) = some t) (e : t.handDue.trunk.state = .receiving x) :
    s.characterBitIn r n v level = t.handDue.receptionSettled x := by
  unfold State.characterBitIn
  rw [if_neg (by omega), taken]
  simp only [Option.map_some, e]

end settled

section receiving

variable {u : State} {counting drives level : Bool} {r : Reception}

/-- With the arbitration over, a malformed reception waits for its run, and any other takes its character or its gap. -/
theorem receivingBit_after (left : r.arbitrationLeft = 0) : u.receivingBit r level =
    if r.malformed then (u.setReception (r.runCounted level)).receptionSettled (r.runCounted level)
    else match r.char with
      | some (n, v) => (u.setReception (r.runCounted level)).characterBitIn (r.runCounted level) n v level
      | none => (u.setReception (r.runCounted level)).gapBit (r.runCounted level) level :=
  if_neg (by simp [left])

variable (e : u.trunk.state = .receiving r)

include e

theorem stateBit_receiving : u.stateBit drives level = u.receivingBit r level := by unfold State.stateBit; rw [e]

theorem receiving_arbitration_bit (left : 0 < r.arbitrationLeft) :
    BitGoes u counting drives level
      (u.setReception { r.runCounted level with arbitrationLeft := r.arbitrationLeft - 1 }) :=
  bitGoes_of_stateBit ((stateBit_receiving e).trans (if_pos left))

theorem stateBit_malformed (left : r.arbitrationLeft = 0) (m : r.malformed = true) :
    u.stateBit drives level = (u.setReception (r.runCounted level)).receptionSettled (r.runCounted level) :=
  (stateBit_receiving e).trans ((receivingBit_after left).trans (if_pos m))

theorem receiving_malformed_bit (left : r.arbitrationLeft = 0) (m : r.malformed = true) :
    ((r.runCounted level).run ≤ r.gapLimit → BitGoes u counting drives level (u.setReception (r.runCounted level))) ∧
    (r.gapLimit < (r.runCounted level).run →
      BitRow u counting drives level .malformedRunEnd (u.setReception (r.runCounted level))) :=
  ⟨fun q => bitGoes_of_stateBit ((stateBit_malformed e left m).trans (receptionSettled_short m q)),
    fun q => bitRow_of_getD rfl ((stateBit_malformed e left m).trans (receptionSettled_long m q))⟩

theorem receiving_gap_bit (left : r.arbitrationLeft = 0) (sound : r.malformed = false) (between : r.char = none) :
    (level = true → BitRow u counting drives level .startBit (u.setReception (r.runCounted level))) ∧
    (level = false → r.gap < r.gapLimit →
      BitGoes u counting drives level (u.setReception { r.runCounted level with gap := r.gap + 1 })) ∧
    (level = false → r.gapLimit ≤ r.gap →
      BitRow u counting drives level .gapTimerExpiry (u.setReception { r.runCounted level with gap := r.gap + 1 })) := by
  have bit : u.stateBit drives level = (u.setReception (r.runCounted level)).gapBit (r.runCounted level) level := by
    rw [stateBit_receiving e, receivingBit_after left, if_neg (by simp [sound]), between]
  have released (l : level = false) := bit.trans (if_neg (by simp [l]))
  exact ⟨fun l => bitRow_of_getD rfl (bit.trans (if_pos l)),
    fun l q => bitGoes_of_stateBit ((released l).trans (if_neg (Nat.not_le.mpr (Nat.succ_lt_succ q)))),
    fun l q => bitRow_of_getD rfl ((released l).trans (if_pos (Nat.succ_le_succ q)))⟩

theorem stateBit_character {n : Nat} {v : Byte} (left : r.arbitrationLeft = 0) (sound : r.malformed = false)
    (inside : r.char = some (n, v)) :
    u.stateBit drives level = (u.setReception (r.runCounted level)).characterBitIn (r.runCounted level) n v level := by
  rw [stateBit_receiving e, receivingBit_after left, if_neg (by simp [sound]), inside]

theorem receiving_data_bit {n : Nat} {v : Byte} (left : r.arbitrationLeft = 0) (sound : r.malformed = false)
    (inside : r.char = some (n, v)) (data : n < 8) :
    BitGoes u counting drives level (u.setReception
      { r.runCounted level with char := some (n + 1, if level then v else v ||| ((1 : Byte) <<< n)) }) :=
  bitGoes_of_stateBit ((stateBit_character e left sound inside).trans (if_pos data))

theorem receiving_stop_bit {n : Nat} {v : Byte} {t : State} {x : Reception} (high : u.nreset = true)
    (left : r.arbitrationLeft = 0) (sound : r.malformed = false) (inside : r.char = some (n, v)) (stop : 8 ≤ n)
    (row : exec (.characterReceived v (!level)) (u.setReception (r.runCounted level)) = .next t)
    (stands : t.dueRows.trunk.state = .receiving x) :
    (x.malformed = true → x.run ≤ x.gapLimit → BitGoes u counting drives level t.dueRows) ∧
    (x.malformed = true → x.gapLimit < x.run → BitRow u counting drives level .malformedRunEnd t.dueRows) ∧
    (x.malformed = false → x.complete = true → BitRow u counting drives level .frameEnd t.dueRows) ∧
    (x.malformed = false → x.complete = false → BitGoes u counting drives level t.dueRows) := by
  have taken : (u.setReception (r.runCounted level)).characterIn v (!level) = some t :=
    occurs_next (event := "CHARACTER_RECEIVED") (effect := (·.characterIn v (!level))) row
  rw [dueRows_eq ((NresetKept.characterIn taken).trans high)] at stands ⊢
  have bit : u.stateBit drives level = t.handDue.receptionSettled x :=
    (stateBit_character e left sound inside).trans (characterBitIn_stop stop taken stands)
  exact ⟨fun m q => bitGoes_of_stateBit (bit.trans (receptionSettled_short m q)),
    fun m q => bitRow_of_getD rfl (bit.trans (receptionSettled_long m q)),
    fun m c => bitRow_of_getD rfl (bit.trans (receptionSettled_complete m c)),
    fun m c => bitGoes_of_stateBit (bit.trans (receptionSettled_open m c))⟩

end receiving

/-! ## The step on an empty queue (R24, R42) -/

section boundary

variable (s : State)

/-- At the boundary of a bit time the state stands, or a contention begins. -/
theorem boundary_cases : s.boundary = s ∨ ∃ c, s.boundary = s.setTrunkState (.arbitrating c) := by
  unfold State.boundary State.claim
  split
  · exact .inr ⟨_, rfl⟩
  · exact .inl rfl

theorem boundary_lineIn : s.boundary.lineIn = s.lineIn := by
  obtain h | ⟨c, h⟩ := boundary_cases s
  · rw [h]
  · rw [h]; rfl

theorem boundary_heartbeat : s.boundary.trunk.heartbeat = s.trunk.heartbeat := by
  obtain h | ⟨c, h⟩ := boundary_cases s
  · rw [h]
  · rw [h]; rfl

theorem boundary_choices : s.boundary.choices = s.choices := by
  obtain h | ⟨c, h⟩ := boundary_cases s
  · rw [h]
  · rw [h]; rfl

/-- The claim reads neither the heartbeat nor the choices. -/
theorem boundary_beat : s.beat.boundary = s.boundary.beat := by
  have claim : s.beat.claim = s.claim.map State.beat := by
    unfold State.claim
    simp only [State.beat, setTrunk_trunk]
    split <;> rfl
  unfold State.boundary
  rw [claim]
  cases s.claim <;> rfl

theorem boundary_nextChoice : s.nextChoice.boundary = s.boundary.nextChoice := by
  have claim : s.nextChoice.claim = s.claim.map State.nextChoice := by
    unfold State.claim
    simp only [nextChoice_trunk]
    split <;> rfl
  unfold State.boundary
  rw [claim]
  cases s.claim <;> rfl

theorem boundary_of_not_idle {s : State} (h : s.trunk.state ≠ .idle) : s.boundary = s := by
  unfold State.boundary State.claim
  split
  · contradiction
  · rfl

/-- What CLAIM_BIT leaves is the boundary, and where it is refused the boundary is the state itself. -/
theorem boundary_of_claimBit {s b : State} (high : s.nreset = true)
    (h : exec .claimBit s = .next b ∨ ((∀ c, exec .claimBit s ≠ .next c) ∧ b = s)) : b = s.boundary := by
  have row : exec .claimBit s = _ := if_pos high
  unfold State.boundary
  cases claim : s.claim with
  | some c =>
    rw [claim] at row
    obtain next | ⟨refused, -⟩ := h
    · cases row.symm.trans next
      rfl
    · exact absurd row (refused c)
  | none =>
    rw [claim] at row
    obtain next | ⟨-, same⟩ := h
    · cases row.symm.trans next
    · exact same

theorem lineBitWith_of_boundary {w b : State} (f : State → State) (h : w.boundary = b) :
    w.lineBitWith f = (f b.dropInput).lineEvents b.trunk.state.countsStuck b.drives (levelOf b.drives b.nextInput) := by
  subst h
  rfl

end boundary

theorem step_beat {s : State} (empty : s.pending = []) (high : s.nreset = true) (free : s.softResetting = false)
    (h : s.trunk.heartbeat < 4095) : step s = .next s.beat.lineBit := by
  unfold step State.bitTime
  rw [empty]
  simp [high, free, Nat.not_le.mpr h]

theorem step_tickBit {s : State} (empty : s.pending = []) (high : s.nreset = true) (free : s.softResetting = false)
    (h : s.trunk.heartbeat = 4095) : step s = .next s.tickBit := by
  unfold step State.bitTime
  rw [empty]
  simp [high, free, h]

/-- The events of the bit time whose boundary left `b`, on the state `u`; the level and the stuck detector are those of `b`. -/
def State.boundaryEvents (b u : State) : State :=
  u.lineEvents b.trunk.state.countsStuck b.drives (levelOf b.drives b.nextInput)

theorem lineBit_beat (s : State) : s.beat.lineBit = s.boundary.boundaryEvents { s.boundary with
    lineIn := s.lineIn.tail, trunk := { s.boundary.trunk with heartbeat := s.trunk.heartbeat + 1 } } := by
  rw [← boundary_lineIn s, ← boundary_heartbeat s]
  exact lineBitWith_of_boundary id (boundary_beat s)

theorem nextChoice_thrice (s : State) : s.nextChoice.nextChoice.nextChoice = { s with choices := s.choices + 3 } := rfl

/-- A count of choices moves neither the level the part drives nor what the bit time reads. -/
theorem drives_choices (s : State) (n : Nat) : ({ s with choices := n } : State).drives = s.drives := rfl

/-- A tick in a bit time has the same claim and level, whichever order it takes. -/
theorem lineBitWith_choices (s : State) (f : State → State) :
    s.nextChoice.nextChoice.nextChoice.lineBitWith f = s.boundary.boundaryEvents
      (f { s.boundary with lineIn := s.lineIn.tail, choices := s.choices + 3 }) := by
  have b : s.nextChoice.nextChoice.nextChoice.boundary = { s.boundary with choices := s.boundary.choices + 3 } := by
    rw [boundary_nextChoice, boundary_nextChoice, boundary_nextChoice, nextChoice_thrice]
  rw [lineBitWith_of_boundary f b, drives_choices, ← boundary_lineIn s, ← boundary_choices s]
  rfl

theorem step_tick {s : State} (empty : s.pending = []) (high : s.nreset = true) (free : s.softResetting = false)
    (h : s.trunk.heartbeat = 4095) : ∃ o : TickOrder,
    let begun := { s.boundary with lineIn := s.lineIn.tail, choices := s.choices + 3 }
    step s = exec (.tick o) (s.boundary.boundaryEvents begun) ∨
      ∃ t, exec (.tick o) begun = .next t ∧ step s = .next (s.boundary.boundaryEvents t) := by
  refine ⟨⟨Config.secondFirst (s.choices + 1), Config.secondFirst (s.choices + 2)⟩, ?_⟩
  intro begun
  have begunHigh : begun.nreset = true := (NresetKept.boundary s).trans high
  rw [step_tickBit empty high free h]
  unfold State.tickBit
  dsimp only
  cases Config.secondFirst s.choices with
  | true =>
    refine .inr ⟨_, tick_occurs begunHigh _, ?_⟩
    rw [if_pos rfl, lineBitWith_choices]
  | false =>
    have eventsHigh : (s.boundary.boundaryEvents begun).nreset = true := (NresetKept.lineEvents begun _ _ _).trans begunHigh
    left
    rw [if_neg Bool.false_ne_true]
    unfold State.lineBit
    rw [lineBitWith_choices]
    exact (tick_occurs eventsHigh _).symm

/-! ## The bit times in which the pair stays released and nothing is due -/

section quietPair

variable {s v : State}

theorem beat_drives (s : State) : s.beat.drives = s.drives := rfl

theorem drives_settling (e : s.trunk.state = .settling) : s.drives = false := by
  unfold State.drives
  rw [e]
  exact Bool.and_false _

theorem lineIdle_goes {u : State} {counting drives : Bool} (high : u.nreset = true) (e : u.trunk.state = .settling)
    (q : 11 ≤ u.trunk.quiet) : BitGoes u counting drives false u.enterLineIdle :=
  (settling_bit e).2.2 rfl q _ (occurs_some high (if_pos e))

theorem markEnd_goes {u : State} {n : Nat} {counting drives level : Bool} (high : u.nreset = true)
    (e : u.trunk.state = .resetting n) (last : 63 ≤ n) : BitGoes u counting drives level (u.settle 0) :=
  (resetting_bit e).2 last _ (occurs_some high (markEnds_resetting e))

/-- Without a TRUNK RESET in progress Idle is entered with nothing due to complete. -/
theorem enterLineIdle_of_no_reset (r : s.trunkResetting = false) :
    s.beat.enterLineIdle = s.beat.setTrunk { s.beat.trunk with state := .idle, quiet := 0, skip := false } := by
  have port : { s.port with completionDue := s.port.completionDue || s.trunkResetting } = s.port := by rw [r, Bool.or_false]
  exact congrArg (s.beat.setTrunk { s.beat.trunk with state := .idle, quiet := 0, skip := false }).setPort port

/-- A TRUNK RESET in progress completes at the Idle entered (R39). -/
theorem enterLineIdle_completes (r : s.trunkResetting = true) :
    (s.beat.enterLineIdle.setTrunk { s.beat.enterLineIdle.trunk with stuck := 0 }).resetCompleted =
      State.commandDone { s with trunk := { s.trunk with
        state := .idle, quiet := 0, skip := false, stuck := 0, heartbeat := s.trunk.heartbeat + 1 } } 0x0A .ok 0 := by
  have due : (s.port.completionDue || s.trunkResetting) = true := by rw [r, Bool.or_true]
  have code : s.port.command = 0x0A := eq_of_beq (Bool.and_eq_true_iff.mp r).2
  rw [← code]
  exact resetCompleted_of_due due

variable (empty : s.pending = []) (high : s.nreset = true) (free : s.softResetting = false) (input : s.lineIn = [])
  (beats : s.trunk.heartbeat < 4095)

include empty high free input beats

/-- With nothing on the pair but what the part drives, the step is the line's events on the state itself. -/
theorem step_quiet (away : s.trunk.state ≠ .idle) :
    step s = .next (s.beat.lineEvents s.trunk.state.countsStuck s.drives s.drives) := by
  have input' : s.beat.lineIn = [] := input
  have away' : s.beat.boundary = s.beat := boundary_of_not_idle away
  rw [step_beat empty high free beats, State.lineBit, lineBitWith_of_boundary id away', id, dropInput_nil input',
    nextInput_nil input', beat_drives]
  rfl

/-- While the pair stays as the part drives it and the detector has nothing to raise, the state's own event is the whole step, but for
the count and the completion that follow it. -/
theorem step_quiet_of_goes (away : s.trunk.state ≠ .idle)
    (short : s.trunk.state.countsStuck = false ∨ s.drives = false)
    (goes : BitGoes s.beat s.trunk.state.countsStuck s.drives s.drives v) :
    step s = .next (v.stuckCounted s.trunk.state.countsStuck s.drives).resetCompleted := by
  rw [step_quiet empty high free input beats away, goes.1 (short.imp_right .inl)]

theorem step_offline (e : s.trunk.state = .offline) (goes : BitGoes s.beat false s.drives s.drives v) :
    step s = .next v.resetCompleted := by
  rw [step_quiet_of_goes (v := v) empty high free input beats (by simp [e]) (.inl (by rw [e]; rfl)) (by rw [e]; exact goes), e]
  rfl

theorem step_settling (e : s.trunk.state = .settling) (goes : BitGoes s.beat true false false v) :
    step s = .next (v.setTrunk { v.trunk with stuck := 0 }).resetCompleted := by
  have released := drives_settling e
  rw [step_quiet_of_goes (v := v) empty high free input beats (by simp [e]) (.inr released)
    (by rw [released, e]; exact goes), released, e]
  rfl

theorem step_resetting {n : Nat} (e : s.trunk.state = .resetting n) (goes : BitGoes s.beat false s.drives s.drives v) :
    step s = .next v.resetCompleted := by
  rw [step_quiet_of_goes (v := v) empty high free input beats (by simp [e]) (.inl (by rw [e]; rfl)) (by rw [e]; exact goes), e]
  rfl

end quietPair

/-- Settles O2. The step on an empty queue is the boundary's claim, the level and its events (`lineBit_beat`, `step_tick`); the events are
those of the state (one lemma each), then the stuck count and the completion (`BitGoes`). -/
theorem emptyQueueStepIsABitTime : Obligations.EmptyQueueStepIsABitTime := by
  unfold Obligations.EmptyQueueStepIsABitTime
  refine ⟨?_, ?_, ?_⟩
  · intro s empty high free due input beats
    have settling := fun v => step_settling (v := v) empty high free input beats
    have resetting := fun v n => step_resetting (v := v) (n := n) empty high free input beats
    refine ⟨fun e => ?_, fun e q => ?_, fun e q r => ?_, fun e q r => ?_, fun n e q => ?_, fun e => ?_⟩
    · rw [step_offline empty high free input beats e (offline_bit (u := s.beat) e)]
      exact congrArg _ (resetCompleted_of_not_due due)
    · rw [settling _ e ((settling_bit (u := s.beat) e).2.1 rfl q)]
      exact congrArg _ (resetCompleted_of_not_due due)
    · rw [settling _ e (lineIdle_goes (u := s.beat) high e (Nat.le_of_eq q.symm)), enterLineIdle_of_no_reset r]
      exact congrArg _ (resetCompleted_of_not_due due)
    · rw [settling _ e (lineIdle_goes (u := s.beat) high e (Nat.le_of_eq q.symm))]
      exact congrArg _ (enterLineIdle_completes r)
    · rw [resetting _ n e ((resetting_bit (u := s.beat) e).1 q)]
      exact congrArg _ (resetCompleted_of_not_due due)
    · rw [resetting _ 63 e (markEnd_goes (u := s.beat) high e (Nat.le_refl 63))]
      exact congrArg _ (resetCompleted_of_not_due due)
  · intro s b empty high free claimed level counting bit
    obtain rfl := boundary_of_claimBit high claimed
    have read : level = levelOf s.boundary.drives s.boundary.nextInput := by
      unfold State.nextInput
      rw [boundary_lineIn]
      rfl
    have detects : counting = s.boundary.trunk.state.countsStuck := by
      dsimp only [counting]
      cases s.boundary.trunk.state <;> rfl
    have same : bit = s.boundary.boundaryEvents :=
      funext fun u => (congrArg (u.lineEvents counting s.boundary.drives) read).trans
        (congrArg (fun c => u.lineEvents c s.boundary.drives (levelOf s.boundary.drives s.boundary.nextInput)) detects)
    rw [same]
    exact ⟨fun h => by rw [step_beat empty high free h, lineBit_beat], step_tick empty high free⟩
  · intro u counting drives level high after goes row into quiet payload due
    refine ⟨offline_bit, settling_bit, idle_bit, fun c e d => arbitrating_bit high e d, fun f p e => transmitting_bit e,
      fun g st limit n e => ?_, fun r e => ⟨receiving_arbitration_bit e, receiving_malformed_bit e, receiving_gap_bit e, ?_⟩,
      fun x n e => replyWindow_bit e, fun x p e => replySending_bit e, fun n e => resetting_bit e, fault_bit⟩
    · obtain ⟨start, counted, expired⟩ := answerWait_bit (counting := counting) (drives := drives) (level := level) e
      exact ⟨start, counted, fun l q => ⟨_, expired l q⟩⟩
    · intro n v left sound inside
      exact ⟨receiving_data_bit e left sound inside,
        fun stop t taken x stands => receiving_stop_bit e high left sound inside stop taken stands⟩

end Sys2Proof.Machine
end
